-- ==== Sys2Proof/Word.lean ====
section
/-! DEFINITION. The words of the Esord E4: registers, addresses, bytes, and the sparse table type. -/

namespace Sys2Proof

/-- A v register, an instruction word or a literal (R124, R134). -/
abbrev Word := BitVec 32
/-- A virtual address, a program counter or a 64-bit register (R124, R143). -/
abbrev Addr := BitVec 64
/-- One byte of storage. -/
abbrev Byte := BitVec 8
/-- A six-bit operand field (R139). -/
abbrev Field := BitVec 6
/-- A table that lists only what differs from a default, keyed by number, keys rising. -/
abbrev Tab (α : Type) := List (Nat × α)

end Sys2Proof
end

