-- ==== Sys2Proof/Syntax.lean ====
section
/-! DEFINITION. The steps of the Esord E4: one constructor of `Instr` a row of spec/opcode_table.json. -/

namespace Sys2Proof

/-- The fields every device instruction word shares (R134): chain, uniform, guard, negate. -/
structure Pre where
  c : Bool
  u : Bool
  g : BitVec 3
  n : Bool
  deriving DecidableEq, Repr

/-- Form RRR of R139, with the literal of the next slot where one belongs to the word (R126, R141). -/
structure Rrr where
  pre : Pre
  d : Field
  a : Field
  b : Field
  lit : Option Word
  deriving DecidableEq, Repr

/-- Form RI of R139. -/
structure Ri where
  pre : Pre
  d : Field
  imm : BitVec 12
  deriving DecidableEq, Repr

/-- Form BR of R139, with BRA's reconvergence literal (R218). -/
structure Br where
  pre : Pre
  off : BitVec 18
  lit : Option Word
  deriving DecidableEq, Repr

/-- Form CF of R139: demand N/8 − 1, link granule G/8, the target pair of CALLI, CALL's literal. -/
structure Cf where
  pre : Pre
  n : BitVec 3
  g : BitVec 3
  a : Field
  z : Field
  lit : Option Word
  deriving DecidableEq, Repr

/-- Form PC of R139: condition, predicate destination, A and B. -/
structure Pc where
  pre : Pre
  cond : BitVec 3
  pd : BitVec 3
  a : Field
  b : Field
  lit : Option Word
  deriving DecidableEq, Repr

/-- A Fold command: the hart whose csrw to efcmd carried it and the physical address of its 64-byte block (R330). -/
structure Cmd where
  hart : Nat
  blk : Nat
  deriving DecidableEq, Repr

/-- The base-core registers the spec has software write (R327, R330, R339, R372). -/
inductive Csr | efcmd | mip | sip | mie | sie | mideleg | medeleg | satp | mtvec | stvec | mstatus
  deriving DecidableEq, Repr

/-- csrw, csrs and csrc. -/
inductive CsrOp | write | set | clear
  deriving DecidableEq, Repr

/-- The operand of a csrw, csrs or csrc, and the general register that receives what the register held. -/
structure CsrArg where
  value : Addr
  rd : BitVec 5 := 0
  deriving DecidableEq, Repr

/-- Whose operations a Gleaner starts (R287): a core's router port; a die's UALink port, with the size and the rights (bit 0 write,
bit 1 reduce) that the peer gives of the window; a user-mode queue. -/
inductive Gleaner
  | router (core : Nat)
  | ualink (die port size : Nat) (rights : BitVec 2)
  | queue (queue : Nat)
  deriving DecidableEq, Repr

/-- What the storage code made of the data of one access (R427, R428); the last two are of a copy in an L1, an L2 or an LLC data array. -/
inductive Ecc | clean | corrected | bad | cacheCorrected | cacheBad
  deriving DecidableEq, Repr

/-- Whether the code could not correct what it found. -/
def Ecc.failed (e : Ecc) : Bool := e == .bad || e == .cacheBad
/-- Whether it found it in a cache. -/
def Ecc.inCache (e : Ecc) : Bool := e == .cacheCorrected || e == .cacheBad

/-- A hart or a die's translation unit, to which an invalidation goes (R334). -/
inductive Participant
  | hart (h : Nat)
  | unit (die : Nat)
  deriving DecidableEq, Repr

/-- A peer's write or atomic at a receiving window (R341, R342), of chunk `chunk` of the peer's operation `op`: `aop` is none for plain bytes,
`some (0, w)` for 16-byte contributions of a fixed reduction of weight w, `some (n, k)` with n = 4 or 8 for a RED of width n and AOP k. A chunk that
spans several rows brings its further runs of bytes, by their offset, in `more` (R411). -/
structure PeerWrite where
  die : Nat
  port : Nat
  peer : Nat
  win : Nat
  off : Nat
  granted : Bool
  data : List Byte
  aop : Option (Nat × Int)
  op : Nat := 0
  chunk : Nat := 0
  more : List (Nat × List Byte) := []
  deriving DecidableEq, Repr

/-- A sensor sample (R431): temperatures in 0.125 °C units (R434), `overDraw` for a draw of a column above its allotment, or of a compute die
near the die's share (R14). -/
inductive Reading
  | column (col : Nat) (temps : List Nat) (overDraw : Bool)
  | die (die : Nat) (overDraw : Bool)
  | stack (die stack temp : Nat)
  deriving DecidableEq, Repr

/-- The links of the module (R430). -/
inductive Link
  | ucie (edge : Nat)
  | ualink (die port : Nat)
  | pcie (die : Nat)
  deriving DecidableEq, Repr

/-- A replay of a flit on a link (R430): `again` says that it is the flit that the link last replayed. -/
structure Replay where
  link : Link
  again : Bool := false
  deriving DecidableEq, Repr

/-- A signed firmware image (R438): its bytes, the public key it comes with, its signature, its security version and raise flag. -/
structure Image where
  bytes : List Byte := []
  key : List Byte := []
  sig : List Byte := []
  svn : Nat := 0
  raiseFlag : Bool := false
  deriving DecidableEq, Repr

/-- A bring-up step that failed (R436, R437). -/
structure BringupFail where
  step : Nat
  reason : Nat
  unit : Nat
  die : Nat
  deriving DecidableEq, Repr

/-- What a power-on finds (R436, R438): the image, none when there is no valid one; the bring-up step that fails, if any; the endpoints whose
PCIe link trains, by die; the UALink ports that do not come up in step 6, by die and port. -/
structure PowerOn where
  image : Option Image
  fail : Option BringupFail := none
  endpoints : List Nat := [0, 1, 2, 3]
  lost : List (Nat × Nat) := []
  deriving DecidableEq, Repr

/-- A base-core load or store (R118): virtual address, size in bytes, and the register or data. -/
structure HartAccess where
  hart : Nat
  va : Addr
  size : Nat
  store : Option Addr
  rd : BitVec 5
  deriving DecidableEq, Repr

/-- The steps of the part, one a row of the table: the device words first, then the base-core words and the
events, then the Fold commands and the rarer events. -/
inductive Instr
  /-- NOP (R142). -/
  | nop (w : Rrr)
  /-- IADD.i32 (R152). -/
  | iaddI32 (w : Rrr)
  /-- IADD.i64 (R152). -/
  | iaddI64 (w : Rrr)
  /-- ISUB.i32 (R152). -/
  | isubI32 (w : Rrr)
  /-- ISUB.i64 (R152). -/
  | isubI64 (w : Rrr)
  /-- IMUL.i32 (R152). -/
  | imulI32 (w : Rrr)
  /-- IMUL.i64 (R152). -/
  | imulI64 (w : Rrr)
  /-- IMULH.s32 (R152). -/
  | imulhS32 (w : Rrr)
  /-- IMULH.n32 (R152). -/
  | imulhN32 (w : Rrr)
  /-- IMULH.s64 (R152). -/
  | imulhS64 (w : Rrr)
  /-- IMULH.n64 (R152). -/
  | imulhN64 (w : Rrr)
  /-- IMAD.i32 (R152). -/
  | imadI32 (w : Rrr)
  /-- IMAD.i64 (R152). -/
  | imadI64 (w : Rrr)
  /-- IMIN.s32 (R152). -/
  | iminS32 (w : Rrr)
  /-- IMIN.n32 (R152). -/
  | iminN32 (w : Rrr)
  /-- IMIN.s64 (R152). -/
  | iminS64 (w : Rrr)
  /-- IMIN.n64 (R152). -/
  | iminN64 (w : Rrr)
  /-- IMAX.s32 (R152). -/
  | imaxS32 (w : Rrr)
  /-- IMAX.n32 (R152). -/
  | imaxN32 (w : Rrr)
  /-- IMAX.s64 (R152). -/
  | imaxS64 (w : Rrr)
  /-- IMAX.n64 (R152). -/
  | imaxN64 (w : Rrr)
  /-- IABS.s32 (R152). -/
  | iabsS32 (w : Rrr)
  /-- IABS.s64 (R152). -/
  | iabsS64 (w : Rrr)
  /-- INEG.i32 (R152). -/
  | inegI32 (w : Rrr)
  /-- INEG.i64 (R152). -/
  | inegI64 (w : Rrr)
  /-- IDIV.s32 (R154). -/
  | idivS32 (w : Rrr)
  /-- IDIV.n32 (R154). -/
  | idivN32 (w : Rrr)
  /-- IDIV.s64 (R154). -/
  | idivS64 (w : Rrr)
  /-- IDIV.n64 (R154). -/
  | idivN64 (w : Rrr)
  /-- IREM.s32 (R154). -/
  | iremS32 (w : Rrr)
  /-- IREM.n32 (R154). -/
  | iremN32 (w : Rrr)
  /-- IREM.s64 (R154). -/
  | iremS64 (w : Rrr)
  /-- IREM.n64 (R154). -/
  | iremN64 (w : Rrr)
  /-- IADDS.s32 (R153). -/
  | iaddsS32 (w : Rrr)
  /-- ISUBS.s32 (R153). -/
  | isubsS32 (w : Rrr)
  /-- ISAD.n32 (R152). -/
  | isadN32 (w : Rrr)
  /-- IDP4.s8 (R152). -/
  | idp4S8 (w : Rrr)
  /-- AND (R155). -/
  | and (w : Rrr)
  /-- OR (R155). -/
  | or (w : Rrr)
  /-- XOR (R155). -/
  | xor (w : Rrr)
  /-- ANDN (R155). -/
  | andn (w : Rrr)
  /-- NOT (R155). -/
  | not (w : Rrr)
  /-- LOP3 (R156). -/
  | lop3 (w : Rrr)
  /-- SHL.i32 (R157). -/
  | shlI32 (w : Rrr)
  /-- SHL.i64 (R157). -/
  | shlI64 (w : Rrr)
  /-- SHR.i32 (R157). -/
  | shrI32 (w : Rrr)
  /-- SHR.i64 (R157). -/
  | shrI64 (w : Rrr)
  /-- SAR.i32 (R157). -/
  | sarI32 (w : Rrr)
  /-- SAR.i64 (R157). -/
  | sarI64 (w : Rrr)
  /-- ROTL.i32 (R157). -/
  | rotlI32 (w : Rrr)
  /-- ROTL.i64 (R157). -/
  | rotlI64 (w : Rrr)
  /-- SHF (R157). -/
  | shf (w : Rrr)
  /-- POPC.i32 (R158). -/
  | popcI32 (w : Rrr)
  /-- POPC.i64 (R158). -/
  | popcI64 (w : Rrr)
  /-- CLZ.i32 (R158). -/
  | clzI32 (w : Rrr)
  /-- CLZ.i64 (R158). -/
  | clzI64 (w : Rrr)
  /-- CTZ.i32 (R158). -/
  | ctzI32 (w : Rrr)
  /-- CTZ.i64 (R158). -/
  | ctzI64 (w : Rrr)
  /-- BREV (R158). -/
  | brev (w : Rrr)
  /-- BFE (R159). -/
  | bfe (w : Rrr)
  /-- BFI (R159). -/
  | bfi (w : Rrr)
  /-- AND.i64 (R155). -/
  | andI64 (w : Rrr)
  /-- OR.i64 (R155). -/
  | orI64 (w : Rrr)
  /-- XOR.i64 (R155). -/
  | xorI64 (w : Rrr)
  /-- ISETP.s32 (R160). -/
  | isetpS32 (w : Pc)
  /-- ISETP.n32 (R160). -/
  | isetpN32 (w : Pc)
  /-- ISETP.s64 (R160). -/
  | isetpS64 (w : Pc)
  /-- ISETP.n64 (R160). -/
  | isetpN64 (w : Pc)
  /-- FSETP (R160). -/
  | fsetp (w : Pc)
  /-- PLOP (R161). -/
  | plop (w : Rrr)
  /-- SEL (R162). -/
  | sel (w : Rrr)
  /-- PMOV (R163). -/
  | pmov (w : Rrr)
  /-- VOTE (R165). -/
  | vote (w : Rrr)
  /-- FINDM.i32 (R166). -/
  | findmI32 (w : Rrr)
  /-- FINDM.i64 (R166). -/
  | findmI64 (w : Rrr)
  /-- ELECT (R167). -/
  | elect (w : Rrr)
  /-- MOV (R168). -/
  | mov (w : Rrr)
  /-- MOVK (R169). -/
  | movk (w : Ri)
  /-- MOVI (R169). -/
  | movi (w : Ri)
  /-- MOVH (R170). -/
  | movh (w : Rrr)
  /-- GSR (R171). -/
  | gsr (w : Ri)
  /-- SSR (R171). -/
  | ssr (w : Ri)
  /-- MOVD (R168). -/
  | movd (w : Rrr)
  /-- FADD (R177). -/
  | fadd (w : Rrr)
  /-- FSUB (R177). -/
  | fsub (w : Rrr)
  /-- FMUL (R177). -/
  | fmul (w : Rrr)
  /-- FFMA (R177). -/
  | ffma (w : Rrr)
  /-- FMIN (R178). -/
  | fmin (w : Rrr)
  /-- FMAX (R178). -/
  | fmax (w : Rrr)
  /-- FABS (R179). -/
  | fabs (w : Rrr)
  /-- FNEG (R179). -/
  | fneg (w : Rrr)
  /-- FRND (R180). -/
  | frnd (w : Rrr)
  /-- HADD2 (R181). -/
  | hadd2 (w : Rrr)
  /-- HMUL2 (R181). -/
  | hmul2 (w : Rrr)
  /-- HFMA2 (R181). -/
  | hfma2 (w : Rrr)
  /-- HMIN2 (R181). -/
  | hmin2 (w : Rrr)
  /-- HMAX2 (R181). -/
  | hmax2 (w : Rrr)
  /-- BADD2 (R181). -/
  | badd2 (w : Rrr)
  /-- BMUL2 (R181). -/
  | bmul2 (w : Rrr)
  /-- BFMA2 (R181). -/
  | bfma2 (w : Rrr)
  /-- FRCP (R182). -/
  | frcp (w : Rrr)
  /-- FRSQ (R182). -/
  | frsq (w : Rrr)
  /-- FSQRT (R182). -/
  | fsqrt (w : Rrr)
  /-- FEXP2 (R182). -/
  | fexp2 (w : Rrr)
  /-- FLOG2 (R182). -/
  | flog2 (w : Rrr)
  /-- FSIN (R182). -/
  | fsin (w : Rrr)
  /-- FCOS (R182). -/
  | fcos (w : Rrr)
  /-- FTANH (R182). -/
  | ftanh (w : Rrr)
  /-- FDIV (R182). -/
  | fdiv (w : Rrr)
  /-- F2I (R183). -/
  | f2i (w : Rrr)
  /-- I2F (R184). -/
  | i2f (w : Rrr)
  /-- F2H (R185). -/
  | f2h (w : Rrr)
  /-- H2F (R185). -/
  | h2f (w : Rrr)
  /-- F2Q (R190). -/
  | f2q (w : Rrr)
  /-- Q2F (R190). -/
  | q2f (w : Rrr)
  /-- FSCL (R186). -/
  | fscl (w : Rrr)
  /-- FCLS (R187). -/
  | fcls (w : Rrr)
  /-- FXCVT (R188). -/
  | fxcvt (w : Rrr)
  /-- FMXS (R189). -/
  | fmxs (w : Rrr)
  /-- SHFLI (R193). -/
  | shfli (w : Rrr)
  /-- SHFLU (R193). -/
  | shflu (w : Rrr)
  /-- SHFLD (R193). -/
  | shfld (w : Rrr)
  /-- SHFLX (R193). -/
  | shflx (w : Rrr)
  /-- GRADD.i32 (R194). -/
  | graddI32 (w : Rrr)
  /-- GRADD.f32 (R195). -/
  | graddF32 (w : Rrr)
  /-- GRMIN.s32 (R194). -/
  | grminS32 (w : Rrr)
  /-- GRMAX.s32 (R194). -/
  | grmaxS32 (w : Rrr)
  /-- GSCAN.i32 (R194). -/
  | gscanI32 (w : Rrr)
  /-- CXCH.i64 (R196). -/
  | cxchI64 (w : Rrr)
  /-- CXCH.i32 (R196). -/
  | cxchI32 (w : Rrr)
  /-- MRNK.i64 (R197). -/
  | mrnkI64 (w : Rrr)
  /-- LD.b8 (R202). -/
  | ldB8 (w : Rrr)
  /-- LD.s8 (R202). -/
  | ldS8 (w : Rrr)
  /-- LD.b16 (R202). -/
  | ldB16 (w : Rrr)
  /-- LD.s16 (R202). -/
  | ldS16 (w : Rrr)
  /-- LD.b32 (R202). -/
  | ldB32 (w : Rrr)
  /-- LD.b64 (R202). -/
  | ldB64 (w : Rrr)
  /-- LD.b128 (R202). -/
  | ldB128 (w : Rrr)
  /-- ST.b8 (R203). -/
  | stB8 (w : Rrr)
  /-- ST.b16 (R203). -/
  | stB16 (w : Rrr)
  /-- ST.b32 (R203). -/
  | stB32 (w : Rrr)
  /-- ST.b64 (R203). -/
  | stB64 (w : Rrr)
  /-- ST.b128 (R203). -/
  | stB128 (w : Rrr)
  /-- LDT (R204). -/
  | ldt (w : Rrr)
  /-- STT (R204). -/
  | stt (w : Rrr)
  /-- ATOM (R206). -/
  | atom (w : Rrr)
  /-- ATOM64 (R206). -/
  | atom64 (w : Rrr)
  /-- ACAS (R207). -/
  | acas (w : Rrr)
  /-- ACAS64 (R207). -/
  | acas64 (w : Rrr)
  /-- RED (R208). -/
  | red (w : Rrr)
  /-- RED64 (R208). -/
  | red64 (w : Rrr)
  /-- AFADD (R209). -/
  | afadd (w : Rrr)
  /-- PREF (R211). -/
  | pref (w : Rrr)
  /-- SYNC (R116). -/
  | sync (w : Rrr)
  /-- MWATCH (R216). -/
  | mwatch (w : Rrr)
  /-- MWAIT (R217). -/
  | mwait (w : Rrr)
  /-- CWB (R213). -/
  | cwb (w : Rrr)
  /-- CINV (R214). -/
  | cinv (w : Rrr)
  /-- BRA (R219). -/
  | bra (w : Br)
  /-- BRX (R221). -/
  | brx (w : Br)
  /-- BRI (R220). -/
  | bri (w : Rrr)
  /-- CALL (R222). -/
  | call (w : Cf)
  /-- CALLI (R222). -/
  | calli (w : Cf)
  /-- RET (R223). -/
  | ret (w : Rrr)
  /-- UNWIND (R224). -/
  | unwind (w : Rrr)
  /-- FRSZ (R225). -/
  | frsz (w : Rrr)
  /-- EXIT (R226). -/
  | exit (w : Rrr)
  /-- YIELD (R227). -/
  | yield (w : Rrr)
  /-- SLEEP (R228). -/
  | sleep (w : Rrr)
  /-- BARA (R230). -/
  | bara (w : Rrr)
  /-- BARW (R230). -/
  | barw (w : Rrr)
  /-- BAR (R230). -/
  | bar (w : Rrr)
  /-- GSYNC (R231). -/
  | gsync (w : Rrr)
  /-- KDECL (R236). -/
  | kdecl (w : Rrr)
  /-- KSIGN (R237). -/
  | ksign (w : Rrr)
  /-- KWAIT (R238). -/
  | kwait (w : Rrr)
  /-- KRST (R239). -/
  | krst (w : Rrr)
  /-- MRES (R244). -/
  | mres (w : Rrr)
  /-- MREL (R246). -/
  | mrel (w : Rrr)
  /-- MMA.mxf4 (R251). -/
  | mmaMxf4 (w : Rrr)
  /-- MMA.mxf8 (R251). -/
  | mmaMxf8 (w : Rrr)
  /-- MMA.fp8 (R251). -/
  | mmaFp8 (w : Rrr)
  /-- MMA.i8 (R251). -/
  | mmaI8 (w : Rrr)
  /-- MMA.ts8i (R251). -/
  | mmaTs8i (w : Rrr)
  /-- MMA.ts8e (R251). -/
  | mmaTs8e (w : Rrr)
  /-- MMA.bf16 (R251). -/
  | mmaBf16 (w : Rrr)
  /-- MMA.f16 (R251). -/
  | mmaF16 (w : Rrr)
  /-- AZERO (R262). -/
  | azero (w : Rrr)
  /-- ANORM (R263). -/
  | anorm (w : Rrr)
  /-- ASCL (R264). -/
  | ascl (w : Rrr)
  /-- AREAD (R265). -/
  | aread (w : Rrr)
  /-- AWRITE (R266). -/
  | awrite (w : Rrr)
  /-- AEXP (R267). -/
  | aexp (w : Rrr)
  /-- ASTR (R269). -/
  | astr (w : Rrr)
  /-- AMOV (R268). -/
  | amov (w : Rrr)
  /-- XCOPY (R293). -/
  | xcopy (w : Rrr)
  /-- XCOLL (R293). -/
  | xcoll (w : Rrr)
  /-- XQPOST (R294). -/
  | xqpost (w : Rrr)
  /-- HWAIT (R296). -/
  | hwait (w : Rrr)
  /-- HTEST (R296). -/
  | htest (w : Rrr)
  /-- HSTAT (R296). -/
  | hstat (w : Rrr)
  /-- HCAN (R296). -/
  | hcan (w : Rrr)
  /-- HDET (R296). -/
  | hdet (w : Rrr)
  /-- HPRI (R296). -/
  | hpri (w : Rrr)
  /-- HADOPT (R296). -/
  | hadopt (w : Rrr)
  /-- TDEF (R297). -/
  | tdef (w : Rrr)
  /-- TSET (R297). -/
  | tset (w : Rrr)
  /-- TQRY (R297). -/
  | tqry (w : Rrr)
  /-- LAUNCH (R319). -/
  | launch (w : Rrr)
  /-- DEPDEC (R320). -/
  | depdec (w : Rrr)
  /-- SLYLD (R321). -/
  | slyld (w : Rrr)
  /-- BUDGT (R322). -/
  | budgt (w : Rrr)
  /-- PTRAP (R323). -/
  | ptrap (w : Rrr)
  /-- PSTAT (R324). -/
  | pstat (w : Rrr)
  /-- TRAP (R376). -/
  | trap (w : Ri)
  /-- RTE (R377). -/
  | rte (w : Rrr)
  /-- GTR (R378). -/
  | gtr (w : Rrr)
  /-- BKPT (R376). -/
  | bkpt (w : Rrr)
  /-- SYSC (R337). -/
  | sysc (w : Ri)
  /-- UNASSIGNED_OPCODE (R381): Issue of a word whose opcode is unassigned raises ILLEG SUB 0x01. -/
  | unassignedOpcode (op : BitVec 8) (w : Rrr)
  /-- ILLEGAL_INSTRUCTION_EXCEPTION (R326): A custom-0 base-core encoding outside the table, or eginv or eginvw in U-mode, raises the illegal-instruction exception. -/
  | illegalInstructionException (w : Word)
  /-- edisp (R328): Base-core launch of a slice, with argument stores. -/
  | edisp (rd rs1 rs2 : BitVec 5)
  /-- ejoin (R329): Base-core wait for a slice's completion, returning its first cause. -/
  | ejoin (rd rs1 : BitVec 5)
  /-- eginv (R334): Broadcasts a translation invalidation by range and ASID. -/
  | eginv (rs1 rs2 : BitVec 5)
  /-- eginvw (R334): Waits for every acknowledgement of this hart's earlier eginv. -/
  | eginvw
  /-- LOAD_DATA_RETURN (R401): A load's data returns, is checked and written. -/
  | loadDataReturn (load : Nat) (ecc : Ecc)
  /-- STORE_MERGE (R402): A store, RED or atomic is merged at its place of execution. -/
  | storeMerge (store : Nat) (ecc : Ecc)
  /-- MMA_START (R256): An engine starts a queued MMA, checking its tiles and charging its cycles. -/
  | mmaStart (core engine : Nat)
  /-- MMA_ROW (R256): An engine finishes computing and writing one tile row. -/
  | mmaRow (core engine : Nat)
  /-- COPY_START (R408): A Gleaner starts a copy operation after its start checks. -/
  | copyStart (gleaner : Gleaner)
  /-- COPY_CHUNK (R285): A Gleaner finishes one 2 KiB chunk of a copy or ASTR. -/
  | copyChunk (op : Nat)
  /-- TEAM_ADMIT (R308): A core pulls and admits a team, or a gang of cluster teams. -/
  | teamAdmit (core : Nat)
  /-- FRAME_GRANT (R34): A waiting frame request is granted when granules and records free. -/
  | frameGrant (core part : Nat)
  /-- GROUP_PROMOTE (R43): An eligible parked group is promoted into the active set. -/
  | groupPromote (core part : Nat)
  /-- QUEUE_TAKE (R291): A queue Gleaner takes the next ticketed packet and advances RIDX. -/
  | queueTake (queue : Nat)
  /-- STILE_LAUNCH (R301): Fold takes a stile-line launch request once a slice entry is free. -/
  | stileLaunch (line : Nat)
  /-- MRES_GRANT (R245): A waiting reservation request is granted. -/
  | mresGrant (core : Nat)
  /-- MREL_RELEASE (R246): A waiting MREL releases engines and window. -/
  | mrelRelease (team : Nat)
  /-- WALK_RETURN (R332): A translation walk returns its result. -/
  | walkReturn (die walk : Nat)
  /-- ASYNC_TRAP_TAKE (R362): A pending asynchronous trap is taken at a clause boundary. -/
  | asyncTrapTake (team : Nat)
  /-- CREATE (R331): Fold command that makes a context. -/
  | create (c : Cmd)
  /-- DESTROY (R331): Fold command that resets and frees a context. -/
  | destroy (c : Cmd)
  /-- PREEMPT (R314): Fold command that begins draining a context. -/
  | preempt (c : Cmd)
  /-- RESTORE (R331): Fold command that reverses pre-emption. -/
  | restore (c : Cmd)
  /-- STILE (R331): Fold command that registers a stile line. -/
  | stile (c : Cmd)
  /-- QUEUE (R413): Fold command that checks and registers a user-mode queue. -/
  | queue (c : Cmd)
  /-- PWIN (R331): Fold command that opens a receiving window. -/
  | pwin (c : Cmd)
  /-- PGRANT (R331): Fold command that grants XCOLL to a peer's window. -/
  | pgrant (c : Cmd)
  /-- ROUTE (R331): Fold command that routes a die's traffic to a peer through a port. -/
  | route (c : Cmd)
  /-- POOL (R331): Fold command that sets the class pools. -/
  | pool (c : Cmd)
  /-- SVCRING (R331): Fold command that registers a column's service ring. -/
  | svcring (c : Cmd)
  /-- ATTEST (R440): Fold command that writes a signed attestation report. -/
  | attest (c : Cmd)
  /-- CERT (R440): Fold command that writes the device or alias certificate. -/
  | cert (c : Cmd)
  /-- ERRSTAT (R440): Fold command that writes the six error counters. -/
  | errstat (c : Cmd)
  /-- DUMPCLR (R440): Fold command that clears the dump region's state. -/
  | dumpclr (c : Cmd)
  /-- RESET (R435): Fold command that performs a compute reset. -/
  | reset (c : Cmd)
  /-- REGISTER_WRITE (R339): Write to a register without its own row, such as clearing ESVC or EFLT in sip; `rd` receives its old value. -/
  | registerWrite (hart : Nat) (csr : Csr) (op : CsrOp) (v : CsrArg)
  /-- CLUSTER_PLACE_TIMEOUT (R308): After 100 us ranked first, the Fold reserves a rectangle for a cluster. -/
  | clusterPlaceTimeout (slice : Word) (core : Nat)
  /-- TEDDER_WAIT_TIMEOUT (R37): A frame request has waited 65,536 cycles and the Tedder acts. -/
  | tedderWaitTimeout (core part lane : Nat)
  /-- XCOLL_ACK (R293): A peer's acknowledgement of a collective's writes arrives. -/
  | xcollAck (op chunks : Nat) (fail : Option (Nat × Nat))
  /-- UALINK_INBOUND_WRITE (R342): A peer's write or atomic arrives at a receiving window. -/
  | ualinkInboundWrite (w : PeerWrite)
  /-- PCIE_INBOUND_WRITE (R119): An inbound PCIe write is accepted into device memory. -/
  | pcieInboundWrite (die : Nat) (bar0 : Nat) (data : List Byte) (noSnoop : Bool)
  /-- PCIE_INBOUND_READ (R405): An inbound PCIe read is served, or aborted on a bad block. -/
  | pcieInboundRead (die bar off len : Nat) (noSnoop : Bool)
  /-- MWAIT_BOUND_EXPIRY (R217): An MWAIT's bound expires and it returns 00b. -/
  | mwaitBoundExpiry (team tidx : Nat)
  /-- SLEEP_EXPIRY (R228): A SLEEP interval ends. -/
  | sleepExpiry (team gidx : Nat)
  /-- INVALIDATION_RECEIVE (R334): A participant receives an invalidation and removes entries. -/
  | invalidationReceive (who : Participant) (inv : Nat)
  /-- INVALIDATION_ACK (R335): A participant acknowledges an invalidation. -/
  | invalidationAck (who : Participant) (inv : Nat)
  /-- SYSC_REPLY (R339): The device sees STATUS 1, returns ARGS and frees the record. -/
  | syscReply (column : Nat)
  /-- SYSVIEW_LOAD_COMPLETION (R117): A system-view load's completion returns. -/
  | sysviewLoadCompletion (load : Nat) (data : Option (List Byte))
  /-- SYSVIEW_LOAD_TIMEOUT (R405): A system-view load times out after 50 ms. -/
  | sysviewLoadTimeout (load : Nat)
  /-- PCIE_STORE_REFUSED (R405): A posted system-view store is refused. -/
  | pcieStoreRefused (store : Nat)
  /-- DEADLOCK_TIMEOUT (R418): A team or cluster has been stuck for 1 ms. -/
  | deadlockTimeout (team : Nat)
  /-- GRANT_LEVEL_STEP (R316): The column governor moves the grant level one step. -/
  | grantLevelStep (column : Nat)
  /-- SENSOR_SAMPLE (R431): The governor compares its sensor readings with the limits. -/
  | sensorSample (reading : Reading)
  /-- SUPPLY_FAULT_TIMEOUT (R431): A rail is outside its band for 100 us. -/
  | supplyFaultTimeout (die rail : Nat)
  /-- WATCHDOG_EXPIRY (R432): The firmware watchdog expires. -/
  | watchdogExpiry (die unit : Nat)
  /-- HBM_SCRUB (R429): Firmware scrubs HBM check blocks once every 24 hours. -/
  | hbmScrub (block : Nat) (ecc : Ecc)
  /-- LINK_REPLAY (R430): A damaged flit is detected and replayed. -/
  | linkReplay (r : Replay)
  /-- LINK_RETRAIN_EXPIRY (R430): A retrain attempt ends; at the limit the link is lost. -/
  | linkRetrainExpiry (link : Link) (up : Bool)
  /-- PCIE_LINK_DOWN (R430): A PCIe port's link goes down. -/
  | pcieLinkDown (die : Nat)
  /-- DRAIN_TIMEOUT (R314): The drain timer expires and the context is swapped out. -/
  | drainTimeout (ctx : Nat)
  /-- SWAP_TIMEOUT (R422): The swap timer expires. -/
  | swapTimeout (ctx : Nat)
  /-- TEAM_SWAP_OUT (R312): The Fold checkpoints and swaps a waiting team out. -/
  | teamSwapOut (team : Nat)
  /-- TEAM_SWAP_IN (R313): An eligible swapped-out team is readmitted. -/
  | teamSwapIn (team core : Nat)
  /-- COLUMN_CLASS_MOVE (R315): The Fold moves an idle column between class pools. -/
  | columnClassMove (column cls : Nat)
  /-- HOT_RESET (R435): A hot reset of die 0's port requests a compute reset. -/
  | hotReset
  /-- POWER_ON_RESET (R436): Power-on reset runs bring-up: the firmware image that is read, if any, and a step after the first that fails. -/
  | powerOnReset (result : PowerOn)
  /-- BASE_CORE_ACCESS (R118): A base-core load or store to device memory takes its place in T, may launch through a stile line, and faults on a bad block. -/
  | baseCoreAccess (a : HartAccess)
  /-- UALINK_INBOUND_READ (R341): An inbound read from a UALink peer arrives and is refused. -/
  | ualinkInboundRead (die port peer win off len : Nat)
  /-- WRITE_BACK_COMPLETE (R213): The write-backs or removals of a CWB or CINV complete at HBM and the thread issues again. -/
  | writeBackComplete (id : Nat)
  /-- SYSVIEW_STORE_ACCEPTED (R116): The host's PCIe completer accepts a posted system-view store, which completes it for SYNC.system. -/
  | sysviewStoreAccepted (store : Nat)
  /-- CLOCK_CHANGE_DONE (R315): A column's clock change after a pool move ends and the column admits teams again. -/
  | clockChangeDone (column : Nat)
  /-- POWER_LOSS (R434): The module loses power and HBM contents, the dump region included, are lost. -/
  | powerLoss
  deriving DecidableEq, Repr

end Sys2Proof
end

