-- ==== Sys2Proof/Machine/OpSpec.lean ====
section
/-! DEFINITION. What the encoding tables say of a device word: its pipe and rate, its fields, its literal, the registers it names. -/

namespace Sys2Proof.Machine

/-- A device word taken apart (R134): opcode, prefix, the three six-bit fields, and its literal. -/
structure Dev where
  op : BitVec 8
  pre : Pre
  d : Field
  a : Field
  b : Field
  lit : Option Word
  deriving DecidableEq, Repr

/-- The pipes of R138. NOP and unassigned words use none (R142, R381). -/
inductive Pipe | none | int | fma | sfu | lsu | ctl | xu
  deriving DecidableEq, Repr

/-- How an opcode takes the literal of the next slot (R126, R141, R218). -/
inductive LitRole | none | asB | required | rejoin
  deriving DecidableEq, Repr

/-- What the encoding tables make of one six-bit field. -/
inductive FieldKind
  | zero                                  -- must be zero
  | src (n : Nat)                         -- first of n v registers read
  | dst (n : Nat)                         -- first of n v registers written
  | upd (n : Nat)                         -- read and written
  | code (mask : Nat) (bad : List Nat)    -- a code in `mask`, other bits zero, the codes `bad` reserved
  | predW                                 -- [2:0] a predicate written (7 discards), [5:3] zero
  | kRd | kWr                             -- [2:0] a convergence register, [5:3] zero
  | any                                   -- any value: a tile number, predicate codes, an immediate
  deriving DecidableEq, Repr

/-- The row of the encoding summaries for one opcode (R173, R198, R241, R270, R298, R318, R375). -/
structure OpRow where
  pipe : Pipe
  cost : Nat
  d : FieldKind
  a : FieldKind
  b : FieldKind
  lit : LitRole
  deriving DecidableEq, Repr

/-- One run of v registers that a word names; `sub` is BADREG's sub-cause when the run is misplaced (R385). -/
structure RegUse where
  reg : Nat
  span : Nat
  rd : Bool
  wr : Bool
  sub : Nat
  deriving DecidableEq, Repr

/-- Which completion flag a word counts on (R131, R250, R269, R293). -/
inductive FlagUse | none | setA | setB | own (f : Nat)
  deriving DecidableEq, Repr

/-- Everything the encoding says of one word. -/
structure OpSpec where
  pipe : Pipe
  cost : Nat
  illeg : Option Nat
  litMissing : Bool
  regs : List RegUse
  predsRd : List Nat
  predsWr : List Nat
  ksRd : List Nat
  ksWr : List Nat
  flag : FlagUse
  flagsRd : Bool
  deriving DecidableEq, Repr

open FieldKind LitRole in
/-- Three-operand rows whose B may be a literal. -/
def rowB (p : Pipe) (d a b : FieldKind) (cost : Nat := 1) : OpRow := ⟨p, cost, d, a, b, asB⟩
open FieldKind LitRole in
/-- Rows without a literal. -/
def rowN (p : Pipe) (d a b : FieldKind) (cost : Nat := 1) : OpRow := ⟨p, cost, d, a, b, .none⟩
open FieldKind LitRole in
/-- Rows whose literal is required. -/
def rowL (p : Pipe) (d a b : FieldKind) (cost : Nat := 1) : OpRow := ⟨p, cost, d, a, b, required⟩
/-- The row of NOP and of an unassigned opcode: no field is looked at (R142, R381). -/
def rowAny : OpRow := ⟨.none, 1, .any, .any, .any, .none⟩

section
open FieldKind

/-- Integer arithmetic, logic, shifts and bit fields, 0x00–0x3F (R151, R173). -/
def rowsInt : List (List OpRow) :=
  let i32 := rowB .int (dst 1) (src 1) (src 1)
  let i64 := rowB .int (dst 2) (src 2) (src 2)
  let h64 := rowB .int (dst 2) (src 2) (src 2) 2
  let q32 := rowB .int (dst 1) (src 1) (src 1) 4
  let q64 := rowB .int (dst 2) (src 2) (src 2) 4
  let u32 := rowN .int (dst 1) (src 1) zero
  let u64 := rowN .int (dst 2) (src 2) zero
  let r32 := rowB .int (upd 1) (src 1) (src 1)
  let c64 := rowN .int (dst 1) (src 2) zero
  [ [rowAny, i32, i64, i32, i64, i32, h64, i32, i32, h64, h64, r32, rowB .int (upd 2) (src 2) (src 2) 2, i32, i32, i64],
    [i64, i32, i32, i64, i64, u32, u64, u32, u64, q32, q32, q64, q64, q32, q32, q64],
    [q64, i32, i32, r32, r32, i32, i32, i32, i32, u32, rowL .int (upd 1) (src 1) (src 1), i32, i64, i32, i64, i32],
    [i64, i32, i64, rowB .int (dst 1) (src 2) (src 1), u32, c64, u32, c64, u32, c64, u32, i32, r32, i64, i64, i64] ]

/-- Compares, predicates, moves and floating point, 0x40–0x7F (R173, R176, R198). -/
def rowsMid : List (List OpRow) :=
  let cmp := rowB .int any (src 1) (src 1)
  let cmp64 := rowB .int any (src 2) (src 2)
  let f := rowB .fma (dst 1) (src 1) (src 1)
  let fu := rowB .fma (upd 1) (src 1) (src 1)
  let f1 := rowN .fma (dst 1) (src 1) zero
  let s1 := rowN .sfu (dst 1) (src 1) zero 4
  let c := fun m => rowN .fma (dst 1) (src 1) (code m [])
  [ [cmp, cmp, cmp64, cmp64, cmp, rowN .int any (code 15 []) (code 15 []), rowB .int (dst 1) (src 1) (src 1),
      rowB .int (dst 1) (src 1) (src 1), rowN .int any (code 15 []) (code 3 []), rowN .int (dst 1) (src 1) predW 2,
      rowN .int (dst 1) (src 2) predW 4, rowN .int (dst 1) zero predW, rowAny, rowAny, rowAny, rowAny],
    [rowB .int (dst 1) zero (src 1), rowN .int (upd 1) any any, rowN .int (dst 1) any any, rowN .int (dst 1) (src 1) zero,
      rowN .ctl any any any, rowN .ctl any any any, rowB .int (dst 2) zero (src 2), rowAny, f, f, f, fu, f, f, f1, f1],
    [c 3, f, f, fu, f, f, f, f, fu, s1, s1, s1, s1, s1, s1, s1],
    [s1, rowB .sfu (dst 1) (src 1) (src 1) 4, rowN .fma any (src 1) (code 15 []), rowN .fma (dst 1) any (code 15 []),
      rowN .fma (upd 1) (src 1) (code 3 []), c 3, rowL .fma (upd 1) (src 1) (src 1), rowL .fma (dst 1) (src 1) (src 1),
      f, f1, rowB .fma (dst 1) (src 4) (src 1) 2, rowN .fma (dst 1) (src 1) (code 7 [5, 6, 7]), rowAny, rowAny, rowAny, rowAny] ]

/-- Group, memory, control, frame and barrier words, 0x80–0xBF (R198, R201, R241). -/
def rowsMem : List (List OpRow) :=
  let sh := rowB .lsu (dst 1) (src 1) (src 1)
  let g1 := rowN .lsu (dst 1) (src 1) zero
  let ld := fun n c => rowB .lsu (dst n) (src 2) (src 1) c
  let st := fun n c => rowB .lsu (src n) (src 2) (src 1) c
  let z := rowN .ctl zero zero zero
  let zb := rowB .ctl zero zero (src 1)
  [ [sh, sh, sh, sh, g1, g1, g1, g1, rowN .lsu (dst 1) (src 1) (code 1 []), rowB .lsu (dst 2) (src 2) (src 1), sh,
      rowB .lsu (dst 1) (src 2) (src 1), rowAny, rowAny, rowAny, rowAny],
    [ld 1 1, ld 1 1, ld 1 1, ld 1 1, ld 1 1, ld 2 1, ld 4 2, st 1 1, st 1 1, st 1 1, st 2 1, st 4 2,
      rowL .lsu any any (src 1), rowL .lsu any any (src 1), rowL .lsu (dst 1) (src 2) (src 1) 2, rowL .lsu (dst 2) (src 2) (src 2) 2],
    [rowL .lsu (upd 1) (src 2) (src 1) 2, rowL .lsu (upd 2) (src 2) (src 2) 2, rowL .lsu zero (src 2) (src 1) 2,
      rowL .lsu zero (src 2) (src 2) 2, rowL .lsu (dst 1) (src 2) (src 1) 2, rowB .lsu (code 3 [3]) (src 2) (src 1),
      rowN .lsu zero zero (code 3 []), ld 1 1, rowB .lsu (dst 1) zero (src 1), rowB .lsu zero (src 2) (src 1),
      rowB .lsu zero (src 2) (src 1), rowAny, rowAny, rowAny, rowAny, rowAny],
    [⟨.ctl, 1, any, any, any, .rejoin⟩, rowN .ctl any any any, ⟨.ctl, 1, zero, src 2, zero, .rejoin⟩, rowL .ctl any zero zero,
      rowN .ctl any (src 2) zero, z, zb, zb, z, z, zb, rowAny, rowB .ctl (code 15 []) zero (src 1), rowN .ctl (code 15 []) zero zero,
      rowB .ctl (code 15 []) zero (src 1), rowN .ctl zero zero (code 1 [])] ]

/-- Convergence, matrix, accumulator, child-operation, launch and trap words, 0xC0–0xFF (R241, R270, R298, R318, R375). -/
def rowsHigh : List (List OpRow) :=
  let mma := rowL .xu (dst 1) (src 8) any
  let h1 := rowN .xu (dst 1) (src 1) zero
  let pz := rowN .xu predW (src 1) zero
  let cp := rowN .xu (dst 1) (src 2) (code 15 [12, 13, 14])
  [ [rowB .xu kWr zero (src 1), rowN .xu kWr zero zero, rowN .xu kRd zero zero, rowN .xu kWr zero zero, rowAny, rowAny, rowAny, rowAny,
      rowB .xu (dst 1) predW (src 1), rowN .xu zero zero zero, mma, mma, mma, mma, mma, mma],
    [mma, mma, rowL .xu zero zero zero, rowL .xu (dst 1) zero zero, rowL .xu zero zero (src 1), rowL .xu any (src 1) zero,
      rowL .xu any (src 1) zero, rowL .xu (dst 1) zero zero, rowL .xu (dst 1) (src 2) any, rowL .xu zero zero zero,
      rowAny, rowAny, rowAny, rowAny, rowAny, rowAny],
    [cp, cp, rowN .xu (dst 2) (src 2) (src 2), h1, pz, rowN .xu (dst 4) (src 1) zero, pz, rowN .xu zero (src 1) zero,
      rowB .xu zero (src 1) (src 1), h1, rowB .xu any (src 2) (src 1), rowN .xu any zero (code 3 [3]), rowN .xu (dst 4) any zero,
      rowAny, rowAny, rowAny],
    [rowN .xu (dst 1) (src 2) zero, rowB .xu (dst 1) zero (src 1), rowN .xu (dst 1) zero zero, rowN .xu (dst 2) zero (code 3 []),
      rowB .xu (dst 1) zero (src 1), rowB .xu (dst 2) zero (src 1), rowN .ctl (src 1) any any, rowN .ctl zero any (code 3 [3]),
      rowB .ctl (code 3 [2, 3]) zero (src 1), rowN .ctl zero zero zero, rowN .ctl any any any, rowAny, rowAny, rowAny, rowAny, rowAny] ]
end

/-- The row of opcode `op`. -/
def opRow (op : Nat) : OpRow :=
  ((rowsInt ++ rowsMid ++ rowsMem ++ rowsHigh).getD (op / 16) []).getD (op % 16) rowAny

/-- The unassigned opcodes of R381. -/
def unassigned (op : Nat) : Bool :=
  (0x4C ≤ op && op ≤ 0x4F) || op == 0x57 || (0x7C ≤ op && op ≤ 0x7F) || (0x8C ≤ op && op ≤ 0x8F) ||
  (0xAB ≤ op && op ≤ 0xAF) || op == 0xBB || (0xC4 ≤ op && op ≤ 0xC7) || (0xDA ≤ op && op ≤ 0xDF) ||
  (0xED ≤ op && op ≤ 0xEF) || (0xFB ≤ op && op ≤ 0xFF)

/-- The control transfers of R129. -/
def controlTransfer (op : Nat) : Bool :=
  [0xB0, 0xB1, 0xB2, 0xB3, 0xB4, 0xB5, 0xB6, 0xB8, 0xB9, 0xF7].contains op

/-- The words that R136 forbids with U = 1. -/
def neverUniform (op : Nat) : Bool :=
  (0x80 ≤ op && op ≤ 0x8B) || (0x48 ≤ op && op ≤ 0x4B) || op == 0xB1 || op == 0xC1 || (0xCA ≤ op && op ≤ 0xD1)

/-- Whether the slot after a word of opcode `op` with field `b` may hold its literal (R126, R141). -/
def takesLiteral (op : Nat) (b : Field) : Bool :=
  match (opRow op).lit with
  | .none => false
  | .asB => b == 0
  | .required | .rejoin => true

/-- Bits `hi` down to `lo` of a word. -/
def bits (w : Word) (hi lo : Nat) : Nat := w.toNat / 2 ^ lo % 2 ^ (hi + 1 - lo)

/-- The 12-bit immediate of form RI (R139). -/
def Dev.imm (v : Dev) : Nat := v.a.toNat * 64 + v.b.toNat

/-- The literal, or zero where there is none. -/
def Dev.lw (v : Dev) : Word := v.lit.getD 0

/-- The 64-bit special registers of R143. -/
def wideSpecial (n : Nat) : Bool := [0x010, 0x011, 0x012, 0x017, 0x019, 0x01A].contains n

/-- The special-register numbers of R143. -/
def isSpecial (n : Nat) : Bool := n ≤ 0x00E || (0x010 ≤ n && n ≤ 0x01A)

/-- Number of registers of an access code WD of R204. -/
def wdRegs (wd : Nat) : Nat := if wd = 6 then 4 else if wd = 5 then 2 else 1

/-- Bytes of the scale stream of an MMA opcode (R250, R255). -/
def scaleBytes (op : Nat) : Nat :=
  if op = 0xCA then 48 else if op = 0xCB then 24 else if op = 0xCE ∨ op = 0xCF then 12 else 0

/-- R255: the registers a scale stream occupies. -/
def scaleRegs (op bsel : Nat) : Nat := (bsel + scaleBytes op + 3) / 4

/-- The kind of field D where a code or a literal decides it. -/
def Dev.kindD (v : Dev) : FieldKind :=
  match v.op.toNat with
  | 0x48 => if v.b.toNat % 4 = 0 then .dst 4 else .predW
  | 0x54 => if wideSpecial v.imm then .dst 2 else .dst 1
  | 0x55 => if wideSpecial v.imm then .src 2 else .src 1
  | 0x72 => if v.b.toNat % 4 ≥ 2 then .dst 2 else .dst 1
  | 0x9C => .dst (wdRegs (bits v.lw 2 0))
  | 0x9D => .src (wdRegs (bits v.lw 2 0))
  | 0xD5 => if bits v.lw 10 9 = 2 then .dst 2 else .dst 1
  | 0xD6 => if bits v.lw 10 9 = 2 then .src 2 else .src 1
  | 0xFA => .upd 8
  | n => (opRow n).d

/-- The kind of field A where a code decides it. -/
def Dev.kindA (v : Dev) : FieldKind :=
  match v.op.toNat with
  | 0x73 => if v.b.toNat % 4 ≥ 2 then .src 2 else .src 1
  | 0xF7 => if v.b.toNat % 4 = 2 then .src 1 else .zero
  | n => (opRow n).a

/-- The kind of field B where a literal decides it. -/
def Dev.kindB (v : Dev) : FieldKind :=
  match v.op.toNat with
  | 0xD8 => match v.lit with
    | none => .any
    | some l => if bits l 10 9 = 0 then .zero else .src 1
  | n => if 0xCA ≤ n ∧ n ≤ 0xD1 then (if scaleBytes n = 0 then .zero else .any) else (opRow n).b

/-- Whether operand B is the literal (R141). -/
def Dev.litB (v : Dev) : Bool := (opRow v.op.toNat).lit == .asB && v.lit.isSome

/-- A field marked zero that is not (ILLEG 0x03). -/
def FieldKind.zeroBroken (k : FieldKind) (f : Field) : Bool :=
  match k with
  | .zero => f != 0
  | .code m _ => f.toNat % (m + 1) != f.toNat
  | .predW | .kRd | .kWr => f.toNat ≥ 8
  | _ => false

/-- A reserved code in a field (ILLEG 0x04). -/
def FieldKind.codeBroken (k : FieldKind) (f : Field) : Bool :=
  match k with
  | .code _ bad => bad.contains f.toNat
  | _ => false

/-- BADREG's sub-cause for a misplaced run of `n` registers (R385). -/
def spanSub (n : Nat) : Nat := if n = 2 then 2 else if n = 4 then 3 else if n = 8 then 4 else 1

/-- The registers a field names. -/
def FieldKind.uses (k : FieldKind) (f : Field) : List RegUse :=
  match k with
  | .src n => [⟨f.toNat, n, true, false, spanSub n⟩]
  | .dst n => [⟨f.toNat, n, false, true, spanSub n⟩]
  | .upd n => [⟨f.toNat, n, true, true, spanSub n⟩]
  | _ => []

/-- A predicate number as a list: 7 names none. -/
def predList (n : Nat) : List Nat := if n = 7 then [] else [n]

/-- R190: the greatest POS of a format, and whether the format code is defined. -/
def quantPosOk (fmt pos : Nat) : Bool := if fmt = 0 then pos ≤ 7 else fmt ≤ 4 && pos ≤ 3

/-- Reserved bits or codes in a required literal (ILLEG 0x05, R382). -/
def Dev.literalBroken (v : Dev) : Bool :=
  match v.lit with
  | none => false
  | some l =>
    match v.op.toNat with
    | 0x2A => bits l 31 8 != 0
    | 0x76 | 0x77 => bits l 31 8 != 0 || !quantPosOk (bits l 2 0) (bits l 7 3)
    | 0x9C => bits l 7 3 != 0 || bits l 2 0 == 7
    | 0x9D => bits l 7 3 != 0 || [1, 3, 7].contains (bits l 2 0)
    | 0x9E | 0x9F => bits l 7 4 != 0 || bits l 3 0 ≥ 9
    | 0xA0 | 0xA1 | 0xA4 => bits l 7 0 != 0
    | 0xA2 | 0xA3 => bits l 7 4 != 0 || bits l 3 0 ≥ 8
    | 0xD2 => bits l 31 21 != 0
    | 0xD3 | 0xD4 | 0xD7 => bits l 31 9 != 0
    | 0xD5 => bits l 31 11 != 0 || bits l 10 9 == 3
    | 0xD6 => bits l 31 11 != 0 || bits l 10 9 == 1 || bits l 10 9 == 3
    | 0xD8 => bits l 31 24 != 0 || (12 ≤ bits l 14 11 && bits l 14 11 ≤ 14) || bits l 10 9 == 3
    | 0xD9 => bits l 31 19 != 0
    | n => if 0xCA ≤ n ∧ n ≤ 0xD1 then
        bits l 31 12 != 0 || bits l 3 3 != 0 || (12 ≤ bits l 7 4 && bits l 7 4 ≤ 14) || (scaleBytes n == 0 && bits l 9 8 != 0)
      else false

/-- ILLEG sub-causes 0x01 to 0x06 that the word and its literal decide (R382); the lowest is the one reported (log 6). -/
def Dev.illeg (v : Dev) : Option Nat :=
  let n := v.op.toNat
  if n = 0 then none
  else if unassigned n then some 1
  else if v.pre.u && neverUniform n then some 2
  else if v.kindD.zeroBroken v.d || v.kindA.zeroBroken v.a || (!v.litB && v.kindB.zeroBroken v.b) ||
      (n == 0x45 && v.d.toNat / 8 % 4 == 3 && v.b != 0) then some 3
  else if v.kindD.codeBroken v.d || v.kindA.codeBroken v.a || v.kindB.codeBroken v.b then some 4
  else if v.literalBroken then some 5
  else if (n == 0x54 || n == 0x55) && !isSpecial v.imm then some 6
  else none

/-- The v registers a word names, in the order D, A, B (R139, R140). The link granule that CALL and CALLI copy, and v0–v7 that RET and
UNWIND copy, are named by no register field and do not count as read in R137's test (log 69). -/
def Dev.regUses (v : Dev) : List RegUse :=
  let n := v.op.toNat
  v.kindD.uses v.d ++ v.kindA.uses v.a ++
  (if v.litB then [] else v.kindB.uses v.b) ++
  (if scaleBytes n = 0 then [] else [⟨v.b.toNat, scaleRegs n (bits v.lw 9 8), true, false, 5⟩])

/-- The guard's predicate (R134). -/
def guardPred (p : Pre) : List Nat := if p.g = 0 then [] else [p.g.toNat - 1]

/-- The predicates a word reads besides its guard. -/
def Dev.predsRead (v : Dev) : List Nat :=
  match v.op.toNat with
  | 0x45 => predList (v.a.toNat % 8) ++ (if v.d.toNat / 8 % 4 = 3 then [] else predList (v.b.toNat % 8))
  | 0x47 => [0, 1, 2, 3, 4, 5, 6]
  | 0x48 => predList (v.a.toNat % 8)
  | 0xF9 | 0xF6 => []
  | _ => []

/-- The predicates a word writes, as far as its encoding tells. PMOV and CXCH take theirs from operand B: where that is a register, the encoding tells
none, and the chain test counts all of p0 to p6 as written, the model's choice beside R137 (log 69). -/
def Dev.predsWritten (v : Dev) : List Nat :=
  match v.op.toNat with
  | 0x40 | 0x41 | 0x42 | 0x43 | 0x44 | 0x45 => predList (v.d.toNat % 8)
  | 0x47 => match v.lit with
    | some m => [0, 1, 2, 3, 4, 5, 6].filter fun i => m.toNat / 2 ^ i % 2 = 1
    | none => [0, 1, 2, 3, 4, 5, 6]
  | 0x48 => if v.b.toNat % 4 = 0 then [] else predList (v.d.toNat % 8)
  | 0x49 | 0x4A | 0x4B => predList (v.b.toNat % 8)
  | 0x89 | 0x8A => match v.lit with
    | some m => predList (bits m 19 17)
    | none => [0, 1, 2, 3, 4, 5, 6]
  | 0xC8 => predList (v.a.toNat % 8)
  | 0xE4 | 0xE6 => predList (v.d.toNat % 8)
  | 0xF7 => [0, 1, 2, 3, 4, 5, 6]
  | _ => []

/-- Which flag a word counts on (R131, R137). -/
def Dev.flagUse (v : Dev) : FlagUse :=
  let n := v.op.toNat
  if (0x90 ≤ n ∧ n ≤ 0x96) ∨ n = 0x9C ∨ (0x9E ≤ n ∧ n ≤ 0xA1) ∨ n = 0xA4 ∨ n = 0xD5 ∨ n = 0xEC ∨ n = 0xF5 then .setA
  else if (0x97 ≤ n ∧ n ≤ 0x9B) ∨ n = 0x9D ∨ n = 0xA2 ∨ n = 0xA3 ∨ n = 0xD6 then .setB
  else if 0xCA ≤ n ∧ n ≤ 0xD1 then .own (bits v.lw 7 4)
  else if n = 0xD8 then .own (bits v.lw 14 11)
  else if n = 0xE0 ∨ n = 0xE1 then .own (v.b.toNat % 16)
  else .none

/-- The convergence register an MMA signs through (R250). -/
def Dev.mmaK (v : Dev) : List Nat :=
  if 0xCA ≤ v.op.toNat ∧ v.op.toNat ≤ 0xD1 then [bits v.lw 2 0] else []

/-- Everything the encoding says of a word. -/
def Dev.spec (v : Dev) : OpSpec :=
  let n := v.op.toNat
  let r := opRow n
  let k := v.d.toNat % 8
  { pipe := r.pipe, cost := r.cost, illeg := v.illeg,
    litMissing := r.lit == .required && v.lit.isNone,
    regs := if n = 0 ∨ unassigned n then [] else v.regUses,
    predsRd := if n = 0 then [] else guardPred v.pre ++ v.predsRead,
    predsWr := v.predsWritten,
    ksRd := (if r.d == .kRd || r.d == .kWr then [k] else []) ++ v.mmaK,
    ksWr := (if r.d == .kWr then [k] else []) ++ v.mmaK,
    flag := v.flagUse,
    flagsRd := n == 0x54 && v.imm == 0x017 }

/-- The v registers of a list of uses that are read. -/
def readRegs (us : List RegUse) : List Nat :=
  (us.filter (·.rd)).flatMap fun u => (List.range u.span).map (u.reg + ·)

/-- The v registers of a list of uses that are written. -/
def writtenRegs (us : List RegUse) : List Nat :=
  (us.filter (·.wr)).flatMap fun u => (List.range u.span).map (u.reg + ·)

end Sys2Proof.Machine
end

