-- ==== Sys2Proof/WellFormed.lean ====
section
/-! DEFINITION. Which instructions the encoding tables allow: zero fields, reserved codes, literals, arguments of events. -/

namespace Sys2Proof

open Machine

/-- The taken-apart word of each form. -/
def Rrr.dev (w : Rrr) (op : BitVec 8) : Dev := ⟨op, w.pre, w.d, w.a, w.b, w.lit⟩
/-- Form RI. -/
def Ri.dev (w : Ri) (op : BitVec 8) : Dev := ⟨op, w.pre, w.d, w.imm.extractLsb' 6 6, w.imm.extractLsb' 0 6, none⟩
/-- Form BR. -/
def Br.dev (w : Br) (op : BitVec 8) : Dev :=
  ⟨op, w.pre, w.off.extractLsb' 12 6, w.off.extractLsb' 6 6, w.off.extractLsb' 0 6, w.lit⟩
/-- Form CF. -/
def Cf.dev (w : Cf) (op : BitVec 8) : Dev := ⟨op, w.pre, w.n ++ w.g, w.a, w.z, w.lit⟩
/-- Form PC. -/
def Pc.dev (w : Pc) (op : BitVec 8) : Dev := ⟨op, w.pre, w.cond ++ w.pd, w.a, w.b, w.lit⟩

/-- The device word of an instruction, none for a base-core word, a command or an event. -/
def Instr.dev : Instr → Option Dev
  | .nop w => some (w.dev 0x00)
  | .iaddI32 w => some (w.dev 0x01)
  | .iaddI64 w => some (w.dev 0x02)
  | .isubI32 w => some (w.dev 0x03)
  | .isubI64 w => some (w.dev 0x04)
  | .imulI32 w => some (w.dev 0x05)
  | .imulI64 w => some (w.dev 0x06)
  | .imulhS32 w => some (w.dev 0x07)
  | .imulhN32 w => some (w.dev 0x08)
  | .imulhS64 w => some (w.dev 0x09)
  | .imulhN64 w => some (w.dev 0x0A)
  | .imadI32 w => some (w.dev 0x0B)
  | .imadI64 w => some (w.dev 0x0C)
  | .iminS32 w => some (w.dev 0x0D)
  | .iminN32 w => some (w.dev 0x0E)
  | .iminS64 w => some (w.dev 0x0F)
  | .iminN64 w => some (w.dev 0x10)
  | .imaxS32 w => some (w.dev 0x11)
  | .imaxN32 w => some (w.dev 0x12)
  | .imaxS64 w => some (w.dev 0x13)
  | .imaxN64 w => some (w.dev 0x14)
  | .iabsS32 w => some (w.dev 0x15)
  | .iabsS64 w => some (w.dev 0x16)
  | .inegI32 w => some (w.dev 0x17)
  | .inegI64 w => some (w.dev 0x18)
  | .idivS32 w => some (w.dev 0x19)
  | .idivN32 w => some (w.dev 0x1A)
  | .idivS64 w => some (w.dev 0x1B)
  | .idivN64 w => some (w.dev 0x1C)
  | .iremS32 w => some (w.dev 0x1D)
  | .iremN32 w => some (w.dev 0x1E)
  | .iremS64 w => some (w.dev 0x1F)
  | .iremN64 w => some (w.dev 0x20)
  | .iaddsS32 w => some (w.dev 0x21)
  | .isubsS32 w => some (w.dev 0x22)
  | .isadN32 w => some (w.dev 0x23)
  | .idp4S8 w => some (w.dev 0x24)
  | .and w => some (w.dev 0x25)
  | .or w => some (w.dev 0x26)
  | .xor w => some (w.dev 0x27)
  | .andn w => some (w.dev 0x28)
  | .not w => some (w.dev 0x29)
  | .lop3 w => some (w.dev 0x2A)
  | .shlI32 w => some (w.dev 0x2B)
  | .shlI64 w => some (w.dev 0x2C)
  | .shrI32 w => some (w.dev 0x2D)
  | .shrI64 w => some (w.dev 0x2E)
  | .sarI32 w => some (w.dev 0x2F)
  | .sarI64 w => some (w.dev 0x30)
  | .rotlI32 w => some (w.dev 0x31)
  | .rotlI64 w => some (w.dev 0x32)
  | .shf w => some (w.dev 0x33)
  | .popcI32 w => some (w.dev 0x34)
  | .popcI64 w => some (w.dev 0x35)
  | .clzI32 w => some (w.dev 0x36)
  | .clzI64 w => some (w.dev 0x37)
  | .ctzI32 w => some (w.dev 0x38)
  | .ctzI64 w => some (w.dev 0x39)
  | .brev w => some (w.dev 0x3A)
  | .bfe w => some (w.dev 0x3B)
  | .bfi w => some (w.dev 0x3C)
  | .andI64 w => some (w.dev 0x3D)
  | .orI64 w => some (w.dev 0x3E)
  | .xorI64 w => some (w.dev 0x3F)
  | .isetpS32 w => some (w.dev 0x40)
  | .isetpN32 w => some (w.dev 0x41)
  | .isetpS64 w => some (w.dev 0x42)
  | .isetpN64 w => some (w.dev 0x43)
  | .fsetp w => some (w.dev 0x44)
  | .plop w => some (w.dev 0x45)
  | .sel w => some (w.dev 0x46)
  | .pmov w => some (w.dev 0x47)
  | .vote w => some (w.dev 0x48)
  | .findmI32 w => some (w.dev 0x49)
  | .findmI64 w => some (w.dev 0x4A)
  | .elect w => some (w.dev 0x4B)
  | .mov w => some (w.dev 0x50)
  | .movk w => some (w.dev 0x51)
  | .movi w => some (w.dev 0x52)
  | .movh w => some (w.dev 0x53)
  | .gsr w => some (w.dev 0x54)
  | .ssr w => some (w.dev 0x55)
  | .movd w => some (w.dev 0x56)
  | .fadd w => some (w.dev 0x58)
  | .fsub w => some (w.dev 0x59)
  | .fmul w => some (w.dev 0x5A)
  | .ffma w => some (w.dev 0x5B)
  | .fmin w => some (w.dev 0x5C)
  | .fmax w => some (w.dev 0x5D)
  | .fabs w => some (w.dev 0x5E)
  | .fneg w => some (w.dev 0x5F)
  | .frnd w => some (w.dev 0x60)
  | .hadd2 w => some (w.dev 0x61)
  | .hmul2 w => some (w.dev 0x62)
  | .hfma2 w => some (w.dev 0x63)
  | .hmin2 w => some (w.dev 0x64)
  | .hmax2 w => some (w.dev 0x65)
  | .badd2 w => some (w.dev 0x66)
  | .bmul2 w => some (w.dev 0x67)
  | .bfma2 w => some (w.dev 0x68)
  | .frcp w => some (w.dev 0x69)
  | .frsq w => some (w.dev 0x6A)
  | .fsqrt w => some (w.dev 0x6B)
  | .fexp2 w => some (w.dev 0x6C)
  | .flog2 w => some (w.dev 0x6D)
  | .fsin w => some (w.dev 0x6E)
  | .fcos w => some (w.dev 0x6F)
  | .ftanh w => some (w.dev 0x70)
  | .fdiv w => some (w.dev 0x71)
  | .f2i w => some (w.dev 0x72)
  | .i2f w => some (w.dev 0x73)
  | .f2h w => some (w.dev 0x74)
  | .h2f w => some (w.dev 0x75)
  | .f2q w => some (w.dev 0x76)
  | .q2f w => some (w.dev 0x77)
  | .fscl w => some (w.dev 0x78)
  | .fcls w => some (w.dev 0x79)
  | .fxcvt w => some (w.dev 0x7A)
  | .fmxs w => some (w.dev 0x7B)
  | .shfli w => some (w.dev 0x80)
  | .shflu w => some (w.dev 0x81)
  | .shfld w => some (w.dev 0x82)
  | .shflx w => some (w.dev 0x83)
  | .graddI32 w => some (w.dev 0x84)
  | .graddF32 w => some (w.dev 0x85)
  | .grminS32 w => some (w.dev 0x86)
  | .grmaxS32 w => some (w.dev 0x87)
  | .gscanI32 w => some (w.dev 0x88)
  | .cxchI64 w => some (w.dev 0x89)
  | .cxchI32 w => some (w.dev 0x8A)
  | .mrnkI64 w => some (w.dev 0x8B)
  | .ldB8 w => some (w.dev 0x90)
  | .ldS8 w => some (w.dev 0x91)
  | .ldB16 w => some (w.dev 0x92)
  | .ldS16 w => some (w.dev 0x93)
  | .ldB32 w => some (w.dev 0x94)
  | .ldB64 w => some (w.dev 0x95)
  | .ldB128 w => some (w.dev 0x96)
  | .stB8 w => some (w.dev 0x97)
  | .stB16 w => some (w.dev 0x98)
  | .stB32 w => some (w.dev 0x99)
  | .stB64 w => some (w.dev 0x9A)
  | .stB128 w => some (w.dev 0x9B)
  | .ldt w => some (w.dev 0x9C)
  | .stt w => some (w.dev 0x9D)
  | .atom w => some (w.dev 0x9E)
  | .atom64 w => some (w.dev 0x9F)
  | .acas w => some (w.dev 0xA0)
  | .acas64 w => some (w.dev 0xA1)
  | .red w => some (w.dev 0xA2)
  | .red64 w => some (w.dev 0xA3)
  | .afadd w => some (w.dev 0xA4)
  | .pref w => some (w.dev 0xA5)
  | .sync w => some (w.dev 0xA6)
  | .mwatch w => some (w.dev 0xA7)
  | .mwait w => some (w.dev 0xA8)
  | .cwb w => some (w.dev 0xA9)
  | .cinv w => some (w.dev 0xAA)
  | .bra w => some (w.dev 0xB0)
  | .brx w => some (w.dev 0xB1)
  | .bri w => some (w.dev 0xB2)
  | .call w => some (w.dev 0xB3)
  | .calli w => some (w.dev 0xB4)
  | .ret w => some (w.dev 0xB5)
  | .unwind w => some (w.dev 0xB6)
  | .frsz w => some (w.dev 0xB7)
  | .exit w => some (w.dev 0xB8)
  | .yield w => some (w.dev 0xB9)
  | .sleep w => some (w.dev 0xBA)
  | .bara w => some (w.dev 0xBC)
  | .barw w => some (w.dev 0xBD)
  | .bar w => some (w.dev 0xBE)
  | .gsync w => some (w.dev 0xBF)
  | .kdecl w => some (w.dev 0xC0)
  | .ksign w => some (w.dev 0xC1)
  | .kwait w => some (w.dev 0xC2)
  | .krst w => some (w.dev 0xC3)
  | .mres w => some (w.dev 0xC8)
  | .mrel w => some (w.dev 0xC9)
  | .mmaMxf4 w => some (w.dev 0xCA)
  | .mmaMxf8 w => some (w.dev 0xCB)
  | .mmaFp8 w => some (w.dev 0xCC)
  | .mmaI8 w => some (w.dev 0xCD)
  | .mmaTs8i w => some (w.dev 0xCE)
  | .mmaTs8e w => some (w.dev 0xCF)
  | .mmaBf16 w => some (w.dev 0xD0)
  | .mmaF16 w => some (w.dev 0xD1)
  | .azero w => some (w.dev 0xD2)
  | .anorm w => some (w.dev 0xD3)
  | .ascl w => some (w.dev 0xD4)
  | .aread w => some (w.dev 0xD5)
  | .awrite w => some (w.dev 0xD6)
  | .aexp w => some (w.dev 0xD7)
  | .astr w => some (w.dev 0xD8)
  | .amov w => some (w.dev 0xD9)
  | .xcopy w => some (w.dev 0xE0)
  | .xcoll w => some (w.dev 0xE1)
  | .xqpost w => some (w.dev 0xE2)
  | .hwait w => some (w.dev 0xE3)
  | .htest w => some (w.dev 0xE4)
  | .hstat w => some (w.dev 0xE5)
  | .hcan w => some (w.dev 0xE6)
  | .hdet w => some (w.dev 0xE7)
  | .hpri w => some (w.dev 0xE8)
  | .hadopt w => some (w.dev 0xE9)
  | .tdef w => some (w.dev 0xEA)
  | .tset w => some (w.dev 0xEB)
  | .tqry w => some (w.dev 0xEC)
  | .launch w => some (w.dev 0xF0)
  | .depdec w => some (w.dev 0xF1)
  | .slyld w => some (w.dev 0xF2)
  | .budgt w => some (w.dev 0xF3)
  | .ptrap w => some (w.dev 0xF4)
  | .pstat w => some (w.dev 0xF5)
  | .trap w => some (w.dev 0xF6)
  | .rte w => some (w.dev 0xF7)
  | .gtr w => some (w.dev 0xF8)
  | .bkpt w => some (w.dev 0xF9)
  | .sysc w => some (w.dev 0xFA)
  | .edisp _ _ _ => none
  | .ejoin _ _ => none
  | .eginv _ _ => none
  | .eginvw => none
  | .create _ => none
  | .destroy _ => none
  | .preempt _ => none
  | .restore _ => none
  | .stile _ => none
  | .queue _ => none
  | .pwin _ => none
  | .pgrant _ => none
  | .route _ => none
  | .pool _ => none
  | .svcring _ => none
  | .attest _ => none
  | .cert _ => none
  | .errstat _ => none
  | .dumpclr _ => none
  | .reset _ => none
  | .registerWrite _ _ _ _ => none
  | .stileLaunch _ => none
  | .teamAdmit _ => none
  | .clusterPlaceTimeout _ _ => none
  | .groupPromote _ _ => none
  | .frameGrant _ _ => none
  | .tedderWaitTimeout _ _ _ => none
  | .mmaStart _ _ => none
  | .mmaRow _ _ => none
  | .copyStart _ => none
  | .copyChunk _ => none
  | .xcollAck _ _ _ => none
  | .ualinkInboundWrite _ => none
  | .pcieInboundWrite _ _ _ _ => none
  | .pcieInboundRead _ _ _ _ _ => none
  | .queueTake _ => none
  | .loadDataReturn _ _ => none
  | .storeMerge _ _ => none
  | .mwaitBoundExpiry _ _ => none
  | .sleepExpiry _ _ => none
  | .mresGrant _ => none
  | .mrelRelease _ => none
  | .walkReturn _ _ => none
  | .invalidationReceive _ _ => none
  | .invalidationAck _ _ => none
  | .syscReply _ => none
  | .sysviewLoadCompletion _ _ => none
  | .sysviewLoadTimeout _ => none
  | .pcieStoreRefused _ => none
  | .asyncTrapTake _ => none
  | .deadlockTimeout _ => none
  | .grantLevelStep _ => none
  | .sensorSample _ => none
  | .supplyFaultTimeout _ _ => none
  | .watchdogExpiry _ _ => none
  | .hbmScrub _ _ => none
  | .linkReplay _ => none
  | .linkRetrainExpiry _ _ => none
  | .pcieLinkDown _ => none
  | .drainTimeout _ => none
  | .swapTimeout _ => none
  | .teamSwapOut _ => none
  | .teamSwapIn _ _ => none
  | .columnClassMove _ _ => none
  | .hotReset => none
  | .powerOnReset _ => none
  | .unassignedOpcode op w => some (w.dev op)
  | .illegalInstructionException _ => none
  | .baseCoreAccess _ => none
  | .ualinkInboundRead _ _ _ _ _ _ => none
  | .writeBackComplete _ => none
  | .sysviewStoreAccepted _ => none
  | .clockChangeDone _ => none
  | .powerLoss => none

/-- A device word that is an encoding of its row: its literal belongs to it, and nothing reserved or marked zero is used. -/
def Machine.Dev.wf (v : Dev) : Bool :=
  (v.op == 0 || unassigned v.op.toNat || (v.illeg.isNone && !v.spec.litMissing)) && (v.lit.isNone || takesLiteral v.op.toNat v.b)

/-- The part's counts (R7, R8, R41). -/
def goodCore (c : Nat) : Bool := c < 192
/-- A die number. -/
def goodDie (d : Nat) : Bool := d < 4
/-- A column, hart or LLC slice number. -/
def goodColumn (c : Nat) : Bool := c < 48
/-- A UALink port of a die. -/
def goodPort (p : Nat) : Bool := p < 8
/-- What a die's error report may name as UNIT (R434): a column of the die, by its number on the module, or a port or stack, by its number on the die. -/
def goodUnit (d unit : Nat) : Bool := unit / 12 == d || unit < 8

/-- R430's links. -/
def Link.wf : Link → Bool
  | .ucie e => e < 4
  | .ualink d p => goodDie d && goodPort p
  | .pcie d => goodDie d

/-- R334's participants. -/
def Participant.wf : Participant → Bool
  | .hart h => goodColumn h
  | .unit d => goodDie d

/-- A failure of a bring-up step after the first (R437): its step, reason, unit and die. -/
def BringupFail.wf (f : BringupFail) : Bool :=
  goodDie f.die && (match f.step, f.reason with
    | 2, 0x10 | 2, 0x11 | 3, 0x20 => f.unit < 4
    | 4, 0x30 | 4, 0x31 => goodColumn f.unit
    | 5, 0x40 => f.unit == 0
    | _, _ => false)

/-- A command block stands at a 64-byte boundary (R330). -/
def Cmd.wf (c : Cmd) : Bool := goodColumn c.hart && c.blk % 64 == 0 && c.blk < 2 ^ 56

/-- Whether a custom-0 word is one of R326's four. -/
def hartAssigned (w : Word) : Bool :=
  (bits w 31 25 == 0 && bits w 14 12 == 0) || (bits w 31 20 == 0 && bits w 14 12 == 1) ||
    (bits w 31 25 == 0 && bits w 14 12 == 2 && bits w 11 7 == 0) || w == 0x0000300B#32

/-- What the tables and the counts of R7 say of an instruction's own fields. -/
def Instr.wf : Instr → Bool
  | .unassignedOpcode op w => unassigned op.toNat && w.lit.isNone
  | .create c | .destroy c | .preempt c | .restore c | .stile c | .queue c | .pwin c | .pgrant c | .route c | .pool c
  | .svcring c | .attest c | .cert c | .errstat c | .dumpclr c | .reset c => c.wf
  | .registerWrite h _ _ _ => goodColumn h
  | .sensorSample (.column c _ _) => goodColumn c
  | .sensorSample (.die d _) => goodDie d
  | .sensorSample (.stack d k _) => goodDie d && k < 4
  | .powerOnReset p => p.fail.all (·.wf) && p.endpoints.all goodDie && p.lost.all fun x => goodDie x.1 && goodPort x.2
  | .hbmScrub b _ => b < 2 ^ 34
  | .teamAdmit c | .clusterPlaceTimeout _ c | .mresGrant c | .teamSwapIn _ c => goodCore c
  | .groupPromote c p | .frameGrant c p => goodCore c && p < 16
  | .tedderWaitTimeout c p l => goodCore c && p < 16 && l < 16
  | .mmaStart c e | .mmaRow c e => goodCore c && e < 2
  | .copyStart (.router c) => goodCore c
  | .copyStart (.ualink d p _ _) => goodDie d && goodPort p
  | .ualinkInboundWrite w => goodDie w.die && goodPort w.port
  | .pcieInboundWrite d o b _ => goodDie d && o + b.length ≤ 2 ^ 40
  | .pcieInboundRead d _ _ _ _ | .pcieLinkDown d | .walkReturn d _ => goodDie d
  | .watchdogExpiry d unit | .supplyFaultTimeout d unit => goodDie d && goodUnit d unit
  | .invalidationReceive w _ | .invalidationAck w _ => w.wf
  | .syscReply c | .grantLevelStep c | .columnClassMove c _ | .clockChangeDone c => goodColumn c
  | .linkReplay r => r.link.wf
  | .linkRetrainExpiry l _ => l.wf
  | .baseCoreAccess a => goodColumn a.hart && [1, 2, 4, 8].contains a.size
  | .ualinkInboundRead d p _ _ _ _ => goodDie d && goodPort p
  | .illegalInstructionException w => bits w 6 0 == 0x0B && !hartAssigned w
  | i => match i.dev with
    | some v => v.wf
    | none => true

end Sys2Proof
end

