-- ==== Sys2Proof/Decode.lean ====
section
/-! DEFINITION. From words to instructions and back: R124 to R129, R134, R139, R144 for device packets, R326 for base-core words. -/

namespace Sys2Proof

open Machine

/-- Form RRR of a taken-apart word. -/
def Machine.Dev.rrr (v : Dev) : Rrr := ⟨v.pre, v.d, v.a, v.b, v.lit⟩
/-- Form RI: I12 is [11:6] followed by [5:0]. -/
def Machine.Dev.ri (v : Dev) : Ri := ⟨v.pre, v.d, v.a ++ v.b⟩
/-- Form BR: OFF18 is the three fields. -/
def Machine.Dev.br (v : Dev) : Br := ⟨v.pre, v.d ++ v.a ++ v.b, v.lit⟩
/-- Form CF: [17:15] and [14:12] of field D. -/
def Machine.Dev.cf (v : Dev) : Cf := ⟨v.pre, v.d.extractLsb' 3 3, v.d.extractLsb' 0 3, v.a, v.b, v.lit⟩
/-- Form PC: [17:15] and [14:12] of field D. -/
def Machine.Dev.pc (v : Dev) : Pc := ⟨v.pre, v.d.extractLsb' 3 3, v.d.extractLsb' 0 3, v.a, v.b, v.lit⟩

/-- A word whose opcode R381 leaves unassigned. -/
def un (v : Dev) : Instr := .unassignedOpcode v.op v.rrr

/-- Opcodes 0x00 to 0x0F of the map of R144. -/
def opcodes0 (v : Dev) : List Instr :=
  [.nop v.rrr, .iaddI32 v.rrr, .iaddI64 v.rrr, .isubI32 v.rrr,
   .isubI64 v.rrr, .imulI32 v.rrr, .imulI64 v.rrr, .imulhS32 v.rrr,
   .imulhN32 v.rrr, .imulhS64 v.rrr, .imulhN64 v.rrr, .imadI32 v.rrr,
   .imadI64 v.rrr, .iminS32 v.rrr, .iminN32 v.rrr, .iminS64 v.rrr]

/-- Opcodes 0x10 to 0x1F of the map of R144. -/
def opcodes1 (v : Dev) : List Instr :=
  [.iminN64 v.rrr, .imaxS32 v.rrr, .imaxN32 v.rrr, .imaxS64 v.rrr,
   .imaxN64 v.rrr, .iabsS32 v.rrr, .iabsS64 v.rrr, .inegI32 v.rrr,
   .inegI64 v.rrr, .idivS32 v.rrr, .idivN32 v.rrr, .idivS64 v.rrr,
   .idivN64 v.rrr, .iremS32 v.rrr, .iremN32 v.rrr, .iremS64 v.rrr]

/-- Opcodes 0x20 to 0x2F of the map of R144. -/
def opcodes2 (v : Dev) : List Instr :=
  [.iremN64 v.rrr, .iaddsS32 v.rrr, .isubsS32 v.rrr, .isadN32 v.rrr,
   .idp4S8 v.rrr, .and v.rrr, .or v.rrr, .xor v.rrr,
   .andn v.rrr, .not v.rrr, .lop3 v.rrr, .shlI32 v.rrr,
   .shlI64 v.rrr, .shrI32 v.rrr, .shrI64 v.rrr, .sarI32 v.rrr]

/-- Opcodes 0x30 to 0x3F of the map of R144. -/
def opcodes3 (v : Dev) : List Instr :=
  [.sarI64 v.rrr, .rotlI32 v.rrr, .rotlI64 v.rrr, .shf v.rrr,
   .popcI32 v.rrr, .popcI64 v.rrr, .clzI32 v.rrr, .clzI64 v.rrr,
   .ctzI32 v.rrr, .ctzI64 v.rrr, .brev v.rrr, .bfe v.rrr,
   .bfi v.rrr, .andI64 v.rrr, .orI64 v.rrr, .xorI64 v.rrr]

/-- Opcodes 0x40 to 0x4F of the map of R144. -/
def opcodes4 (v : Dev) : List Instr :=
  [.isetpS32 v.pc, .isetpN32 v.pc, .isetpS64 v.pc, .isetpN64 v.pc,
   .fsetp v.pc, .plop v.rrr, .sel v.rrr, .pmov v.rrr,
   .vote v.rrr, .findmI32 v.rrr, .findmI64 v.rrr, .elect v.rrr,
   un v, un v, un v, un v]

/-- Opcodes 0x50 to 0x5F of the map of R144. -/
def opcodes5 (v : Dev) : List Instr :=
  [.mov v.rrr, .movk v.ri, .movi v.ri, .movh v.rrr,
   .gsr v.ri, .ssr v.ri, .movd v.rrr, un v,
   .fadd v.rrr, .fsub v.rrr, .fmul v.rrr, .ffma v.rrr,
   .fmin v.rrr, .fmax v.rrr, .fabs v.rrr, .fneg v.rrr]

/-- Opcodes 0x60 to 0x6F of the map of R144. -/
def opcodes6 (v : Dev) : List Instr :=
  [.frnd v.rrr, .hadd2 v.rrr, .hmul2 v.rrr, .hfma2 v.rrr,
   .hmin2 v.rrr, .hmax2 v.rrr, .badd2 v.rrr, .bmul2 v.rrr,
   .bfma2 v.rrr, .frcp v.rrr, .frsq v.rrr, .fsqrt v.rrr,
   .fexp2 v.rrr, .flog2 v.rrr, .fsin v.rrr, .fcos v.rrr]

/-- Opcodes 0x70 to 0x7F of the map of R144. -/
def opcodes7 (v : Dev) : List Instr :=
  [.ftanh v.rrr, .fdiv v.rrr, .f2i v.rrr, .i2f v.rrr,
   .f2h v.rrr, .h2f v.rrr, .f2q v.rrr, .q2f v.rrr,
   .fscl v.rrr, .fcls v.rrr, .fxcvt v.rrr, .fmxs v.rrr,
   un v, un v, un v, un v]

/-- Opcodes 0x80 to 0x8F of the map of R144. -/
def opcodes8 (v : Dev) : List Instr :=
  [.shfli v.rrr, .shflu v.rrr, .shfld v.rrr, .shflx v.rrr,
   .graddI32 v.rrr, .graddF32 v.rrr, .grminS32 v.rrr, .grmaxS32 v.rrr,
   .gscanI32 v.rrr, .cxchI64 v.rrr, .cxchI32 v.rrr, .mrnkI64 v.rrr,
   un v, un v, un v, un v]

/-- Opcodes 0x90 to 0x9F of the map of R144. -/
def opcodes9 (v : Dev) : List Instr :=
  [.ldB8 v.rrr, .ldS8 v.rrr, .ldB16 v.rrr, .ldS16 v.rrr,
   .ldB32 v.rrr, .ldB64 v.rrr, .ldB128 v.rrr, .stB8 v.rrr,
   .stB16 v.rrr, .stB32 v.rrr, .stB64 v.rrr, .stB128 v.rrr,
   .ldt v.rrr, .stt v.rrr, .atom v.rrr, .atom64 v.rrr]

/-- Opcodes 0xA0 to 0xAF of the map of R144. -/
def opcodesA (v : Dev) : List Instr :=
  [.acas v.rrr, .acas64 v.rrr, .red v.rrr, .red64 v.rrr,
   .afadd v.rrr, .pref v.rrr, .sync v.rrr, .mwatch v.rrr,
   .mwait v.rrr, .cwb v.rrr, .cinv v.rrr, un v,
   un v, un v, un v, un v]

/-- Opcodes 0xB0 to 0xBF of the map of R144. -/
def opcodesB (v : Dev) : List Instr :=
  [.bra v.br, .brx v.br, .bri v.rrr, .call v.cf,
   .calli v.cf, .ret v.rrr, .unwind v.rrr, .frsz v.rrr,
   .exit v.rrr, .yield v.rrr, .sleep v.rrr, un v,
   .bara v.rrr, .barw v.rrr, .bar v.rrr, .gsync v.rrr]

/-- Opcodes 0xC0 to 0xCF of the map of R144. -/
def opcodesC (v : Dev) : List Instr :=
  [.kdecl v.rrr, .ksign v.rrr, .kwait v.rrr, .krst v.rrr,
   un v, un v, un v, un v,
   .mres v.rrr, .mrel v.rrr, .mmaMxf4 v.rrr, .mmaMxf8 v.rrr,
   .mmaFp8 v.rrr, .mmaI8 v.rrr, .mmaTs8i v.rrr, .mmaTs8e v.rrr]

/-- Opcodes 0xD0 to 0xDF of the map of R144. -/
def opcodesD (v : Dev) : List Instr :=
  [.mmaBf16 v.rrr, .mmaF16 v.rrr, .azero v.rrr, .anorm v.rrr,
   .ascl v.rrr, .aread v.rrr, .awrite v.rrr, .aexp v.rrr,
   .astr v.rrr, .amov v.rrr, un v, un v,
   un v, un v, un v, un v]

/-- Opcodes 0xE0 to 0xEF of the map of R144. -/
def opcodesE (v : Dev) : List Instr :=
  [.xcopy v.rrr, .xcoll v.rrr, .xqpost v.rrr, .hwait v.rrr,
   .htest v.rrr, .hstat v.rrr, .hcan v.rrr, .hdet v.rrr,
   .hpri v.rrr, .hadopt v.rrr, .tdef v.rrr, .tset v.rrr,
   .tqry v.rrr, un v, un v, un v]

/-- Opcodes 0xF0 to 0xFF of the map of R144. -/
def opcodesF (v : Dev) : List Instr :=
  [.launch v.rrr, .depdec v.rrr, .slyld v.rrr, .budgt v.rrr,
   .ptrap v.rrr, .pstat v.rrr, .trap v.ri, .rte v.rrr,
   .gtr v.rrr, .bkpt v.rrr, .sysc v.ri, un v,
   un v, un v, un v, un v]

/-- The instruction of a taken-apart word (R144). -/
def Machine.Dev.instr (v : Dev) : Instr :=
  let lo := v.op.toNat % 16
  match v.op.toNat / 16 with
  | 0 => (opcodes0 v).getD lo (un v)
  | 1 => (opcodes1 v).getD lo (un v)
  | 2 => (opcodes2 v).getD lo (un v)
  | 3 => (opcodes3 v).getD lo (un v)
  | 4 => (opcodes4 v).getD lo (un v)
  | 5 => (opcodes5 v).getD lo (un v)
  | 6 => (opcodes6 v).getD lo (un v)
  | 7 => (opcodes7 v).getD lo (un v)
  | 8 => (opcodes8 v).getD lo (un v)
  | 9 => (opcodes9 v).getD lo (un v)
  | 10 => (opcodesA v).getD lo (un v)
  | 11 => (opcodesB v).getD lo (un v)
  | 12 => (opcodesC v).getD lo (un v)
  | 13 => (opcodesD v).getD lo (un v)
  | 14 => (opcodesE v).getD lo (un v)
  | _ => (opcodesF v).getD lo (un v)

/-- R134: a word taken apart, with the literal that belongs to it. -/
def takeApart (w : Word) (lit : Option Word) : Dev :=
  { op := w.extractLsb' 18 8,
    pre := ⟨w.getLsbD 31, w.getLsbD 30, w.extractLsb' 27 3, w.getLsbD 26⟩,
    d := w.extractLsb' 12 6, a := w.extractLsb' 6 6, b := w.extractLsb' 0 6, lit := lit }

/-- R134: the word of a taken-apart instruction. -/
def putTogether (v : Dev) : Word :=
  BitVec.ofBool v.pre.c ++ BitVec.ofBool v.pre.u ++ v.pre.g ++ BitVec.ofBool v.pre.n ++ v.op ++ v.d ++ v.a ++ v.b

/-- The device instruction of a word and its literal. Every word is one: an unassigned opcode is a row of its own (R381). -/
def decodeDevice (w : Word) (lit : Option Word) : Instr := (takeApart w lit).instr

/-- The words of a device instruction: the instruction word, then its literal. None for a step that has no word. -/
def encode (i : Instr) : Option (Word × Option Word) := (i.dev).map fun v => (putTogether v, v.lit)

/-- Why bytes are no packet, by the sub-cause of PACKET that R380 gives. -/
inductive PacketError
  | tooShort        -- fewer than 16 bytes
  | signature       -- 0x01
  | reserved        -- 0x02
  | flagCode        -- 0x03
  | continuation    -- 0x04
  | literal         -- 0x05
  | afterControl    -- 0x06
  deriving DecidableEq, Repr

/-- The sub-cause of R380. -/
def PacketError.sub : PacketError → Nat
  | .tooShort => 0 | .signature => 1 | .reserved => 2 | .flagCode => 3 | .continuation => 4 | .literal => 5 | .afterControl => 6

/-- A packet's header taken apart (R125). -/
structure Header where
  word : Word
  wait : BitVec 12
  seta : Nat
  setb : Nat
  cls : Bool
  yld : Bool
  litm : BitVec 3
  deriving DecidableEq, Repr

/-- A packet that R124 to R129 allow: header and three slots. -/
structure Packet where
  hdr : Header
  slots : List Word
  deriving DecidableEq, Repr

/-- A little-endian word (R3). -/
def leWord (b : List Byte) : Word :=
  (b.getD 3 0) ++ (b.getD 2 0) ++ (b.getD 1 0) ++ (b.getD 0 0)

/-- R125. -/
def header (w : Word) : Header :=
  ⟨w, w.extractLsb' 20 12, bits w 19 16, bits w 15 12, w.getLsbD 11, w.getLsbD 10, w.extractLsb' 4 3⟩

/-- Whether slot `n` (1 to 3) holds a literal. -/
def Header.isLit (h : Header) (n : Nat) : Bool := h.litm.getLsbD (n - 1)

/-- The literal of the instruction in slot `n`. -/
def Packet.litOf (p : Packet) (n : Nat) : Option Word :=
  if n < 3 ∧ p.hdr.isLit (n + 1) then p.slots[n]? else none

/-- Slot `n`'s word, if it is an instruction word. -/
def Packet.wordAt (p : Packet) (n : Nat) : Option Word :=
  if n = 0 ∨ p.hdr.isLit n then none else p.slots[n - 1]?

/-- R126: every literal belongs to the instruction word before it. -/
def literalsBelong (h : Header) (ws : List Word) : Bool :=
  [1, 2, 3].all fun n => !h.isLit n ||
    (n != 1 && !h.isLit (n - 1) && (let w := ws.getD (n - 2) 0; takesLiteral (bits w 25 18) (w.extractLsb' 0 6)))

/-- R129: after a control transfer only its literal and NOP words. -/
def controlLast (h : Header) (ws : List Word) : Bool :=
  [1, 2].all fun n => h.isLit n || !controlTransfer (bits (ws.getD (n - 1) 0) 25 18) ||
    ([2, 3].all fun m => m ≤ n || h.isLit m || bits (ws.getD (m - 1) 0) 25 18 == 0)

/-- The tests of R380 that the packet alone decides, in the order of its sub-causes. -/
def decodePacket (b : List Byte) : Except PacketError Packet :=
  if b.length < 16 then .error .tooShort
  else
    let h := header (leWord b)
    let ws := [leWord (b.drop 4), leWord (b.drop 8), leWord (b.drop 12)]
    if bits h.word 3 0 ≠ 10 then .error .signature
    else if bits h.word 9 7 ≠ 0 then .error .reserved
    else if (12 ≤ h.seta ∧ h.seta ≤ 14) ∨ (12 ≤ h.setb ∧ h.setb ≤ 14) then .error .flagCode
    else if ¬ h.cls ∧ (h.wait ≠ 0 ∨ h.seta ≠ 15 ∨ h.setb ≠ 15 ∨ h.yld) then .error .continuation
    else if ¬ literalsBelong h ws then .error .literal
    else if ¬ controlLast h ws then .error .afterControl
    else .ok ⟨h, ws⟩

/-- The instruction in slot `n` of a packet. -/
def Packet.instrAt (p : Packet) (n : Nat) : Option Instr := (p.wordAt n).map fun w => decodeDevice w (p.litOf n)

/-- The slots of `p` that hold instruction words. -/
def Packet.instrSlots (p : Packet) : List Nat := [1, 2, 3].filter fun n => !p.hdr.isLit n

/-- A base-core word (R326): the four custom-0 instructions, any other custom-0 word, or none for a word of another opcode. -/
def decodeHart (w : Word) : Option Instr :=
  let f := fun hi lo => bits w hi lo
  if f 6 0 ≠ 0x0B then none
  else if f 31 25 = 0 ∧ f 14 12 = 0 then some (.edisp (w.extractLsb' 7 5) (w.extractLsb' 15 5) (w.extractLsb' 20 5))
  else if f 31 20 = 0 ∧ f 14 12 = 1 then some (.ejoin (w.extractLsb' 7 5) (w.extractLsb' 15 5))
  else if f 31 25 = 0 ∧ f 14 12 = 2 ∧ f 11 7 = 0 then some (.eginv (w.extractLsb' 15 5) (w.extractLsb' 20 5))
  else if w = 0x0000300B#32 then some .eginvw
  else some (.illegalInstructionException w)

/-- The word of a base-core instruction (R326); a custom-0 word that is none of the four is its own instruction. -/
def encodeHart : Instr → Option Word
  | .edisp rd rs1 rs2 => some (0#7 ++ rs2 ++ rs1 ++ 0#3 ++ rd ++ 0x0B#7)
  | .ejoin rd rs1 => some (0#7 ++ 0#5 ++ rs1 ++ 1#3 ++ rd ++ 0x0B#7)
  | .eginv rs1 rs2 => some (0#7 ++ rs2 ++ rs1 ++ 2#3 ++ 0#5 ++ 0x0B#7)
  | .eginvw => some 0x0000300B#32
  | .illegalInstructionException w => some w
  | _ => none

/-- Whether a word given without its agent is read as a base core's: it is one of R326's four, and a SIMT core would read it
as a NOP or as no instruction at all. The agent decides in `step`; this choice serves `decodeTableWord` alone (log 7). -/
def hartWord (w : Word) : Bool :=
  (bits w 25 18 == 0 || unassigned (bits w 25 18)) &&
    (match decodeHart w with
     | some (.illegalInstructionException _) => false
     | some _ => true
     | none => false)

/-- The packet of one clause that holds a word in slot 1 and, where its literal is required, a literal of zero in slot 2. -/
def probePacket (w : Word) : List Byte :=
  let lit := (opRow (bits w 25 18)).lit == .required
  let h : Word := if lit then 0x000FF82A#32 else 0x000FF80A#32
  [h, w, 0, 0].flatMap fun x => [x.extractLsb' 0 8, x.extractLsb' 8 8, x.extractLsb' 16 8, x.extractLsb' 24 8]

/-- The instruction the decoder reads from a word numbered as the opcode table numbers it, a required literal being zero. -/
def decodeTableWord (nbits w : Nat) : Option Instr :=
  if nbits ≠ 32 then none
  else
    let x := BitVec.ofNat 32 w
    if hartWord x then decodeHart x
    else match decodePacket (probePacket x) with
      | .ok p => p.instrAt 1
      | .error _ => none

end Sys2Proof
end

