-- ==== Sys2Proof/Config.lean ====
section
/-! DEFINITION. What one unit fixes and the spec does not state: opaque values, of which nothing can be proved. -/

namespace Sys2Proof.Config

/-- The generation a child-operation slot holds after reset (R272 gives the rule of change and no first value). Log 4. -/
opaque slotGen : Nat → BitVec 8
/-- The free value of draw `n`: a value the spec leaves open after an instruction that runs. Log 2. -/
opaque freeWord : Nat → Word
/-- The 64-bit free value of draw `n` (R123, R324, R427). Log 2. -/
opaque freeDouble : Nat → Addr
/-- The module's serial number (R440). Log 5. -/
opaque serial : BitVec 64
/-- The 256-bit secret fused at manufacture, byte by byte (R439). Log 5. -/
opaque secret : Nat → Byte
/-- The fused digest of the maker's public key (R438): 64 bytes. Log 5. -/
opaque keyDigest : Nat → Byte
/-- Length of the certificate that the maker (`false`) or the device key (`true`) gives for a public key (R439, R440). Log 5. -/
opaque certLength : Bool → List Byte → Nat
/-- Byte `n` of that certificate (R440). Log 5. -/
opaque certByte : Bool → List Byte → Nat → Byte
/-- The HDR and VHDR words' next-capability link bits (R437 gives the rest). Log 5. -/
opaque capLink : BitVec 12

end Sys2Proof.Config
end

