-- ==== Sys2Proof/Machine/State.lean ====
section
/-! DEFINITION. The state of the Esord E4 as plain data, and the state right after reset. -/

namespace Sys2Proof.Machine

/-- Why a step stops. -/
inductive Fault
  /-- Raised by a base core's fetch, load or store that reaches a system-view address: those bytes are the host's, and the
  spec says nothing of them. Safe: no false claim follows from the stop. -/
  | hostMemory
  deriving DecidableEq, Repr

/-- Why a step has no meaning. -/
inductive Refusal
  /-- Raised by an arm of `exec` whose instruction has no meaning yet. Safe. -/
  | notModelled (mnemonic : String)
  /-- Raised by a base core's step on a word outside custom-0: the spec names RVA23 and does not describe it (R326). Safe. -/
  | baseIsa (word : Word)
  deriving DecidableEq, Repr

/-! ### Threads -/

/-- What stands against a v register: nothing; a pending mark (R150); a load's destination not yet returned (R133), the
`k`-th register of it; a failed destination of the load `load` (R401). -/
inductive RegTag
  | ready
  | mark
  | due (load k : Nat)
  | failed (load : Nat) (ea : Addr) (cause sub : Nat) (flag : Option Nat)
  deriving DecidableEq, Repr

/-- One v register (R124, R133, R150). -/
structure Reg where
  val : Word := 0
  tag : RegTag := .ready
  deriving DecidableEq, Repr

/-- Where a frame's granules stand (R38). -/
inductive Place | bank | spill | hbm
  deriving DecidableEq, Repr

/-- A frame and its record (R32, R35): `ret` and `link` are those CALL recorded when it made this frame. -/
structure Frame where
  regs : List Reg
  ret : Addr := 0
  link : Nat := 0
  place : Place := .bank
  deriving DecidableEq, Repr

/-- A rejoin pair (R25). `mask` lists the TIDX of the threads that pushed it; `id` tells pushes apart. -/
structure RejoinPair where
  pc : Addr
  mask : List Nat
  depth : Nat
  id : Nat
  deriving DecidableEq, Repr

/-- An armed watch on the storage line `line` (128 bytes), with its seen bit (R215). -/
structure Watch where
  line : Nat
  seen : Bool
  deriving DecidableEq, Repr

/-- What a thread waits at (R23, R25, R29, R42, R232, R377). At a BRX it keeps whether its guard was true and the target the word
named when it issued (R221). `posting` and `packet` say how far XQPOST's series of copies, and XCOPY's or XCOLL's of reads, has come (R102);
`postFailed` says what ended an XQPOST's series (R405). -/
inductive Wait
  | run
  | rejoin
  | brx (taken : Bool) (target : Addr)
  | bar (i : Nat) (phase : Nat)
  | gsync (cluster : Bool)
  | kwait (k : Nat)
  | mrel
  | slyld
  | slyldDone (swapped : Bool)
  | passed
  | mwait (deadline : Option Nat)
  | mwaitDone (status : Nat)
  | hwait
  | sleep (until_ : Nat)
  | slept
  | queue (idx : Addr)
  | posting (idx : Addr) (unit : Nat) (got : Option (List Byte))
  | queueDone (idx : Addr)
  | postFailed (ea : Addr) (cause sub : Nat)
  | packet (got : List Byte)
  | sysc (rec : Nat)
  | syscDone (args : List Word)
  | cache (id : Nat)
  | cacheDone
  | returned
  | made (issue : Nat)
  deriving DecidableEq, Repr

/-- How a thread came to its PC: a control transfer, ENTRY or HANDLER landed it there; it fell through a clause boundary; an RTE
resumed it (R127, R377, R380). -/
inductive Came | landed | fell | resumed
  deriving DecidableEq, Repr

/-- One thread (R16, R18, R19, R33, R215, R229, R364, R365). `held` lists the set it is held with (R232); `resume` is a wait that
an asynchronous trap interrupted and where (R363); `failedMerge` the EAs and PCs of its stores whose merge has failed (R402). `pts` is the
place in T that its accesses have come to ("Leases and logical time", R107), `sync` the place before which its operations read nothing: that of
its last SYNC (R116), or of its launch (R115). `lost` are its failed destinations that stood in frames it has given up (R401). -/
structure Thread where
  tidx : Nat
  lane : Nat
  slot : Nat
  pc : Addr
  frames : List Frame
  preds : BitVec 7 := 0
  rejoin : List RejoinPair := []
  wait : Wait := .run
  held : List Nat := []
  exited : Bool := false
  handler : Bool := false
  trapc : Word := 0
  trapa : Addr := 0
  trapv : Addr := 0
  watch : Option Watch := none
  arrivals : Tab Nat := []
  resume : Option (Addr × Wait) := none
  failedMerge : List (Addr × Addr) := []
  came : Came := .landed
  pts : Nat := 0
  sync : Nat := 0
  lost : List Reg := []
  deriving DecidableEq, Repr

/-- The clause in hand (R127): its address, its co-located set by TIDX, its flags, packets and words so far, the chain position
of its word; whether its WAIT was met, whether an RTE resumed it, and the packet it issues from. -/
structure Clause where
  start : Addr
  set : List Nat
  seta : Nat
  setb : Nat
  packets : Nat
  words : Nat := 0
  chain : Nat := 0
  tested : Bool := false
  resumed : Bool := false
  code : List Word := []
  deriving DecidableEq, Repr

/-- A group (R16, R41, R131). `lastStart` and `lastBack` say how the last clause ended (R24); `kept` is the clause of a set that waits
in place while another set of the group runs a handler (R363); `demoted` says that the group leaves the active set at its next clause
boundary (R45). `issuedAt` and `triedAt` say when a word of it last took effect, and was last tried (R44). -/
structure Group where
  gidx : Nat
  part : Nat
  threads : List Thread
  flags : List Nat := List.replicate 12 0
  clause : Option Clause := none
  lastStart : Addr := 0
  lastBack : Bool := false
  active : Bool := true
  parkedAt : Nat := 0
  issuedAt : Nat := 0
  promotedAt : Nat := 0
  stalled : Bool := false
  triedAt : Nat := 0
  kept : Option Clause := none
  demoted : Bool := false
  deriving DecidableEq, Repr

/-- A barrier (R229). `top` is the place in T that its arrivals of the phase had come to, `heard` the same of the phases that have completed
(R233). -/
structure Barrier where
  ph : Nat := 0
  arr : Nat := 0
  exp : Nat := 0
  top : Nat := 0
  heard : Nat := 0
  deriving DecidableEq, Repr

/-- The states of a convergence register (R234). -/
inductive KState | idle | open | complete
  deriving DecidableEq, Repr

/-- A convergence register (R234, R251): `op` is the operation of an MMA generation; `sg` the scale group's GIDX. -/
structure KReg where
  st : KState := .idle
  n : Nat := 0
  sg : Nat := 0
  gen : BitVec 8 := 0
  mma : Option Bool := none
  signers : List Nat := []
  proto : List Word := []
  op : Option Nat := none
  deriving DecidableEq, Repr

/-- A launch descriptor (R302). -/
structure Desc where
  entry : Addr
  argp : Addr
  nx : Nat
  ny : Nat
  nz : Nat
  tsize : Nat
  width : Nat
  spread : Nat
  clh : Nat
  clw : Nat
  frame : Nat
  priv : Nat
  scr : Nat
  csh : Nat
  tiles : Nat
  keep : Bool
  home : Bool
  setw : Bool
  uchk : Bool
  deadline : Nat
  budget : Nat
  equota : Nat
  handler : Addr
  wctr : Nat
  winit : Nat
  dctr : Nat
  cls : Nat
  deriving DecidableEq, Repr

/-- A reservation (R242): engines as the bits of MASK, the window. -/
structure Reservation where
  eng : BitVec 2
  base : Nat
  count : Nat
  deriving DecidableEq, Repr

/-- A reservation request that waits (R244, R245): `who` is the leader that made it, `word` what its MRES returns once it is granted. -/
structure MresReq where
  gidx : Nat
  eng : BitVec 2
  count : Nat
  order : Nat
  who : Nat := 0
  granted : Bool := false
  word : Word := 0
  deriving DecidableEq, Repr

/-- An asynchronous trap pending in a team, with its TRAPV (R362); `since` is the place in T of the last GTR (R378). -/
structure Async where
  user : Option Addr := none
  budget : Option Addr := none
  energy : Option Addr := none
  throttle : Option Addr := none
  since : Nat := 0
  deriving DecidableEq, Repr

/-- A team and its place on a core (R16, R17, R46, R78–R80, R92, R229, R234, R242, R317). `evicted` says that a swapped-out team left for
pre-emption (R314), `throttled` the throttled state last delivered to it (R317), `stuckAt` since when it is stuck, `clusterStuckAt` since
when its cluster is (R418). `desc` is its slice's descriptor: it outlives the slice with the team's operations (R48, R278). `given` are requests for a
reservation that was granted, and released by another group of the team, before their MRES was tried again (R244). -/
structure Team where
  uid : Nat
  ctx : Nat
  slice : Word
  desc : Desc
  index : Nat
  core : Nat
  cluster : Nat
  rank : Nat
  parts : List Nat
  slot : Nat
  units : List Nat
  tileBase : Nat
  groups : List Group
  bars : Tab Barrier := []
  kregs : Tab KReg := []
  resv : Option Reservation := none
  mres : Option MresReq := none
  given : List MresReq := []
  mrel : Option Nat := none
  throttleMask : BitVec 2 := 0
  throttled : Bool := false
  async : Async := {}
  started : Bool := false
  retired : Bool := false
  killed : Bool := false
  swapped : Bool := false
  evicted : Bool := false
  stuckAt : Option Nat := none
  clusterStuckAt : Option Nat := none
  deriving DecidableEq, Repr

/-! ### Operations, tiles, accesses in flight -/

/-- Where a page-table entry stands: what a walk reads, and what the compare-and-set of R333 changes (R90). -/
structure PteAt where
  loc : Nat
  exec : Nat
  reps : List Nat
  deriving DecidableEq, Repr

/-- A translation entry of a die (R332): the page, its leaf entry, its level, and where the entry stands. -/
structure Trans where
  die : Nat
  asid : Nat
  vpn : Nat
  level : Nat
  napot : Bool
  pte : Nat
  at_ : PteAt
  deriving DecidableEq, Repr

/-- The kinds of R271; `queue` is a queue packet (no handle). -/
inductive OpKind | mma | astr | xcopy | xcoll | queue
  deriving DecidableEq, Repr

/-- The states of R274, with `opening` for an MMA whose generation is still OPEN (R251). -/
inductive OpState | opening | queued | running | done | cancelled
  deriving DecidableEq, Repr

/-- The owners of R276 and R277. -/
inductive Owner | thread | team | orphan | retired
  deriving DecidableEq, Repr

/-- A child operation and its record (R271–R276). `words` holds the MMA prototype or the ASTR operands; `bytes` the packet
or the ASTR image; `lines` what an engine or Gleaner has read or must keep for it (operand lines, R256; source units it has written,
R114); `sig` its issuer's signature; `flags` the completion flags it holds up (team, group, flag);
`issue` the issue of XCOPY or XCOLL that made it; `oteam` its owner's team; `sent` the chunks of an XCOLL on their way; `floor` is the place
in T before which it reads nothing (R115, R116), `cw` the translation of its completion store, made with its last chunk, `port` the UALink port of the
Gleaner that runs an XCOLL (R430). -/
structure Op where
  uid : Nat
  token : Word
  kind : OpKind
  core : Nat
  slot : Nat
  ctx : Nat
  slice : Word
  team : Nat
  issuer : Nat
  start : Nat
  sig : Nat := 0
  st : OpState := .queued
  prog : Nat := 0
  pred : Word := 0
  cause : Nat := 0
  sub : Nat := 0
  otid : Nat := 0
  own : Owner := .thread
  det : Bool := false
  ord : Bool := false
  clamp : Bool := false
  nan : Bool := false
  pri : Nat := 0
  cancel : Bool := false
  words : List Word := []
  bytes : List Byte := []
  scales : Tab (List Byte) := []
  lines : Tab (List Byte) := []
  k : Nat := 0
  flags : List (Nat × Nat × Nat) := []
  engine : Option Nat := none
  queue : Nat := 0
  counted : Bool := false
  fault : Addr := 0
  issue : Nat := 0
  oteam : Nat := 0
  sent : Nat := 0
  floor : Nat := 0
  cw : Option Trans := none
  port : Option Nat := none
  deriving DecidableEq, Repr

/-- A slot of a core's child-operation table (R272). -/
structure Slot where
  gen : BitVec 8
  op : Option Nat
  deriving DecidableEq, Repr

/-- The states of a tile (R93). -/
inductive TileState | empty | filling | ready | draining
  deriving DecidableEq, Repr

/-- A tile-table entry (R93). -/
structure Tile where
  base : Nat := 0
  size : Nat := 0
  pend : Nat := 0
  st : TileState := .empty
  team : Nat := 0
  deriving DecidableEq, Repr

/-- A place in a tile's order (R248): an operation, or an issue of a group, told by the first thread of its set. -/
inductive User
  | op (uid : Nat)
  | issue (team gidx who : Nat)
  deriving DecidableEq, Repr

/-- An accumulator tile (R64, R248): mantissas by element number 32i + j, the unlisted ones 0; the exponent; the order; whether its
storage code has failed, and whether it failed before the MMA with ACC clear that is now rewriting the tile began (R427). -/
structure Acc where
  mant : Tab Int := []
  e : Int := 0
  order : List User := []
  bad : Bool := false
  old : Bool := false
  deriving DecidableEq, Repr

/-- Which agent other than a register's thread a read of the host is for: an operation, a queue's Gleaners, a thread's XQPOST, a base core, a
column's service ring. -/
inductive Reader
  | op (uid : Nat)
  | queue (id : Nat)
  | post
  | hart (h : Nat)
  | ring (column : Nat)
  deriving DecidableEq, Repr

/-- Data on its way to registers (R133, R401): `tidxs` receive `vals`, the words of `ext` bytes (with 32 added for sign extension);
`blocks` are the check blocks it passes, and `bad` says that one of them was bad where the access stands in T; `since` is the moment it
left for the host (R405); `reader` says whom a system-view read is for, when it is no register's, and `key` which read of it this is; `wrote` says that it is an atomic's, which has written; `via` is the translation that an access of device memory or of the host went through (R335). -/
structure Load where
  id : Nat
  issue : Nat
  team : Nat
  gidx : Nat
  tidxs : List Nat
  vals : List Word
  ext : Nat
  blocks : List Nat
  ea : Addr
  sub : Nat
  flag : Option Nat
  sysview : Option Nat := none
  reader : Option Reader := none
  bad : Bool := false
  since : Nat := 0
  key : Nat := 0
  wrote : Bool := false
  via : Option Trans := none
  deriving DecidableEq, Repr

/-- A store or RED whose acknowledgement is on its way (R402), or a posted system-view store (R116, R405). `tidxs` are the threads that
made it, `orders` those in whose program order it stands (R101); `bad` says that its merge failed; `op` is the operation that wrote it; `via`
is the translation that it went through (R335); `data` is what a posted store brings. -/
structure Store where
  id : Nat
  issue : Nat
  team : Nat
  gidx : Nat
  tidxs : List Nat
  orders : List Nat := []
  blocks : List Nat
  ea : Addr
  pc : Addr
  ctx : Nat
  slice : Word := 0
  core : Nat := 0xFFFF
  bad : Bool := false
  op : Option Nat := none
  sysview : Option Nat := none
  data : List Byte := []
  via : Option Trans := none
  deriving DecidableEq, Repr

/-- Why a frame request was made (R34, R39). -/
inductive FrameUse | call | frsz | refill
  deriving DecidableEq, Repr

/-- A frame request (R34): `who` are the threads that wait on it, a co-located set or part of one, with the demand and depth that R387
gives of each, and `need` the granules and records it asks of each lane; `frees` are the granules that shrinking threads of its issue have
given up already (R225). -/
structure FrameReq where
  team : Nat
  gidx : Nat
  core : Nat
  part : Nat
  use : FrameUse
  who : List (Nat × Nat)
  need : List (Nat × Nat × Nat)
  order : Nat
  since : Nat
  granted : Bool := false
  frees : List (Nat × Nat × Nat) := []
  deriving DecidableEq, Repr

/-- A CWB or CINV in progress (R213, R214): the runs of locations it covers, and whether it removes cached copies. -/
structure CacheOp where
  id : Nat
  team : Nat
  gidx : Nat
  runs : List (Nat × Nat) := []
  inv : Bool := false
  deriving DecidableEq, Repr

/-! ### Translation -/

/-- A walk in flight (R98, R332): the groups that wait for it (R42), by team and GIDX; `returned` says that it has come back with a fault, which
the waiting accesses meet when they issue again. -/
structure Walk where
  id : Nat
  die : Nat
  ctx : Nat
  va : Nat
  waiters : List (Nat × Nat) := []
  returned : Bool := false
  deriving DecidableEq, Repr

/-- An invalidation on its way (R334): the participants that have still to receive and to acknowledge it, and when each die's unit
received it. -/
structure Inval where
  id : Nat
  hart : Nat
  va : Nat
  pages : Nat
  asid : Option Nat
  toReceive : List Participant
  toAck : List Participant
  gotAt : Tab Nat := []
  deriving DecidableEq, Repr

/-! ### The Fold -/

/-- A job slice (R303–R311). `graced` says that its teams have been killed at the grace point of a limit (R417). -/
structure Slice where
  id : Word
  ctx : Nat
  desc : Desc
  column : Nat
  joined : Bool
  ready : Option Nat
  next : Nat := 0
  left : Nat
  cycles : Nat := 0
  energy : Nat := 0
  cause : Nat := 0
  limitB : Bool := false
  limitE : Bool := false
  graced : Bool := false
  closed : Bool := false
  complete : Bool := false
  poolPosted : Bool := false
  topAt : Option Nat := none
  deriving DecidableEq, Repr

/-- A rectangle of cores reserved for a cluster of a context's slice (R308). -/
structure Reserve where
  ctx : Nat
  slice : Word
  cores : List Nat
  deriving DecidableEq, Repr

/-- A stile line (R301): its storage line, every replica of it (R90), the requests not yet taken, the count taken. -/
structure StileLine where
  id : Nat
  ctx : Nat
  column : Nat
  loc : Nat
  reps : List Nat
  reqs : List (Addr × Nat) := []
  taken : Nat := 0
  deriving DecidableEq, Repr

/-- A user-mode queue and its Gleaners' own copies (R289, R413); `host` is what they have read of the host for the packet they take, `index` the
storage lines at which they last found WIDX (R414). -/
structure Queue where
  id : Nat
  ctx : Nat
  die : Nat
  header : Addr
  ring : Addr
  capl : Nat
  ridx : Addr := 0
  blocked : Bool := false
  index : List Nat := []
  host : Tab (List Byte) := []
  deriving DecidableEq, Repr

/-- A receiving window (R341). -/
structure Window where
  base : Addr
  size : Nat
  write : Bool
  reduce : Bool
  deriving DecidableEq, Repr

/-- The phases of a context (R314, R422). -/
inductive Phase
  | running
  | draining (until_ : Nat)
  | swapping (until_ : Nat)
  | out
  | wiped
  deriving DecidableEq, Repr

/-- A context (R300, R305, R314, R331, R370). -/
structure Context where
  num : Nat
  asid : Nat
  root : Nat
  hart : Nat
  sward : List Nat
  swardBase : List Nat
  spill : Nat
  save : Nat
  cn : Nat
  drain : Nat
  swap : Nat
  phase : Phase := .running
  counters : Tab Nat := []
  orphans : List Nat := []
  windows : Tab Window := []
  grants : List (Nat × Nat) := []
  deriving DecidableEq, Repr

/-- A column: class, clock change, governor, service ring (R315, R316, R331, R339, R431). `posted` counts the records that are posted and
not yet freed; `fromHost` is what the device has read of a ring that lies in host memory, by read; `dieDrawn` says that its compute die's draw was found near the die's share (R14); `clockSince` is when the clock last changed, `clockBase` the twentieths of a cycle it had counted by then (R172). -/
structure Column where
  cls : Nat := 0
  changing : Bool := false
  level : Nat := 3
  target : Nat := 3
  heldZero : Bool := false
  steppedAt : Nat := 0
  events : Nat := 0
  ring : Option Nat := none
  post : Nat := 0
  served : Nat := 0
  posted : Nat := 0
  fromHost : Tab (List Byte) := []
  clockSince : Nat := 0
  clockBase : Nat := 0
  dieDrawn : Bool := false
  deriving DecidableEq, Repr

/-- A core's counters: HOMELOC, HOMEREM, TDSPILL, TDREFILL, TDHBM (R99, R324). -/
structure CoreRegs where
  homeLoc : Nat := 0
  homeRem : Nat := 0
  tdSpill : Nat := 0
  tdRefill : Nat := 0
  tdHbm : Nat := 0
  deriving DecidableEq, Repr

/-- The privilege modes of R326. -/
inductive Mode | user | supervisor | machine
  deriving DecidableEq, Repr

/-- What a base core has to read of the host before it goes on (R118, R330): for a load, its register, address and size; with none, the
Fold's read of a command block, or, with `nonce`, of a buffer's nonce (R440). `got` holds what has come, by transaction: none for one that was refused. -/
structure HostRead where
  rd : Option (BitVec 5)
  va : Addr
  size : Nat
  got : Tab (Option (List Byte)) := []
  nonce : Bool := false
  deriving DecidableEq, Repr

/-- A base core (R326, R327, R330, R338, R372): `joinId` is the slice an ejoin waits on, `joinVal` what it is to return;
`hostRead` is the read of the host that it waits for, `block` the last command block that the Fold has read there, `nonce` the nonce it has read for
ATTEST; `pts` is the place in T that what it does from now on stands after (R118). Its trap registers are the RISC-V privileged architecture's (log 12). -/
structure Hart where
  x : Tab Addr := []
  pc : Addr := 0
  mode : Mode := .machine
  satp : Addr := 0
  efcmd : Addr := 0
  mip : Addr := 0
  mie : Addr := 0
  mideleg : Addr := 0
  medeleg : Addr := 0
  mstatus : Addr := 0
  mtvec : Addr := 0
  stvec : Addr := 0
  mepc : Addr := 0
  sepc : Addr := 0
  mcause : Addr := 0
  scause : Addr := 0
  mtval : Addr := 0
  stval : Addr := 0
  joinId : Option (Nat × Word) := none
  joinVal : Option Addr := none
  hostRead : Option HostRead := none
  block : List Byte := []
  nonce : Option (List Byte) := none
  pts : Nat := 0
  deriving DecidableEq, Repr

/-! ### The module -/

/-- The status and fatal record of the bring-up capability (R437). -/
structure Cap where
  phase : Nat := 0
  step : Nat := 0
  reason : Nat := 0
  unit : Nat := 0
  die : Nat := 0
  fcause : Nat := 0
  fcause2 : Nat := 0
  fdie : Nat := 0
  dump : Nat := 0
  funit : Nat := 0
  ftime : Nat := 0
  deriving DecidableEq, Repr

/-- A link's state and counts (R430, R434): `flit` counts the replays of the flit that was replayed last. -/
structure LinkRegs where
  up : Bool := true
  replays : Nat := 0
  retrains : Nat := 0
  flit : Nat := 0
  tries : Nat := 0
  deriving DecidableEq, Repr

/-- What leaves the module, newest last: system-view accesses, peer writes, the receiving Gleaner's answers to a peer's writes, signals,
inbound replies (R117, R119, R342, R433). -/
inductive Out
  | hostStore (id die : Nat) (addr : Nat) (data : List Byte)
  | hostLoad (id die : Nat) (addr len : Nat)
  | peer (op chunk : Nat) (dst : Addr) (data : List Byte) (aop : Option (Nat × Int))
  | peerAck (die peer op chunk : Nat) (fail : Option (Nat × Nat))
  | msix (die vector : Nat)
  | completion (die : Nat) (data : Option (List Byte))
  | refusedRead (die port peer : Nat)
  deriving DecidableEq, Repr

/-- The group and word in hand: `team` and `gidx` name the group whose word is being issued (log 1). -/
structure Cur where
  team : Nat
  gidx : Nat
  deriving DecidableEq, Repr

/-- Soft errors in storage (R427, R428); the flag says that the code could not correct it. `cached` is one in a cache's copy of a location. -/
inductive Upset
  | memory (loc : Nat) (bad : Bool)
  | cached (loc : Nat) (bad : Bool)
  | register (team tidx n : Nat) (bad : Bool)
  | accumulator (core pos : Nat) (bad : Bool)
  | tables (core : Nat) (bad : Bool)
  | fold (die unit : Nat) (bad : Bool)
  | hartCache (h : Nat) (bad : Bool)
  deriving DecidableEq, Repr

/-- Which agent moves next (log 1): a partition issues a word, a base core fetches one, an event occurs, storage is upset, TIME
passes, firmware goes on with the bring-up step or the dump that it has begun. -/
inductive Turn
  | issue (core part : Nat)
  | hart (h : Nat)
  | event (i : Instr)
  | upset (u : Upset)
  | pass (ns : Nat)
  | firmware
  deriving DecidableEq, Repr

/-- A write that stands in T ("Leases and logical time", R103, R106): the 16-byte unit it changed, what the unit held before, its place in T and
its TIME; `seen` are the agents that have read or made the unit's bytes as they are after it. A reader whose own place in T is lower may
still find the older bytes. -/
structure Past where
  unit : Nat
  old : List Byte
  stamp : Nat
  time : Nat
  seen : List Nat := []
  deriving DecidableEq, Repr

/-- The whole machine. `mem` holds every byte as T gives it; `hbm` lists the bytes that HBM itself may hold otherwise (R212–R214), true
for those a device write has changed since they were last written back; `bad` lists the bad check blocks (R400). `lastWindow` is the context
that last opened each window, `peerFails` the peers' operations that failed here, with the chunk (R411). `stopped` says that a fatal error has stopped
the cores, engines and Gleaners, and the Fold refuses; a reset ends it (R433, log 50). `fuses` counts the blown fuses of the
security version, and `image` is the firmware that runs (R438). `caps` is what each die's endpoint shows of the capability of which `cap` is
firmware's own record; `boot` is the bring-up in progress, `dumping` the section of the dump that comes next and its offset. `past` are the writes that some reader may not have seen yet, oldest first, and
`tick` counts the writes so far: the last place in T. `fence` is the place before which no store may stand any more, none while that is the last one;
`reads` gives, by 16-byte unit, the last place at which a thread's load of it has stood since. `owing` are the slices whose entry is gone while
operations of theirs run on (R310, R417).
`stirred` says when something last happened that may end a wait (R44). -/
structure State where
  time : Nat := 0
  powered : Bool := true
  cap : Cap := {}
  stopped : Bool := false
  caps : Tab Cap := []
  boot : Option PowerOn := none
  dumping : Option (Nat × Nat) := none
  fuses : Nat := 0
  image : Image := {}
  errs : List Nat := [0, 0, 0, 0, 0, 0]
  dieErrs : Tab Nat := []
  sensors : Tab (List Nat) := []
  links : List (Link × LinkRegs) := []
  uncorrectable : List (Nat × Nat) := []
  routes : List (Nat × Nat × Nat) := []
  mem : List Host.Cell := []
  past : List Past := []
  tick : Nat := 0
  fence : Option Nat := none
  reads : Tab Nat := []
  hbm : Tab (Byte × Bool) := []
  bad : List Nat := []
  teams : List Team := []
  slots : Tab Slot := []
  ops : List Op := []
  tiles : Tab Tile := []
  accs : Tab Acc := []
  loads : List Load := []
  stores : List Store := []
  frameReqs : List FrameReq := []
  cacheOps : List CacheOp := []
  tlb : List Trans := []
  walks : List Walk := []
  invals : List Inval := []
  contexts : List Context := []
  slices : List Slice := []
  owing : List Slice := []
  reserves : List Reserve := []
  stiles : List StileLine := []
  queues : List Queue := []
  lastWindow : Tab Nat := []
  peerFails : List (Nat × Nat × Nat) := []
  columns : Tab Column := []
  poolGoal : List Nat := [48, 0, 0, 0]
  cores : Tab CoreRegs := []
  pf : Tab Nat := []
  harts : Tab Hart := []
  out : List Out := []
  bkpt : List Nat := []
  agenda : List Turn := []
  seq : Nat := 0
  draws : Nat := 0
  stirred : Nat := 0
  cur : Option Cur := none
  curHart : Nat := 0
  deriving DecidableEq, Repr

/-- The module in reset (R435, R437): PHASE 0, HBM and SRAM zero, TIME 0, no context; a POWER_ON_RESET event begins its bring-up (R436). The
registers the spec gives no reset value are zero (log 12), the pools all class 0 (log 20). -/
def State.reset : State := {}

end Sys2Proof.Machine
end

