-- ==== Sys2Proof/Machine/Tab.lean ====
section
/-! DEFINITION. Sparse tables and byte memory in canonical form; little-endian numbers and byte lists (R3). -/

namespace Sys2Proof.Machine

/-- The entry of key `k`. -/
def tget {α : Type} (t : Tab α) (k : Nat) : Option α := t.lookup k

/-- The entry of key `k`, or a default. -/
def tgetD {α : Type} (t : Tab α) (k : Nat) (d : α) : α := (tget t k).getD d

/-- The table with `v` at `k`, keys rising. -/
def tset {α : Type} : Tab α → Nat → α → Tab α
  | [], k, v => [(k, v)]
  | (j, w) :: t, k, v => if k < j then (k, v) :: (j, w) :: t else if k = j then (k, v) :: t else (j, w) :: tset t k v

/-- The table without key `k`. -/
def tdel {α : Type} (t : Tab α) (k : Nat) : Tab α := t.filter fun e => e.1 != k

/-- A byte of memory: unlisted locations read 0 (R436). -/
def Memory.get (m : List Host.Cell) (a : Nat) : Byte := (m.lookup a).getD 0

/-- Memory with byte `b` at `a`: the list stays in rising order, and zero bytes are not listed. -/
def Memory.put : List Host.Cell → Nat → Byte → List Host.Cell
  | [], a, b => if b = 0 then [] else [(a, b)]
  | (c, d) :: m, a, b =>
    if a < c then (if b = 0 then (c, d) :: m else (a, b) :: (c, d) :: m)
    else if a = c then (if b = 0 then m else (a, b) :: m)
    else (c, d) :: Memory.put m a b

/-- Addresses strictly rise from above `lo`, and no byte is 0. -/
def Memory.above : Nat → List Host.Cell → Bool
  | _, [] => true
  | lo, (a, b) :: m => decide (lo < a) && b != 0 && Memory.above a m

/-- The canonical form: addresses strictly rising, no listed byte 0. -/
def Memory.wf : List Host.Cell → Bool
  | [] => true
  | (a, b) :: m => b != 0 && Memory.above a m

/-- Memory after the bytes of `cells` are written in order. -/
def Memory.puts (m : List Host.Cell) (cells : List (Nat × Byte)) : List Host.Cell :=
  cells.foldl (fun m c => Memory.put m c.1 c.2) m

/-- `n` bytes from location `a` up. -/
def Memory.gets (m : List Host.Cell) (a n : Nat) : List Byte := (List.range n).map fun i => Memory.get m (a + i)

/-- Memory with locations `lo` to `hi - 1` zero. -/
def Memory.clear (m : List Host.Cell) (lo hi : Nat) : List Host.Cell := m.filter fun c => c.1 < lo || hi ≤ c.1

/-- The little-endian number of bytes (R3). -/
def leNat : List Byte → Nat
  | [] => 0
  | b :: bs => b.toNat + 256 * leNat bs

/-- The low `n` bytes of a number, little-endian. -/
def toLe : Nat → Nat → List Byte
  | 0, _ => []
  | n + 1, v => BitVec.ofNat 8 v :: toLe n (v / 256)

/-- Bytes with the locations they stand at. -/
def cellsAt (loc : Nat) (bs : List Byte) : List (Nat × Byte) := (List.range bs.length).zip bs |>.map fun p => (loc + p.1, p.2)

/-- A number read from memory. -/
def Memory.nat (m : List Host.Cell) (a n : Nat) : Nat := leNat (Memory.gets m a n)

/-- A list without repeats, first occurrences kept. -/
def dedup (l : List Nat) : List Nat := l.foldl (fun acc x => if acc.contains x then acc else acc ++ [x]) []

/-- The least element of a list by a measure, the first among equals. -/
def leastBy {α : Type} (f : α → Nat) : List α → Option α
  | [] => none
  | a :: l => match leastBy f l with
    | none => some a
    | some b => if f a ≤ f b then some a else some b

/-- Insertion of `a` into a list rising by `f`, after equals. -/
def insertBy {α : Type} (f : α → Nat) (a : α) : List α → List α
  | [] => [a]
  | b :: l => if f a < f b then a :: b :: l else b :: insertBy f a l

/-- A list sorted by a measure, equals in their old order. -/
def sortBy {α : Type} (f : α → Nat) (l : List α) : List α := l.foldl (fun acc a => insertBy f a acc) []

/-- The first element for which `p` holds, replaced by `f` of it. -/
def mapWhere {α : Type} (p : α → Bool) (f : α → α) (l : List α) : List α := l.map fun a => if p a then f a else a

/-! ### Finding and changing parts of the state -/

/-- The team of uid `u`. -/
def State.team? (s : State) (u : Nat) : Option Team := s.teams.find? (·.uid == u)
/-- Change the team of uid `u`. -/
def State.updTeam (s : State) (u : Nat) (f : Team → Team) : State := { s with teams := mapWhere (·.uid == u) f s.teams }
/-- The group `g` of a team. -/
def Team.group? (t : Team) (g : Nat) : Option Group := t.groups.find? (·.gidx == g)
/-- Change the group `g` of a team. -/
def Team.updGroup (t : Team) (g : Nat) (f : Group → Group) : Team := { t with groups := mapWhere (·.gidx == g) f t.groups }
/-- Change group `g` of team `u`. -/
def State.updGroup (s : State) (u g : Nat) (f : Group → Group) : State := s.updTeam u (·.updGroup g f)
/-- Change the threads of group `g` of team `u` for which `p` holds. -/
def State.updThreads (s : State) (u g : Nat) (p : Thread → Bool) (f : Thread → Thread) : State :=
  s.updGroup u g fun gr => { gr with threads := mapWhere p f gr.threads }
/-- Change every thread of team `u` for which `p` holds. -/
def State.updTeamThreads (s : State) (u : Nat) (p : Thread → Bool) (f : Thread → Thread) : State :=
  s.updTeam u fun t => { t with groups := t.groups.map fun g => { g with threads := mapWhere p f g.threads } }
/-- All threads of a team. -/
def Team.threads (t : Team) : List Thread := t.groups.flatMap (·.threads)
/-- The threads of a team that have not exited. -/
def Team.live (t : Team) : List Thread := t.threads.filter fun th => !th.exited
/-- The slice of an id. -/
def State.slice? (s : State) (ctx : Nat) (id : Word) : Option Slice := s.slices.find? fun x => x.ctx == ctx && x.id == id
/-- Change a slice. -/
def State.updSlice (s : State) (ctx : Nat) (id : Word) (f : Slice → Slice) : State :=
  { s with slices := mapWhere (fun x => x.ctx == ctx && x.id == id) f s.slices }
/-- The context of a number. -/
def State.ctx? (s : State) (n : Nat) : Option Context := s.contexts.find? (·.num == n)
/-- Change a context. -/
def State.updCtx (s : State) (n : Nat) (f : Context → Context) : State := { s with contexts := mapWhere (·.num == n) f s.contexts }
/-- The operation of a uid. -/
def State.op? (s : State) (u : Nat) : Option Op := s.ops.find? (·.uid == u)
/-- Change an operation. -/
def State.updOp (s : State) (u : Nat) (f : Op → Op) : State := { s with ops := mapWhere (·.uid == u) f s.ops }
/-- A column. -/
def State.column (s : State) (c : Nat) : Column := tgetD s.columns c {}
/-- Change a column. -/
def State.updColumn (s : State) (c : Nat) (f : Column → Column) : State := { s with columns := tset s.columns c (f (s.column c)) }
/-- A core's counters. -/
def State.core (s : State) (c : Nat) : CoreRegs := tgetD s.cores c {}
/-- Change a core's counters. -/
def State.updCore (s : State) (c : Nat) (f : CoreRegs → CoreRegs) : State := { s with cores := tset s.cores c (f (s.core c)) }
/-- A base core. -/
def State.hart (s : State) (h : Nat) : Hart := tgetD s.harts h {}
/-- Change a base core. -/
def State.updHart (s : State) (h : Nat) (f : Hart → Hart) : State := { s with harts := tset s.harts h (f (s.hart h)) }
/-- A tile-table entry of a core. -/
def State.tile (s : State) (core i : Nat) : Tile := tgetD s.tiles (core * 64 + i) {}
/-- Change a tile-table entry. -/
def State.updTile (s : State) (core i : Nat) (f : Tile → Tile) : State :=
  { s with tiles := tset s.tiles (core * 64 + i) (f (s.tile core i)) }
/-- An accumulator tile by its physical position. -/
def State.acc (s : State) (core p : Nat) : Acc := tgetD s.accs (core * 512 + p) {}
/-- Change an accumulator tile. -/
def State.updAcc (s : State) (core p : Nat) (f : Acc → Acc) : State :=
  { s with accs := tset s.accs (core * 512 + p) (f (s.acc core p)) }
/-- The pseudo-core under which a swapped-out team's tables stand in its save area. -/
def savedCore (u : Nat) : Nat := 2 ^ 32 + u
/-- A core's die and column (R8: 48 cores a die, four to a column, 12 columns a die). -/
def dieOfCore (c : Nat) : Nat := c / 48
/-- A column's die. -/
def dieOfColumn (c : Nat) : Nat := c / 12
/-- The barrier `i` of a team. -/
def Team.bar (t : Team) (i : Nat) : Barrier := tgetD t.bars i {}
/-- The convergence register `k` of a team. -/
def Team.kreg (t : Team) (k : Nat) : KReg := tgetD t.kregs k {}

end Sys2Proof.Machine
end

