-- ==== Sys2Proof/Machine/Xlat.lean ====
section
/-! DEFINITION. From addresses to storage: windows (R76–R82), placement (R85–R90), Sv57 translation (R332, R333), and writes. -/

namespace Sys2Proof.Machine

/-- A core's column (R8). -/
def columnOfCore (c : Nat) : Nat := 12 * (c / 48) + 4 * (c % 48 / 8 / 2) + c % 8 / 2

/-! ### Storage locations: one number a byte -/

/-- HBM of a die (R87, R88). -/
def locHbm (die off : Nat) : Nat := die * 2 ^ 38 + off
/-- Sward of a die (R81). -/
def locSward (die off : Nat) : Nat := 2 ^ 40 + die * 2 ^ 25 + off
/-- Local SRAM of a core (R79). -/
def locSram (core off : Nat) : Nat := 2 ^ 41 + core * 0x180000 + off
/-- A thread's share of its lane's program region (R78), named by its holder. -/
def locLane (team tidx off : Nat) : Nat := 2 ^ 60 + (team * 2048 + tidx) * 4096 + off

/-- The agents of R82: a device thread, an engine or Gleaner working for a team, a Gleaner working for a queue. -/
inductive Agent
  | thread (team tidx : Nat)
  | oper (team : Nat)
  | queue (ctx die : Nat)
  deriving DecidableEq, Repr

/-- What an access does (R199, R332): a plain read, a write, an atomic (a write that also reads), a fetch, MWATCH. -/
inductive AccKind | read | write | atomic | fetch | watch
  deriving DecidableEq, Repr

/-- Whether an access is of write type. -/
def AccKind.writes : AccKind → Bool
  | .write | .atomic => true
  | _ => false

/-- The views of R85 and the windows of R76. -/
inductive View | lane | scratch | cluster | sward | inter | dieLocal | repl | system
  deriving DecidableEq, Repr

/-- Where an access goes: read location, the locations a write changes, home die (R99), physical address, and the translation it goes
through. For a write or atomic of a replicated page `loc` is the sequencer's replica, where its merge is judged and executed (R90, R407). -/
structure Target where
  view : View
  loc : Nat
  reps : List Nat
  home : Nat
  pa : Nat
  leaf : Option Trans
  deriving DecidableEq, Repr

/-- A cause met, with its sub-cause (R359). -/
structure Miss where
  cause : Nat
  sub : Nat
  deriving DecidableEq, Repr

/-- The place of a cause in R361's order; smaller is earlier. -/
def causeRank (c : Nat) : Nat :=
  match c with
  | 5 => 1 | 1 => 2 | 2 => 3 | 4 => 4 | 3 => 5 | 6 => 6 | 0xF => 7 | 0xE => 8 | 0xC => 9 | 0xD => 10
  | 8 => 11 | 7 => 12 | 9 => 13 | 0xA => 14 | 0xB => 15 | 0x12 => 16 | _ => 17

/-! ### Physical addresses -/

/-- The XOR of the `n` lowest two-bit pairs of a number. -/
def foldPairs : Nat → Nat → Nat
  | 0, _ => 0
  | n + 1, v => (v % 4) ^^^ foldPairs n (v / 4)

/-- The home die of an interleaved byte (R87): pairs PA[13:12] to PA[45:44]. -/
def homeDie (pa : Nat) : Nat := foldPairs 17 (pa / 2 ^ 12)

/-- Where a physical address leads, for a requester on `die` (R85–R90): a view or the sub-cause of PAGE. An address that breaks the map
in PA[55:48] and again in PA[47:44] reports PA[55:48], SUB 0x04: the spec orders no two sub-causes of PAGE (log 69). -/
def physical (pa die : Nat) : Except Nat Target :=
  let field := pa / 2 ^ 44 % 16
  let off := pa % 2 ^ 38
  if pa / 2 ^ 48 ≠ 0 then .error 4
  else if field < 4 then .ok ⟨.system, 0, [], field, pa, none⟩
  else if field = 8 then
    if pa / 2 ^ 40 % 16 ≠ 0 then .error 4
    else
      let d := homeDie pa
      let l := locHbm d (pa % 2 ^ 40 / 2 ^ 14 * 2 ^ 12 + pa % 2 ^ 12)
      .ok ⟨.inter, l, [l], d, pa, none⟩
  else if field = 9 then
    if pa / 2 ^ 40 % 16 ≠ 0 then .error 4
    else
      let d := pa / 2 ^ 38 % 4
      .ok ⟨.dieLocal, locHbm d off, [locHbm d off], d, pa, none⟩
  else if field = 10 then
    if pa / 2 ^ 42 % 4 ≠ 0 ∨ pa / 2 ^ 38 % 4 ≠ 0 then .error 4
    else .ok ⟨.repl, locHbm die off, (List.range 4).map (locHbm · off), pa / 2 ^ 40 % 4, pa, none⟩
  else .error 3

/-- The locations of a byte at a physical address, for agents that use physical addresses: the first is read, all are written (R90). -/
def paLocs (pa : Nat) : List Nat :=
  match physical pa 0 with
  | .ok t => t.reps
  | .error _ => []

/-- The location that a read of a byte at a physical address finds, for a requester on `die`: of a replicated page its own replica (R90). -/
def paLoc (pa : Nat) (die : Nat := 0) : Option Nat :=
  match physical pa die with
  | .ok t => if t.view = .system then none else some t.loc
  | .error _ => none

/-! ### Sv57 -/

/-- The 9-bit index of a virtual address at a level. -/
def vpnAt (va level : Nat) : Nat := va / 2 ^ (12 + 9 * level) % 512

/-- A bit of a page-table entry. -/
def pteBit (pte n : Nat) : Bool := pte / 2 ^ n % 2 == 1

/-- A leaf has R or X set. -/
def pteLeaf (pte : Nat) : Bool := pteBit pte 1 || pteBit pte 3

/-- The malformed entries of R332 at a level: PAGE SUB 0x02. -/
def pteMalformed (pte level : Nat) : Bool :=
  let ppn := pte / 2 ^ 10 % 2 ^ 44
  let n := pteBit pte 63
  pte / 2 ^ 54 % 128 ≠ 0 || (pteBit pte 2 && !pteBit pte 1) ||
  (if pteLeaf pte then
    level == 4 || (n && (level != 0 || ppn % 16 != 8)) || (level != 0 && ppn % 2 ^ (9 * level) != 0)
   else level == 0 || pteBit pte 4 || pteBit pte 6 || pteBit pte 7 || n || pte / 2 ^ 61 % 4 ≠ 0)

/-- The result of a walk: the leaf, its level and where it stands. -/
structure Leaf where
  pte : Nat
  level : Nat
  at_ : PteAt
  deriving DecidableEq, Repr

/-- Where a table entry at a target stands: one of a replicated page is updated at the sequencer's replica and in every other (R90). -/
def Target.pteAt (t : Target) : PteAt := ⟨t.loc, if t.view = .repl then locHbm t.home (t.pa % 2 ^ 38) else t.loc, t.reps⟩

/-- Walk `fuel` levels down from the table at page number `ppn` (R332, R402). -/
def walkFrom (s : State) (va die : Nat) : Nat → Nat → Except Miss Leaf
  | 0, _ => .error ⟨9, 2⟩
  | fuel + 1, ppn =>
    match physical (ppn * 4096 + vpnAt va fuel * 8) die with
    | .error e => .error ⟨9, e⟩
    | .ok t =>
      if t.view = .system then .error ⟨9, 3⟩
      else if s.bad.contains (t.loc / 64) then .error ⟨0xB, 5⟩
      else
        let pte := Memory.nat s.mem t.loc 8
        if !pteBit pte 0 then .error ⟨9, 1⟩
        else if pteMalformed pte fuel then .error ⟨9, 2⟩
        else if pteLeaf pte then .ok ⟨pte, fuel, t.pteAt⟩
        else walkFrom s va die fuel (pte / 2 ^ 10 % 2 ^ 44)

/-- Bytes a leaf covers. -/
def leafSize (level : Nat) (napot : Bool) : Nat := if napot then 0x10000 else 2 ^ (12 + 9 * level)

/-- The entry a die's unit keeps for a page (R332). -/
def State.kept? (s : State) (die asid va : Nat) : Option Trans :=
  s.tlb.find? fun e => e.die == die && (e.asid == asid || pteBit e.pte 5) && va / leafSize e.level e.napot == e.vpn

/-- The translation a die's unit uses: an entry it keeps, else a walk (R332). An entry that lacks A, or D for a write, stands only while
the PTE in memory equals it: the compare-and-set of R333 fails otherwise, and the unit walks again. That compare reads the PTE, so one that
fails its check gives CHECK SUB 0x05 (R402). -/
def leafOf (s : State) (die asid root va : Nat) (write : Bool) : Except Miss Leaf :=
  match s.kept? die asid va with
  | some e =>
    if pteBit e.pte 6 && (!write || pteBit e.pte 7) then .ok ⟨e.pte, e.level, e.at_⟩
    else if s.bad.contains (e.at_.exec / 64) then .error ⟨0xB, 5⟩
    else if Memory.nat s.mem e.at_.exec 8 == e.pte then .ok ⟨e.pte, e.level, e.at_⟩
    else walkFrom s va die 5 root
  | none => walkFrom s va die 5 root

/-- The physical address a leaf gives (R86, R332). -/
def leafPa (l : Leaf) (va : Nat) : Nat :=
  let size := leafSize l.level (pteBit l.pte 63)
  let ppn := l.pte / 2 ^ 10 % 2 ^ 44
  ppn * 4096 / size * size + va % size

/-- The entry that a unit keeps of a leaf it has found for an address (R332). -/
def Leaf.trans (l : Leaf) (die asid va : Nat) : Trans :=
  ⟨die, asid, va / leafSize l.level (pteBit l.pte 63), l.level, pteBit l.pte 63, l.pte, l.at_⟩

/-- PERM's sub-cause of a leaf for an access (R398), none when it is allowed. -/
def leafPerm (l : Leaf) (k : AccKind) : Option Nat :=
  if !pteBit l.pte 4 then some 2
  else match k with
    | .read | .watch => if pteBit l.pte 1 then none else some 3
    | .write | .atomic => if pteBit l.pte 2 then none else some 4
    | .fetch => if pteBit l.pte 3 then none else some 5

/-- Translate a device-memory address for a context on a die (R332, R397, R398): the causes met, the target if none. -/
def translate (s : State) (die : Nat) (c : Context) (va : Nat) (k : AccKind) : List Miss × Option Target :=
  if va ≥ 2 ^ 56 then ([⟨0xA, 1⟩], none)
  else match leafOf s die c.asid c.root va k.writes with
    | .error m => ([m], none)
    | .ok l =>
      let perm := (leafPerm l k).toList.map fun x => Miss.mk 0xA x
      match physical (leafPa l va) die with
      | .error e => (⟨9, e⟩ :: perm, none)
      | .ok t =>
        let sys : List Miss := if t.view = .system then
            (if k = .atomic then [⟨0xA, 6⟩] else if k = .watch then [⟨0xA, 7⟩] else []) else []
        let t := { t with leaf := some (l.trans die c.asid va), loc := if t.view = .repl ∧ k.writes then locHbm t.home (t.pa % 2 ^ 38) else t.loc }
        (perm ++ sys, if perm.isEmpty && sys.isEmpty then some t else none)

/-! ### Windows -/

/-- The window range of R76. -/
def inWindows (ea : Nat) : Bool := 0xFF000000000000 ≤ ea && ea < 2 ^ 56

/-- The member of a cluster with a rank (R46, R80). -/
def State.member? (s : State) (cluster rank : Nat) : Option Team := s.teams.find? fun t => t.cluster == cluster && t.rank == rank

/-- The byte of a team's units: `first` units in, `off` bytes. -/
def unitLoc (t : Team) (first off : Nat) : Nat := locSram t.core (t.units.getD (first + off / 65536) 0 * 65536 + off % 65536)

/-- The context of an agent. -/
def Agent.ctx (a : Agent) (s : State) : Option Context :=
  match a with
  | .thread u _ | .oper u => (s.team? u).bind fun t => s.ctx? t.ctx
  | .queue c _ => s.ctx? c

/-- The die an agent translates on. -/
def Agent.die (a : Agent) (s : State) : Nat :=
  match a with
  | .thread u _ | .oper u => ((s.team? u).map fun t => dieOfCore t.core).getD 0
  | .queue _ d => d

/-- Decode a window address (R76, R78–R82, R395). -/
def window (s : State) (a : Agent) (ea : Nat) (k : AccKind) : List Miss × Option Target :=
  let off48 := ea % 2 ^ 44
  let bad := fun n => ([Miss.mk 8 n], (none : Option Target))
  let good := fun v l d => (([] : List Miss), some (Target.mk v l [l] d 0 none))
  let team := match a with
    | .thread u _ | .oper u => s.team? u
    | .queue _ _ => none
  match ea / 2 ^ 44 % 16, team with
  | 0, some t => match a with
    | .thread u x =>
      if off48 ≥ t.desc.priv then bad 1
      else if k = .watch then ([⟨0xA, 7⟩], none) else good .lane (locLane u x off48) (dieOfCore t.core)
    | _ => bad 6
  | 1, some t =>
    if off48 ≥ 65536 * t.desc.scr then bad 2 else good .scratch (unitLoc t 0 off48) (dieOfCore t.core)
  | 2, some t =>
    let rank := off48 / 2 ^ 20
    let off := off48 % 2 ^ 20
    if off ≥ 65536 * t.desc.csh then bad 3
    else match s.member? t.cluster rank with
      | some m => good .cluster (unitLoc m t.desc.scr off) (dieOfCore m.core)
      | none => bad 3
  | 3, _ => match a.ctx s with
    | some c =>
      let die := off48 / 2 ^ 32
      let off := off48 % 2 ^ 32
      if die > 3 ∨ off ≥ 65536 * c.sward.getD die 0 then bad 4 else good .sward (locSward die (c.swardBase.getD die 0 * 65536 + off)) die
    | none => bad 4
  | n, _ => if n ≤ 2 then bad 6 else bad 5

/-- Every check of one access of `n` bytes but its check value (R394): the causes met, and the target when there is none. A misaligned
access whose last byte touches an invalid window address meets WINDOW too, which ranks above ALIGN (R76, R361). -/
def resolve (s : State) (a : Agent) (ea : Addr) (n : Nat) (k : AccKind) (alignSub : Nat := 1) : List Miss × Option Target :=
  let last := ea.toNat + n - 1
  let beyond := if inWindows last then (window s a last k).1.filter (·.cause == 8) else []
  let align : List Miss := if ea.toNat % n = 0 then [] else ⟨7, alignSub⟩ :: beyond
  let r := if inWindows ea.toNat then window s a ea.toNat k
    else match a.ctx s with
      | some c => translate s (a.die s) c ea.toNat k
      | none => ([⟨9, 1⟩], none)
  if r.1.any (·.cause == 8) then r
  else (align ++ r.1, if align.isEmpty then r.2 else none)

/-- The first cause in R361's order. -/
def firstMiss (l : List Miss) : Option Miss := leastBy (fun m => causeRank m.cause) l

/-! ### Making accesses -/

/-- Whether one of some lines holds a queue's WIDX (R414): where its address leads now, else where it last led. -/
def State.holdsIndex (s : State) (q : Queue) (lines : List Nat) : Bool :=
  match (resolve s (.queue q.ctx q.die) q.header 8 .read).2 with
  | some t => (t.loc :: t.reps).any fun l => lines.contains (l / 128)
  | none => q.index.any lines.contains

/-- The age at which every reader sees a write, in ns of TIME (R106). -/
def pastAge : Nat := 5000

/-- Whether a write is so recent that some reader may not have seen it (R106). -/
def Past.fresh (p : Past) (now : Nat) : Bool := decide (now < p.time + pastAge)

/-- A place in T after place `p`, once a write has come to stand between the two. -/
def lift (p n : Nat) : Nat := if p < n then n + 1 else n

/-- Room for a write right after place `p` of T: every place after it moves up by one, with what names it. -/
def State.openPlace (s : State) (p : Nat) : State :=
  if s.tick ≤ p then s
  else
    let thread := fun (th : Thread) => { th with pts := lift p th.pts, sync := lift p th.sync }
    let group := fun (g : Group) => { g with threads := g.threads.map thread }
    let bar := fun (b : Nat × Barrier) => (b.1, { b.2 with top := lift p b.2.top, heard := lift p b.2.heard })
    { s with past := s.past.map fun x => { x with stamp := lift p x.stamp },
             reads := s.reads.map fun x => (x.1, lift p x.2),
             teams := s.teams.map fun t => { t with groups := t.groups.map group, bars := t.bars.map bar,
                                                    async := { t.async with since := lift p t.async.since } },
             ops := s.ops.map fun o => { o with floor := lift p o.floor },
             harts := s.harts.map fun h => (h.1, { h.2 with pts := lift p h.2.pts }) }

/-- A write of cells right after place `p` of T: memory changes, what the units held before is kept for readers that stand earlier in T, watches of
the lines see it (R215), queues look again (R414). No write of their units, and no read of one, stands after `p`. -/
def State.pokeAt (s : State) (p : Nat) (cells : List (Nat × Byte)) : State :=
  let s := s.openPlace p
  let lines := dedup (cells.map (·.1 / 128))
  let see := fun (th : Thread) => match th.watch with
    | some w => if lines.contains w.line then { th with watch := some { w with seen := true } } else th
    | none => th
  let watched := s.teams.any fun t => t.groups.any fun g => g.threads.any fun th => th.watch.isSome
  { s with mem := Memory.puts s.mem cells,
           past := s.past.filter (·.fresh s.time) ++ (dedup (cells.map (·.1 / 16))).map fun u =>
             { unit := u, old := Memory.gets s.mem (16 * u) 16, stamp := p + 1, time := s.time },
           tick := s.tick + 1,
           teams := if watched then s.teams.map fun t =>
             { t with groups := t.groups.map fun g => { g with threads := g.threads.map see } } else s.teams,
           queues := s.queues.map fun q => if q.blocked && s.holdsIndex q lines then { q with blocked := false } else q }

/-- A write of cells at the end of T. -/
def State.poke (s : State) (cells : List (Nat × Byte)) : State := s.pokeAt s.tick cells

/-- Whether two entries are a unit's entries of one page. -/
def Trans.same (a b : Trans) : Bool := a.die == b.die && a.asid == b.asid && a.vpn == b.vpn && a.level == b.level && a.napot == b.napot

/-- A unit keeps an entry, in place of the one it kept of that page. -/
def State.keep (s : State) (e : Trans) : State :=
  { s with tlb := if s.tlb.any e.same then mapWhere e.same (fun _ => e) s.tlb else s.tlb ++ [e] }

/-- A unit keeps what it has found for some accesses that wait for the host: they stand under these translations (R404). -/
def State.keepAll (s : State) (ts : List Target) : State := ts.foldl (fun s t => match t.leaf with | some e => s.keep e | none => s) s

/-- R333: set A, and D for a write, in the leaf an access goes through, in every replica of it (R90). The unit keeps the entry so changed; what
other units keep of it they compare at their own next update. -/
def State.setAD (s : State) (t : Target) (write : Bool) : State :=
  match t.leaf with
  | none => s
  | some e =>
    let need := if write then 0xC0 else 0x40
    if e.pte &&& need = need then s.keep e
    else (s.poke (e.at_.reps.flatMap fun l => cellsAt l (toLe 8 (Memory.nat s.mem e.at_.exec 8 ||| need)))).keep { e with pte := e.pte ||| need }

/-- The walk for an address that an agent has begun (R98). -/
def State.walkFor? (s : State) (a : Agent) (ea : Addr) : Option Walk :=
  s.walks.find? fun w => w.die == a.die s && (a.ctx s).any (·.num == w.ctx) && w.va / 4096 == ea.toNat / 4096

/-- Whether an access has to wait for a walk (R42): it goes to a page that its die's unit keeps no entry of, and no walk for it has come back
with a fault. -/
def State.needsWalk (s : State) (a : Agent) (ea : Addr) : Bool :=
  !inWindows ea.toNat && decide (ea.toNat < 2 ^ 56) && (match a.ctx s with
    | none => false
    | some c => (s.kept? (a.die s) c.asid ea.toNat).isNone && !(s.walkFor? a ea).any (·.returned))

/-- A group waits for the walk of a page (R42, R98, R332): one begins unless one is under way. Its result is kept when it returns. -/
def State.askWalk (s : State) (who : Nat × Nat) (a : Agent) (ea : Addr) : State :=
  if !s.needsWalk a ea then s
  else match s.walkFor? a ea with
    | some w => { s with walks := s.walks.map fun x => if x.id = w.id ∧ ¬ x.waiters.contains who then { x with waiters := x.waiters ++ [who] } else x }
    | none => { s with seq := s.seq + 1, walks := s.walks ++ [⟨s.seq, a.die s, ((a.ctx s).map (·.num)).getD 0, ea.toNat, [who], false⟩] }

/-- Whether a group waits for a walk that has not returned (R42). -/
def State.walking (s : State) (u g : Nat) : Bool := s.walks.any fun w => !w.returned && w.waiters.contains (u, g)

/-- A group takes up the walks that have returned to it with a fault. -/
def State.takeWalks (s : State) (u g : Nat) : State :=
  { s with walks := s.walks.filter fun w => !(w.returned && w.waiters.contains (u, g)) }

/-- The place in T that an agent named in `Past.seen` by a number has: a thread, or, as 0, any Gleaner (log 3). -/
def threadKey (team tidx : Nat) : Nat := team * 2048 + tidx + 1

/-- The writes of a unit that a reader whose accesses have come to place `floor` may stand before (R103, R106): oldest first. -/
def State.unseen (s : State) (keys : List Nat) (floor u : Nat) : List Past :=
  s.past.filter fun p => p.unit == u && decide (floor < p.stamp) && p.fresh s.time && !p.seen.any keys.contains

/-- Whether two units may be one location of a replicated page: the same die offset on two dies (R120). -/
def sisters (u w : Nat) : Bool := u < 2 ^ 36 && w < 2 ^ 36 && u % 2 ^ 34 == w % 2 ^ 34

/-- The writes that stand before place `top` are seen by some agents, where they are of unit `u`, in every replica that they changed (R120). -/
def State.see (s : State) (keys : List Nat) (u top : Nat) : State :=
  let mine := fun (p : Past) => p.unit == u || (sisters u p.unit && s.past.any fun q => q.unit == u && q.stamp == p.stamp)
  { s with past := s.past.map fun p => if p.stamp < top ∧ mine p then { p with seen := dedup (p.seen ++ keys) } else p }

/-- Some agents have seen every write so far of the units of `n` bytes at some locations. -/
def State.seeAll (s : State) (keys locs : List Nat) (n : Nat) : State :=
  locs.foldl (fun s l => (List.range ((l + n - 1) / 16 - l / 16 + 1)).foldl (fun s k => s.see keys (l / 16 + k) (s.tick + 1)) s) s

/-- A read of `n` bytes within one 16-byte unit by agents `marks`, whose accesses have come to place `floor` in T: it stands at a place, chosen
freely, between the writes that none of `keys` has seen ("Leases and logical time", R104). The bytes, and the place its readers have come to. -/
def State.readAt (s : State) (keys marks : List Nat) (floor loc n : Nat) : State × List Byte × Nat :=
  let u := loc / 16
  let vs := s.unseen keys floor u
  let pick := if vs.isEmpty then none else vs[(Config.freeWord s.draws).toNat % (vs.length + 1)]?
  let top := (pick.map (·.stamp)).getD (s.tick + 1)
  ({ s.see marks u top with draws := if vs.isEmpty then s.draws else s.draws + 1 },
   (pick.map fun p => (p.old.drop (loc % 16)).take n).getD (Memory.gets s.mem loc n),
   (s.past.filter fun p => p.unit == u && decide (p.stamp < top)).foldl (fun m p => max m p.stamp) floor)

/-- From now on no store stands before what has been done so far, unless that was the case already. -/
def State.fenced (s : State) : State := match s.fence with | some _ => s | none => { s with fence := some s.tick, reads := [] }

/-- A thread's load of a unit stands at place `p` of T. -/
def State.noteRead (s : State) (loc p : Nat) : State := { s with reads := tset s.reads (loc / 16) (max p (tgetD s.reads (loc / 16) 0)) }

/-- The earliest place after which a store to some units may stand in T, of a thread whose accesses have come to place `floor`: no write of a unit and
no read of one stands after it, nor what else has been done since the fence (R100, R104). -/
def State.earliest (s : State) (floor : Nat) (units : List Nat) : Nat :=
  let top := fun (m u : Nat) => (s.past.filter (·.unit == u)).foldl (fun m p => max m p.stamp) (max m (tgetD s.reads u 0))
  units.foldl top (max floor (s.fence.getD s.tick))

/-- The place in T that a store takes, chosen freely where several will do (R104; log 3). -/
def State.placeFor (s : State) (floor : Nat) (units : List Nat) : State × Nat :=
  let low := s.earliest floor units
  if s.tick ≤ low then (s, s.tick)
  else ({ s with draws := s.draws + 1 }, low + (Config.freeWord s.draws).toNat % (s.tick - low + 1))

/-- The check blocks of a run of bytes (R400). -/
def blocksOf (loc n : Nat) : List Nat := (List.range (if n = 0 then 0 else (loc + n - 1) / 64 - loc / 64 + 1)).map (loc / 64 + ·)

/-- Whether a write of `n` bytes at `loc` covers part of a bad block (R402). -/
def State.partialBad (s : State) (loc n : Nat) : Bool :=
  (blocksOf loc n).any fun b => s.bad.contains b && !(loc ≤ b * 64 && b * 64 + 64 ≤ loc + n)

/-- Whether some writes, by location and length, together cover a whole check block (R400). -/
def coversBlock (ws : List (Nat × Nat)) (b : Nat) : Bool :=
  (List.range 64).all fun k => ws.any fun w => w.1 ≤ 64 * b + k && 64 * b + k < w.1 + w.2

/-- The locations of a plain write of `n` bytes at a target, in every replica. -/
def Target.written (t : Target) (n : Nat) : List (Nat × Nat) := if t.view = .system then [] else (t.loc :: t.reps).map fun l => (l, n)

/-- The bad blocks that some plain writes cover whole together, and so cure (R400, R407). -/
def State.mended (s : State) (ws : List (Nat × Nat)) : List Nat := s.bad.filter (coversBlock ws)

/-- Blocks a write covers whole are cured (R400). -/
def State.cure (s : State) (loc n : Nat) : State :=
  { s with bad := s.bad.filter fun b => !(loc ≤ b * 64 && b * 64 + 64 ≤ loc + n) }

/-- A launch request: a write of all of bytes 0–7 of a stile line in one unit that leaves them non-zero (R301). -/
def State.stileHit (s : State) (loc : Nat) (bs : List Byte) : State :=
  { s with seq := s.seq + 1,
           stiles := s.stiles.map fun l => if loc ≤ l.loc ∧ l.loc + 8 ≤ loc + bs.length then
               let v := leNat ((bs.drop (l.loc - loc)).take 8)
               if v = 0 then l else { l with reqs := l.reqs ++ [(BitVec.ofNat 64 v, s.seq)] }
             else l }

/-- A write to HBM's address range stays in the caches until it is written back (R212, R213): HBM keeps the old bytes. -/
def State.hold (s : State) (loc n : Nat) : State :=
  if 2 ^ 40 ≤ loc then s
  else { s with hbm := (List.range n).foldl (fun t k => tset t (loc + k) (((tget t (loc + k)).map (·.1)).getD (Memory.get s.mem (loc + k)), true)) s.hbm }

/-- A write of the device's own at every location of `locs`, held in the caches as any other is. -/
def State.pokeAll (s : State) (locs : List Nat) (bs : List Byte) : State :=
  (locs.foldl (fun s l => s.hold l bs.length) s).poke (locs.flatMap fun l => cellsAt l bs)

/-- One single-copy-atomic write of `bs` at every location of `locs`, right after place `p` of T: the same place for every replica (R102, R120). -/
def State.putAt (s : State) (p : Nat) (locs : List Nat) (bs : List Byte) : State :=
  locs.foldl (fun s l => (s.cure l bs.length).stileHit l bs) ((locs.foldl (fun s l => s.hold l bs.length) s).pokeAt p (locs.flatMap fun l => cellsAt l bs))

/-- One single-copy-atomic write at the end of T. -/
def State.put (s : State) (locs : List Nat) (bs : List Byte) : State := s.putAt s.tick locs bs

/-- The lines of some runs are written back (R213); CINV then removes the cached copies, so that what a No Snoop write left in HBM
stands in T (R214). -/
def State.writeBack (s : State) (runs : List (Nat × Nat)) (inv : Bool) : State :=
  let mine := fun (l : Nat) => runs.any fun r => r.1 ≤ l && l < r.1 + r.2
  let left := s.hbm.filter fun e => !(mine e.1 && e.2.2)
  if inv then
    let taken := left.filter fun e => mine e.1
    { s.poke (taken.map fun e => (e.1, e.2.1)) with hbm := left.filter fun e => !mine e.1 }
  else { s with hbm := left }

/-- The bytes of a target. -/
def State.bytesAt (s : State) (t : Target) (n : Nat) : List Byte := Memory.gets s.mem t.loc n

/-- The home die of a line as R99 counts it: a load of a replicated page is the core's own die's, a store or atomic of one the sequencer's. In
the other views a stile line is homed in its column, whatever R87 gives (R301). -/
def State.homeOf (s : State) (core : Nat) (t : Target) (write : Bool) : Nat :=
  if t.view = .repl then (if write then t.home else dieOfCore core)
  else match s.stiles.find? fun l => l.reps.any fun r => r / 128 == t.loc / 128 with
    | some l => dieOfColumn l.column
    | none => t.home

/-- Line requests of one issue that count in R99: (home die is the core's, or another) for device memory, one a line. Lines are told
apart by physical address, so that one storage line named through both aliases counts two: the spec does not say (log 69). -/
def State.countHome (s : State) (core : Nat) (ts : List Target) (write : Bool) : State :=
  let dev := ts.filter fun t => t.view = .inter || t.view = .dieLocal || t.view = .repl
  let keyed := dev.map fun t => (t.pa / 128, s.homeOf core t write)
  let once := keyed.foldl (fun acc x => if acc.any (·.1 == x.1) then acc else acc ++ [x]) []
  let near := (once.filter fun x => x.2 == dieOfCore core).length
  let far := once.length - near
  if once.isEmpty then s
  else s.updCore core fun c => { c with homeLoc := (c.homeLoc + near) % 2 ^ 64, homeRem := (c.homeRem + far) % 2 ^ 64 }

end Sys2Proof.Machine
end

