-- ==== Sys2Proof/Machine/Ops.lean ====
section
/-! DEFINITION. The shared operations: registers, flags, the fault queue, counters and slices, exits and kills, the end of an
operation, meetings, taking an exception (R360–R368) and returning from one (R377). -/

namespace Sys2Proof.Machine

/-! ### Registers of a thread -/

/-- The current frame (R32). -/
def Thread.frame (t : Thread) : Frame := t.frames.headD { regs := [] }
/-- The current frame's size. -/
def Thread.size (t : Thread) : Nat := t.frame.regs.length
/-- The call depth (R36). -/
def Thread.depth (t : Thread) : Nat := t.frames.length - 1
/-- Register `n` with its tag. -/
def Thread.reg (t : Thread) (n : Nat) : Reg := t.frame.regs.getD n {}
/-- The value of v`n`. -/
def Thread.v (t : Thread) (n : Nat) : Word := (t.reg n).val
/-- The pair v`n`:v`n+1`, the low word first (R140). -/
def Thread.vv (t : Thread) (n : Nat) : Addr := t.v (n + 1) ++ t.v n
/-- Change the current frame. -/
def Thread.updFrame (t : Thread) (f : Frame → Frame) : Thread :=
  match t.frames with
  | [] => t
  | x :: xs => { t with frames := f x :: xs }
/-- Write a register with its tag. -/
def Thread.setReg (t : Thread) (n : Nat) (r : Reg) : Thread := t.updFrame fun f => { f with regs := f.regs.set n r }
/-- Write values to registers. -/
def Thread.setVs (t : Thread) (l : List (Nat × Word)) : Thread := l.foldl (fun t p => t.setReg p.1 { val := p.2 }) t
/-- Predicate `n`; p7 reads 1 (R135). -/
def Thread.p (t : Thread) (n : Nat) : Bool := n ≥ 7 || t.preds.getLsbD n
/-- Write predicate `n`; 7 discards. -/
def Thread.setP (t : Thread) (n : Nat) (b : Bool) : Thread :=
  if n ≥ 7 then t
  else { t with preds := if b then t.preds ||| BitVec.ofNat 7 (2 ^ n) else t.preds &&& ~~~(BitVec.ofNat 7 (2 ^ n)) }
/-- The position of a thread in its group (R21). -/
def Thread.pos (t : Thread) : Nat := 16 * t.slot + t.lane
/-- Lane order (R5): ascending home lane, then slot. A group keeps its threads in this order. -/
def Thread.laneOrd (t : Thread) : Nat := 1024 * t.lane + t.slot
/-- A fresh frame of `n` zero registers. -/
def newFrame (n : Nat) : Frame := { regs := List.replicate n {} }

/-! ### Completion flags (R131) -/

/-- Change a group's flag count. -/
def Group.setFlag (g : Group) (f : Nat) (h : Nat → Nat) : Group := { g with flags := g.flags.set f (h (g.flags.getD f 0)) }
/-- A flag rises by 1. -/
def State.flagUp (s : State) (u g f : Nat) : State := s.updGroup u g (·.setFlag f (· + 1))
/-- A flag falls by 1. -/
def State.flagDown (s : State) (u g f : Nat) : State := s.updGroup u g (·.setFlag f (· - 1))
/-- A flag, if one is named, falls. -/
def State.flagDown? (s : State) (u g : Nat) (f : Option Nat) : State :=
  match f with
  | some f => s.flagDown u g f
  | none => s

/-! ### Bytes at physical addresses -/

/-- The cells of bytes at a physical address, each byte placed by R85, in every replica (R90). -/
def paCells (pa : Nat) (bs : List Byte) : List (Nat × Byte) :=
  (List.range bs.length).zip bs |>.flatMap fun p => (paLocs (pa + p.1)).map fun l => (l, p.2)
/-- Whether a physical address is the host's or a PCIe peer's (R85). -/
def hostPa (pa : Nat) : Bool := pa / 2 ^ 48 == 0 && decide (pa / 2 ^ 44 % 16 < 4)

/-- A posted write of no thread's to a system-view address (R117). -/
def State.postHost (s : State) (pa : Nat) (bs : List Byte) : State :=
  { s with seq := s.seq + 1, out := s.out ++ [.hostStore s.seq (pa / 2 ^ 44 % 4) (pa % 2 ^ 44) bs] }

/-- A run of `n` bytes at an address cut at the bounds of check blocks: where each part begins in the run, and its length. -/
def blockParts (pa n : Nat) : List (Nat × Nat) :=
  (blocksOf pa n).map fun b =>
    let lo := max pa (64 * b)
    (lo - pa, min (pa + n) (64 * b + 64) - lo)

/-- Bytes of one check block, written at a physical address in every replica (R90): the block whole has a fresh check value (R400), part of a bad one is
not written (log 14). -/
def State.pokePart (s : State) (pa : Nat) (bs : List Byte) : State :=
  match physical pa 0 with
  | .error _ => s
  | .ok t =>
    if s.partialBad (if t.view = .repl then locHbm t.home (pa % 2 ^ 38) else t.loc) bs.length then s
    else t.reps.foldl (fun s l => s.cure l bs.length) (s.pokeAll t.reps bs)

/-- Write bytes at a physical address: in storage, block by block, or posted to the host. -/
def State.pokePa (s : State) (pa : Nat) (bs : List Byte) : State :=
  if hostPa pa then s.postHost pa bs
  else (blockParts pa bs.length).foldl (fun s x => s.pokePart (pa + x.1) ((bs.drop x.1).take x.2)) { s with fence := none }
/-- Read bytes at a physical address, for a requester on `die` (R90). -/
def State.peekPa (s : State) (pa n : Nat) (die : Nat := 0) : List Byte :=
  (List.range n).map fun i => match paLoc (pa + i) die with
    | some l => Memory.get s.mem l
    | none => 0

/-- A link's registers. -/
def State.link (s : State) (l : Link) : LinkRegs := ((s.links.find? (·.1 == l)).map (·.2)).getD {}
/-- Change a link's registers. -/
def State.updLink (s : State) (l : Link) (f : LinkRegs → LinkRegs) : State :=
  { s with links := s.links.filter (·.1 != l) ++ [(l, f (s.link l))] }

/-! ### The fault queue (R370–R372) -/

/-- What an entry says (R371); TIME and SEQ are added at posting. -/
structure Entry where
  cause : Nat
  src : Nat
  sub : Nat := 0
  slice : Word := 0
  token : Word := 0
  tidx : Nat := 0
  core : Nat := 0xFFFF
  gidx : Nat := 0
  prog : Nat := 0
  pc : Addr := 0
  val : Addr := 0
  deriving DecidableEq, Repr

/-- The 64 bytes of an entry. -/
def Entry.bytes (e : Entry) (time seq : Nat) : List Byte :=
  toLe 1 e.cause ++ toLe 1 e.src ++ toLe 1 e.sub ++ [0] ++ toLe 4 e.slice.toNat ++ toLe 4 e.token.toNat ++ toLe 4 e.tidx ++
  toLe 2 e.core ++ toLe 2 e.gidx ++ toLe 4 e.prog ++ toLe 8 e.pc.toNat ++ toLe 8 e.val.toNat ++ toLe 8 time ++
  List.replicate 12 0 ++ toLe 4 seq

/-- Set an interrupt-pending bit of a hart (R338, R372). -/
def State.setMip (s : State) (h bit : Nat) : State := s.updHart h fun x => { x with mip := x.mip ||| BitVec.ofNat 64 (2 ^ bit) }

/-- Post an entry to a context's queue and raise EFLT on `hart` (R370, R372); the slice keeps its first cause (R329). After a fatal error nothing is
posted (R433). -/
def State.post (s : State) (ctx : Nat) (hart : Nat) (e : Entry) : State :=
  match if s.stopped then none else s.ctx? ctx with
  | none => s
  | some c =>
    let s := s.updSlice ctx e.slice fun x => if x.cause = 0 then { x with cause := e.cause } else x
    let die := dieOfColumn hart
    let pidx := leNat (s.peekPa c.save 8 die)
    let cidx := leNat (s.peekPa (c.save + 0x40) 8 die)
    if (pidx + 2 ^ 64 - cidx) % 2 ^ 64 = 1024 then
      s.pokePa (c.save + 8) (toLe 8 (leNat (s.peekPa (c.save + 8) 8 die) + 1))
    else
      let s := s.pokePa (c.save + 0x1000 + 64 * (pidx % 1024)) (e.bytes s.time pidx)
      (s.pokePa c.save (toLe 8 (pidx + 1))).setMip hart 17

/-- The hart that EFLT goes to for a context event (R372). -/
def State.ctxHart (s : State) (ctx : Nat) : Nat := ((s.ctx? ctx).map (·.hart)).getD 0

/-- An entry of SRC 5 for an event made outside a thread (R371). -/
def State.postEvent (s : State) (ctx cause sub : Nat) (val : Addr) (slice : Word := 0) : State :=
  s.post ctx (s.ctxHart ctx) { cause := cause, src := 5, sub := sub, val := val, slice := slice }

/-- Who made a thread's event: core, TIDX, GIDX, PC and slice (R371). -/
structure Who where
  core : Nat
  tidx : Nat
  gidx : Nat
  pc : Addr
  slice : Word
  deriving DecidableEq, Repr

/-- An entry of SRC 5 for an event that a thread's instruction made, or, with none, another agent. -/
def State.postBy (s : State) (ctx cause sub : Nat) (val : Addr) (who : Option Who) (slice : Option Word := none) : State :=
  match who with
  | none => s.postEvent ctx cause sub val (slice.getD 0)
  | some w => s.post ctx (s.ctxHart ctx)
      { cause := cause, src := 5, sub := sub, val := val, slice := slice.getD w.slice, core := w.core, tidx := w.tidx, gidx := w.gidx, pc := w.pc }

/-! ### Slices and counters -/

/-- Teams of a grid. -/
def Desc.total (d : Desc) : Nat := d.nx * d.ny * d.nz
/-- Teams of a cluster (R46). -/
def Desc.csize (d : Desc) : Nat := (d.clw + 1) * (d.clh + 1)
/-- R309: a ready slice whose pool is empty posts one entry. -/
def State.poolCheck (s : State) (x : Slice) : State :=
  if !x.desc.home && !x.poolPosted && x.ready.isSome && !x.complete && s.poolGoal.getD x.desc.cls 0 == 0 then
    (s.updSlice x.ctx x.id fun y => { y with poolPosted := true }).postEvent x.ctx 1 0x22 (BitVec.ofNat 64 x.desc.cls) x.id
  else s

/-- R306: the slices of a context held on a counter become ready once it stands at 0. -/
def State.readyOn (s : State) (ctx counter : Nat) : State :=
  let hit := s.slices.filter fun x => x.ctx == ctx && x.ready.isNone && x.desc.wctr == counter && !x.complete
  hit.foldl (fun s x =>
    let x := { x with ready := some s.seq }
    ({ s.updSlice ctx x.id (fun y => { y with ready := some s.seq }) with seq := s.seq + 1 }).poolCheck x) s

/-- A counter of a context. -/
def Context.counter (c : Context) (n : Nat) : Nat := tgetD c.counters n 0

/-- R305, R416: a decrement of counter `n`, by a thread or another agent. -/
def State.decCounter (s : State) (ctx n : Nat) (who : Option Who) : State :=
  match s.ctx? ctx with
  | none => s
  | some c =>
    if c.counter n = 0 then s.postBy ctx 1 0x21 (BitVec.ofNat 64 n) who
    else
      let s := s.updCtx ctx fun c => { c with counters := tset c.counters n (c.counter n - 1) }
      if c.counter n = 1 then s.readyOn ctx n else s

/-- The value ejoin returns for a slice (R329). -/
def Slice.joinValue (x : Slice) : Addr := BitVec.ofNat 64 x.cause

/-- A slice's entry goes. While operations of it run on, what it is charged is kept (R310, R417). -/
def State.dropSlice (s : State) (x : Slice) : State :=
  { s with slices := s.slices.filter fun y => !(y.ctx == x.ctx && y.id == x.id),
           owing := if s.ops.any fun o => o.ctx == x.ctx && o.slice == x.id then s.owing ++ [x] else s.owing }

/-- A slice completes when its last team has retired and no other will be admitted (R308, R304, R305, R329). -/
def State.completeSlice (s : State) (ctx : Nat) (id : Word) : State :=
  match s.slice? ctx id with
  | none => s
  | some x =>
    if x.complete ∨ x.left ≠ 0 then s
    else
      let s := s.updSlice ctx id fun y => { y with complete := true }
      let waiting := s.harts.any fun h => h.2.joinId == some (ctx, id)
      let s := { s with harts := s.harts.map fun h =>
        if h.2.joinId = some (ctx, id) then (h.1, { h.2 with joinId := none, joinVal := some x.joinValue }) else h }
      let s := if !x.joined || waiting then s.dropSlice { x with complete := true } else s
      if x.desc.dctr = 0xFFFF then s else s.decCounter ctx x.desc.dctr none

/-- A team's core, home and place for an entry. -/
def Team.who (t : Team) (g : Group) (th : Thread) (pc : Addr) : Who := ⟨t.core, th.tidx, g.gidx, pc, t.slice⟩

/-! ### Barriers, meetings and repacking -/

/-- A meeting (R107): its members' accesses from now on stand after all that any of them has made. -/
def joinPts (p : Thread → Bool) (ths : List Thread) : List Thread :=
  let top := (ths.filter p).foldl (fun m th => max m th.pts) 0
  mapWhere p (fun th => { th with pts := top }) ths

/-- A meeting of threads of a team (R107). -/
def Team.join (t : Team) (p : Thread → Bool) : Team :=
  let top := (t.threads.filter p).foldl (fun m th => max m th.pts) 0
  { t with groups := t.groups.map fun g => { g with threads := mapWhere p (fun th => { th with pts := top }) g.threads } }

/-- A barrier completes (R229): its phase ends. Every BAR and BARW that ends on it leaves its thread after the accesses that came before the phase's
arrivals (R233). -/
def Team.passBar (t : Team) (i : Nat) : Team :=
  let b := t.bar i
  { t with bars := tset t.bars i { b with ph := (b.ph + 1) % 2 ^ 32, arr := 0, top := 0, heard := max b.heard b.top } }

/-- R229: a barrier whose EXP is 0 completes once every non-exited thread has arrived in its phase. -/
def Team.retestBar (t : Team) (i : Nat) : Team :=
  let b := t.bar i
  if b.exp = 0 ∧ b.arr > 0 ∧ t.live.all (fun th => tget th.arrivals i == some b.ph) then
    t.passBar i
  else t

/-- One arrival of thread `x` at barrier `i` with count `c` (R229). -/
def Team.arrive (t : Team) (g x i c : Nat) : Team :=
  let b := t.bar i
  let b := if b.arr = 0 then { b with exp := c } else b
  let b := { b with arr := b.arr + 1, top := max b.top (((t.threads.find? (·.tidx == x)).map (·.pts)).getD 0) }
  let t := t.updGroup g fun gr => { gr with threads := mapWhere (·.tidx == x) (fun th => { th with arrivals := tset th.arrivals i b.ph }) gr.threads }
  let t : Team := { t with bars := tset t.bars i b }
  if b.exp > 0 ∧ b.arr = b.exp then t.passBar i else t.retestBar i

/-- Whether a thread waits at `w`, or waited there when an asynchronous trap interrupted it: its arrival is kept (R363). -/
def Thread.standsAt (th : Thread) (w : Wait) : Bool := th.wait == w || (th.resume.map (·.2)) == some w

/-- A thread's wait at `w0`, and one there that was interrupted, become `w`. -/
def Thread.freeAt (th : Thread) (w0 w : Wait) : Thread :=
  { th with wait := if th.wait = w0 then w else th.wait, resume := th.resume.map fun x => if x.2 = w0 then (x.1, w) else x }

/-- End the waits of a team's threads that stand at `w0`. -/
def Team.release (t : Team) (w0 w : Wait) : Team :=
  { t with groups := t.groups.map fun g => { g with threads := mapWhere (fun th => !th.exited) (fun th => th.freeAt w0 w) g.threads } }

/-- R231: GSYNC.group completes when every non-exited thread of the group stands at it. -/
def Team.gsyncGroups (t : Team) : Team :=
  { t with groups := t.groups.map fun g =>
      let live := g.threads.filter fun th => !th.exited
      if !live.isEmpty && live.all (fun th => th.standsAt (.gsync false)) then
        { g with threads := joinPts (fun th => !th.exited) (mapWhere (fun th => !th.exited) (fun th => th.freeAt (.gsync false) .passed) g.threads) }
      else g }

/-- Every non-exited thread of a team waits at `w`. -/
def Team.allAt (t : Team) (w : Wait) : Bool := t.live.all fun th => th.standsAt w

/-- The accesses of a team's threads from now on stand after place `p` of T. -/
def Team.hear (t : Team) (p : Nat) : Team :=
  { t with groups := t.groups.map fun g => { g with threads := mapWhere (fun th => !th.exited) (fun th => { th with pts := max th.pts p }) g.threads } }

/-- R321: SLYLD completes when every non-exited thread of the team stands at it, a meeting of them; `swap` says whether the team was swapped out. -/
def Team.slyldDone (t : Team) (swap : Bool) : Team :=
  if !t.live.isEmpty && t.allAt .slyld then (t.release .slyld (.slyldDone swap)).join fun th => !th.exited else t

/-- The packet address of a PC (R124). -/
def packetOf (pc : Addr) : Addr := pc &&& ~~~15#64

/-- The sign-extended packet offset of form BR, in bytes (R218). -/
def brOffset (off : BitVec 18) : Addr := (off.signExtend 64) * 16

/-- The destination of a thread that waits at a BRX (R221): the target its word named when it issued, or the next instruction. -/
def Thread.brxDest (th : Thread) : Addr :=
  match th.wait with
  | .brx true target => target
  | _ => packetOf th.pc + 20

/-- Whether a thread waits at a BRX. -/
def Thread.atBrx (th : Thread) : Bool := match th.wait with | .brx _ _ => true | _ => false

/-- Rank of a thread in repacking: old GIDX, then old SLOT (R30). -/
def repackRank (x : Nat × Thread) : Nat := x.1 * 64 + x.2.slot

/-- R30: the least number of groups that holds the threads of one destination, `w` slots a lane. -/
def groupsFor (w : Nat) (ths : List (Nat × Thread)) : Nat :=
  let most := (List.range 16).foldl (fun m l => max m (ths.filter (·.2.lane == l)).length) 0
  (most + w - 1) / w

/-- Slots of some groups in order, for one lane: (GIDX, slot). A position that would stand past the team's last thread holds none (R18). -/
def slotsOf (d : Desc) (gs : List Nat) (lane : Nat) : List (Nat × Nat) :=
  (gs.flatMap fun g => (List.range (d.width / 16)).map fun k => (g, k)).filter fun x => decide (x.1 * d.width + 16 * x.2 + lane < d.tsize)

/-- Put the threads of one lane into free slots, in order: (GIDX, thread with its new slot and PC). One whose guard was true landed
at the target, any other fell through (R221, R380). -/
def fillLane (free : List (Nat × Nat)) (ths : List (Addr × Nat × Thread)) : List (Nat × Thread) :=
  (free.zip ths).map fun p =>
    (p.1.1, { p.2.2.2 with
      slot := p.1.2, pc := p.2.1, wait := .run, held := [], rejoin := [],
      came := match p.2.2.2.wait with | .brx true _ => .landed | _ => .fell })

/-- R30 steps 1 to 4: destinations in rising order, each with the groups it receives, none when deferred. -/
def assignGroups (w : Nat) (ths : List (Addr × Nat × Thread)) : List Addr → List Nat → List (Addr × List Nat)
  | [], _ => []
  | d :: ds, free =>
    let c := groupsFor w ((ths.filter (·.1 == d)).map (·.2))
    if c ≤ free.length then (d, free.take c) :: assignGroups w ths ds (free.drop c)
    else (d, []) :: assignGroups w ths ds free

/-- R30, R31: the repacked threads with their new GIDX, for the groups `gs`. What the positions of R18 leave no room for in the groups
its destination received is placed with the deferred threads (log 68). -/
def repack (d : Desc) (gs : List Nat) (ths : List (Addr × Nat × Thread)) : List (Nat × Thread) :=
  let ths := sortBy (fun x => repackRank x.2) ths
  let dests := sortBy (·.toNat) (ths.foldl (fun acc x => if acc.contains x.1 then acc else x.1 :: acc) [])
  let plan := assignGroups (d.width / 16) ths dests gs
  (List.range 16).flatMap fun l =>
    let mine := fun a => ths.filter fun x => x.2.2.lane == l && x.1 == a
    let placed := plan.flatMap fun p => fillLane (slotsOf d p.2 l) (mine p.1)
    let used := placed.map fun x => (x.1, x.2.slot)
    let late := plan.flatMap fun p => (mine p.1).drop (slotsOf d p.2 l).length
    placed ++ fillLane ((slotsOf d gs l).filter fun x => !used.contains x) late

/-- The groups of a partition position with their repacked threads: a group left empty has no place in the active set, and one that was
empty enters the parked pool (R30, R41). -/
def Group.repacked (g : Group) (new : List (Nat × Thread)) (now : Nat) : Group :=
  let mine := (new.filter (·.1 == g.gidx)).map (·.2)
  let fresh := g.threads.all (·.exited)
  { g with threads := sortBy Thread.laneOrd mine ++ g.threads.filter (·.exited), clause := none, stalled := false, kept := none,
           active := g.active && !mine.isEmpty && !fresh, parkedAt := if fresh then now else g.parkedAt }

/-- R29: the BRX meeting of a team's partition position completes, and its threads are repacked. Every group of the position counts among
g_0, g_1, …, one whose threads have all exited included (log 68). -/
def Team.brxDone (t : Team) (now pos : Nat) : Team :=
  let spread := t.desc.spread
  let mates := t.groups.filter fun g => g.gidx % spread == pos
  let live := mates.flatMap fun g => (g.threads.filter fun th => !th.exited).map fun th => (g.gidx, th)
  let met := !live.isEmpty && live.all (fun x => x.2.atBrx && some x.2.pc == live.head?.map (·.2.pc)) &&
    mates.all (fun g => g.flags.all (· == 0))
  if !met then t
  else
    let top := live.foldl (fun m x => max m x.2.pts) 0
    let new := repack t.desc (mates.map (·.gidx)) (live.map fun x => (x.2.brxDest, x.1, { x.2 with pts := top }))
    { t with groups := t.groups.map fun g => if g.gidx % spread ≠ pos then g else g.repacked new now }

/-- The BRX meetings of a team's partition positions. -/
def Team.brxTry (t : Team) (now : Nat) : Team := (List.range t.desc.spread).foldl (fun t pos => t.brxDone now pos) t

/-- The 16 bytes of a packet through device-memory translation with execute permission (R145, R399). A window-range address has
no mapping (R77). A fetch shows what stands in T at its step: R145 lets a running grid see a write to code at any later time (log 69). The CHECK of a
fetch from a bad block carries SUB 0x01, a load's: the spec names none for a fetch (DESIGN CHOICE, log 89). -/
def State.fetch (s : State) (t : Team) (packet : Addr) : Except Miss (Target × List Byte) :=
  if inWindows packet.toNat then .error ⟨9, 1⟩
  else match s.ctx? t.ctx with
    | none => .error ⟨9, 1⟩
    | some c => match translate s (dieOfCore t.core) c packet.toNat .fetch with
      | (m :: ms, _) => .error ((firstMiss (m :: ms)).getD m)
      | ([], none) => .error ⟨9, 3⟩
      | ([], some g) =>
        if g.view = .system then .error ⟨9, 3⟩
        else if s.bad.contains (g.loc / 64) then .error ⟨0xB, 1⟩
        else .ok (g, Memory.gets s.mem g.loc 16)

/-- The word at a PC, without setting anything. -/
def State.codeWord (s : State) (u : Nat) (pc : Addr) : Option Word :=
  match s.team? u with
  | none => none
  | some t => match s.fetch t (packetOf pc) with
    | .ok r => some (BitVec.ofNat 32 (leNat ((r.2.drop (pc.toNat % 16)).take 4)))
    | .error _ => none

/-- Re-test every meeting that an arrival, an exit or a falling flag may complete (R29, R229, R231, R321). -/
def State.meet (s : State) (u : Nat) : State :=
  match s.team? u with
  | none => s
  | some t =>
    let t := (List.range 16).foldl (fun t i => t.retestBar i) t
    let t := (t.gsyncGroups).slyldDone false
    let t := if t.live.any (·.atBrx) then t.brxTry s.seq else t
    let s := s.updTeam u fun _ => t
    let mates := s.teams.filter fun x => x.cluster == t.cluster
    if mates.any (fun x => !x.live.isEmpty) && mates.all (fun x => x.allAt (.gsync true)) then
      { s with teams := s.teams.map fun x => if x.cluster = t.cluster then (x.release (.gsync true) .passed).hear s.tick else x }
    else s

/-! ### Rejoin (R26, R27) -/

/-- Whether a thread stands at its top pair's PC and depth (R26). -/
def Thread.atRejoin (t : Thread) : Bool :=
  match t.rejoin with
  | p :: _ => p.pc == t.pc && p.depth == t.depth
  | [] => false

/-- A thread pops its top pair; where the next pair names the same PC and depth, it waits there under that one (R26). -/
def Thread.pop (th : Thread) : Thread :=
  let th := { th with rejoin := th.rejoin.drop 1 }
  { th with wait := if th.atRejoin then .rejoin else .run }

/-- Threads that wait under one pair, all of its remaining mask, pop it together: a meeting (R107). -/
def Group.popRejoin (g : Group) : Group :=
  let ready := fun (p : RejoinPair) => p.mask.all fun m => g.threads.any fun th => th.tidx == m && !th.exited && th.wait == .rejoin &&
    (match th.rejoin with | q :: _ => q.id == p.id | [] => false)
  let top := fun (p : RejoinPair) => (g.threads.filter fun th => p.mask.contains th.tidx).foldl (fun m th => max m th.pts) 0
  { g with threads := g.threads.map fun th => match th.wait, th.rejoin with
      | .rejoin, p :: _ => if !th.exited && ready p then { th.pop with pts := top p } else th
      | _, _ => th }

/-- Every merge that can be made, pair after pair (R26): each round that makes one pops a pair, so there are no more rounds than pairs. -/
def Group.merge (g : Group) : Group :=
  (List.range (g.threads.foldl (fun n th => n + th.rejoin.length) 0)).foldl (fun g _ => g.popRejoin) g

/-- Threads that have just come to a PC, by an RTE too, wait there when it is their rejoin point, and merge when the last one has come. -/
def Group.settle (g : Group) (moved : List Nat) : Group :=
  let stop := fun (th : Thread) =>
    if moved.contains th.tidx && !th.exited && (th.wait == .run || th.wait == .returned) && th.atRejoin then { th with wait := .rejoin } else th
  ({ g with threads := g.threads.map stop } : Group).merge

/-- Remove threads from every rejoin mask of their group (R27), `which` choosing the pairs. -/
def Group.unmask (g : Group) (ts : List Nat) (which : Nat → RejoinPair → Bool) : Group :=
  let cut := fun (p : RejoinPair) => { p with mask := p.mask.filter fun m => !(ts.contains m && which m p) }
  ({ g with threads := g.threads.map fun (th : Thread) => { th with rejoin := th.rejoin.map cut } } : Group).merge

/-! ### The end of an operation -/

/-- An operation has ended (R274). -/
def OpState.final (x : OpState) : Bool := x == .done || x == .cancelled

/-- The STATE code of R275. -/
def OpState.code (x : OpState) : Nat :=
  match x with
  | .opening | .queued => 0 | .running => 1 | .done => 2 | .cancelled => 3

/-- The OWN code of R275. -/
def Owner.code (x : Owner) : Nat :=
  match x with
  | .thread => 0 | .team => 1 | .orphan => 2 | .retired => 3

/-- The state word (R275). -/
def Op.stateWord (o : Op) : Word :=
  BitVec.ofNat 32 (o.cause * 2 ^ 24 + (if o.own = .thread then o.otid else 0) * 2 ^ 13 + o.own.code * 2 ^ 11 + o.det.toNat * 2 ^ 10 +
    o.ord.toNat * 2 ^ 9 + o.clamp.toNat * 2 ^ 8 + o.nan.toNat * 2 ^ 7 + o.pri * 16 + o.st.code)

/-- The record as four words, bits [31:0] first (R275). -/
def Op.record (o : Op) : List Word := [o.stateWord, o.pred, BitVec.ofNat 32 o.prog, o.token]

/-- The key of the slot an operation holds: its handle names the core on which it took the slot, wherever its team stands now (R271, R272). -/
def Op.slotKey (o : Op) : Nat := o.token.toNat / 2 ^ 16 % 256 * 256 + o.slot

/-- Release a record and free its slot (R277). -/
def State.releaseOp (s : State) (uid : Nat) : State :=
  match s.op? uid with
  | none => s
  | some o =>
    { s with ops := s.ops.filter (·.uid != uid),
             slots := if o.kind = .queue then s.slots else
               tset s.slots o.slotKey { (tgetD s.slots o.slotKey { gen := 0, op := none }) with op := none },
             contexts := s.contexts.map fun c => { c with orphans := c.orphans.filter (· != uid) } }

/-- The operation a handle names in a context, none when it is retired: the one that holds the slot with that generation, whatever kind
the value carries; the null handle names none (R272, R273). -/
def State.named? (s : State) (ctx : Nat) (w : Word) : Option Op :=
  s.ops.find? fun o => w != 0 && o.kind != .queue && o.ctx == ctx && o.token >>> 8 == w >>> 8

/-- Whether a predecessor has ended (R279). -/
def State.ended (s : State) (ctx : Nat) (w : Word) : Bool :=
  match s.named? ctx w with
  | none => true
  | some o => o.st.final

/-- Pending marks of a handle clear in every frame of its context (R150, R274). A thread that reads the handle from then on has joined the
operation (R110), so that its accesses stand after the operation's writes. -/
def State.clearMarks (s : State) (ctx : Nat) (token : Word) : State :=
  let reg := fun (r : Reg) => if r.tag = .mark ∧ r.val = token then { r with tag := .ready } else r
  let holds := fun (th : Thread) => th.frames.any fun f => f.regs.any fun r => r.tag == .mark && r.val == token
  let thr := fun (th : Thread) => if holds th then { th with frames := th.frames.map fun f => { f with regs := f.regs.map reg }, pts := s.tick } else th
  { s with teams := s.teams.map fun t => if t.ctx = ctx then
      { t with groups := t.groups.map fun g => { g with threads := g.threads.map thr } } else t }

/-- Take an operation out of every tile order (R248). -/
def State.leaveTiles (s : State) (uid : Nat) : State :=
  { s with accs := s.accs.map fun a => (a.1, { a.2 with order := a.2.order.filter (· != .op uid) }) }

/-- The hart that EFLT goes to for an operation (R372). -/
def Op.hart (o : Op) : Nat :=
  match o.kind with
  | .queue | .xcoll => 12 * dieOfCore o.core
  | _ => columnOfCore o.core

/-- A team's storage is freed once its cluster has retired and every operation its members made has ended (R48, R278): what it holds on its core, or,
of a team that is swapped out, in its save area. -/
def State.reap (s : State) : State :=
  let busy := fun (cl : Nat) => s.teams.any fun t => t.cluster == cl && (!t.retired || s.ops.any fun o => o.team == t.uid && o.kind != .queue && !o.st.final)
  let gone := s.teams.filter fun t => t.retired && !busy t.cluster
  if gone.isEmpty then s
  else
    let freed := gone.flatMap fun t => (List.range t.desc.tiles).map fun i => (if t.swapped then savedCore t.uid * 64 else t.core * 64 + t.tileBase) + i
    { s with teams := s.teams.filter fun t => !gone.any (·.uid == t.uid), tiles := s.tiles.filter fun e => !freed.contains e.1 }

/-- R246, R247: release a team's reservation; the contents of its tiles are lost. A request whose grant this was is answered all the same when its
MRES is tried again. -/
def State.freeResv (s : State) (u : Nat) : State := s.updTeam u fun t =>
  let late := t.mres.filter (·.granted)
  { t with resv := none, mrel := none, mres := if late.isSome then none else t.mres, given := t.given ++ late.toList }

/-- Whether an operation holds up a reservation: it runs on a held engine or names a tile of the window (R246). -/
def Op.holdsResv (o : Op) (u : Nat) : Bool :=
  o.team == u && !o.st.final && (o.kind == .mma || o.kind == .astr)

/-- R247: the reservation of a retired team goes once the last operation that holds it has ended. -/
def State.resvAfter (s : State) (u : Nat) : State :=
  match s.team? u with
  | some t => if t.retired && !s.ops.any (·.holdsResv u) then s.freeResv u else s
  | none => s

/-- The end event of an operation (R274, R276, R277, R369): marks clear, flags fall, failures are posted, slots freed. -/
def State.endOp (s : State) (uid : Nat) (st : OpState) (cause sub : Nat := 0) (val : Addr := 0) : State :=
  match s.op? uid with
  | none => s
  | some o =>
    if o.st.final then s
    else
      let s := s.updOp uid fun o => { o with st := st, cause := cause, sub := sub, engine := none, fault := val, lines := [], scales := [] }
      let s : State := { s with loads := s.loads.filter (·.reader != some (.op uid)) }
      let s := (s.clearMarks o.ctx o.token).leaveTiles uid
      let flags := if o.issue ≠ 0 ∧ s.ops.any (fun p => p.issue == o.issue && !p.st.final) then [] else o.flags
      let s := flags.foldl (fun s f => s.flagDown f.1 f.2.1 f.2.2) s
      let s := if cause ≠ 0 ∧ o.own ≠ .thread then
          s.post o.ctx o.hart {
            cause := cause, src := 2, sub := sub, slice := o.slice, token := o.token,
            core := if o.kind = .queue ∨ o.kind = .xcoll then 0xFFFF else o.core, prog := o.prog, val := val }
        else s
      let s := if o.det || o.own == .orphan || o.kind == .queue then s.releaseOp uid else s
      let s := o.flags.foldl (fun s f => s.meet f.1) s
      ((s.resvAfter o.team).meet o.team).reap

/-! ### Leaving (R226) and retiring (R48) -/

/-- Whether a read has still someone to receive it: a thread, or an agent that is none. -/
def Load.wanted (l : Load) : Bool :=
  !l.tidxs.isEmpty || (match l.reader with
    | none | some .post => false
    | _ => true)

/-- Discard the loads due to threads that leave; their flags fall (R226). -/
def State.dropLoads (s : State) (u : Nat) (ts : List Nat) : State :=
  let mine := s.loads.filter fun l => l.team == u && l.tidxs.any ts.contains
  let s := { s with loads := (s.loads.map fun l => if l.team = u then { l with tidxs := l.tidxs.filter fun x => !ts.contains x } else l).filter Load.wanted }
  (dedup (mine.map (·.issue))).foldl (fun s i =>
    if s.loads.any (·.issue == i) then s
    else match mine.find? (·.issue == i) with
      | some l => s.flagDown? l.team l.gidx l.flag
      | none => s) s

/-- A cluster whose members have all finished retires (R48, R276, R277, R308). -/
def State.retire (s : State) (cluster : Nat) : State :=
  let members := s.teams.filter (·.cluster == cluster)
  if members.isEmpty || members.any (fun t => t.retired || !t.live.isEmpty) then s
  else
    let s := { s with teams := s.teams.map fun t => if t.cluster = cluster then { t with retired := true, mres := none, given := [] } else t }
    let s := members.foldl (fun s t =>
      let mine := sortBy (·.slot) (s.ops.filter fun o => o.oteam == t.uid && o.own == .team && o.kind != .queue)
      let s := mine.foldl (fun s o => if o.st.final then s.releaseOp o.uid
        else (s.updOp o.uid fun o => { o with own := .orphan }).updCtx o.ctx fun c => { c with orphans := c.orphans ++ [o.uid] }) s
      (s.resvAfter t.uid).updSlice t.ctx t.slice fun x => { x with left := x.left - 1 }) s
    match members.head? with
    | some t => (s.completeSlice t.ctx t.slice).reap
    | none => s

/-- The entry of a store whose merge failed and whose thread has exited (R402). -/
def mergeEntry (slice : Word) (core gidx tidx : Nat) (x : Addr × Addr) : Entry :=
  { cause := 0xB, src := 5, sub := 4, slice := slice, core := core, tidx := tidx, gidx := gidx, pc := x.2, val := x.1 }

/-- Entries for the failed stores of threads that exit before they have taken their CHECK (R402). -/
def State.postMerges (s : State) (u g : Nat) (ts : List Nat) : State :=
  match s.team? u with
  | none => s
  | some t => ((t.threads.filter fun th => ts.contains th.tidx).flatMap fun th => th.failedMerge.map fun x => (th.tidx, x)).foldl (fun s x =>
      s.post t.ctx (s.ctxHart t.ctx) (mergeEntry t.slice t.core g x.1 x.2)) s

/-- A group in handler state (R365). -/
def Group.inHandler (g : Group) : Bool := g.threads.any fun th => !th.exited && th.handler

/-- Threads of one group exit (R226, R27, R229, R276, R402). -/
def State.exitThreads (s : State) (u g : Nat) (ts : List Nat) : State :=
  let s := (s.postMerges u g ts).dropLoads u ts
  let gone := fun (th : Thread) =>
    { th with exited := true, frames := [], rejoin := [], watch := none, wait := .run, held := [], handler := false, resume := none,
                   failedMerge := [], lost := [] }
  let s := s.updGroup u g fun gr =>
    ({ gr with threads := mapWhere (fun th => ts.contains th.tidx) gone gr.threads }).unmask ts (fun _ _ => true)
  let pass := fun (o : Op) =>
    if o.oteam == u && o.own == Owner.thread && ts.contains o.otid then { o with own := Owner.team, otid := 0 } else o
  let s : State := { s with ops := s.ops.map pass }
  let s := s.meet u
  match s.team? u with
  | some t => if t.live.isEmpty then s.retire t.cluster else s
  | none => s

/-- Group `g` of team `u`. -/
def State.group? (s : State) (u g : Nat) : Option Group := (s.team? u).bind fun t => t.group? g

/-- Whether a thread is in the middle of its word's series of accesses: an XQPOST that has copied part of its packet, a packet read part of which
has come, an operation made while others of its issue are not (R102, R294, R360). -/
def Wait.midWord (w : Wait) : Bool :=
  match w with
  | .posting _ _ _ | .packet _ | .made _ => true
  | _ => false

/-- Whether a thread has begun its word: it is in the middle of it, or its XQPOST has claimed an index (R294). -/
def Wait.begun (w : Wait) : Bool :=
  w.midWord || (match w with | .queue _ | .queueDone _ | .postFailed _ _ _ => true | _ => false)

/-- Whether a thread waits for a free slot of its queue (R294). -/
def Wait.atQueue (w : Wait) : Bool := match w with | .queue _ => true | _ => false

/-- Whether a group may end at once: no clause in hand, or its word waits; a word that has begun goes on until it waits or is done (R420). -/
def Group.atRest (g : Group) : Bool :=
  match g.clause with
  | none => true
  | some c =>
    let set := g.threads.filter fun th => c.set.contains th.tidx && !th.exited
    !c.tested || (g.stalled && (!set.any (·.wait.begun) || (set.any (·.wait.atQueue) && !set.any (·.wait.midWord))))

/-- Whether a place in a tile's order is an issue's of a group. -/
def User.byGroup (x : User) (u g : Nat) : Bool := match x with | .issue v h _ => v == u && h == g | .op _ => false

/-- End a group of a killed team. -/
def State.endGroup (s : State) (u g : Nat) : State :=
  match s.group? u g with
  | none => s
  | some gr =>
    let s := s.updGroup u g fun x => { x with clause := none, stalled := false, kept := none }
    let s : State := { s with
      frameReqs := s.frameReqs.filter fun r => !(r.team == u && r.gidx == g),
      accs := s.accs.map fun a => (a.1, { a.2 with order := a.2.order.filter (!·.byGroup u g) }) }
    s.exitThreads u g ((gr.threads.filter fun th => !th.exited).map (·.tidx))

/-- A group of a killed team ends when its word waits, but not in the middle of a series of accesses (R420). -/
def State.endRested (s : State) (u g : Nat) : State :=
  match s.team? u, s.group? u g with
  | some t, some gr => if t.killed && !gr.threads.any (fun th => !th.exited && th.wait.midWord) then s.endGroup u g else s
  | _, _ => s

/-- Kill a team and its cluster (R368, R420): groups at rest end now, the others at their clause boundary. Threads that a BRX meeting of the kill's own
exits has moved to another group waited there: they end with it, when the groups are gone through again. -/
def State.kill (s : State) (u : Nat) (now : List Nat := []) : State :=
  match s.team? u with
  | none => s
  | some t =>
    let members := s.teams.filter (·.cluster == t.cluster)
    let s := { s with teams := s.teams.map fun x => if x.cluster = t.cluster then { x with killed := true, mres := none, given := [] } else x }
    (members ++ members).foldl (fun s m => m.groups.foldl (fun s g =>
      if g.atRest || (m.uid == u && now.contains g.gidx) then s.endGroup m.uid g.gidx else s) s) s

/-- Cancel an operation as HCAN would (R296, R417): at once while it has not started, else at its next boundary. -/
def State.cancelOp (s : State) (o : Op) : State :=
  match o.st with
  | .opening =>
    let reg := fun (k : Nat × KReg) =>
      if k.2.op = some o.uid ∧ k.2.st = .open then
        (k.1, { k.2 with st := .idle, op := none, signers := [], mma := none, proto := [], n := 0 }) else k
    let s := s.updTeam o.team fun (t : Team) => ({ t with kregs := t.kregs.map reg } : Team).release (.kwait o.k) .passed
    s.endOp o.uid .cancelled
  | .queued => s.endOp o.uid .cancelled
  | .running => s.updOp o.uid fun o => { o with cancel := true }
  | _ => s

/-! ### Taking an exception (R360–R368) -/

/-- What a trap says of one thread: SELF, SUB and TRAPV. -/
structure Hit where
  tidx : Nat
  sub : Nat
  val : Addr
  deriving DecidableEq, Repr

/-- A trap of a co-located set: cause, the sub-cause of threads that do not meet it, the threads that do, TRAPV of the others where each
has its own, the chain position. -/
structure Trap where
  cause : Nat
  sub : Nat
  hits : List Hit
  own : List (Nat × Addr) := []
  chn : Nat := 0
  deriving DecidableEq, Repr

/-- TRAPC (R364). -/
def trapcWord (preds : BitVec 7) (chn : Nat) (async self : Bool) (sub cause : Nat) : Word :=
  BitVec.ofNat 32 (preds.toNat * 2 ^ 24 + chn % 8 * 2 ^ 20 + async.toNat * 2 ^ 17 + self.toNat * 2 ^ 16 + sub % 256 * 2 ^ 8 + cause % 256)

/-- A thread enters the handler (R364, R365). -/
def Thread.enter (th : Thread) (tc : Word) (pc : Addr) (val : Addr) (handler : Addr) : Thread :=
  { th with trapc := tc, trapa := pc, trapv := val, handler := true, pc := handler + 4, wait := .run, held := [], came := .landed }

/-- A set of threads enters the handler with their records; their clause in hand is over, and what they do from now on stands after the accesses that
their group has made and after place `since` (R360, R378). The clause of another set, which waits in place
while a held set is interrupted, is kept until the group leaves handler state (R363); where it is that set which enters, the group goes on. -/
def Group.enter (g : Group) (set : List Nat) (handler : Addr) (rec : Thread → Word × Addr × Addr) (since : Nat := 0) : Group :=
  let onKept := g.kept.any fun c => c.set.any set.contains
  let top := g.threads.foldl (fun m th => max m th.pts) since
  { g with threads := mapWhere (fun th => set.contains th.tidx) (fun th => let r := rec th; { th.enter r.1 r.2.1 r.2.2 handler with pts := top }) g.threads,
           clause := if onKept then g.clause else none, stalled := onKept && g.stalled,
           kept := if onKept then none else match g.clause with
             | some c => if c.set.any set.contains then g.kept else some c
             | none => g.kept }

/-- R367: BKPT without a handler stops the context as PREEMPT does from its step 3 on. One that comes while the context's swap has begun already starts
the swap timer anew, on which the spec is silent: the model's choice (log 56). -/
def State.bkptStop (s : State) (ctx : Nat) : State :=
  { s.updCtx ctx (fun c => { c with phase := .swapping (s.time + c.swap) }) with bkpt := if s.bkpt.contains ctx then s.bkpt else ctx :: s.bkpt }

/-- TRAPV of a thread of the trapping set that did not meet the cause (R359): the word, the position, the packet header or the tile of
the issue; its own depth for FRAME (R387); 0 where the value is a thread's EA, handle or code. -/
def restVal (cause : Nat) (met : Addr) (th : Thread) : Addr :=
  if cause = 0xF then BitVec.ofNat 64 (met.toNat % 256 + th.depth * 256)
  else if cause ≤ 6 ∨ cause = 0xC ∨ cause = 0xD then met else 0

/-- A synchronous trap of the co-located set `set` of group `g` of team `u`, at `pc` (R360, R364–R368). A group of a killed team ends
there instead (R420). -/
def State.takeSync (s : State) (u g : Nat) (set : List Nat) (pc : Addr) (tr : Trap) : State :=
  match s.team? u with
  | none => s
  | some t => match t.group? g with
    | none => s
    | some gr =>
      if t.killed then s.endGroup u g else
      let ths := gr.threads.filter fun th => set.contains th.tidx
      let lead := (leastBy Thread.pos (ths.filter fun th => tr.hits.any (·.tidx == th.tidx))).orElse fun _ => leastBy Thread.pos ths
      let hit := fun (th : Thread) => tr.hits.find? (·.tidx == th.tidx)
      let handler := t.desc.handler
      let nested := ths.any (·.handler)
      let entry : Entry := {
        cause := tr.cause, src := if nested then 1 else if tr.cause = 0x13 then 3 else 0, sub := ((lead.bind hit).map (·.sub)).getD tr.sub,
        slice := t.slice, tidx := (lead.map (·.tidx)).getD 0, core := t.core, gidx := g, pc := pc, val := ((lead.bind hit).map (·.val)).getD 0 }
      if nested || (handler == 0 && tr.cause != 0x13) then
        (s.post t.ctx (columnOfCore t.core) entry).kill u [g]
      else if handler = 0 then
        (s.post t.ctx (columnOfCore t.core) entry).bkptStop t.ctx
      else
        s.updGroup u g fun gr => gr.enter set handler fun th =>
          (trapcWord th.preds tr.chn false (hit th).isSome ((hit th).map (·.sub) |>.getD tr.sub) tr.cause, pc,
            match hit th with
            | some x => x.val
            | none => (((tr.own.find? (·.1 == th.tidx)).map (·.2)).getD (restVal tr.cause (((lead.bind hit).map (·.val)).getD 0) th)))

/-- The asynchronous trap that is taken first (R362): cause and TRAPV. -/
def Async.first (a : Async) : Option (Nat × Addr) :=
  match a.user, a.budget, a.energy, a.throttle with
  | some v, _, _, _ => some (0x12, v)
  | _, some v, _, _ => some (0x10, v)
  | _, _, some v, _ => some (0x15, v)
  | _, _, _, some v => some (0x11, v)
  | _, _, _, _ => none

/-- The pending traps without the first. -/
def Async.rest (a : Async) : Async :=
  if a.user.isSome then { a with user := none }
  else if a.budget.isSome then { a with budget := none }
  else if a.energy.isSome then { a with energy := none }
  else { a with throttle := none }

/-- The elected group (R311). -/
def Team.elected (t : Team) : Option Group := leastBy (·.gidx) (t.groups.filter fun g => g.threads.any fun th => !th.exited)

/-- The threads of a group that a trap of its team finds: the set of the clause in hand, else the threads at the lowest PC (log 70). -/
def Group.front (g : Group) : List Thread :=
  let live := g.threads.filter fun th => !th.exited
  match g.clause with
  | some c => live.filter fun th => c.set.contains th.tidx
  | none => match leastBy (·.pc.toNat) live with
    | some x => live.filter (·.pc == x.pc)
    | none => []

/-- THROTTLE's TRAPV shows the grant level at the moment the trap is taken (R317). -/
def State.asyncVal (s : State) (t : Team) (cause : Nat) (v : Addr) : Addr :=
  if cause = 0x11 then (v &&& ~~~3#64) ||| BitVec.ofNat 64 (s.column (columnOfCore t.core)).level else v

/-- A team without a handler in which an asynchronous trap is pending is killed, unless it is swapped out (R362, R367). -/
def State.asyncKill (s : State) (u : Nat) : State :=
  match s.team? u with
  | none => s
  | some t => match t.async.first, t.elected with
    | some (cause, v), some g =>
      if t.swapped || t.killed || t.desc.handler != 0 then s
      else
        let lead := leastBy Thread.pos g.front
        ((s.updTeam u fun t => { t with async := {} }).post t.ctx (columnOfCore t.core)
          { cause := cause, src := 0, slice := t.slice, tidx := (lead.map (·.tidx)).getD 0, core := t.core, gidx := g.gidx,
            pc := (lead.map (·.pc)).getD 0, val := s.asyncVal t cause v }).kill u
    | _, _ => s

/-- Raise an asynchronous trap in a team, to be taken at a boundary of its elected group (R362); without a handler THROTTLE is discarded
and any other kills the team at once (R367). -/
def State.raise (s : State) (u cause : Nat) (f : Async → Async) : State :=
  match s.team? u with
  | none => s
  | some t =>
    if t.live.isEmpty || t.killed || (t.desc.handler == 0 && cause == 0x11) then s
    else (s.updTeam u fun t => { t with async := f t.async }).asyncKill u

/-- Take the first pending asynchronous trap in the set `set` of the elected group, standing at `pc` (R362, R364); a THROTTLE is thereby
delivered (R317, log 74). -/
def State.takeAsync (s : State) (u g : Nat) (set : List Nat) (pc : Addr) : State :=
  match s.team? u with
  | none => s
  | some t => match t.async.first, t.group? g with
    | some (cause, v), some gr =>
      let lead := leastBy Thread.pos (gr.threads.filter fun th => set.contains th.tidx)
      (s.updTeam u fun t => { t with async := t.async.rest, throttled := if cause = 0x11 then v.getLsbD 2 else t.throttled }).updGroup u g fun gr => gr.enter set t.desc.handler (fun th =>
        (trapcWord th.preds 0 true (lead.map (·.tidx) == some th.tidx) 0 cause, pc, s.asyncVal t cause v)) (if cause = 0x12 then t.async.since else 0)
    | _, _ => s

/-- R377: a thread leaves handler state with its predicates restored, to resume at `pc`. A wait that an asynchronous trap
interrupted goes on where the thread returns to it (R363). -/
def Thread.rte (th : Thread) (pc : Addr) : Thread :=
  let back := match th.resume with
    | some (a, w) => if a = pc then (match w with | .mwait _ | .mwaitDone _ => .returned | w => w) else .returned
    | none => .returned
  { th with handler := false, preds := (th.trapc >>> 24).setWidth 7, pc := pc, came := .resumed, wait := back, held := [], resume := none }

end Sys2Proof.Machine
end

