-- ==== Sys2Proof/Machine/Operands.lean ====
section
/-! DEFINITION. Every operand form (R139–R141), the issue a word sees (R21, R23), and the results it writes. -/

namespace Sys2Proof.Machine

/-! ### Operands of one thread -/

/-- Operand A, 32 bits. -/
def Dev.a32 (v : Dev) (t : Thread) : Word := t.v v.a.toNat
/-- Operand A, a pair. -/
def Dev.a64 (v : Dev) (t : Thread) : Addr := t.vv v.a.toNat
/-- Operand B, 32 bits, under R141. -/
def Dev.b32 (v : Dev) (t : Thread) : Word := if v.litB then v.lw else t.v v.b.toNat
/-- Operand B, 64 bits: a literal is sign-extended (R141). -/
def Dev.b64 (v : Dev) (t : Thread) : Addr := if v.litB then v.lw.signExtend 64 else t.vv v.b.toNat
/-- Operand D, 32 bits. -/
def Dev.d32 (v : Dev) (t : Thread) : Word := t.v v.d.toNat
/-- Operand D, a pair. -/
def Dev.d64 (v : Dev) (t : Thread) : Addr := t.vv v.d.toNat
/-- Register B, whatever the literal says (R156, R205). -/
def Dev.rb32 (v : Dev) (t : Thread) : Word := t.v v.b.toNat
/-- Register pair B. -/
def Dev.rb64 (v : Dev) (t : Thread) : Addr := t.vv v.b.toNat
/-- Writing a word to D. -/
def Dev.wd (v : Dev) (x : Word) : List (Nat × Word) := [(v.d.toNat, x)]
/-- Writing a pair to D. -/
def Dev.wdd (v : Dev) (x : Addr) : List (Nat × Word) := [(v.d.toNat, x.extractLsb' 0 32), (v.d.toNat + 1, x.extractLsb' 32 32)]
/-- Writing words from D up. -/
def Dev.wds (v : Dev) (xs : List Word) : List (Nat × Word) := (List.range xs.length).zip xs |>.map fun p => (v.d.toNat + p.1, p.2)
/-- `n` registers from `r` up. -/
def Thread.vs (t : Thread) (r n : Nat) : List Word := (List.range n).map fun i => t.v (r + i)
/-- Bytes of words, little-endian. -/
def wordsLe (ws : List Word) : List Byte := ws.flatMap fun w => toLe 4 w.toNat
/-- Words of bytes, little-endian. -/
def leWords : Nat → List Byte → List Word
  | 0, _ => []
  | n + 1, bs => BitVec.ofNat 32 (leNat (bs.take 4)) :: leWords n (bs.drop 4)

/-! ### Issues -/

/-- The guard of a thread (R135). -/
def guardOf (p : Pre) (t : Thread) : Bool := if p.g = 0 then !p.n else t.p (p.g.toNat - 1) != p.n

/-- What a word sees when it issues: team, group, clause, co-located and active threads in position order. -/
structure Iss where
  team : Team
  grp : Group
  cl : Clause
  desc : Desc
  co : List Thread
  act : List Thread
  pc : Addr
  dev : Dev
  deriving DecidableEq, Repr

/-- The words that every co-located thread executes whatever its guard says: SEL (R135), BKPT (R376). -/
def ignoresGuard (op : Nat) : Bool := op == 0x46 || op == 0xF9

/-- The threads of a clause's set that have not exited, in lane order. -/
def Group.setOf (g : Group) (cl : Clause) : List Thread := g.threads.filter fun th => cl.set.contains th.tidx && !th.exited

/-- What a word sees when the set of its group's clause issues it, none when there is no clause or no thread. -/
def issFor (t : Team) (g : Group) (v : Dev) : Option Iss :=
  match g.clause with
  | none => none
  | some cl => match g.setOf cl with
    | [] => none
    | th :: rest => some { team := t, grp := g, cl := cl, desc := t.desc, co := th :: rest,
                           act := if ignoresGuard v.op.toNat then th :: rest else (th :: rest).filter (guardOf v.pre), pc := th.pc, dev := v }

/-- The issue in hand, none when no group is issuing (log 1). -/
def issueOf (s : State) (v : Dev) : Option Iss :=
  match s.cur with
  | none => none
  | some c => match s.team? c.team with
    | none => none
    | some t => match t.group? c.gidx with
      | some g => issFor t g v
      | none => none

/-- The leader of an issue (R21). -/
def Iss.lead (i : Iss) : Option Thread := leastBy Thread.pos i.act
/-- Where a thread's register operands are read from (R21). -/
def Iss.src (i : Iss) (t : Thread) : Thread := if i.dev.pre.u then i.lead.getD t else t
/-- The active threads that perform an effect: the leader alone with U = 1, else all, in lane order. -/
def Iss.doers (i : Iss) : List Thread := if i.dev.pre.u then i.lead.toList else i.act
/-- TIDX of the active threads. -/
def Iss.acts (i : Iss) : List Nat := i.act.map (·.tidx)
/-- TIDX of the co-located threads. -/
def Iss.cos (i : Iss) : List Nat := i.co.map (·.tidx)
/-- Change some threads of the issuing group. -/
def Iss.upd (i : Iss) (s : State) (ts : List Nat) (f : Thread → Thread) : State :=
  s.updThreads i.team.uid i.grp.gidx (fun th => ts.contains th.tidx) f
/-- The word as 32 bits. -/
def Iss.word (i : Iss) : Word := putTogether i.dev
/-- The context of an issue. -/
def Iss.ctx (i : Iss) (s : State) : Option Context := s.ctx? i.team.ctx
/-- Who makes an event of an issue: the leader (R371). -/
def Iss.who (i : Iss) (t : Thread) : Who := i.team.who i.grp t i.pc

/-- The way a word's effect ends: the PC advances; the effect has set the PCs and the clause ends (`back` as R24 asks); it could
not begin and is tried again; a part of it has been made, and it is tried again for the rest; it traps; the effect has arranged everything. -/
inductive Done
  | ok (s : State)
  | jump (s : State) (back : Bool)
  | wait (s : State)
  | more (s : State)
  | trap (s : State) (t : Trap)
  | over (s : State)

/-- Every active thread writes registers computed from its source thread (R150). -/
def Iss.lanes (i : Iss) (s : State) (f : Thread → List (Nat × Word)) : Done :=
  .ok (i.upd s i.acts fun th => th.setVs (f (i.src th)))

/-- Every active thread is changed by a function of its source thread and itself. -/
def Iss.each (i : Iss) (s : State) (f : Thread → Thread → Thread) : Done := .ok (i.upd s i.acts fun th => f (i.src th) th)

/-- A trap met by some threads with one sub-cause and TRAPV (R379). -/
def trapOf (cause sub : Nat) (ts : List Nat) (val : Addr) : Trap := { cause := cause, sub := sub, hits := ts.map fun x => ⟨x, sub, val⟩ }

/-- A trap with the instruction word as TRAPV. -/
def Iss.trapWord (i : Iss) (s : State) (cause sub : Nat) (ts : List Nat) : Done := .trap s (trapOf cause sub ts (i.word.setWidth 64))

/-- Threads that meet a condition each with its own TRAPV trap; none does: go on. -/
def Iss.trapIf (s : State) (cause : Nat) (hits : List Hit) (k : Unit → Done) : Done :=
  match hits with
  | [] => k ()
  | h :: _ => .trap s { cause := cause, sub := h.sub, hits := hits }

end Sys2Proof.Machine
end

