-- ==== Sys2Proof/Machine/Flags.lean ====
section
/-! DEFINITION. What is tested when a word issues: word-level causes (R379–R386), pending registers (R133, R150), flags (R131). -/

namespace Sys2Proof.Machine

/-! ### Branch targets (R218, R377, R380) -/

/-- The packet that holds a word. -/
def Iss.packet (i : Iss) : Addr := packetOf i.pc
/-- The fall-through of a control transfer (R129). -/
def Iss.fall (i : Iss) : Addr := i.packet + 20
/-- A signed packet offset of a literal, as the PC of slot 1 (R218). -/
def Iss.offPc (i : Iss) (l : Word) : Addr := i.packet + l.signExtend 64 * 16 + 4
/-- The header word of a packet, if it can be fetched. -/
def Iss.headerAt (i : Iss) (s : State) (pc : Addr) : Option Word := s.codeWord i.team.uid (packetOf pc)
/-- The PACKET trap of the branch or RTE in hand, TRAPV the header of its own packet (R380). -/
def Iss.ownPacket (i : Iss) (s : State) (sub : Nat) (ts : List Nat) : Trap :=
  trapOf 5 sub ts (((i.headerAt s i.pc).getD 0).setWidth 64)

/-- The PC after the word at `pc`, with or without a literal: the next slot, or slot 1 of the next packet (R124). -/
def nextPc (pc : Addr) (lit : Bool) : Addr :=
  let slot := pc.toNat % 16 / 4 + 1 + lit.toNat
  if slot ≤ 3 then packetOf pc + BitVec.ofNat 64 (4 * slot) else packetOf pc + 20

/-- The next instruction word after a PC, skipping its literal; slot 1 of the next packet when none is left (R377). -/
def Iss.afterWord (i : Iss) (s : State) (pc : Addr) : Addr :=
  match i.headerAt s pc with
  | none => nextPc pc false
  | some h => nextPc pc ((header h).isLit (pc.toNat % 16 / 4 + 1) && pc.toNat % 16 / 4 < 3)

/-- Where an RTE resumes a thread (R377). -/
def Iss.resumeAt (i : Iss) (s : State) (t : Thread) : Addr := if i.dev.b.toNat % 4 = 1 then i.afterWord s t.trapa else t.trapa

/-- PACKET SUB 0x09 (R380): the trap of a reconvergence PC in a packet that begins no clause. A packet that cannot be read raises nothing
here: the later fetch faults (log 69). -/
def Iss.badRejoin (i : Iss) (s : State) : Option Trap :=
  match i.dev.lit with
  | none => none
  | some l => match i.headerAt s (i.offPc l) with
    | some h => if (header h).cls then none else some (trapOf 5 9 i.cos (h.setWidth 64))
    | none => none

/-- PACKET SUB 0x0A (R380): the threads whose register names no packet as target. -/
def Iss.badTarget (i : Iss) (s : State) : Option Trap :=
  match i.co.filter fun t => (i.dev.a64 (i.src t)).toNat % 16 != 0 with
  | [] => none
  | t :: ts => some (i.ownPacket s 0xA ((t :: ts).map (·.tidx)))

/-- PACKET SUB 0x0B (R380): whether a resume address is no slot address, or a slot that LITM marks as a literal. In a packet that cannot
be read only the address is tested: the later fetch faults (log 69). -/
def Iss.badResume (i : Iss) (s : State) (pc : Addr) : Bool :=
  pc.toNat % 4 != 0 || pc.toNat % 16 == 0 || (match i.headerAt s pc with
    | some h => (header h).isLit (pc.toNat % 16 / 4)
    | none => false)

/-- The PACKET fault of a branch or an RTE at its issue (R379, R380). SUB 0x0B is raised in handler state alone: outside it RTE is ILLEG (R377). -/
def Iss.packetTrap (i : Iss) (s : State) : Option Trap :=
  match i.dev.op.toNat with
  | 0xB0 => i.badRejoin s
  | 0xB2 => (i.badRejoin s).orElse fun _ => i.badTarget s
  | 0xB4 => i.badTarget s
  | 0xF7 => if i.co.all (·.handler) && i.co.any (fun t => i.badResume s (i.resumeAt s t)) then some (i.ownPacket s 0xB i.cos) else none
  | _ => none

/-! ### Word-level causes -/

/-- Whether SSR may write a special register now (R143, R382). -/
def ssrOk (n : Nat) (handler : Bool) : Bool := handler && (n == 0x018 || n == 0x019 || n == 0x01A)

/-- ILLEG's sub-cause of a word in or out of handler state: what the word decides, then SUB 0x06 and 0x07 (R382). -/
def Dev.illegIn (v : Dev) (handler : Bool) : Option Nat :=
  match v.illeg with
  | some n => some n
  | none =>
    if v.op = 0x55 ∧ ¬ ssrOk v.imm handler then some 6
    else if v.op = 0xF7 ∧ ¬ handler then some 7
    else none

/-- ILLEG's sub-cause of a word in its issue (R382): what the word decides, then BRX with a rejoin stack that is not empty, SUB 0x0B (R419). -/
def Iss.illeg (i : Iss) : Option Nat :=
  match i.dev.illegIn (i.co.any (·.handler)) with
  | some n => some n
  | none =>
    if i.dev.op = 0xB1 ∧ i.co.any (fun t => !t.rejoin.isEmpty) then some 0xB
    else none

/-- BADREG's sub-cause of one register use in a frame of `size` registers (R140, R385): a pair that is both odd and past the frame is
reported as odd, SUB 0x02 (log 6). -/
def RegUse.bad (u : RegUse) (size : Nat) : Option Nat :=
  if u.sub = 5 then (if u.reg + u.span > size then some 5 else none)
  else if u.reg % u.span ≠ 0 then some u.sub
  else if u.reg + u.span > size then some (if u.span ≤ 2 then 1 else u.sub)
  else none

/-- BADREG's sub-cause of a word for a frame size, in the order D, A, B (log 6). -/
def Dev.badReg (v : Dev) (size : Nat) : Option Nat :=
  if (v.op = 0xB3 ∨ v.op = 0xB4) ∧ (v.d.toNat % 8) * 8 + 8 > size then some 6
  else v.spec.regs.findSome? fun u => u.bad size

/-- The words that act once per issue with the leader's operands whatever U holds. -/
def actsOnce (op : Nat) : Bool :=
  op == 0xC0 || op == 0xC3 || op == 0xC8 || op == 0xC9 || op == 0xD2 || op == 0xD3 || op == 0xD4 || op == 0xD8 || op == 0xD9 ||
  (0xEA ≤ op && op ≤ 0xEC) || (0xF0 ≤ op && op ≤ 0xF5) || op == 0xF8

/-- The threads whose operands an issue reads. -/
def Iss.readers (i : Iss) : List Thread := if i.dev.pre.u || actsOnce i.dev.op.toNat then i.lead.toList else i.act

/-- The threads whose operands must have arrived: with U = 1 under UCHK those of every active thread are compared (R22), and a target
register is tested in every co-located thread (R379). -/
def Iss.waiters (i : Iss) : List Thread :=
  if i.dev.pre.u then (if i.desc.uchk then i.act else i.lead.toList)
  else if i.dev.op = 0xB2 ∨ i.dev.op = 0xB4 then i.co
  else i.readers

/-- The words that read operand A whatever its pending mark: MOVH (R170) and the handle instructions (R295). -/
def readsMarks (op : Nat) : Bool := op == 0x53 || (0xE3 ≤ op && op ≤ 0xE9)

/-- The words whose field D names the data they store (R386, SUB 0x02). -/
def isStore (op : Nat) : Bool := (0x97 ≤ op && op ≤ 0x9B) || op == 0x9D

/-- R22, R386: under UCHK, the active threads whose operands differ from the leader's, with the sub-cause. -/
def Iss.uniformHits (i : Iss) : Option Trap :=
  match i.lead with
  | none => none
  | some l =>
    if !i.dev.pre.u || !i.desc.uchk then none
    else
      let uses := i.dev.spec.regs
      let cut := if isStore i.dev.op.toNat then (i.dev.kindD.uses i.dev.d).length else 0
      let data := uses.take cut
      let oper := uses.drop cut
      let differs := fun (us : List RegUse) (t : Thread) => (readRegs us).any fun n => t.v n != l.v n
      let hs := i.act.filter fun t => differs oper t || differs data t
      match hs with
      | [] => none
      | t :: _ => some (trapOf 6 (if hs.any (differs oper) then 1 else 2) (hs.map (·.tidx)) (BitVec.ofNat 64 t.pos))

/-- ILLEG or LITMISS that a word alone decides, in or out of handler state (R379, R382, R383): the faults that rank above a broken chain (R384). -/
def Iss.formTrap (i : Iss) : Option Trap :=
  let w := i.word.setWidth 64
  match i.dev.illegIn (i.co.any (·.handler)) with
  | some sub => some (trapOf 1 sub i.cos w)
  | none => if i.dev.spec.litMissing then some (trapOf 2 0 i.cos w) else none

/-- ILLEG or LITMISS of an issue, as far as no operand decides it (R382, R383): BRX with a rejoin stack that is not empty included (R419). -/
def Iss.codeTrap (i : Iss) : Option Trap :=
  let w := i.word.setWidth 64
  match i.illeg with
  | some sub => some (trapOf 1 sub (if sub = 0xB then (i.co.filter fun t => !t.rejoin.isEmpty).map (·.tidx) else i.cos) w)
  | none => if i.dev.spec.litMissing then some (trapOf 2 0 i.cos w) else none

/-- Whether a number and unit name a counter (R324). -/
def pstatNamed (n unit : Nat) : Bool :=
  if 0x10 ≤ n && n ≤ 0x13 then unit ≤ 1 else if 0x20 ≤ n && n ≤ 0x23 then unit == 0
  else unit == 0 && (n ≤ 1 || (0x30 ≤ n && n ≤ 0x32) || (0x40 ≤ n && n ≤ 0x42))

/-- Whether some arrival of an issue conflicts, tested in lane order as though they were made (R229, R382). -/
def arriveConflict (g bar : Nat) : Team → List (Nat × Nat) → Bool
  | _, [] => false
  | t, (x, c) :: rest =>
    let b := t.bar bar
    let mine := (t.threads.find? (·.tidx == x)).bind fun th => tget th.arrivals bar
    mine == some b.ph || (decide (b.arr > 0) && c != b.exp) || arriveConflict g bar (t.arrive g x bar c) rest

/-- The arrivals that BARA or BAR makes: thread and count. A thread that already waits at a BAR does not arrive again (R363). -/
def Iss.arrivers (i : Iss) : List (Nat × Nat) :=
  (i.act.filter fun t => match t.wait with | .bar _ _ => i.dev.op != 0xBE | _ => true).map fun t => (t.tidx, (i.dev.b32 (i.src t)).toNat)

/-- What KDECL refuses: N, a bit of b[15:12] or a group that is not (R236, R382). -/
def kdeclBad (b : Word) (groups : Nat) : Bool :=
  decide (bits b 11 0 < 1) || decide (bits b 11 0 > 2048) || bits b 15 12 != 0 || decide (bits b 31 16 ≥ groups)

/-- The words whose ILLEG an operand decides, SUB 0x08 and 0x09 (R382): BARA, BAR, KDECL, DEPDEC, PSTAT. -/
def testsOperand (op : Nat) : Bool := op == 0xBC || op == 0xBE || op == 0xC0 || op == 0xF1 || op == 0xF5

/-- ILLEG of an operand, SUB 0x08 to 0x0A, of an issue with an active thread (R379, R382): the sub-cause, and the threads that have SELF. -/
def Iss.operIlleg (i : Iss) (s : State) : Option (Nat × List Nat) :=
  match i.lead with
  | none => none
  | some l =>
    let b := i.dev.b32 l
    match i.dev.op.toNat with
    | 0xBC | 0xBE =>
      if i.arrivers.any fun p => p.2 > 2048 then some (8, i.cos)
      else if ((s.team? i.team.uid).map fun t => arriveConflict i.grp.gidx (i.dev.d.toNat % 16) t i.arrivers) = some true then some (9, i.cos)
      else none
    | 0xC0 => if kdeclBad b i.team.groups.length then some (8, [l.tidx]) else none
    | 0xF1 => if ((i.ctx s).map fun c => decide (bits b 11 0 ≥ c.cn)) = some true then some (8, [l.tidx]) else none
    | 0xF5 => if pstatNamed (bits b 15 0) (bits b 23 16) then none else some (8, [l.tidx])
    | 0xFA => if (s.column (columnOfCore i.team.core)).ring.isNone then some (0xA, i.cos) else none
    | _ => none

/-- Whether the registers an issue reads stand in its threads' frames. -/
def Iss.readable (i : Iss) : Bool := i.act.all fun t => (readRegs i.dev.spec.regs).all fun n => decide (n < (i.src t).size)

/-- The word-level trap of an issue but for PACKET and CHAIN: ILLEG, an operand's included, LITMISS, BADREG (R361, R379). An operand that no
register of the frame gives is BADREG's alone; SYSC's ILLEG, SUB 0x0A, needs no operand. -/
def Iss.wordTrap (i : Iss) (s : State) : Option Trap :=
  let w := i.word.setWidth 64
  match i.codeTrap.orElse fun _ => if i.readable || i.dev.op == 0xFA then (i.operIlleg s).map fun x => trapOf 1 x.1 x.2 w else none with
  | some t => some t
  | none =>
      let hits := i.co.filterMap fun t => (i.dev.badReg t.size).map fun sub => Hit.mk t.tidx sub w
      match hits with
      | [] => none
      | h :: _ => some { cause := 3, sub := h.sub, hits := hits }

/-- Registers an issue reads and writes, with the threads that do. -/
def Iss.touched (i : Iss) : List (Thread × Nat) :=
  let us := i.dev.spec.regs
  (i.readers.flatMap fun t => (readRegs us).map fun n => (t, n)) ++ (i.act.flatMap fun t => (writtenRegs us).map fun n => (t, n))

/-- A load's destination that has not returned (R133). -/
def Reg.isDue (r : Reg) : Bool := match r.tag with | .due _ _ => true | _ => false

/-- Whether the word must wait for a load's data: a due register it reads, compares or writes (R133). -/
def Iss.awaitsData (i : Iss) : Bool :=
  (i.touched.any fun x => (x.1.reg x.2).isDue) || i.waiters.any fun t => (readRegs i.dev.spec.regs).any fun n => (t.reg n).isDue

/-- The pending handles that the word reads or compares (R150). -/
def Iss.handlesRead (i : Iss) : List Word :=
  i.waiters.flatMap fun t => ((readRegs i.dev.spec.regs).filter fun n =>
    (t.reg n).tag == .mark && !(readsMarks i.dev.op.toNat && n == i.dev.a.toNat)).map t.v

/-- Whether the word must wait for an operation: a marked register it reads or compares (R150). -/
def Iss.awaitsHandle (i : Iss) : Bool := !i.handlesRead.isEmpty

/-- Whether the word must wait for a register (R133, R150). -/
def Iss.mustWait (i : Iss) : Bool := i.awaitsData || i.awaitsHandle

/-- The failed tag of a register. -/
def Reg.failure (r : Reg) : Option (Addr × Nat × Nat) :=
  match r.tag with
  | .failed _ ea c sub _ => some (ea, c, sub)
  | _ => none

/-- The load whose failed destination a register is. -/
def Reg.failedOf (r : Reg) : Option Nat :=
  match r.tag with
  | .failed l _ _ _ _ => some l
  | _ => none

/-- The failed destinations of some loads are forgotten once the thread has taken their trap (log 8). -/
def Thread.forgive (t : Thread) (ls : List Nat) : Thread :=
  let f := fun (r : Reg) => match r.failedOf with
    | some l => if ls.contains l then { r with tag := .ready } else r
    | none => r
  { t with frames := t.frames.map fun x => { x with regs := x.regs.map f }, lost := t.lost.filter fun r => !(r.failedOf.any ls.contains) }

/-- A thread's failed destinations among some registers that it gives up: they are its own still (R401). -/
def Thread.keepFailed (t : Thread) (rs : List Reg) : Thread := { t with lost := t.lost ++ rs.filter (·.failure.isSome) }

/-- Every failed destination a thread holds, in its frames or given up with one. -/
def Thread.holding (t : Thread) : List Reg := t.frames.flatMap (·.regs) ++ t.lost

/-- The registers through which an issue meets failed destinations: those it touches, for EXIT all of its threads (R401). -/
def Iss.failedRegs (i : Iss) : List (Thread × Reg) :=
  (if i.dev.op = 0xB8 then i.act.flatMap fun t => t.holding.map fun r => (t, r)
   else i.touched.map fun x => (x.1, x.1.reg x.2)).filter fun x => x.2.failure.isSome

/-- The trap of some failed destinations, each with its thread, EA, cause and sub-cause: the first cause in R361's order that a thread meets;
SELF in the threads that meet it, with the EA of the first of theirs (R361, R401). -/
def failedTrap (mine : List (Nat × Addr × Nat × Nat)) : Option Trap :=
  match leastBy (fun m => causeRank m.2.2.1) mine with
  | none => none
  | some (_, _, c, sub) =>
    let those := mine.filter (·.2.2.1 == c)
    some { cause := c, sub := sub, hits := (dedup (those.map (·.1))).filterMap fun x => (those.find? (·.1 == x)).map fun m => Hit.mk x m.2.2.2 m.2.1 }

/-- R401: the trap of an issue that touches failed destinations, or that is EXIT in a thread that holds one. -/
def Iss.failed (i : Iss) : Option Trap :=
  failedTrap (i.failedRegs.filterMap fun x => x.2.failure.map fun f => (x.1.tidx, f))

/-- The completion flag a word counts on in its clause, none for 0xF (R131). -/
def Iss.flag (i : Iss) : Option Nat :=
  let f := match i.dev.spec.flag with
    | .none => 15
    | .setA => i.cl.seta
    | .setB => i.cl.setb
    | .own f => f
  if f < 12 then some f else none

/-- R131: whether the add would carry the flag above 7. -/
def Iss.flagFull (i : Iss) : Bool :=
  match i.flag with
  | some f => !i.act.isEmpty && i.grp.flags.getD f 0 ≥ 7
  | none => false

/-- R20: cycles an issue holds its pipe; NOP uses none. LDT and STT of width b128 are half rate (R201). -/
def Iss.cycles (i : Iss) : Nat :=
  let r := opRow i.dev.op.toNat
  let c := if (i.dev.op = 0x9C ∨ i.dev.op = 0x9D) ∧ 6 ≤ bits i.dev.lw 2 0 then 2 else r.cost
  if r.pipe = .none then 0
  else if i.dev.pre.u then c
  else max 1 (c * (List.range 16).foldl (fun m l => max m (i.act.filter (·.lane == l)).length) 0)

end Sys2Proof.Machine
end

