-- ==== Sys2Proof/Machine/Frames.lean ====
section
/-! DEFINITION. Granules, records, frame requests and the Tedder (R32–R40, R421). -/

namespace Sys2Proof.Machine

/-- Every resident thread of a lane, with its team's uid and its group. -/
def State.laneThreads (s : State) (core part lane : Nat) : List (Nat × Group × Thread) :=
  (s.teams.filter fun t => t.core == core && !t.swapped && !t.retired).flatMap fun t =>
    (t.groups.filter (·.part == part)).flatMap fun g =>
      (g.threads.filter fun th => th.lane == lane && !th.exited).map fun th => (t.uid, g, th)

/-- What the frames of a lane hold: bank granules, records, spill granules, bytes of the HBM share. -/
structure LaneUse where
  gran : Nat
  recs : Nat
  spill : Nat
  hbm : Nat
  deriving DecidableEq, Repr

/-- Bytes a frame takes in the HBM share: its registers and a 16-byte record (R38). -/
def Frame.hbmBytes (f : Frame) : Nat := f.regs.length * 4 + 16

/-- What one frame holds. -/
def Frame.use (f : Frame) : LaneUse :=
  match f.place with
  | .bank => ⟨f.regs.length / 8, 1, 0, 0⟩
  | .spill => ⟨0, 1, f.regs.length / 8, 0⟩
  | .hbm => ⟨0, 0, 0, f.hbmBytes⟩

/-- Sum of two uses. -/
def LaneUse.add (a b : LaneUse) : LaneUse := ⟨a.gran + b.gran, a.recs + b.recs, a.spill + b.spill, a.hbm + b.hbm⟩

/-- A request's granules and records in a lane. -/
def FrameReq.inLane (r : FrameReq) (lane : Nat) : Nat × Nat := ((r.need.find? (·.1 == lane)).map (·.2)).getD (0, 0)

/-- The granules of a lane that shrinking threads have given up while their issue waits (R225). -/
def State.laneFreed (s : State) (core part lane : Nat) : Nat :=
  (s.frameReqs.filter fun r => r.core == core && r.part == part).foldl (fun n r =>
    n + ((r.frees.find? (·.1 == lane)).map (·.2.1)).getD 0) 0

/-- What a lane holds: frames, but for what shrinking has freed, and granted requests not yet taken up. -/
def State.laneUse (s : State) (core part lane : Nat) : LaneUse :=
  let fs := (s.laneThreads core part lane).flatMap fun x => x.2.2.frames.map Frame.use
  let rs := (s.frameReqs.filter fun r => r.core == core && r.part == part && r.granted).map fun r =>
    (⟨(r.inLane lane).1, (r.inLane lane).2, 0, 0⟩ : LaneUse)
  let all := (fs ++ rs).foldl LaneUse.add ⟨0, 0, 0, 0⟩
  { all with gran := all.gran - s.laneFreed core part lane }

/-- Whether a lane has room for granules and records (R32). -/
def State.laneFits (s : State) (core part lane gran recs : Nat) : Bool :=
  let u := s.laneUse core part lane
  u.gran + gran ≤ 384 && u.recs + recs ≤ 256

/-- Whether a need fits every lane it names. -/
def State.fits (s : State) (core part : Nat) (need : List (Nat × Nat × Nat)) : Bool :=
  need.all fun n => s.laneFits core part n.1 n.2.1 n.2.2

/-- R34: a request may be granted when it fits and shares no lane with an earlier one that waits. -/
def State.canGrant (s : State) (core part order : Nat) (need : List (Nat × Nat × Nat)) : Bool :=
  s.fits core part need && !s.frameReqs.any fun r => r.core == core && r.part == part && !r.granted && r.order < order &&
    r.need.any fun n => need.any (·.1 == n.1)

/-- A request for granules and records of some threads of a group (R34, R39). -/
def State.askFrames (s : State) (u g core part : Nat) (use : FrameUse) (who : List (Nat × Nat))
    (need : List (Nat × Nat × Nat)) (frees : List (Nat × Nat × Nat) := []) : State :=
  { s with frameReqs := s.frameReqs ++ [{ team := u, gidx := g, core := core, part := part, use := use, who := who, need := need,
                                          order := s.seq, since := s.time, frees := frees }],
           seq := s.seq + 1 }

/-- What an issue asks for a list of threads: per lane, granules and records. -/
def laneNeeds (l : List (Nat × Nat × Nat)) : List (Nat × Nat × Nat) :=
  (List.range 16).filterMap fun k =>
    let mine := l.filter (·.1 == k)
    if mine.isEmpty then none else some (k, (mine.map (·.2.1)).foldl (· + ·) 0, (mine.map (·.2.2)).foldl (· + ·) 0)

/-- The refill needs of threads whose current frame is spilled (R39). -/
def refillNeeds (ts : List Thread) : List (Nat × Nat × Nat) :=
  laneNeeds (ts.filterMap fun t => match t.frame.place with
    | .bank => none
    | .spill => some (t.lane, t.size / 8, 0)
    | .hbm => some (t.lane, t.size / 8, 1))

/-- The request of a group that some thread waits on. -/
def State.frameReqOf (s : State) (u g x : Nat) : Option FrameReq :=
  s.frameReqs.find? fun r => r.team == u && r.gidx == g && r.who.any (·.1 == x)
/-- Drop the requests of a group that some threads wait on. -/
def State.dropReq (s : State) (u g : Nat) (ts : List Nat) : State :=
  { s with frameReqs := s.frameReqs.filter fun r => !(r.team == u && r.gidx == g && r.who.any fun x => ts.contains x.1) }

/-- Bring the current frames of some threads back into the bank (R39), counted in TDREFILL. -/
def State.refill (s : State) (u g core : Nat) (ts : List Nat) : State :=
  let n := (((s.group? u g).map (·.threads)).getD []).filter (fun th => ts.contains th.tidx && th.frame.place != .bank) |>.length
  let s := s.updThreads u g (fun th => ts.contains th.tidx) fun th => th.updFrame fun f => { f with place := .bank }
  if n = 0 then s else s.updCore core fun c => { c with tdRefill := (c.tdRefill + n) % 2 ^ 64 }

/-- FRAME_GRANT: the oldest request of a partition that may be granted is granted; a refill is made with it (R34, R39). -/
def State.grantFrames (s : State) (core part : Nat) : State :=
  match leastBy FrameReq.order (s.frameReqs.filter fun r => r.core == core && r.part == part && !r.granted && s.canGrant core part r.order r.need) with
  | none => s
  | some r =>
    let ts := r.who.map (·.1)
    if r.use = .refill then (s.dropReq r.team r.gidx ts).refill r.team r.gidx core ts
    else { s with frameReqs := s.frameReqs.map fun x => if x = r then { x with granted := true } else x }

/-- Whether a partition owes freed granules and records to a request that waits (R34). -/
def State.owesFrames (s : State) (core part : Nat) : Bool :=
  s.frameReqs.any fun r => r.core == core && r.part == part && !r.granted && s.canGrant core part r.order r.need

/-! ### The Tedder -/

/-- Bytes of a lane's equal share of a context's spill area: the area ends at the save area (log 9). -/
def Context.laneShare (c : Context) : Nat := (c.save - c.spill) / 49152

/-- Whether a thread of a group waits on frame allocation (R34, R37). -/
def State.awaitsFrame (s : State) (u : Nat) (g : Group) (x : Nat) : Bool :=
  s.frameReqs.any fun r => r.team == u && r.gidx == g.gidx && !r.granted && r.who.any (·.1 == x)

/-- Whether a group is blocked on frame allocation: the set of its clause in hand waits on a request (R42). -/
def State.frameBlocked (s : State) (u : Nat) (g : Group) : Bool :=
  match g.clause with
  | some c => g.stalled && c.set.any (s.awaitsFrame u g)
  | none => false

/-- Whether a group's threads count as parked for the Tedder (R38). -/
def State.tedderParked (s : State) (u : Nat) (g : Group) : Bool := !g.active || s.frameBlocked u g

/-- The frames of a lane that may be spilled, in R38's order: (team, GIDX, TIDX, depth). Frames of different teams that agree in all
three keys keep the order of the team list (log 68). -/
def State.spillable (s : State) (core part lane : Nat) : List (Nat × Nat × Nat × Nat × Nat) :=
  let all := (s.laneThreads core part lane).flatMap fun x =>
    let (u, g, th) := x
    let waits := s.awaitsFrame u g th.tidx
    if !s.tedderParked u g then []
    else (List.range th.frames.length).filterMap fun k =>
      match th.frames[k]? with
      | some f => if f.place = .bank ∧ (k ≠ 0 ∨ waits) then some (u, g.gidx, th.tidx, th.frames.length - 1 - k, th.slot) else none
      | none => none
  sortBy (fun x => (255 - x.2.2.2.1) * 2 ^ 20 + x.2.1 * 2 ^ 10 + x.2.2.2.2) all

/-- Move one frame out of the bank; a growth that waits asks for its thread's current frame as well (R38). -/
def State.spillFrame (s : State) (u g x depth : Nat) (dst : Place) : State :=
  let th? := ((s.group? u g).bind fun gr => gr.threads.find? (·.tidx == x))
  let s := s.updThreads u g (·.tidx == x) fun th =>
    let k := th.frames.length - 1 - depth
    { th with frames := (List.range th.frames.length).zip th.frames |>.map fun p => if p.1 = k then { p.2 with place := dst } else p.2 }
  match th? with
  | some th => if depth + 1 = th.frames.length then
      { s with frameReqs := s.frameReqs.map fun r => if r.team = u ∧ r.gidx = g ∧ r.use = .frsz ∧ !r.granted ∧ r.who.any (·.1 == x) then
          { r with need := laneNeeds (r.need ++ [(th.lane, th.size / 8, if dst = .hbm then 1 else 0)]) } else r }
    else s
  | none => s

/-- The oldest request of a partition that waits and involves a lane. -/
def State.oldestReq (s : State) (core part lane : Nat) : Option FrameReq :=
  leastBy FrameReq.order (s.frameReqs.filter fun r => r.core == core && r.part == part && !r.granted && r.need.any (·.1 == lane))

/-- Bytes that the frames of one context take in a lane's share of its spill area (R38, R421). -/
def State.laneHbm (s : State) (core part lane ctx : Nat) : Nat :=
  ((s.laneThreads core part lane).filter fun x => (s.team? x.1).map (·.ctx) == some ctx).foldl (fun n x =>
    (x.2.2.frames.filter (·.place == .hbm)).foldl (fun n f => n + f.hbmBytes) n) 0

/-- R38: spill one frame at a time until the oldest waiting request, whose need a spill may raise, fits the lane; R421 when there is no
room left, unless a kill has come before it (R420). -/
def State.tedderLoop (s : State) (core part lane : Nat) : Nat → State
  | 0 => s
  | fuel + 1 => match s.oldestReq core part lane with
   | none => s
   | some r =>
    let n := r.inLane lane
    if s.laneFits core part lane n.1 n.2 then s
    else match s.spillable core part lane with
      | [] => s
      | (u, g, x, depth, _) :: _ =>
        let use := s.laneUse core part lane
        let size := (((s.group? u g).bind fun gr => gr.threads.find? (·.tidx == x)).map fun th =>
          ((th.frames[th.frames.length - 1 - depth]?).map (·.regs.length)).getD 0).getD 0
        let lacksRec := use.recs + n.2 > 256
        let ctx := ((s.team? u).map (·.ctx)).getD 0
        let share := ((s.ctx? ctx).map Context.laneShare).getD 0
        if !lacksRec && use.spill + size / 8 ≤ 128 then
          ((s.spillFrame u g x depth .spill).updCore core fun c => { c with tdSpill := (c.tdSpill + 1) % 2 ^ 64 }).tedderLoop core part lane fuel
        else if s.laneHbm core part lane ctx + size * 4 + 16 ≤ share then
          ((s.spillFrame u g x depth .hbm).updCore core fun c =>
            { c with tdSpill := (c.tdSpill + 1) % 2 ^ 64, tdHbm := (c.tdHbm + 1) % 2 ^ 64 }).tedderLoop core part lane fuel
        else
          match s.team? r.team, s.group? r.team r.gidx with
          | some t, some gr =>
            if t.killed then s.endGroup t.uid gr.gidx else
            let lead := leastBy Thread.pos (gr.threads.filter fun th => !th.exited && r.who.any (·.1 == th.tidx))
            (s.post t.ctx (columnOfCore t.core) {
              cause := 0xF, src := 0, sub := if r.use = .refill then 6 else 5, slice := t.slice, core := t.core, gidx := gr.gidx,
              tidx := (lead.map (·.tidx)).getD 0, pc := (lead.map (·.pc)).getD 0,
              val := BitVec.ofNat 64 (((lead.bind fun th => r.who.find? (·.1 == th.tidx)).map (·.2)).getD 0) }).kill t.uid [gr.gidx]
          | _, _ => s

/-- Cycles of a column's class in 20 ns of TIME (R315). -/
def cyclesIn20 (cls : Nat) : Nat := if cls = 0 then 35 else if cls = 1 then 28 else if cls = 2 then 21 else 42

/-- Twentieths of a clock cycle that a column has counted at TIME `now` since reset; while its clock changes it counts at its new class
(R172, R315, log 73). The spec does not say at which moment of bring-up a core leaves reset: here with the device, so that CLOCK starts with TIME
(DESIGN CHOICE, log 84). -/
def Column.ticks (c : Column) (now : Nat) : Nat := c.clockBase + (now - c.clockSince) * cyclesIn20 c.cls

/-- TEDDER_WAIT_TIMEOUT: the Tedder acts for a lane when R37 says so. -/
def State.tedder (s : State) (core part lane : Nat) : State :=
  match s.oldestReq core part lane with
  | none => s
  | some r =>
    let long := (s.time - r.since) * cyclesIn20 (s.column (columnOfCore core)).cls ≥ 65536 * 20
    let ths := s.laneThreads core part lane
    let all := ths.all fun x => s.awaitsFrame x.1 x.2.1 x.2.2.tidx
    if long || all then s.tedderLoop core part lane 2048 else s

end Sys2Proof.Machine
end

