-- ==== Sys2Proof/Machine/Issue.lean ====
section
/-! DEFINITION. How one word issues: tests, waits, effect, charge, advance (R28, R127, R133, R310, R361). -/

namespace Sys2Proof.Machine

/-! ### Charges (R310, R311, R417) -/

/-- The grace of a limit (R417). -/
def grace (limit : Nat) : Nat := max (limit / 8) (2 ^ 20)

/-- The teams of a slice that have not retired. -/
def State.resident (s : State) (x : Slice) : List Team := s.teams.filter fun t => t.ctx == x.ctx && t.slice == x.id && !t.retired

/-- R311, R417: no further team of a slice is admitted, so that it completes with its resident teams, at once when there is none. -/
def State.closeSlice (s : State) (x : Slice) : State :=
  (s.updSlice x.ctx x.id fun y => { y with closed := true, left := (s.resident x).length }).completeSlice x.ctx x.id

/-- A slice, or, once its entry is gone, what is kept of it while its operations run on. -/
def State.charged? (s : State) (ctx : Nat) (id : Word) : Option Slice :=
  (s.slice? ctx id).orElse fun _ => s.owing.find? fun x => x.ctx == ctx && x.id == id

/-- What a slice has been charged is noted. -/
def State.noteCharge (s : State) (y : Slice) : State :=
  { s.updSlice y.ctx y.id fun _ => y with owing := mapWhere (fun x => x.ctx == y.ctx && x.id == y.id) (fun _ => y) s.owing }

/-- R417: kill every resident team of a slice at its grace point, with one entry and its operations cancelled. The entry is posted whether or not
a team is resident then, and once for the slice, whatever its other limit comes to. -/
def State.graceKill (s : State) (x : Slice) (cause : Nat) : State :=
  if x.graced then s
  else
    let mine := s.resident x
    let s := (s.noteCharge { (s.charged? x.ctx x.id).getD x with graced := true }).postEvent x.ctx cause 1 0 x.id
    let s := (s.ops.filter fun o => mine.any (·.uid == o.team) && o.kind != .queue && !o.st.final).foldl (fun s o => s.cancelOp o) s
    mine.foldl (fun s t => s.kill t.uid) s

/-- Raise BUDGET or ENERGY once in each resident team of a slice (R311). -/
def State.limitTrap (s : State) (x : Slice) (cause : Nat) (v : Nat) : State :=
  (s.resident x).foldl (fun s t =>
    s.raise t.uid cause fun a => if cause = 0x10 then { a with budget := some (BitVec.ofNat 64 v) }
      else { a with energy := some (BitVec.ofNat 64 v) }) s

/-- Charge a slice (R310), one that has completed while copies of it run on too: its limits are met when the charge first reaches them, its teams end
at the grace point, whose entry is posted whichever comes first (R417). -/
def State.charge (s : State) (ctx : Nat) (id : Word) (cycles energy : Nat) : State :=
  match s.charged? ctx id with
  | none => s
  | some x =>
    let y := { x with cycles := x.cycles + cycles, energy := x.energy + energy }
    let hitB := x.desc.budget ≠ 0 ∧ ¬ x.limitB ∧ y.cycles ≥ x.desc.budget
    let hitE := x.desc.equota ≠ 0 ∧ ¬ x.limitE ∧ y.energy ≥ x.desc.equota
    let y := { y with limitB := x.limitB || decide hitB, limitE := x.limitE || decide hitE }
    let s := s.noteCharge y
    let s := if (hitB ∨ hitE) ∧ ¬ x.closed then s.closeSlice y else s
    let s := if hitB then s.limitTrap y 0x10 y.cycles else s
    let s := if hitE then s.limitTrap y 0x15 y.energy else s
    if x.desc.budget ≠ 0 ∧ x.cycles < x.desc.budget + grace x.desc.budget ∧ y.cycles ≥ x.desc.budget + grace x.desc.budget then s.graceKill y 0x10
    else if x.desc.equota ≠ 0 ∧ x.energy < x.desc.equota + grace x.desc.equota ∧ y.energy ≥ x.desc.equota + grace x.desc.equota then
      s.graceKill y 0x15
    else s

/-! ### Ends of words and clauses -/

/-- Once a group has left handler state, the clause of a set that waits in place is its clause in hand again (R363). -/
def Group.unkeep (g : Group) : Group :=
  match g.kept with
  | some c => if g.inHandler then g else { g with clause := some c, stalled := true, kept := none }
  | none => g

/-- The clause in hand ends; `back` when it ended in a taken backward branch or YIELD (R24). -/
def Group.endClause (g : Group) (back : Bool) : Group :=
  match g.clause with
  | none => g.unkeep
  | some c => ({ g with clause := none, stalled := false, lastStart := c.start, lastBack := back } : Group).unkeep

/-- The co-located set goes past its word (R124, R127): within the packet, or to the next one. The clause ends there when
it has eight packets or a rejoin point is reached; a next packet with CLS = 1 ends it when it is fetched. -/
def Group.advance (g : Group) (set : List Nat) (pc : Addr) : Group :=
  let moved := { g with stalled := false, threads := mapWhere (fun th => set.contains th.tidx && !th.exited) (fun th => { th with pc := pc, came := .fell }) g.threads }
  if pc.toNat % 16 ≠ 4 then
    { moved with clause := moved.clause.map fun c => { c with words := c.words + 1 } }
  else
    let full := match g.clause with
      | some c => c.packets ≥ 8
      | none => true
    let there := moved.threads.any fun th => set.contains th.tidx && !th.exited && th.atRejoin
    if full || there then (moved.endClause false).settle set
    else { moved with clause := moved.clause.map fun c => { c with words := c.words + 1, packets := c.packets + 1, code := [] } }

/-- A word waits in place: the group tries it again, and selects no other PC (R28). A group of a killed team ends there (R420). -/
def Iss.stall (i : Iss) (s : State) : State :=
  (s.updGroup i.team.uid i.grp.gidx fun g => { g with stalled := true }).endRested i.team.uid i.grp.gidx

/-- A word that waits: one that is held at the head of a clause lets the group select another PC, any other waits in place (R232). -/
def Iss.held (i : Iss) (s : State) : State :=
  let heldOp := [0xBD, 0xBE, 0xBF, 0xC2, 0xF2].contains i.dev.op.toNat
  if heldOp && i.cl.words == 0 then
    (s.updGroup i.team.uid i.grp.gidx fun g =>
      ({ g with threads := mapWhere (fun th => i.cos.contains th.tidx) (fun th => { th with held := i.cos }) g.threads } : Group).endClause false)
      |>.endRested i.team.uid i.grp.gidx
  else i.stall s

/-- The words whose accesses have their own places in T, or that make none: registers', LD and ST, branches and waits. What any other does stands after
all that has been done, so that no later store stands before it (log 3). -/
def placesItself (op : Nat) : Bool := op < 0x9C || (0xB0 ≤ op && op ≤ 0xB7) || (0xBC ≤ op && op ≤ 0xBF)

/-- No store stands in T before what a word has done, but for a word whose accesses have their own places. -/
def Iss.closes (i : Iss) (s : State) : State := if placesItself i.dev.op.toNat then s else { s with fence := none }

/-- A word's own wait. Where its arrival has ended a phase, other groups may go on, and so may its own surplus threads' group: they are tried again
(R44). -/
def Iss.await (i : Iss) (s : State) : State :=
  let t := i.closes (i.held s)
  if ((s.team? i.team.uid).map (·.bars)) = some i.team.bars then t else { t with seq := t.seq + 1, stirred := t.seq }

/-- The words that exchange values within the group: VOTE, FINDM, ELECT, SHFLI to MRNK (R107). -/
def exchanges (op : Nat) : Bool := (0x48 ≤ op && op ≤ 0x4B) || (0x80 ≤ op && op ≤ 0x8B)

/-- Whether an issue is a meeting of its active threads (R107): U = 1, or a word that exchanges values within the group. -/
def Iss.meets (i : Iss) : Bool :=
  i.dev.pre.u || exchanges i.dev.op.toNat

/-- The active threads of an issue that is a meeting meet (R107). -/
def Iss.meeting (i : Iss) (g : Group) : Group :=
  if i.meets then { g with threads := joinPts (fun th => i.acts.contains th.tidx) g.threads } else g

/-- An issue that took effect is charged, but for what a handler issues (R310); its group has issued (R44), and a meeting is over (R107). -/
def Iss.bill (i : Iss) (s : State) : State :=
  let s : State := { (i.closes s).updGroup i.team.uid i.grp.gidx (fun g => { i.meeting g with issuedAt := s.seq }) with seq := s.seq + 1, stirred := s.seq }
  if i.grp.inHandler then s else s.charge i.team.ctx i.team.slice i.cycles i.cycles

/-- A word that took effect: its co-located set goes past it, and it is charged. -/
def Iss.finish (i : Iss) (s : State) : State :=
  i.bill (s.updGroup i.team.uid i.grp.gidx fun g => g.advance i.cos (nextPc i.pc i.dev.lit.isSome))

/-- A control transfer that took effect: its clause ends where the effect has set the PCs, and it is charged. -/
def Iss.depart (i : Iss) (s : State) (back : Bool) : State :=
  i.bill (s.updGroup i.team.uid i.grp.gidx fun g => (g.endClause back).settle i.cos)

/-- A word that waits has come further: it is tried again whatever else happens (R44, R102). -/
def State.goesOn (s : State) : State := { s with seq := s.seq + 1, stirred := s.seq }

/-- A synchronous trap of an issue (R360). -/
def Iss.take (i : Iss) (s : State) (t : Trap) : State :=
  { s.takeSync i.team.uid i.grp.gidx i.cos i.pc { t with chn := i.cl.chain } with stirred := s.seq }

/-- What an issue comes to after its effect. -/
def Iss.conclude (i : Iss) : Done → State
  | .trap s t => i.take s t
  | .wait s => i.await s
  | .more s => i.closes (s.updGroup i.team.uid i.grp.gidx fun g => { g with stalled := true }).goesOn
  | .over s => i.bill s
  | .jump s back => i.depart s back
  | .ok s => i.finish s

/-- Whether an issue's group waits for a walk that has not returned. -/
def Iss.awaitsWalk (i : Iss) (s : State) : Bool := s.walking i.team.uid i.grp.gidx

/-- Two traps of one cause: every thread that meets it has SELF, with what the first of the two says of it (R361). -/
def Trap.merge (a b : Trap) : Trap := { a with hits := a.hits ++ b.hits.filter fun h => !a.hits.any (·.tidx == h.tidx) }

/-- What an issue comes to when it also meets failed destinations: the first cause in R361's order, its own included. Once CHECK or PAGE is taken the
failed destinations that gave that cause are forgotten (R401, log 8). While its own accesses wait for a walk, whose PAGE or PERM may come first, it waits. -/
def Iss.withFailed (i : Iss) (s : State) (d : Done) : Done :=
  match i.failed with
  | none => d
  | some t =>
    let forget := fun (s : State) => (i.failedRegs.filter fun x => (x.2.failure.map (·.2.1)) == some t.cause).foldl
      (fun s x => i.upd s [x.1.tidx] fun th => th.forgive x.2.failedOf.toList) s
    match d with
    | .trap s' t' =>
      if causeRank t'.cause < causeRank t.cause then .trap s' t'
      else if t'.cause = t.cause then .trap (forget s') (t.merge t')
      else .trap (forget s) t
    | .wait s' => if causeRank 9 ≤ causeRank t.cause && i.awaitsWalk s' then d else .trap (forget s) t
    | _ => .trap (forget s) t

/-- What an issue comes to when it also meets UNIFORM, or failed destinations: the first cause in R361's order. -/
def Iss.outcome (i : Iss) (s : State) (d : Done) : Done :=
  match i.uniformHits with
  | none => i.withFailed s d
  | some t => match d with
    | .trap s' t' => if causeRank t'.cause < causeRank t.cause then .trap s' t' else .trap s t
    | _ => .trap s t

/-- The threads of an issue whose current frames are away and whom no granted request of their own serves: they wait (R28, R39). -/
def Iss.away (i : Iss) (s : State) : List Thread :=
  i.co.filter fun t => t.frame.place != .bank && !((s.frameReqOf i.team.uid i.grp.gidx t.tidx).map (·.granted)).getD false

/-- The spilled current frames of some threads are asked for, those that no request names yet: brought back at once when they may be (R39). -/
def Iss.fetchFrames (i : Iss) (s : State) (ts : List Thread) : State :=
  let new := ts.filter fun t => (s.frameReqOf i.team.uid i.grp.gidx t.tidx).isNone
  let need := refillNeeds new
  if new.isEmpty then s
  else if s.canGrant i.team.core i.grp.part s.seq need then s.refill i.team.uid i.grp.gidx i.team.core (new.map (·.tidx))
  else s.askFrames i.team.uid i.grp.gidx i.team.core i.grp.part .refill (new.map fun t => (t.tidx, t.depth * 256)) need

/-- An issue's frames, for the threads `who`: perform at once when it may, else ask and wait (R34); what other threads of it give up is free at
once (R225). `go` performs. -/
def Iss.withFrames (i : Iss) (s : State) (use : FrameUse) (who : List (Nat × Nat)) (need : List (Nat × Nat × Nat)) (go : State → Done)
    (frees : List (Nat × Nat × Nat) := []) : Done :=
  let u := i.team.uid
  let g := i.grp.gidx
  let ts := who.map (·.1)
  if need.isEmpty then go s
  else match s.frameReqs.find? fun r => r.team == u && r.gidx == g && r.use == use && r.who.map (·.1) == ts with
    | some r => if r.granted then go (s.dropReq u g ts) else .wait s
    | none =>
      let asked := s.askFrames u g i.team.core i.grp.part use who need frees
      if asked.canGrant i.team.core i.grp.part s.seq need then go s else .wait asked

/-- Issue one word with its effect: word-level causes, spilled frames, waits, then the effect against UNIFORM and failed destinations
(R361, R379). A word whose test of a target, or of an operand's range, reads a register waits for it first. -/
def runWord (v : Dev) (eff : Iss → State → Done) (s : State) : State :=
  match issueOf s v with
  | none => s
  | some i =>
    if (v.op == 0xB2 || v.op == 0xB4 || testsOperand v.op.toNat) && i.mustWait then i.stall s
    else match (i.packetTrap s).orElse fun _ => i.wordTrap s with
    | some t => i.take s t
    | none =>
      match i.away s with
      | t :: ts => i.stall (i.fetchFrames s (t :: ts))
      | [] =>
        if i.mustWait || i.flagFull then i.stall s
        else i.conclude (i.outcome s (eff i s))

/-- A word whose active threads each write registers computed from their source thread. -/
def runLanes (v : Dev) (f : Thread → List (Nat × Word)) (s : State) : State := runWord v (fun i s => i.lanes s f) s

end Sys2Proof.Machine
end

