-- ==== Sys2Proof/Machine/Handles.lean ====
section
/-! DEFINITION. Handles, slots and the making of child operations (R271–R277, R279). -/

namespace Sys2Proof.Machine

/-- The kind code of a handle (R271). -/
def OpKind.code (k : OpKind) : Nat := match k with | .mma => 1 | .astr => 2 | .xcopy => 3 | .xcoll => 4 | .queue => 0

/-- Whether a non-zero value has the shape of a handle (R271). -/
def handleShape (w : Word) : Bool :=
  w.toNat % 16 == 0 && decide (1 ≤ w.toNat / 16 % 16) && decide (w.toNat / 16 % 16 ≤ 4) && decide (w.toNat / 2 ^ 16 % 256 ≤ 191)

/-- HANDLE SUB 0x01: neither null nor of a handle's shape (R388). -/
def badHandle (w : Word) : Bool := w != 0 && !handleShape w

/-- A core's child-operation slot. -/
def State.slot (s : State) (core k : Nat) : Slot :=
  tgetD s.slots (core * 256 + k) { gen := Config.slotGen (core * 256 + k), op := none }

/-- The free slot an operation takes: the lowest (R272 leaves the choice open; log 13). -/
def State.freeSlot (s : State) (core : Nat) : Option Nat := (List.range 256).find? fun k => (s.slot core k).op.isNone

/-- A handle (R271). -/
def handleWord (gen : BitVec 8) (core slot : Nat) (k : OpKind) : Word :=
  BitVec.ofNat 32 (gen.toNat * 2 ^ 24 + core * 2 ^ 16 + slot * 256 + k.code * 16)

/-- NewHandle: the operation takes slot `k` of its core with the next generation (R272). -/
def State.newOp (s : State) (k : Nat) (o : Op) : State × Op :=
  let gen := (s.slot o.core k).gen + 1
  let o := { o with uid := s.seq, token := handleWord gen o.core k o.kind, slot := k, start := s.seq, sig := s.seq, oteam := o.team }
  ({ s with seq := s.seq + 1, ops := s.ops ++ [o], slots := tset s.slots (o.core * 256 + k) ⟨gen, some o.uid⟩ }, o)

/-- Write a handle with its pending mark to register `d` of some threads (R150). -/
def Iss.markHandle (i : Iss) (s : State) (ts : List Nat) (o : Op) : State :=
  i.upd s ts fun th => th.setReg i.dev.d.toNat { val := o.token, tag := .mark }

/-- The engine classes of R257 and R279: the matrix class, else the copy class. -/
def OpKind.matrix (k : OpKind) : Bool := k == .mma || k == .astr

/-- R113, R279: an ordered operation waits for the earlier ordered ones of its issuer and class, a queue packet that carries ORD for
all the earlier ones of its queue. -/
def State.ordHeld (s : State) (o : Op) : Bool :=
  o.ord && s.ops.any fun p =>
    p.uid != o.uid && !p.st.final &&
    (if o.kind == .queue then p.kind == .queue && p.queue == o.queue && decide (p.start < o.start)
     else p.kind != .queue && p.ord && p.team == o.team && p.issuer == o.issuer && p.kind.matrix == o.kind.matrix && decide (p.sig < o.sig))

/-- The rank in which operations that can start are taken: highest priority, then earliest start event (R280). -/
def Op.rank (o : Op) : Nat := (3 - o.pri) * 2 ^ 80 + o.start

/-! ### Reads of an operation's agent -/

/-- One run of bytes an operation reads or writes. -/
structure Span where
  ea : Addr
  n : Nat
  deriving DecidableEq, Repr

/-- A run of bytes cut at 16-byte boundaries (R284). -/
def spansOf : Nat → Addr → Nat → List Span
  | 0, _, _ => []
  | fuel + 1, ea, n => if n = 0 then [] else
      let k := min n (16 - ea.toNat % 16)
      ⟨ea, k⟩ :: spansOf fuel (ea + BitVec.ofNat 64 k) (n - k)

/-- A cause an operation meets at an address. -/
structure OpMiss where
  ea : Addr
  miss : Miss
  deriving DecidableEq, Repr

/-- Check one span for an agent; a span never crosses a page. A bad block is met at its first byte in the span (R403), but for one of `mended`,
which the writes that the span is one of cover whole together. -/
def State.look (s : State) (a : Agent) (x : Span) (k : AccKind) (mended : List Nat := []) : List OpMiss × Option Target :=
  let r := resolve s a x.ea 1 k
  let bad : List OpMiss := match r.2 with
    | some t =>
      if t.view = .system then []
      else if k = .read then ((blocksOf t.loc x.n).find? s.bad.contains).toList.map fun b => ⟨x.ea + BitVec.ofNat 64 (b * 64 - t.loc), ⟨0xB, 1⟩⟩
      else if k.writes ∧ ({ s with bad := s.bad.filter fun b => !mended.contains b } : State).partialBad t.loc x.n then [⟨x.ea, ⟨0xB, 4⟩⟩] else []
    | none => []
  (r.1.map (fun m => ⟨x.ea, m⟩) ++ bad, if bad.isEmpty then r.2 else none)

/-- The cause an operation fails with: the first in R361's order, at the lowest place in the order of the list (R403). -/
def firstOpMiss (l : List OpMiss) : Option OpMiss := leastBy (fun m => causeRank m.miss.cause) l

/-- What comes of an operation's reads: it fails, it waits for the host's data (R117), or it has the bytes of every span. -/
inductive Gathered
  | miss (m : OpMiss)
  | pending (s : State)
  | got (s : State) (data : List (List Byte))

/-- Where an operation keeps the host's data for the `k`-th read of chunk `c`, or of an MMA's row in hand as chunk 0; it is dropped once used, so
that every read is a transaction of its own (R84). -/
def hostKey (c k : Nat) : Nat := 2 ^ 80 + c * 2 ^ 20 + k

/-- Where an operation keeps the host's data for the `k`-th row-list entry that chunk `c` reads. -/
def rowKey (c k : Nat) : Nat := 2 ^ 80 + 2 ^ 60 + c * 2 ^ 20 + k

/-- An operation's lines without the host's data of chunk `c`, which is done. -/
def dropHost (c : Nat) (l : Tab (List Byte)) : Tab (List Byte) := l.filter fun e => e.1 < 2 ^ 80 || 2 ^ 81 ≤ e.1 || (e.1 - 2 ^ 80) % 2 ^ 60 / 2 ^ 20 != c

/-- Whether an operation holds, or waits for, data of the host's for a row or chunk in hand: it has begun (R404). -/
def State.midChunk (s : State) (o : Op) : Bool :=
  let c := match o.kind with | .mma => 0 | .xcoll => o.sent | _ => o.prog
  !o.st.final && (o.lines.any (fun e => 2 ^ 80 ≤ e.1 && e.1 < 2 ^ 81 && (e.1 - 2 ^ 80) % 2 ^ 60 / 2 ^ 20 == c) || s.loads.any (·.reader == some (.op o.uid)))

/-- Where an operation keeps a 16-byte unit as it stood before it wrote it (R114). -/
def unitKey (loc : Nat) : Nat := 2 ^ 90 + loc / 16

/-- Bytes of memory as an operation reads them now: its own earlier writes are not seen (R114). -/
def Op.seen (o : Op) (s : State) (loc n : Nat) : List Byte :=
  (List.range n).map fun k => match tget o.lines (unitKey (loc + k)) with
    | some u => u.getD ((loc + k) % 16) 0
    | none => Memory.get s.mem (loc + k)

/-- Whether an operation's reads may stand before its start in T (R110): a copy without REL (R111) that no predecessor and no order holds
(R113). REL of any scope is taken to cover every location (log 3). A queue packet's reads stand after the Gleaner's read of its ticket, as R356's
outcome needs. -/
def Op.readsEarly (o : Op) : Bool :=
  (o.kind == .xcopy || o.kind == .xcoll) && (o.bytes.getD 1 0).toNat / 2 % 2 == 0 && !o.ord && o.pred == 0

/-- A read of a unit, or part of one, by an operation: of bytes that it has itself overwritten as they stood before (R114); where its reads
may stand early, as some agent that has not seen the latest writes finds it (R110); else as it stands now. What its issuer has seen it sees too, R110's
own order: the litmus "Release" lets a copy without REL miss a write that its issuer has read, and the own-order row forbids it (DESIGN CHOICE,
log 3). A Gleaner that has read a write goes back before it no more (R103). -/
def State.opRead (s : State) (o : Op) (loc n : Nat) : State × List Byte :=
  if (List.range n).all fun k => (tget o.lines (unitKey (loc + k))).isNone then
    if o.readsEarly then
      let r := s.readAt [0, threadKey o.team o.issuer] [0] o.floor loc n
      (r.1, r.2.1)
    else (s.seeAll [0] [loc] n, o.seen s loc n)
  else (s, o.seen s loc n)

/-- A read of the host leaves for an agent (R117, R343): `key` tells its reads apart. -/
def State.askHost (s : State) (r : Reader) (team gidx : Nat) (tidxs : List Nat) (ea : Addr) (pa n key : Nat) (via : Option Trans := none) : State :=
  { s with seq := s.seq + 1, out := s.out ++ [.hostLoad s.seq (pa / 2 ^ 44 % 4) (pa % 2 ^ 44) n],
           loads := s.loads ++ [{ id := s.seq, issue := s.seq, team := team, gidx := gidx, tidxs := tidxs, vals := [], ext := 0, blocks := [],
                                  ea := ea, sub := 1, flag := none, sysview := some pa, reader := some r, since := s.time, key := key, via := via }] }

/-- Ask the host for one span of an operation's read, once. -/
def State.askFor (s : State) (o : Op) (x : Span) (t : Target) (key : Nat) : State :=
  if s.loads.any fun l => l.reader == some (.op o.uid) && l.key == key then s
  else s.askHost (.op o.uid) o.team 0 [] x.ea t.pa x.n key t.leaf

/-- Read spans of chunk `c` for an operation, with what else it checks first (R403): A bits set once nothing fails. Each read of the host is asked
for by itself, here or before an earlier chunk overwrote it (R84, R114). -/
def State.gather (s : State) (o : Op) (a : Agent) (xs : List Span) (more : List OpMiss) (c : Nat := 0) : Gathered :=
  let seen := xs.map fun x => (x, s.look a x .read)
  match firstOpMiss (more ++ seen.flatMap fun x => x.2.1) with
  | some m => .miss m
  | none =>
    let tg := seen.filterMap fun x => x.2.2.map fun t => (x.1, t)
    let tg := (List.range tg.length).zip tg |>.map fun x => (hostKey c x.1, x.2)
    let lacks := tg.filter fun x => x.2.2.view == .system && (tget o.lines x.1).isNone
    if !lacks.isEmpty then .pending (lacks.foldl (fun s x => s.askFor o x.2.1 x.2.2 x.1) (s.keepAll (tg.map (·.2.2))))
    else
      let r := tg.foldl (fun (p : State × List (List Byte)) x =>
        if x.2.2.view = .system then (p.1, p.2 ++ [tgetD o.lines x.1 []])
        else
          let y := p.1.opRead o x.2.2.loc x.2.1.n
          (y.1, p.2 ++ [y.2])) (tg.foldl (fun s x => s.setAD x.2.2 false) s, [])
      .got r.1 r.2

/-- An operation fails (R369); one that an HCAN has stopped is CANCELLED all the same (R299). -/
def State.failOp (s : State) (o : Op) (cause sub : Nat) (val : Addr) : State :=
  if o.cancel then s.endOp o.uid .cancelled else s.endOp o.uid .done cause sub val

/-- The host's data, or its refusal, for a read that is no register's (R405): an operation fails, a queue's Gleaners meet PAGE, an XQPOST
traps when it goes on, a base core takes an access fault when it does; what a service ring's read brings is kept, no bytes of one refused. -/
def State.hostData (s : State) (l : Load) (r : Reader) (data : Option (List Byte)) : State :=
  let s : State := { s with loads := s.loads.filter (·.id != l.id) }
  match r, data with
  | .op uid, some bs => s.updOp uid fun o => { o with lines := tset o.lines l.key bs }
  | .op uid, none => match s.op? uid with
    | some o => s.failOp o 9 5 l.ea
    | none => s
  | .queue id, d => { s with queues := mapWhere (·.id == id) (fun q => { q with host := tset q.host l.key (d.getD []) }) s.queues }
  | .post, d => s.updThreads l.team l.gidx (fun th => l.tidxs.contains th.tidx) fun th => match th.wait with
    | .posting idx n none => { th with wait := .posting idx n (some (d.getD [])) }
    | _ => th
  | .hart h, d => s.updHart h fun x => { x with hostRead := x.hostRead.map fun r => { r with got := tset r.got l.key d } }
  | .ring c, d => s.updColumn c fun x => { x with fromHost := tset x.fromHost l.key (d.getD []) }

end Sys2Proof.Machine
end

