-- ==== Sys2Proof/Machine/Integer.lean ====
section
/-! DEFINITION. Integer, logic, shift, bit-field, compare, predicate and move instructions (R142, R152–R172). -/

namespace Sys2Proof.Machine

/-! ### Arithmetic of one thread -/

/-- Two's-complement value, exact integer result, low `n` bits. -/
def ofInt (n : Nat) (x : Int) : BitVec n := BitVec.ofInt n x
/-- IMULH: Floor(a × b / 2^w) of the values (R152). -/
def mulHigh (w : Nat) (a b : Int) : BitVec w := ofInt w (a * b / 2 ^ w)
/-- Least of two by value. -/
def minS {n : Nat} (a b : BitVec n) : BitVec n := if a.toInt ≤ b.toInt then a else b
/-- Least unsigned. -/
def minN {n : Nat} (a b : BitVec n) : BitVec n := if a.toNat ≤ b.toNat then a else b
/-- Greatest signed. -/
def maxS {n : Nat} (a b : BitVec n) : BitVec n := if a.toInt ≤ b.toInt then b else a
/-- Greatest unsigned. -/
def maxN {n : Nat} (a b : BitVec n) : BitVec n := if a.toNat ≤ b.toNat then b else a
/-- R154's quotient, signed. -/
def divS {n : Nat} (a b : BitVec n) : BitVec n := if b = 0 then ~~~0 else ofInt n (a.toInt.tdiv b.toInt)
/-- R154's quotient, unsigned. -/
def divN {n : Nat} (a b : BitVec n) : BitVec n := if b = 0 then ~~~0 else BitVec.ofNat n (a.toNat / b.toNat)
/-- R154's remainder, signed. -/
def remS {n : Nat} (a b : BitVec n) : BitVec n := if b = 0 then a else ofInt n (a.toInt.tmod b.toInt)
/-- R154's remainder, unsigned. -/
def remN {n : Nat} (a b : BitVec n) : BitVec n := if b = 0 then a else BitVec.ofNat n (a.toNat % b.toNat)
/-- R153: a 32-bit sum that saturates. -/
def saturate32 (x : Int) : Word := ofInt 32 (min (max x (-(2 ^ 31))) (2 ^ 31 - 1))
/-- Byte `i` of a word as a signed number. -/
def sbyte (w : Word) (i : Nat) : Int := (w.extractLsb' (8 * i) 8).toInt
/-- IDP4's sum of products (R152). -/
def dot4 (a b : Word) : Int := sbyte a 0 * sbyte b 0 + sbyte a 1 * sbyte b 1 + sbyte a 2 * sbyte b 2 + sbyte a 3 * sbyte b 3
/-- LOP3 (R156): bit n = a + 2b + 4d of the table, for each bit. -/
def lop3 (a b d : Word) (l : Word) : Word :=
  let pick := fun (n : Nat) (x : Word) => if l.getLsbD n then x else 0
  pick 0 (~~~a &&& ~~~b &&& ~~~d) ||| pick 1 (a &&& ~~~b &&& ~~~d) ||| pick 2 (~~~a &&& b &&& ~~~d) ||| pick 3 (a &&& b &&& ~~~d) |||
  pick 4 (~~~a &&& ~~~b &&& d) ||| pick 5 (a &&& ~~~b &&& d) ||| pick 6 (~~~a &&& b &&& d) ||| pick 7 (a &&& b &&& d)
/-- A shift amount: from the width up every amount gives the same result, so a greater one is taken as the width (R157). -/
def amount (w n : Nat) : Nat := min w n
/-- R157's left shift. -/
def shl {w : Nat} (a : BitVec w) (n : Nat) : BitVec w := a <<< amount w n
/-- R157's logical right shift. -/
def shr {w : Nat} (a : BitVec w) (n : Nat) : BitVec w := a >>> amount w n
/-- R157's arithmetic right shift. -/
def sar {w : Nat} (a : BitVec w) (n : Nat) : BitVec w := a.sshiftRight (amount w n)
/-- One bits of a number, over `n` bits (R158). -/
def popBits : Nat → Nat → Nat
  | 0, _ => 0
  | n + 1, x => x % 2 + popBits n (x / 2)
/-- Zero bits below the lowest one bit, at most `n` (R158). -/
def ctzBits : Nat → Nat → Nat
  | 0, _ => 0
  | n + 1, x => if x % 2 = 1 then 0 else 1 + ctzBits n (x / 2)
/-- Zero bits above the highest one bit of an `n`-bit number (R158). -/
def clzBits : Nat → Nat → Nat
  | 0, _ => 0
  | n + 1, x => if x / 2 ^ n % 2 = 1 then 0 else 1 + clzBits n x
/-- The lowest `n` bits of a number in the opposite order (R158). -/
def revBits : Nat → Nat → Nat
  | 0, _ => 0
  | n + 1, x => x % 2 * 2 ^ n + revBits n (x / 2)
/-- BFE (R159). -/
def bfe (a b : Word) : Word :=
  let pos := bits b 7 0
  let len := min (bits b 15 8) 32
  let sx := b.getLsbD 16
  let e : Int := if sx then a.toInt else a.toNat
  if len = 0 then 0
  else
    let x : Int := e / 2 ^ pos % 2 ^ len
    ofInt 32 (if sx ∧ x ≥ 2 ^ (len - 1) then x - 2 ^ len else x)
/-- BFI (R159). -/
def bfi (d a b : Word) : Word :=
  let pos := bits b 7 0
  let len := min (bits b 15 8) 32
  let mask := shl (BitVec.ofNat 32 (2 ^ len - 1)) pos
  (d &&& ~~~mask) ||| (shl a pos &&& mask)
/-- ISETP's condition on values and bits (R160). -/
def icond {n : Nat} (cond : BitVec 3) (x y : Int) (a b : BitVec n) : Bool :=
  match cond.toNat with
  | 0 => a == b | 1 => a != b | 2 => decide (x < y) | 3 => decide (x ≤ y) | 4 => decide (x > y) | 5 => decide (x ≥ y)
  | 6 => (a &&& b) != 0 | _ => (a &&& b) == 0

/-- The low three bits of field D: a predicate destination. -/
def Dev.pd (v : Dev) : Nat := v.d.toNat % 8

/-- ISETP: each active thread's predicate takes the condition of its operands (R160). -/
def runSetp (v : Dev) (cond : Thread → Bool) (s : State) : State :=
  runWord v (fun i s => i.each s fun src th => th.setP v.pd (cond src)) s

/-- NOP changes no state but the PC (R142). -/
def execNop (w : Rrr) (s : State) : Host.Outcome State Fault Refusal :=
  .next (runWord (w.dev 0x00) (fun _ s => .ok s) s)

/-- IADD.i32 (R152). -/
def execIaddI32 (w : Rrr) (s : State) : Host.Outcome State Fault Refusal :=
  let v := w.dev 0x01
  .next (runLanes v (fun t => v.wd (v.a32 t + v.b32 t)) s)

/-- IADD.i64 (R152). -/
def execIaddI64 (w : Rrr) (s : State) : Host.Outcome State Fault Refusal :=
  let v := w.dev 0x02
  .next (runLanes v (fun t => v.wdd (v.a64 t + v.b64 t)) s)

/-- ISUB.i32 (R152). -/
def execIsubI32 (w : Rrr) (s : State) : Host.Outcome State Fault Refusal :=
  let v := w.dev 0x03
  .next (runLanes v (fun t => v.wd (v.a32 t - v.b32 t)) s)

/-- ISUB.i64 (R152). -/
def execIsubI64 (w : Rrr) (s : State) : Host.Outcome State Fault Refusal :=
  let v := w.dev 0x04
  .next (runLanes v (fun t => v.wdd (v.a64 t - v.b64 t)) s)

/-- IMUL.i32 (R152). -/
def execImulI32 (w : Rrr) (s : State) : Host.Outcome State Fault Refusal :=
  let v := w.dev 0x05
  .next (runLanes v (fun t => v.wd (v.a32 t * v.b32 t)) s)

/-- IMUL.i64 (R152). -/
def execImulI64 (w : Rrr) (s : State) : Host.Outcome State Fault Refusal :=
  let v := w.dev 0x06
  .next (runLanes v (fun t => v.wdd (v.a64 t * v.b64 t)) s)

/-- IMULH.s32 (R152). -/
def execImulhS32 (w : Rrr) (s : State) : Host.Outcome State Fault Refusal :=
  let v := w.dev 0x07
  .next (runLanes v (fun t => v.wd (mulHigh 32 (v.a32 t).toInt (v.b32 t).toInt)) s)

/-- IMULH.n32 (R152). -/
def execImulhN32 (w : Rrr) (s : State) : Host.Outcome State Fault Refusal :=
  let v := w.dev 0x08
  .next (runLanes v (fun t => v.wd (mulHigh 32 (v.a32 t).toNat (v.b32 t).toNat)) s)

/-- IMULH.s64 (R152). -/
def execImulhS64 (w : Rrr) (s : State) : Host.Outcome State Fault Refusal :=
  let v := w.dev 0x09
  .next (runLanes v (fun t => v.wdd (mulHigh 64 (v.a64 t).toInt (v.b64 t).toInt)) s)

/-- IMULH.n64 (R152). -/
def execImulhN64 (w : Rrr) (s : State) : Host.Outcome State Fault Refusal :=
  let v := w.dev 0x0A
  .next (runLanes v (fun t => v.wdd (mulHigh 64 (v.a64 t).toNat (v.b64 t).toNat)) s)

/-- IMAD.i32 (R152). -/
def execImadI32 (w : Rrr) (s : State) : Host.Outcome State Fault Refusal :=
  let v := w.dev 0x0B
  .next (runLanes v (fun t => v.wd (v.a32 t * v.b32 t + v.d32 t)) s)

/-- IMAD.i64 (R152). -/
def execImadI64 (w : Rrr) (s : State) : Host.Outcome State Fault Refusal :=
  let v := w.dev 0x0C
  .next (runLanes v (fun t => v.wdd (v.a64 t * v.b64 t + v.d64 t)) s)

/-- IMIN.s32 (R152). -/
def execIminS32 (w : Rrr) (s : State) : Host.Outcome State Fault Refusal :=
  let v := w.dev 0x0D
  .next (runLanes v (fun t => v.wd (minS (v.a32 t) (v.b32 t))) s)

/-- IMIN.n32 (R152). -/
def execIminN32 (w : Rrr) (s : State) : Host.Outcome State Fault Refusal :=
  let v := w.dev 0x0E
  .next (runLanes v (fun t => v.wd (minN (v.a32 t) (v.b32 t))) s)

/-- IMIN.s64 (R152). -/
def execIminS64 (w : Rrr) (s : State) : Host.Outcome State Fault Refusal :=
  let v := w.dev 0x0F
  .next (runLanes v (fun t => v.wdd (minS (v.a64 t) (v.b64 t))) s)

/-- IMIN.n64 (R152). -/
def execIminN64 (w : Rrr) (s : State) : Host.Outcome State Fault Refusal :=
  let v := w.dev 0x10
  .next (runLanes v (fun t => v.wdd (minN (v.a64 t) (v.b64 t))) s)

/-- IMAX.s32 (R152). -/
def execImaxS32 (w : Rrr) (s : State) : Host.Outcome State Fault Refusal :=
  let v := w.dev 0x11
  .next (runLanes v (fun t => v.wd (maxS (v.a32 t) (v.b32 t))) s)

/-- IMAX.n32 (R152). -/
def execImaxN32 (w : Rrr) (s : State) : Host.Outcome State Fault Refusal :=
  let v := w.dev 0x12
  .next (runLanes v (fun t => v.wd (maxN (v.a32 t) (v.b32 t))) s)

/-- IMAX.s64 (R152). -/
def execImaxS64 (w : Rrr) (s : State) : Host.Outcome State Fault Refusal :=
  let v := w.dev 0x13
  .next (runLanes v (fun t => v.wdd (maxS (v.a64 t) (v.b64 t))) s)

/-- IMAX.n64 (R152). -/
def execImaxN64 (w : Rrr) (s : State) : Host.Outcome State Fault Refusal :=
  let v := w.dev 0x14
  .next (runLanes v (fun t => v.wdd (maxN (v.a64 t) (v.b64 t))) s)

/-- IABS.s32 (R152). -/
def execIabsS32 (w : Rrr) (s : State) : Host.Outcome State Fault Refusal :=
  let v := w.dev 0x15
  .next (runLanes v (fun t => v.wd (ofInt 32 ((v.a32 t).toInt.natAbs : Int))) s)

/-- IABS.s64 (R152). -/
def execIabsS64 (w : Rrr) (s : State) : Host.Outcome State Fault Refusal :=
  let v := w.dev 0x16
  .next (runLanes v (fun t => v.wdd (ofInt 64 ((v.a64 t).toInt.natAbs : Int))) s)

/-- INEG.i32 (R152). -/
def execInegI32 (w : Rrr) (s : State) : Host.Outcome State Fault Refusal :=
  let v := w.dev 0x17
  .next (runLanes v (fun t => v.wd (-(v.a32 t))) s)

/-- INEG.i64 (R152). -/
def execInegI64 (w : Rrr) (s : State) : Host.Outcome State Fault Refusal :=
  let v := w.dev 0x18
  .next (runLanes v (fun t => v.wdd (-(v.a64 t))) s)

/-- IDIV.s32 (R154). -/
def execIdivS32 (w : Rrr) (s : State) : Host.Outcome State Fault Refusal :=
  let v := w.dev 0x19
  .next (runLanes v (fun t => v.wd (divS (v.a32 t) (v.b32 t))) s)

/-- IDIV.n32 (R154). -/
def execIdivN32 (w : Rrr) (s : State) : Host.Outcome State Fault Refusal :=
  let v := w.dev 0x1A
  .next (runLanes v (fun t => v.wd (divN (v.a32 t) (v.b32 t))) s)

/-- IDIV.s64 (R154). -/
def execIdivS64 (w : Rrr) (s : State) : Host.Outcome State Fault Refusal :=
  let v := w.dev 0x1B
  .next (runLanes v (fun t => v.wdd (divS (v.a64 t) (v.b64 t))) s)

/-- IDIV.n64 (R154). -/
def execIdivN64 (w : Rrr) (s : State) : Host.Outcome State Fault Refusal :=
  let v := w.dev 0x1C
  .next (runLanes v (fun t => v.wdd (divN (v.a64 t) (v.b64 t))) s)

/-- IREM.s32 (R154). -/
def execIremS32 (w : Rrr) (s : State) : Host.Outcome State Fault Refusal :=
  let v := w.dev 0x1D
  .next (runLanes v (fun t => v.wd (remS (v.a32 t) (v.b32 t))) s)

/-- IREM.n32 (R154). -/
def execIremN32 (w : Rrr) (s : State) : Host.Outcome State Fault Refusal :=
  let v := w.dev 0x1E
  .next (runLanes v (fun t => v.wd (remN (v.a32 t) (v.b32 t))) s)

/-- IREM.s64 (R154). -/
def execIremS64 (w : Rrr) (s : State) : Host.Outcome State Fault Refusal :=
  let v := w.dev 0x1F
  .next (runLanes v (fun t => v.wdd (remS (v.a64 t) (v.b64 t))) s)

/-- IREM.n64 (R154). -/
def execIremN64 (w : Rrr) (s : State) : Host.Outcome State Fault Refusal :=
  let v := w.dev 0x20
  .next (runLanes v (fun t => v.wdd (remN (v.a64 t) (v.b64 t))) s)

/-- IADDS.s32 (R153). -/
def execIaddsS32 (w : Rrr) (s : State) : Host.Outcome State Fault Refusal :=
  let v := w.dev 0x21
  .next (runLanes v (fun t => v.wd (saturate32 ((v.a32 t).toInt + (v.b32 t).toInt))) s)

/-- ISUBS.s32 (R153). -/
def execIsubsS32 (w : Rrr) (s : State) : Host.Outcome State Fault Refusal :=
  let v := w.dev 0x22
  .next (runLanes v (fun t => v.wd (saturate32 ((v.a32 t).toInt - (v.b32 t).toInt))) s)

/-- ISAD.n32 (R152). -/
def execIsadN32 (w : Rrr) (s : State) : Host.Outcome State Fault Refusal :=
  let v := w.dev 0x23
  .next (runLanes v (fun t => v.wd (ofInt 32 ((v.d32 t).toNat + (((v.a32 t).toNat : Int) - (v.b32 t).toNat).natAbs))) s)

/-- IDP4.s8 (R152). -/
def execIdp4S8 (w : Rrr) (s : State) : Host.Outcome State Fault Refusal :=
  let v := w.dev 0x24
  .next (runLanes v (fun t => v.wd (ofInt 32 ((v.d32 t).toInt + dot4 (v.a32 t) (v.b32 t)))) s)

/-- AND (R155). -/
def execAnd (w : Rrr) (s : State) : Host.Outcome State Fault Refusal :=
  let v := w.dev 0x25
  .next (runLanes v (fun t => v.wd (v.a32 t &&& v.b32 t)) s)

/-- OR (R155). -/
def execOr (w : Rrr) (s : State) : Host.Outcome State Fault Refusal :=
  let v := w.dev 0x26
  .next (runLanes v (fun t => v.wd (v.a32 t ||| v.b32 t)) s)

/-- XOR (R155). -/
def execXor (w : Rrr) (s : State) : Host.Outcome State Fault Refusal :=
  let v := w.dev 0x27
  .next (runLanes v (fun t => v.wd (v.a32 t ^^^ v.b32 t)) s)

/-- ANDN (R155). -/
def execAndn (w : Rrr) (s : State) : Host.Outcome State Fault Refusal :=
  let v := w.dev 0x28
  .next (runLanes v (fun t => v.wd (v.a32 t &&& ~~~(v.b32 t))) s)

/-- NOT (R155). -/
def execNot (w : Rrr) (s : State) : Host.Outcome State Fault Refusal :=
  let v := w.dev 0x29
  .next (runLanes v (fun t => v.wd (~~~(v.a32 t))) s)

/-- LOP3 (R156). -/
def execLop3 (w : Rrr) (s : State) : Host.Outcome State Fault Refusal :=
  let v := w.dev 0x2A
  .next (runLanes v (fun t => v.wd (lop3 (v.a32 t) (v.rb32 t) (v.d32 t) v.lw)) s)

/-- SHL.i32 (R157). -/
def execShlI32 (w : Rrr) (s : State) : Host.Outcome State Fault Refusal :=
  let v := w.dev 0x2B
  .next (runLanes v (fun t => v.wd (shl (v.a32 t) (v.b32 t).toNat)) s)

/-- SHL.i64 (R157). -/
def execShlI64 (w : Rrr) (s : State) : Host.Outcome State Fault Refusal :=
  let v := w.dev 0x2C
  .next (runLanes v (fun t => v.wdd (shl (v.a64 t) (v.b64 t).toNat)) s)

/-- SHR.i32 (R157). -/
def execShrI32 (w : Rrr) (s : State) : Host.Outcome State Fault Refusal :=
  let v := w.dev 0x2D
  .next (runLanes v (fun t => v.wd (shr (v.a32 t) (v.b32 t).toNat)) s)

/-- SHR.i64 (R157). -/
def execShrI64 (w : Rrr) (s : State) : Host.Outcome State Fault Refusal :=
  let v := w.dev 0x2E
  .next (runLanes v (fun t => v.wdd (shr (v.a64 t) (v.b64 t).toNat)) s)

/-- SAR.i32 (R157). -/
def execSarI32 (w : Rrr) (s : State) : Host.Outcome State Fault Refusal :=
  let v := w.dev 0x2F
  .next (runLanes v (fun t => v.wd (sar (v.a32 t) (v.b32 t).toNat)) s)

/-- SAR.i64 (R157). -/
def execSarI64 (w : Rrr) (s : State) : Host.Outcome State Fault Refusal :=
  let v := w.dev 0x30
  .next (runLanes v (fun t => v.wdd (sar (v.a64 t) (v.b64 t).toNat)) s)

/-- ROTL.i32 (R157). -/
def execRotlI32 (w : Rrr) (s : State) : Host.Outcome State Fault Refusal :=
  let v := w.dev 0x31
  .next (runLanes v (fun t => v.wd ((v.a32 t).rotateLeft ((v.b32 t).toNat % 32))) s)

/-- ROTL.i64 (R157). -/
def execRotlI64 (w : Rrr) (s : State) : Host.Outcome State Fault Refusal :=
  let v := w.dev 0x32
  .next (runLanes v (fun t => v.wdd ((v.a64 t).rotateLeft ((v.b64 t).toNat % 64))) s)

/-- SHF (R157). -/
def execShf (w : Rrr) (s : State) : Host.Outcome State Fault Refusal :=
  let v := w.dev 0x33
  .next (runLanes v (fun t => v.wd ((shr (v.a64 t) (v.b32 t).toNat).setWidth 32)) s)

/-- POPC.i32 (R158). -/
def execPopcI32 (w : Rrr) (s : State) : Host.Outcome State Fault Refusal :=
  let v := w.dev 0x34
  .next (runLanes v (fun t => v.wd (BitVec.ofNat 32 (popBits 32 (v.a32 t).toNat))) s)

/-- POPC.i64 (R158). -/
def execPopcI64 (w : Rrr) (s : State) : Host.Outcome State Fault Refusal :=
  let v := w.dev 0x35
  .next (runLanes v (fun t => v.wd (BitVec.ofNat 32 (popBits 64 (v.a64 t).toNat))) s)

/-- CLZ.i32 (R158). -/
def execClzI32 (w : Rrr) (s : State) : Host.Outcome State Fault Refusal :=
  let v := w.dev 0x36
  .next (runLanes v (fun t => v.wd (BitVec.ofNat 32 (clzBits 32 (v.a32 t).toNat))) s)

/-- CLZ.i64 (R158). -/
def execClzI64 (w : Rrr) (s : State) : Host.Outcome State Fault Refusal :=
  let v := w.dev 0x37
  .next (runLanes v (fun t => v.wd (BitVec.ofNat 32 (clzBits 64 (v.a64 t).toNat))) s)

/-- CTZ.i32 (R158). -/
def execCtzI32 (w : Rrr) (s : State) : Host.Outcome State Fault Refusal :=
  let v := w.dev 0x38
  .next (runLanes v (fun t => v.wd (BitVec.ofNat 32 (ctzBits 32 (v.a32 t).toNat))) s)

/-- CTZ.i64 (R158). -/
def execCtzI64 (w : Rrr) (s : State) : Host.Outcome State Fault Refusal :=
  let v := w.dev 0x39
  .next (runLanes v (fun t => v.wd (BitVec.ofNat 32 (ctzBits 64 (v.a64 t).toNat))) s)

/-- BREV (R158). -/
def execBrev (w : Rrr) (s : State) : Host.Outcome State Fault Refusal :=
  let v := w.dev 0x3A
  .next (runLanes v (fun t => v.wd (BitVec.ofNat 32 (revBits 32 (v.a32 t).toNat))) s)

/-- BFE (R159). -/
def execBfe (w : Rrr) (s : State) : Host.Outcome State Fault Refusal :=
  let v := w.dev 0x3B
  .next (runLanes v (fun t => v.wd (bfe (v.a32 t) (v.b32 t))) s)

/-- BFI (R159). -/
def execBfi (w : Rrr) (s : State) : Host.Outcome State Fault Refusal :=
  let v := w.dev 0x3C
  .next (runLanes v (fun t => v.wd (bfi (v.d32 t) (v.a32 t) (v.b32 t))) s)

/-- AND.i64 (R155). -/
def execAndI64 (w : Rrr) (s : State) : Host.Outcome State Fault Refusal :=
  let v := w.dev 0x3D
  .next (runLanes v (fun t => v.wdd (v.a64 t &&& v.b64 t)) s)

/-- OR.i64 (R155). -/
def execOrI64 (w : Rrr) (s : State) : Host.Outcome State Fault Refusal :=
  let v := w.dev 0x3E
  .next (runLanes v (fun t => v.wdd (v.a64 t ||| v.b64 t)) s)

/-- XOR.i64 (R155). -/
def execXorI64 (w : Rrr) (s : State) : Host.Outcome State Fault Refusal :=
  let v := w.dev 0x3F
  .next (runLanes v (fun t => v.wdd (v.a64 t ^^^ v.b64 t)) s)

/-- ISETP.s32 (R160). -/
def execIsetpS32 (w : Pc) (s : State) : Host.Outcome State Fault Refusal :=
  let v := w.dev 0x40
  .next (runSetp v (fun t => icond w.cond (v.a32 t).toInt (v.b32 t).toInt (v.a32 t) (v.b32 t)) s)

/-- ISETP.n32 (R160). -/
def execIsetpN32 (w : Pc) (s : State) : Host.Outcome State Fault Refusal :=
  let v := w.dev 0x41
  .next (runSetp v (fun t => icond w.cond (v.a32 t).toNat (v.b32 t).toNat (v.a32 t) (v.b32 t)) s)

/-- ISETP.s64 (R160). -/
def execIsetpS64 (w : Pc) (s : State) : Host.Outcome State Fault Refusal :=
  let v := w.dev 0x42
  .next (runSetp v (fun t => icond w.cond (v.a64 t).toInt (v.b64 t).toInt (v.a64 t) (v.b64 t)) s)

/-- ISETP.n64 (R160). -/
def execIsetpN64 (w : Pc) (s : State) : Host.Outcome State Fault Refusal :=
  let v := w.dev 0x43
  .next (runSetp v (fun t => icond w.cond (v.a64 t).toNat (v.b64 t).toNat (v.a64 t) (v.b64 t)) s)

/-- PLOP (R161). -/
def execPlop (w : Rrr) (s : State) : Host.Outcome State Fault Refusal :=
  let v := w.dev 0x45
  .next (runWord v (fun i s => i.each s fun src th =>
    let a := src.p (v.a.toNat % 8) != v.a.getLsbD 3
    let b := src.p (v.b.toNat % 8) != v.b.getLsbD 3
    let r := match v.d.toNat / 8 % 4 with
      | 0 => a && b | 1 => a || b | 2 => a != b | _ => a
    th.setP v.pd (r != v.d.getLsbD 5)) s)

/-- SEL (R162): G and N select, and every co-located thread executes it. -/
def execSel (w : Rrr) (s : State) : Host.Outcome State Fault Refusal :=
  let v := w.dev 0x46
  .next (runLanes v (fun t => v.wd (if guardOf v.pre t then v.a32 t else v.b32 t)) s)

/-- PMOV (R163): the old predicate word goes to D, and the masked predicates take A's bits. -/
def execPmov (w : Rrr) (s : State) : Host.Outcome State Fault Refusal :=
  let v := w.dev 0x47
  .next (runWord v (fun i s => i.each s fun src th =>
    let m := (v.b32 src).setWidth 7
    let x := (v.a32 src).setWidth 7
    let old : Word := (1#1 ++ src.preds).setWidth 32
    ({ th with preds := (th.preds &&& ~~~m) ||| (x &&& m) } : Thread).setVs (v.wd old)) s)

/-- VOTE (R164, R165). -/
def execVote (w : Rrr) (s : State) : Host.Outcome State Fault Refusal :=
  let v := w.dev 0x48
  .next (runWord v (fun i s =>
    let x := fun (t : Thread) => t.p (v.a.toNat % 8) != v.a.getLsbD 3
    let ones := i.act.filter x
    let ballot := ones.foldl (fun n t => n + 2 ^ t.pos) 0
    let r := match v.b.toNat % 4 with
      | 1 => ones.length == i.act.length
      | 2 => !ones.isEmpty
      | _ => ones.isEmpty || ones.length == i.act.length
    i.each s fun _ th => if v.b.toNat % 4 = 0 then th.setVs (v.wds (leWords 4 (toLe 16 ballot))) else th.setP v.pd r) s)

/-- FINDM's result for one thread among the active ones, by their keys (R166). -/
def findm (act : List Thread) (key : Thread → Nat) (t : Thread) : Word × Bool :=
  let e := act.filter fun u => key u == key t
  let rank := (e.filter fun u => u.pos < t.pos).length
  let lead := ((leastBy Thread.pos e).map Thread.pos).getD 0
  (BitVec.ofNat 32 (lead * 2 ^ 16 + rank * 2 ^ 8 + e.length), rank == 0)

/-- FINDM.i32 (R164, R166). -/
def execFindmI32 (w : Rrr) (s : State) : Host.Outcome State Fault Refusal :=
  let v := w.dev 0x49
  .next (runWord v (fun i s => i.each s fun _ th =>
    let r := findm i.act (fun u => (v.a32 u).toNat) th
    (th.setVs (v.wd r.1)).setP (v.b.toNat % 8) r.2) s)

/-- FINDM.i64 (R164, R166). -/
def execFindmI64 (w : Rrr) (s : State) : Host.Outcome State Fault Refusal :=
  let v := w.dev 0x4A
  .next (runWord v (fun i s => i.each s fun _ th =>
    let r := findm i.act (fun u => (v.a64 u).toNat) th
    (th.setVs (v.wd r.1)).setP (v.b.toNat % 8) r.2) s)

/-- ELECT (R167). -/
def execElect (w : Rrr) (s : State) : Host.Outcome State Fault Refusal :=
  let v := w.dev 0x4B
  .next (runWord v (fun i s =>
    let lead := (i.lead.map Thread.pos).getD 0
    i.each s fun _ th => (th.setVs (v.wd (BitVec.ofNat 32 lead))).setP (v.b.toNat % 8) (th.pos == lead)) s)

/-- MOV (R168). -/
def execMov (w : Rrr) (s : State) : Host.Outcome State Fault Refusal :=
  let v := w.dev 0x50
  .next (runLanes v (fun t => v.wd (v.b32 t)) s)

/-- MOVK (R169). -/
def execMovk (w : Ri) (s : State) : Host.Outcome State Fault Refusal :=
  let v := w.dev 0x51
  .next (runLanes v (fun t => v.wd (v.d32 t * 0x1000#32 + w.imm.signExtend 32)) s)

/-- MOVI (R169). -/
def execMovi (w : Ri) (s : State) : Host.Outcome State Fault Refusal :=
  let v := w.dev 0x52
  .next (runLanes v (fun _ => v.wd (w.imm.signExtend 32)) s)

/-- MOVH (R170): the value and its pending mark. -/
def execMovh (w : Rrr) (s : State) : Host.Outcome State Fault Refusal :=
  let v := w.dev 0x53
  .next (runWord v (fun i s => i.each s fun src th => th.setReg v.d.toNat (src.reg v.a.toNat)) s)

/-- MOVD (R168). -/
def execMovd (w : Rrr) (s : State) : Host.Outcome State Fault Refusal :=
  let v := w.dev 0x56
  .next (runLanes v (fun t => v.wdd (v.b64 t)) s)

/-- The linear index of a team in its grid (R46). -/
def Desc.xyz (d : Desc) (n : Nat) : Nat × Nat × Nat := (n % d.nx, n / d.nx % d.ny, n / d.nx / d.ny)

/-- The window word (R243). -/
def Team.windowWord (t : Team) : Word :=
  match t.resv with
  | none => 0
  | some r => BitVec.ofNat 32 (r.eng.toNat * 2 ^ 30 + r.count * 2 ^ 10 + r.base)

/-- The value GSR reads (R19, R143, R171, R172). -/
def Iss.special (i : Iss) (s : State) (n : Nat) (t : Thread) : Addr :=
  let d := i.desc
  let x := d.xyz i.team.index
  let nat := fun (k : Nat) => BitVec.ofNat 64 k
  match n with
  | 0x000 => nat t.tidx
  | 0x001 => nat i.grp.gidx
  | 0x002 => nat t.lane
  | 0x003 => nat t.slot
  | 0x004 => nat i.grp.part
  | 0x005 => nat i.team.core
  | 0x006 => nat (columnOfCore i.team.core)
  | 0x007 => nat (dieOfCore i.team.core)
  | 0x008 => nat x.1
  | 0x009 => nat x.2.1
  | 0x00A => nat x.2.2
  | 0x00B => nat (d.total % 2 ^ 32)
  | 0x00C => nat i.team.rank
  | 0x00D => nat (d.clh * 16 + d.clw)
  | 0x00E => nat d.width
  | 0x010 => d.argp
  | 0x011 => BitVec.ofNat 64 ((s.column (columnOfCore i.team.core)).ticks s.time / 20)
  | 0x012 => nat s.time
  | 0x013 => i.team.windowWord.setWidth 64
  | 0x014 => nat i.team.tileBase
  | 0x015 => i.team.slice.setWidth 64
  | 0x016 => nat i.team.ctx
  | 0x017 => BitVec.ofNat 64 ((List.range 12).foldl (fun a f => a + i.grp.flags.getD f 0 % 8 * 2 ^ (3 * f)) 0)
  | 0x018 => t.trapc.setWidth 64
  | 0x019 => t.trapa
  | 0x01A => t.trapv
  | _ => 0

/-- GSR (R171). -/
def execGsr (w : Ri) (s : State) : Host.Outcome State Fault Refusal :=
  let v := w.dev 0x54
  .next (runWord v (fun i s =>
    let n := v.imm
    .ok (i.upd s i.acts fun th =>
      let x := i.special s n (i.src th)
      th.setVs (if wideSpecial n then v.wdd x else v.wd (x.setWidth 32)))) s)

/-- SSR (R171, R364): in a handler TRAPC, TRAPA and TRAPV are written; TRAPC's reserved bits stay zero. -/
def execSsr (w : Ri) (s : State) : Host.Outcome State Fault Refusal :=
  let v := w.dev 0x55
  .next (runWord v (fun i s => i.each s fun src th =>
    match v.imm with
    | 0x018 => { th with trapc := v.d32 src &&& 0x7F73FFFF#32 }
    | 0x019 => { th with trapa := v.d64 src }
    | 0x01A => { th with trapv := v.d64 src }
    | _ => th) s)

end Sys2Proof.Machine
end

