-- ==== Sys2Proof/Machine/Sched.lean ====
section
/-! DEFINITION. How a partition comes to a word: choice of group (R41–R45), clause selection (R23, R24), fetch and packet tests
(R380), WAIT (R132), chains (R137, R384), asynchronous traps at boundaries (R362, R363). -/

namespace Sys2Proof.Machine

/-! ### Waits and selection -/

/-- Whether what a held thread waits on has ended (R232). -/
def Team.waitEnded (t : Team) (th : Thread) : Bool :=
  match th.wait with
  | .bar i w => (t.bar i).ph != w
  | .gsync _ | .kwait _ | .slyld => false
  | _ => true

/-- A thread that R24 may select (R23, R232, R365, R377). -/
def Team.selectable (t : Team) (g : Group) (th : Thread) : Bool :=
  !th.exited && (if g.inHandler then th.handler else true) &&
  (match th.wait with
   | .rejoin | .brx _ _ => false
   | .returned => !g.inHandler
   | _ => th.held.all fun m => g.threads.all fun x => x.tidx != m || x.exited || t.waitEnded x)

/-- R24's selection among PCs. -/
def selectPc (back : Bool) (q : Addr) (pcs : List Addr) : Option Addr :=
  let above := pcs.filter fun p => q.toNat < p.toNat
  if back && !above.isEmpty then leastBy (·.toNat) above else leastBy (·.toNat) pcs

/-- The selected PC and its co-located set (R23, R24). -/
def Team.select (t : Team) (g : Group) : Option (Addr × List Thread) :=
  let can := g.threads.filter (t.selectable g)
  (selectPc g.lastBack g.lastStart (can.map (·.pc))).map fun pc => (pc, can.filter (·.pc == pc))

/-- Whether a team's group is the one its asynchronous traps go to, one is pending, and it is not in handler state (R362, R366). -/
def Team.trapPending (t : Team) (g : Group) : Bool :=
  t.async.first.isSome && (t.elected.map (·.gidx)) == some g.gidx && !g.inHandler

/-- The instruction words of a packet from slot `n` on, with their slots and literals. -/
def wordsFrom (code : List Word) (n : Nat) : List (Nat × Dev) :=
  let h := header (code.headD 0)
  let p : Packet := ⟨h, code.drop 1⟩
  (p.instrSlots.filter (n ≤ ·)).filterMap fun k => (p.wordAt k).map fun w => (k, takeApart w (p.litOf k))

/-- The word at which the set of a group's clause stands. -/
def Team.standing (t : Team) (g : Group) : Option Iss :=
  match g.clause with
  | none => none
  | some c => match g.setOf c with
    | [] => none
    | th :: _ => match wordsFrom c.code (th.pc.toNat % 16 / 4) with
      | [] => none
      | (_, v) :: _ => issFor t g v

/-- The handles that an HWAIT waits for (R296). -/
def Iss.joined (i : Iss) : List Word := if i.dev.op = 0xE3 then i.doers.map i.dev.a32 else []

/-- Whether the queue an XQPOST names has no free slot for the index a thread has claimed (R294): not known where RIDX is the host's. -/
def State.queueFull (s : State) (i : Iss) (th : Thread) (idx : Addr) : Bool :=
  let hdr := i.dev.a64 (i.src th)
  let at_ := fun (off n : Nat) => (resolve s (.thread i.team.uid th.tidx) (hdr + BitVec.ofNat 64 off) n .read).2
  match at_ 16 4, at_ 128 8 with
  | some c, some r => r.view != .system &&
      decide (2 ^ (leNat (s.bytesAt c 4) % 32) ≤ (idx - BitVec.ofNat 64 (leNat (s.bytesAt r 8))).toNat)
  | _, _ => false

/-- Whether a set that has begun to wait at its word waits on a dependence of R42 that has not ended. -/
def State.waitsOn (s : State) (t : Team) (g : Group) (c : Clause) : Bool :=
  ((g.setOf c).any fun th => match th.wait with
    | .mwait d => !(th.watch.map (·.seen) |>.getD false) && !(match d with | some x => decide (x ≤ s.time) | none => false)
    | .sleep u => s.time < u
    | .bar _ _ | .gsync _ | .kwait _ | .slyld => !t.waitEnded th
    | _ => false) ||
  s.frameBlocked t.uid g || s.walking t.uid g.gidx ||
  (match t.standing g with
    | some i => i.awaitsHandle || (i.joined.any fun h => !s.ended t.ctx h) || i.co.any fun th => match th.wait with
      | .queue idx => s.queueFull i th idx
      | _ => false
    | none => false)

/-! ### Traps at a boundary -/

/-- The words that an asynchronous trap may interrupt while they wait (R363). -/
def interruptible (op : Nat) : Bool := [0xA8, 0xE3, 0xC2, 0xBD, 0xBE, 0xBF, 0xF2, 0xBA, 0xE2].contains op

/-- The issue at which a set of threads at one PC stands, its literal included. -/
def State.issueAt (s : State) (t : Team) (g : Group) (ths : List Thread) : Option Iss :=
  match ths with
  | [] => none
  | th :: _ => match s.fetch t (packetOf th.pc) with
    | .error _ => none
    | .ok r => match wordsFrom (leWords 4 r.2) (th.pc.toNat % 16 / 4) with
      | [] => none
      | (_, v) :: _ => issFor t { g with clause := some { start := th.pc, set := ths.map (·.tidx), seta := 15, setb := 15, packets := 1 } } v

/-- Whether a thread's wait is that of the interruptible word `op` itself, not one for a register or a walk that comes before it (R363). -/
def Wait.isOf (w : Wait) (op : Nat) : Bool :=
  match w with
  | .mwait _ | .mwaitDone _ => op == 0xA8
  | .hwait => op == 0xE3
  | .kwait _ => op == 0xC2
  | .bar _ _ => op == 0xBD || op == 0xBE
  | .gsync _ => op == 0xBF
  | .passed => op == 0xC2 || op == 0xBF
  | .slyld | .slyldDone _ => op == 0xF2
  | .sleep _ | .slept => op == 0xBA
  | .queue _ => op == 0xE2
  | _ => false

/-- Whether a set stands at a wait that an asynchronous trap may interrupt (R363): it waits at an interruptible word, or an RTE has sent it back there,
or it reads a pending handle; no XQPOST in the middle of its copy, no wait on frame allocation, for a load's data or for a walk. -/
def State.mayInterrupt (s : State) (t : Team) (g : Group) (ths : List Thread) : Bool :=
  !(ths.any fun th => th.wait.midWord || s.awaitsFrame t.uid g th.tidx) && (match s.issueAt t g ths with
    | some i => i.awaitsHandle || (interruptible i.dev.op.toNat && !i.awaitsData && !(i.dev.op == 0xE2 && s.walking t.uid g.gidx) &&
        ths.any fun th => th.wait.isOf i.dev.op.toNat || (th.wait == .returned && th.came == .resumed))
    | none => false)

/-- The set of threads whose wait an asynchronous trap interrupts when every thread of the group waits (R363): the lowest-addressed
interruptible one. A set that an RTE has sent back to such a wait, while the clause of another set is in hand, waits there again. -/
def State.interrupted (s : State) (t : Team) (g : Group) : Option (Addr × List Thread) :=
  let live := g.threads.filter fun th => !th.exited
  let inPlace := match g.clause with
    | some c => if g.stalled then live.filter fun th => c.set.contains th.tidx else []
    | none => []
  let rest := live.filter fun th => !inPlace.any (·.tidx == th.tidx)
  let held := rest.filter fun th => !th.held.isEmpty
  let back := rest.filter fun th => th.held.isEmpty && th.came == .resumed && g.clause.isSome
  let at_ := fun (l : List Thread) (pc : Addr) => l.filter (·.pc == pc)
  let again := back.filter fun th => s.mayInterrupt t g (at_ back th.pc)
  let waiting := inPlace ++ held ++ again
  let free := live.any fun th => !waiting.any (·.tidx == th.tidx) && t.selectable g th
  if free then none
  else (leastBy (·.toNat) ((waiting.map (·.pc)).filter fun pc => s.mayInterrupt t g (at_ waiting pc))).map fun pc => (pc, at_ waiting pc)

/-- The threads of a set whose stores have failed to merge (R402). -/
def unmerged (ths : List Thread) : List Thread := ths.filter fun th => !th.failedMerge.isEmpty

/-- A group that has a trap to take: an asynchronous one, or the CHECK of a store (R43, R402). -/
def Team.trapDue (t : Team) (g : Group) : Bool := t.trapPending g || !(unmerged (g.threads.filter fun th => !th.exited)).isEmpty

/-- Whether a WAIT mask names a flag that is not zero (R132). -/
def Group.flagsHold (g : Group) (w : BitVec 12) : Bool := (List.range 12).any fun f => w.getLsbD f && g.flags.getD f 0 != 0

/-- The WAIT mask of a clause: 0 for one that an RTE resumed (R377). -/
def Clause.waitMask (c : Clause) : BitVec 12 := if c.resumed then 0 else (header (c.code.headD 0)).wait

/-- Whether a group is blocked (R42): it issues nothing before something else has changed, a trap that it can take included. A group of a
killed team is not: it ends (R420). -/
def State.blocked (s : State) (t : Team) (g : Group) : Bool :=
  !t.killed && !(t.trapPending g && (s.interrupted t g).isSome) &&
  (match g.clause with
   | none => (t.select g).isNone || (s.walking t.uid g.gidx && !t.trapDue g)
   | some c => if !c.tested then g.flagsHold c.waitMask && !t.trapPending g && (unmerged (g.setOf c)).isEmpty
     else g.stalled && s.waitsOn t g c)

/-- Whether a group is known not to be ready: blocked, or its word waits for a load's data, a flag with room, the end of a cache
operation or of a service request (R44). -/
def State.unready (s : State) (t : Team) (g : Group) : Bool :=
  s.blocked t g || (!t.killed && g.stalled && !(t.trapPending g && (s.interrupted t g).isSome) && (match t.standing g with
    | some i => i.awaitsData || i.flagFull || i.co.any fun th => match th.wait with
      | .cache id => s.cacheOps.any (·.id == id)
      | .sysc _ => true
      | _ => false
    | none => false))

/-- Whether a team's context has stopped its groups at their clause boundaries (R314, R422). -/
def State.halted (s : State) (t : Team) : Bool :=
  match s.ctx? t.ctx with
  | some x => (match x.phase with | .running | .draining _ => false | _ => true)
  | none => true

/-- What some threads wait at, or have waited at without having gone on yet, is set aside, to go on after an RTE (R363). -/
def State.setAside (s : State) (t : Team) (g : Group) (x : Addr × List Thread) : State :=
  s.updThreads t.uid g.gidx (fun th => x.2.any (·.tidx == th.tidx)) fun th => match th.wait with
    | .run | .returned => th
    | w => { th with resume := some (th.pc, w) }

/-- The wait of some threads is interrupted, to go on after an RTE (R363). -/
def State.interrupt (s : State) (t : Team) (g : Group) (x : Addr × List Thread) : State :=
  (s.setAside t g x).takeAsync t.uid g.gidx (x.2.map (·.tidx)) x.1

/-- CHECK of stores whose merge has failed, at the clause boundary where their threads are selected: several are one trap, which shows
each thread's first EA (R402, log 8). -/
def State.takeMerges (s : State) (t : Team) (g : Group) (pc : Addr) (ths : List Thread) : State :=
  let set := ths.map (·.tidx)
  (s.updThreads t.uid g.gidx (fun th => set.contains th.tidx) fun th => { th with failedMerge := [] }).takeSync t.uid g.gidx set pc
    { cause := 0xB, sub := 4, hits := (unmerged ths).map fun th => ⟨th.tidx, 4, ((th.failedMerge.head?).map (·.1)).getD 0⟩ }

/-- The trap that a group takes where it stands: at a clause boundary a failed merge, then a pending asynchronous trap; or such a trap
interrupts a wait, of which a set with a failed merge takes that CHECK first (R362, R363, R402). None when there is none to take. A held set whose
wait has just ended has not gone past its word: what it has done there is set aside, so that a retry does not do it again. -/
def State.boundaryTrap (s : State) (t : Team) (g : Group) : Option State :=
  let front := match g.clause with
    | none => t.select g
    | some c => if c.tested then none else some (c.start, g.setOf c)
  if t.killed || t.swapped || s.halted t then none
  else match front with
    | some (pc, ths) =>
      if !(unmerged ths).isEmpty then some ((s.setAside t g (pc, ths)).takeMerges t g pc ths)
      else if t.trapPending g then some (s.interrupt t g (pc, ths)) else none
    | none => if t.trapPending g && (g.stalled || g.clause.isNone) then (s.interrupted t g).map fun x =>
        if (unmerged x.2).isEmpty then s.interrupt t g x else (s.setAside t g x).takeMerges t g x.1 x.2 else none

/-! ### Packets, clauses, chains -/

/-- A fetch fault of a set (R399), or a PACKET fault (R380): every thread has SELF. -/
def setTrap (cause sub : Nat) (set : List Nat) (val : Addr) : Trap := trapOf cause sub set val

/-- The packet at a PC and its fault, if any: fetch (R399), then R380's tests in the order of their sub-causes. -/
def State.packetAt (s : State) (t : Team) (pc : Addr) : Except (Nat × Nat × Addr) (Target × List Word × Header) :=
  match s.fetch t (packetOf pc) with
  | .error m => .error (m.cause, m.sub, packetOf pc)
  | .ok (g, bs) => match decodePacket bs with
    | .error e => .error (5, e.sub, (leWord bs).setWidth 64)
    | .ok p => .ok (g, leWords 4 bs, p.hdr)

/-- SETA and SETB of the clause that holds a packet: those of the packet before it, at most seven back, that begins a clause (R377). -/
def State.clauseHead (s : State) (t : Team) : Nat → Addr → Nat × Nat × Nat
  | 0, _ => (15, 15, 8)
  | n + 1, p => match s.packetAt t p with
    | .ok (_, _, h) => if h.cls then (h.seta, h.setb, 1) else
        let r := s.clauseHead t n (p - 16)
        (r.1, r.2.1, r.2.2 + 1)
    | .error _ => (15, 15, 8)

/-- What comes of a partition's turn: nothing more in this step, or a word to execute. -/
inductive Ready
  | idle (s : State)
  | go (s : State) (i : Instr)

/-- The packet at a PC for a group, once no walk for it is needed (R42); none when the group has to wait for one, which begins. -/
def State.fetched (s : State) (t : Team) (g : Group) (pc : Addr) : State × Option (Except (Nat × Nat × Addr) (Target × List Word × Header)) :=
  if s.needsWalk (.oper t.uid) (packetOf pc) then (s.askWalk (t.uid, g.gidx) (.oper t.uid) (packetOf pc), none)
  else (s.takeWalks t.uid g.gidx, some (s.packetAt t pc))

/-- Select the next clause of a group (R24) and begin it, or take the fault of its packet. A set that is to begin at a packet with CLS = 0
is exempt only when an RTE resumed every thread of it; else SUB is 0x08 if a thread of it landed there, 0x07 if all fell (log 69). A clause
with YLD makes its group rank as though it had issued now, so that its first word does not follow in this turn (R130). -/
def State.beginClause (s : State) (t : Team) (g : Group) : State :=
  match t.select g with
  | none => s
  | some (pc, ths) =>
    let set := ths.map (·.tidx)
    match s.fetched t g pc with
    | (s, none) => s
    | (s, some (.error (c, sub, v))) => s.takeSync t.uid g.gidx set pc (setTrap c sub set v)
    | (s, some (.ok (tg, code, h))) =>
      let resumed := ths.all (·.came == .resumed)
      if !h.cls && !resumed then
        s.takeSync t.uid g.gidx set pc (setTrap 5 (if ths.any (·.came == .landed) then 8 else 7) set (h.word.setWidth 64))
      else
        let hd := if resumed then s.clauseHead t 8 pc else (h.seta, h.setb, 1)
        let s := s.setAD tg false
        s.updGroup t.uid g.gidx fun g =>
          { g with clause := some { start := pc, set := set, seta := hd.1, setb := hd.2.1, packets := hd.2.2, resumed := resumed, code := code },
                   stalled := false,
                   issuedAt := if h.yld && !resumed then s.seq else g.issuedAt,
                   threads := mapWhere (fun th => set.contains th.tidx) (fun th =>
                     { th with held := [], wait := if th.wait = .returned then .run else th.wait }) g.threads }

/-- Whether a word joins the next one in a chain (R137, R142). -/
def Dev.chains (v : Dev) : Bool := v.pre.c && v.op != 0

/-- The words of the chain that begins with the first of a list. -/
def chainOf : List (Nat × Dev) → List (Nat × Dev)
  | [] => []
  | x :: xs => if x.2.chains then x :: chainOf xs else [x]

/-- The v registers, predicates, flags and k registers a word reads and writes, as one list of names (R137). -/
def Dev.items (v : Dev) (cl : Clause) : List Nat × List Nat :=
  let sp := v.spec
  let f := match sp.flag with
    | .none => 15 | .setA => cl.seta | .setB => cl.setb | .own f => f
  let pr := fun (l : List Nat) => (l.filter (· < 7)).map (100 + ·)
  (readRegs sp.regs ++ pr sp.predsRd ++ (if sp.flagsRd then (List.range 12).map (200 + ·) else []) ++ sp.ksRd.map (300 + ·),
   writtenRegs sp.regs ++ pr sp.predsWr ++ (if f < 12 then [200 + f] else []) ++ sp.ksWr.map (300 + ·))

/-- R384: the first word of a chain that breaks a condition, with its sub-cause. `last` says the chain ends the packet. -/
def chainBreak (cl : Clause) (prev : List Dev) (pos : Nat) : List Dev → Option (Nat × Nat)
  | [] => none
  | v :: rest =>
    let earlier := (prev.map fun u => (u.items cl).2).flatten
    let mine := v.items cl
    if prev.any (fun u => u.spec.pipe == v.spec.pipe) && v.spec.pipe != .none then some (pos, 1)
    else if mine.1.any earlier.contains then some (pos, 2)
    else if mine.2.any earlier.contains then some (pos, 3)
    else if controlTransfer v.op.toNat && !rest.isEmpty then some (pos, 4)
    else if rest.isEmpty && v.chains then some (pos, 5)
    else chainBreak cl (prev ++ [v]) (pos + 1) rest

/-- The position within its chain of the word at slot `n` of the packet at `pc`; what issues in a packet that an RTE resumed at a
later word begins with that word (R377). -/
def chainPos (c : Clause) (pc : Addr) (n : Nat) : Nat :=
  let first := if packetOf pc = packetOf c.start then c.start.toNat % 16 / 4 else 1
  ((wordsFrom c.code first).filter (·.1 < n)).foldl (fun k x => if x.2.chains then k + 1 else 0) 0

/-- The faults of higher rank that the words of a chain hold: PACKET of a branch, ILLEG, LITMISS, each with its slot (R384). What an operand
decides is no word-level fault (R379). -/
def chainFaults (s : State) (t : Team) (g : Group) (ch : List (Nat × Dev)) : List (Nat × Trap) :=
  (List.range ch.length).zip ch |>.flatMap fun x => match issFor t g x.2.2 with
    | none => []
    | some i => ((i.packetTrap s).toList ++ i.formTrap.toList).map fun tr => (x.2.1, { tr with chn := x.1 })

/-- The trap of a chain that begins at this word (R384), with its place: the first in R361's order of the faults that its words hold, else
the break itself. -/
def chainTrap (s : State) (t : Team) (g : Group) (c : Clause) (ths : List Thread) (words : List (Nat × Dev)) (n : Nat) : Option (Addr × Trap) :=
  let ch := chainOf words
  let packet := packetOf ((ths.head?.map (·.pc)).getD 0)
  match chainBreak c [] 0 (ch.map (·.2)) with
  | none => none
  | some (k, sub) => match leastBy (fun x => causeRank x.2.cause) (chainFaults s t g ch) with
    | some (slot, tr) => some (packet + BitVec.ofNat 64 (4 * slot), tr)
    | none => some (packet + BitVec.ofNat 64 (4 * n),
        { trapOf 4 sub (ths.map (·.tidx)) (((ch[k]?).map fun x => (putTogether x.2).setWidth 64).getD 0) with chn := k })

/-- Whether a chain holds a branch whose target register has still to come, so that its faults cannot be told yet. -/
def chainWaits (t : Team) (g : Group) (words : List (Nat × Dev)) : Bool :=
  (chainOf words).any fun x => (x.2.op == 0xB2 || x.2.op == 0xB4) && (match issFor t g x.2 with
    | some i => i.mustWait
    | none => false)

/-- The loads whose failed destinations a clause's WAIT names, in a thread: EA, cause, sub-cause and load (R401). -/
def Thread.failedIn (th : Thread) (w : BitVec 12) : List (Addr × Nat × Nat × Nat) :=
  th.holding.filterMap fun r => match r.tag with
    | .failed l ea cause sub (some f) => if w.getLsbD f then some (ea, cause, sub, l) else none
    | _ => none

/-- The WAIT of a clause in hand: the flags it names, then the loads that failed under them (R132, R401). -/
def State.testWait (s : State) (t : Team) (g : Group) (c : Clause) (ths : List Thread) (pc : Addr) : State :=
  if g.flagsHold c.waitMask then s
  else
    match failedTrap (ths.flatMap fun th => (th.failedIn c.waitMask).map fun x => (th.tidx, x.1, x.2.1, x.2.2.1)) with
    | some tr =>
      (s.updThreads t.uid g.gidx (fun th => c.set.contains th.tidx) fun th =>
        th.forgive (((th.failedIn c.waitMask).filter (·.2.1 == tr.cause)).map (·.2.2.2))).takeSync t.uid g.gidx c.set pc tr
    | none => s.updGroup t.uid g.gidx fun g => { g with clause := some { c with tested := true } }

/-- The packet that a set in the middle of its clause comes to; it waits in place for a walk that the fetch needs (R42). A packet with a fault traps the
set here, at its fetch, before the clause boundary that a CLS of it would make: the spec says "first issues" and "Fetch" (R380; DESIGN CHOICE, log 82). -/
def State.nextPacket (s : State) (t : Team) (g : Group) (c : Clause) (pc : Addr) : State :=
  match s.fetched t g pc with
  | (s, none) => s.updGroup t.uid g.gidx fun g => { g with stalled := true }
  | (s, some (.error (cause, sub, v))) => s.takeSync t.uid g.gidx c.set pc (setTrap cause sub c.set v)
  | (s, some (.ok (tg, code, h))) =>
    if h.cls then s.updGroup t.uid g.gidx (·.endClause false)
    else (s.setAD tg false).updGroup t.uid g.gidx fun g => { g with clause := some { c with code := code }, stalled := false }

/-- Go on with a clause in hand: WAIT, the packet the set stands in, chains, then the word (R127, R132, R384). -/
def State.inClause (s : State) (t : Team) (g : Group) (c : Clause) : Ready :=
  match g.setOf c with
  | [] => .idle (s.updGroup t.uid g.gidx (·.endClause false))
  | th :: ths =>
    if !c.tested then .idle (s.testWait t g c (th :: ths) th.pc)
    else match c.code with
      | [] => .idle (s.nextPacket t g c th.pc)
      | _ :: _ =>
        let n := th.pc.toNat % 16 / 4
        match wordsFrom c.code n with
        | [] => .idle s
        | (k, v) :: more =>
          let pos := chainPos c th.pc k
          match if pos = 0 ∧ v.chains then chainTrap s t g c (th :: ths) ((k, v) :: more) n else none with
          | some (pc, tr) =>
            if chainWaits t g ((k, v) :: more) then .idle (s.updGroup t.uid g.gidx fun g => { g with stalled := true })
            else
              let s := s.updThreads t.uid g.gidx (fun x => c.set.contains x.tidx) fun x => { x with pc := pc }
              .idle (s.takeSync t.uid g.gidx c.set pc tr)
          | none =>
            let s := s.updGroup t.uid g.gidx fun g => { g with clause := some { c with chain := pos } }
            .go { s with cur := some ⟨t.uid, g.gidx⟩ } (v.instr)

/-- Whether a group stands before a clause of YLD that it has just begun (R130). -/
def Group.yields (g : Group) : Bool :=
  match g.clause with
  | some c => !c.tested && !c.resumed && (header (c.code.headD 0)).yld
  | none => false

/-- A group goes on from the clause in hand until a word is ready, at most `n` times. -/
def State.goOn (u gx : Nat) : Nat → State → Ready
  | 0, s => .idle s
  | n + 1, s => match s.team? u, s.group? u gx with
    | some t, some g => match g.clause with
      | some c => match s.inClause t g c with
        | .idle s' => if c.tested then .idle s' else s'.goOn u gx n
        | r => r
      | none => .idle s
    | _, _ => .idle s

/-- A group comes to its next word: end of a killed team's group, pending traps, selection, then the clause (R130, R362, R420). -/
def State.comeToWord (s : State) (u gx : Nat) : Ready :=
  match s.team? u, s.group? u gx with
  | some t, some g =>
    if t.killed && g.atRest then .idle (s.endGroup u gx)
    else match s.boundaryTrap t g with
      | some s => .idle s
      | none => match g.clause with
        | some c => if c.tested then s.inClause t g c else if s.halted t then .idle s else s.goOn u gx 2
        | none => if s.halted t then .idle s else
          let s := s.beginClause t g
          if ((s.group? u gx).map (·.yields)).getD false then .idle s else s.goOn u gx 2
  | _, _ => .idle s

/-! ### The active set and the choice of group (R41–R45) -/

/-- Every resident group of a partition with its team. -/
def State.groupsAt (s : State) (core part : Nat) : List (Team × Group) :=
  (s.teams.filter fun t => t.core == core && t.started && !t.swapped && !t.retired).flatMap fun t =>
    (t.groups.filter fun g => g.part == part && g.threads.any fun th => !th.exited).map fun g => (t, g)

/-- A group in the middle of a chain goes on before every other (R137). -/
def Group.midChain (g : Group) : Bool :=
  match g.clause with
  | some c => !c.code.isEmpty && (match g.threads.find? fun th => c.set.contains th.tidx && !th.exited with
      | some th => chainPos c th.pc (th.pc.toNat % 16 / 4) != 0
      | none => false)
  | none => false

/-- R44's order: chains, handlers and pending traps first, then the group that issued least recently. -/
def State.pickRank (x : Team × Group) : Nat :=
  (if x.2.midChain then 0 else if x.2.inHandler || x.1.trapDue x.2 then 1 else 2) * 2 ^ 80 + x.2.issuedAt

/-- Whether a group's word has been found to wait and nothing has happened since that may have ended its wait (R44, log 1). -/
def State.foundWaiting (s : State) (t : Team) (g : Group) : Bool :=
  g.stalled && !t.killed && decide (s.stirred < g.triedAt) && !(t.trapPending g && (s.interrupted t g).isSome)

/-- The group a partition issues from (R44): an active one that is not known to be unready. -/
def State.pick (s : State) (core part : Nat) : Option (Nat × Nat) :=
  (leastBy State.pickRank ((s.groupsAt core part).filter fun x => x.2.active && !s.unready x.1 x.2 && !s.foundWaiting x.1 x.2)).map fun x => (x.1.uid, x.2.gidx)

/-- A group that stands at the start of a clause, its own or the one it is to select (R42). -/
def Group.atHead (g : Group) : Bool :=
  match g.clause with
  | none => true
  | some c => !c.tested || c.words == 0

/-- A group leaves the active set for the parked pool. -/
def State.toPool (s : State) (u g : Nat) : State :=
  { s.updGroup u g (fun x => { x with active := false, demoted := false, parkedAt := s.seq }) with seq := s.seq + 1 }

/-- A group takes a place in the active set. -/
def State.toActive (s : State) (u g : Nat) : State :=
  { s.updGroup u g (fun x => { x with active := true, demoted := false, promotedAt := s.seq }) with seq := s.seq + 1 }

/-- A group that is trapping: it has a trap to take, or runs a handler (R45). -/
def Team.trapping (t : Team) (g : Group) : Bool := t.trapDue g || g.inHandler

/-- The parked groups that may be promoted (R43). -/
def State.parkedReady (s : State) (core part : Nat) : List (Team × Group) :=
  (s.groupsAt core part).filter fun x => !x.2.active && !s.blocked x.1 x.2

/-- The eligible parked group that comes next (R43): one that is trapping first, then the one parked longest. -/
def State.nextParked (s : State) (core part : Nat) : Option (Team × Group) :=
  leastBy (fun x => (if x.1.trapping x.2 then 0 else 2 ^ 80) + x.2.parkedAt) (s.parkedReady core part)

/-- R43: a free place is taken. R45: while none is free, for each parked group that is trapping one of the others, the one promoted most recently first,
gives up its place at its next clause boundary, so that no ordinary group holds back a handler. -/
def State.promote (s : State) (core part : Nat) : State :=
  match s.nextParked core part with
  | none => s
  | some x =>
    let act := (s.groupsAt core part).filter (·.2.active)
    if act.length < 8 then s.toActive x.1.uid x.2.gidx
    else if ((s.parkedReady core part).filter fun y => y.1.trapping y.2).length ≤ (act.filter fun y => y.2.demoted && !y.1.trapping y.2).length then s
    else match leastBy (fun y => 2 ^ 80 - y.2.promotedAt) (act.filter fun y => !y.1.trapping y.2 && !y.2.demoted) with
      | none => s
      | some y => s.updGroup y.1.uid y.2.gidx fun g => { g with demoted := true }

/-- Groups blocked at the start of a clause park (R42); one that has to give up its place does so at its clause boundary, to the trapping
group (R45). -/
def State.park (s : State) (core part : Nat) : State :=
  let act := (s.groupsAt core part).filter (·.2.active)
  let s := (act.filter fun x => x.2.atHead && s.blocked x.1 x.2).foldl (fun s x => s.toPool x.1.uid x.2.gidx) s
  match act.find? fun x => x.2.demoted && x.2.clause.isNone && !x.1.trapping x.2 with
  | some x => (s.toPool x.1.uid x.2.gidx).promote core part
  | none => s

/-- A partition's turn: park what is blocked, then bring the chosen group to its next word. -/
def State.turn (s : State) (core part : Nat) : Ready :=
  let s := s.park core part
  match s.pick core part with
  | none => .idle s
  | some (u, g) =>
    let s : State := { s.updGroup u g (fun x => { x with triedAt := s.seq }) with seq := s.seq + 1 }
    match s.comeToWord u g with
    | .idle s => .idle (if ((s.group? u g).map (·.stalled)).getD false then s else s.goesOn)
    | r => r

end Sys2Proof.Machine
end

