-- ==== Sys2Proof/Machine/Control.lean ====
section
/-! DEFINITION. Branches, frames, exits, pauses, barriers, traps: BRA to GSYNC and TRAP, RTE, GTR, BKPT (R218–R233, R375–R378). -/

namespace Sys2Proof.Machine

/-! ### Branches -/

/-- Send the co-located threads to their next PCs, pushing rejoin pairs as R25 says; `taken` gives the target of those that go. -/
def Iss.leave (i : Iss) (s : State) (taken : Thread → Option Addr) : State :=
  let dest := fun (t : Thread) => (taken t).getD i.fall
  let first := (i.co.head?.map dest).getD 0
  let split := i.co.any fun t => dest t != first
  let pushers := (i.co.filter fun t => t.rejoin.length < 8).map (·.tidx)
  let pair := fun (t : Thread) => match i.dev.lit with
    | some l => if split && pushers.contains t.tidx then [RejoinPair.mk (i.offPc l) pushers t.depth s.seq] else []
    | none => []
  i.upd { s with seq := s.seq + 1 } i.cos fun t =>
    { t with pc := dest t, came := if (taken t).isSome then .landed else .fell, rejoin := pair t ++ t.rejoin }

/-- BRA (R219). -/
def execBra (w : Br) (s : State) : Host.Outcome State Fault Refusal :=
  let v := w.dev 0xB0
  .next (runWord v (fun i s =>
    let target := i.packet + brOffset w.off + 4
    .jump (i.leave s fun t => if i.acts.contains t.tidx then some target else none) (!i.act.isEmpty && target.toNat ≤ i.pc.toNat)) s)

/-- BRI (R220). -/
def execBri (w : Rrr) (s : State) : Host.Outcome State Fault Refusal :=
  let v := w.dev 0xB2
  .next (runWord v (fun i s =>
    let target := fun (t : Thread) => v.a64 (i.src t) + 4
    .jump (i.leave s fun t => if i.acts.contains t.tidx then some (target t) else none)
      (i.act.any fun t => (target t).toNat ≤ i.pc.toNat)) s)

/-- BRX (R221, R29): every co-located thread waits at the word with the target it names, and the meeting is tested. A guard that is true
makes it a taken branch to that target (R24). -/
def execBrx (w : Br) (s : State) : Host.Outcome State Fault Refusal :=
  let v := w.dev 0xB1
  .next (runWord v (fun i s =>
    let target := i.packet + brOffset w.off + 4
    let s := i.upd s i.cos fun t => { t with wait := .brx (guardOf v.pre t) target }
    .over ((s.updGroup i.team.uid i.grp.gidx fun g => g.endClause (!i.act.isEmpty && target.toNat ≤ i.pc.toNat)).meet i.team.uid)) s)

/-! ### Frames -/

/-- The demand N of form CF (R139). -/
def Dev.demand (v : Dev) : Nat := (v.d.toNat / 8 + 1) * 8
/-- The link granule G of form CF (R139). -/
def Dev.linkG (v : Dev) : Nat := v.d.toNat % 8 * 8

/-- FRAME's TRAPV (R359): demand and depth. -/
def frameVal (n : Nat) (t : Thread) : Addr := BitVec.ofNat 64 (n % 256 + t.depth * 256)

/-- A callee frame (R35): v0–v7 copy the caller's link granule with their marks, the rest read zero. -/
def Thread.call (t : Thread) (n g : Nat) (ret target : Addr) : Thread :=
  let top := (List.range 8).map fun k => t.reg (g + k)
  { t with frames := { regs := top ++ List.replicate (n - 8) {}, ret := ret, link := g } :: t.frames, pc := target, came := .landed }

/-- CALL and CALLI (R34, R35, R222). R24 does not say whether a call to an address at or below its own ends its clause in a taken backward branch: here
it does not (DESIGN CHOICE, log 83). -/
def Iss.callTo (i : Iss) (s : State) (target : Thread → Addr) : Done :=
  let n := i.dev.demand
  Iss.trapIf s 0xF ((i.act.filter fun t => t.depth == 255).map fun t => ⟨t.tidx, 1, frameVal n t⟩) fun _ =>
    i.withFrames s .call (i.act.map fun t => (t.tidx, (frameVal n t).toNat)) (laneNeeds (i.act.map fun t => (t.lane, n / 8, 1))) fun s =>
      .jump (i.upd s i.cos fun t => if i.acts.contains t.tidx then t.call n i.dev.linkG i.fall (target t)
        else { t with pc := i.fall, came := .fell }) false

/-- CALL (R222). -/
def execCall (w : Cf) (s : State) : Host.Outcome State Fault Refusal :=
  let v := w.dev 0xB3
  .next (runWord v (fun i s => i.callTo s fun _ => i.offPc v.lw) s)

/-- CALLI (R222). -/
def execCalli (w : Cf) (s : State) : Host.Outcome State Fault Refusal :=
  let v := w.dev 0xB4
  .next (runWord v (fun i s => i.callTo s fun t => v.a64 (i.src t) + 4) s)

/-- The thread after its frames above depth `d` are freed, with or without the copy into the link granule (R35, R36). -/
def Thread.popTo (t : Thread) (d : Nat) (copy : Bool) : Thread :=
  let gone := t.frames.take (t.frames.length - 1 - d)
  let last := (gone.getLast?).getD { regs := [] }
  let vals := (List.range 8).map t.reg
  let kept := ({ t with frames := t.frames.drop (t.frames.length - 1 - d) } : Thread).keepFailed (gone.flatMap (·.regs))
  if copy then ((List.range 8).zip vals).foldl (fun t p => t.setReg (last.link + p.1) p.2) kept else kept

/-- The return address of the frame at depth `d` + 1. -/
def Thread.retTo (t : Thread) (d : Nat) : Addr := ((t.frames[t.frames.length - 2 - d]?).map (·.ret)).getD 0

/-- R27: threads that have popped to a depth lose their pairs made above it, and leave those pairs' masks. -/
def Group.dropPairs (g : Group) (pops : List (Nat × Nat)) : Group :=
  let ids := g.threads.filterMap fun t => (pops.find? (·.1 == t.tidx)).map fun p => (t.tidx, (t.rejoin.filter fun q => q.depth > p.2).map (·.id))
  let cut := fun (t : Thread) => match pops.find? (·.1 == t.tidx) with
    | some p => { t with rejoin := t.rejoin.filter fun q => q.depth ≤ p.2 }
    | none => t
  ({ g with threads := g.threads.map cut } : Group).unmask (pops.map (·.1)) fun m p => ids.any fun x => x.1 == m && x.2.contains p.id

/-- A spilled frame returned into is refilled before its thread issues again: brought back at once where it may be, else asked for. FRAME
would show the depth before the instruction (R39, R387, R421). -/
def Iss.bringBack (i : Iss) (s : State) : State :=
  let u := i.team.uid
  let g := i.grp.gidx
  let away := (((s.group? u g).map (·.threads)).getD []).filter fun t => i.acts.contains t.tidx && t.frame.place != .bank
  let need := refillNeeds away
  if away.isEmpty then s
  else if s.canGrant i.team.core i.grp.part s.seq need then s.refill u g i.team.core (away.map (·.tidx))
  else s.askFrames u g i.team.core i.grp.part .refill ((i.act.filter fun t => away.any (·.tidx == t.tidx)).map fun t => (t.tidx, t.depth * 256)) need

/-- Return to depth `d t` for the active threads (R35, R36). The frames given up are free at once. -/
def Iss.unwindTo (i : Iss) (s : State) (d : Thread → Nat) : Done :=
  let s := i.upd s i.cos fun t => if i.acts.contains t.tidx then { (t.popTo (d t) true) with pc := t.retTo (d t), came := .landed }
    else { t with pc := i.fall, came := .fell }
  .jump (i.bringBack (s.updGroup i.team.uid i.grp.gidx fun x => x.dropPairs (i.act.map fun t => (t.tidx, d t)))) false

/-- RET (R223, R35). -/
def execRet (w : Rrr) (s : State) : Host.Outcome State Fault Refusal :=
  let v := w.dev 0xB5
  .next (runWord v (fun i s =>
    Iss.trapIf s 0xF ((i.act.filter fun t => t.depth == 0).map fun t => ⟨t.tidx, 2, frameVal 0 t⟩) fun _ =>
      i.unwindTo s fun t => t.depth - 1) s)

/-- UNWIND (R224, R36). -/
def execUnwind (w : Rrr) (s : State) : Host.Outcome State Fault Refusal :=
  let v := w.dev 0xB6
  .next (runWord v (fun i s =>
    let d := fun (t : Thread) => (v.b32 (i.src t)).toNat
    Iss.trapIf s 0xF ((i.act.filter fun t => d t ≥ t.depth).map fun t => ⟨t.tidx, 3, frameVal 0 t⟩) fun _ => i.unwindTo s d) s)

/-- FRSZ (R225, R36): growth asks for granules, added registers read zero; shrinking frees at once, also while growth of the same issue waits. A grant also brings back a frame that
was spilled while its thread waited (R38). -/
def execFrsz (w : Rrr) (s : State) : Host.Outcome State Fault Refusal :=
  let v := w.dev 0xB7
  .next (runWord v (fun i s =>
    let n := fun (t : Thread) => (v.b32 (i.src t)).toNat
    let bad := i.act.filter fun t => n t % 8 != 0 || n t < 8 || n t > 64
    Iss.trapIf s 0xF (bad.map fun t => ⟨t.tidx, 4, frameVal (n t) t⟩) fun _ =>
      let more := i.act.filter fun t => n t > t.size
      i.withFrames s .frsz (more.map fun t => (t.tidx, (frameVal (n t) t).toNat)) (laneNeeds (more.map fun t => (t.lane, (n t - t.size) / 8, 0)))
        (frees := laneNeeds ((i.act.filter fun t => n t < t.size && t.frame.place == .bank).map fun t => (t.lane, (t.size - n t) / 8, 0))) fun s =>
        .ok (i.upd (s.refill i.team.uid i.grp.gidx i.team.core (more.map (·.tidx))) i.acts fun t =>
          let k := n t
          (t.keepFailed (t.frame.regs.drop k)).updFrame fun f => { f with regs := f.regs.take k ++ List.replicate (k - f.regs.length) {} })) s)

/-! ### Leaving and pausing -/

/-- EXIT (R226). -/
def execExit (w : Rrr) (s : State) : Host.Outcome State Fault Refusal :=
  let v := w.dev 0xB8
  .next (runWord v (fun i s =>
    let s := i.upd s i.cos fun t => { t with pc := i.fall, came := .fell }
    let s := s.updGroup i.team.uid i.grp.gidx fun g => g.endClause false
    .jump (s.exitThreads i.team.uid i.grp.gidx i.acts) false) s)

/-- YIELD (R227). -/
def execYield (w : Rrr) (s : State) : Host.Outcome State Fault Refusal :=
  let v := w.dev 0xB9
  .next (runWord v (fun i s => .jump (i.upd s i.cos fun t => { t with pc := i.fall, came := .fell }) true) s)

/-- SLEEP (R228): the longest interval among the active threads; the wait keeps its end across an interruption (R363). -/
def execSleep (w : Rrr) (s : State) : Host.Outcome State Fault Refusal :=
  let v := w.dev 0xBA
  .next (runWord v (fun i s =>
    let past := fun (t : Thread) => match t.wait with | .slept => true | .sleep u => u ≤ s.time | _ => false
    let fresh := i.act.filter fun t => !(past t) && (match t.wait with | .sleep _ => false | _ => true)
    let long := (fresh.map fun t => (v.b32 (i.src t)).toNat).foldl max 0
    if fresh.isEmpty || long = 0 then
      if i.act.all fun t => past t || fresh.contains t then .ok (i.upd s i.acts fun t => { t with wait := .run })
      else .wait s
    else .wait (i.upd s (fresh.map (·.tidx)) fun t => { t with wait := .sleep (s.time + long) })) s)

/-! ### Barriers -/

/-- Make the arrivals of some threads, or fault (R229, R382 SUB 0x08, 0x09): SELF is set in the whole set (R379). -/
def Iss.arrivals (i : Iss) (s : State) (ts : List Thread) (k : State → Done) : Done :=
  let bar := i.dev.d.toNat % 16
  let pairs := ts.map fun t => (t.tidx, (i.dev.b32 (i.src t)).toNat)
  match s.team? i.team.uid with
  | none => .ok s
  | some t =>
    if pairs.any fun p => p.2 > 2048 then i.trapWord s 1 8 i.cos
    else if arriveConflict i.grp.gidx bar t pairs then i.trapWord s 1 9 i.cos
    else k (s.updTeam i.team.uid fun t => pairs.foldl (fun t p => t.arrive i.grp.gidx p.1 bar p.2) t)

/-- Wait for barrier phases: the threads that wait for none yet wait for their pending phase, or the present one (R230). They leave after the accesses
that came before the arrivals of the phases completed by then (R233). -/
def Iss.awaitBar (i : Iss) (s : State) : Done :=
  let bar := i.dev.d.toNat % 16
  match s.team? i.team.uid with
  | none => .ok s
  | some t =>
    let ph := (t.bar bar).ph
    let wait := fun (th : Thread) => match th.wait with
      | .bar b w => Wait.bar b w
      | _ => Wait.bar bar ((tget th.arrivals bar).getD ph)
    let now := (t.threads.filter fun th => i.acts.contains th.tidx)
    if now.all fun th => wait th != .bar bar ph then
      .ok (i.upd s i.acts fun th => { th with wait := .run, arrivals := tdel th.arrivals bar, pts := max th.pts (t.bar bar).heard })
    else .wait (i.upd s i.acts fun th => { th with wait := wait th })

/-- BARA (R230): the thread does not wait. -/
def execBara (w : Rrr) (s : State) : Host.Outcome State Fault Refusal :=
  let v := w.dev 0xBC
  .next (runWord v (fun i s => i.arrivals s i.act fun s => .ok (s.meet i.team.uid)) s)

/-- BARW (R230). -/
def execBarw (w : Rrr) (s : State) : Host.Outcome State Fault Refusal :=
  let v := w.dev 0xBD
  .next (runWord v (fun i s => i.awaitBar s) s)

/-- BAR (R230): BARA, then BARW; a thread that already waits here does not arrive again (R363). -/
def execBar (w : Rrr) (s : State) : Host.Outcome State Fault Refusal :=
  let v := w.dev 0xBE
  .next (runWord v (fun i s =>
    i.arrivals s (i.act.filter fun t => match t.wait with | .bar _ _ => false | _ => true) fun s => i.awaitBar (s.meet i.team.uid)) s)

/-- A meeting in which threads stand at `w` until `meet` passes them on (R231, R321). -/
def Iss.standAt (i : Iss) (s : State) (w : Wait) : State :=
  (i.upd s i.acts fun t => if t.wait = .passed then t else { t with wait := w }).meet i.team.uid

/-- The threads of an issue as a state holds them. -/
def Iss.nowActs (i : Iss) (s : State) : List Thread :=
  (((s.group? i.team.uid i.grp.gidx).map (·.threads)).getD []).filter fun t => i.acts.contains t.tidx

/-- GSYNC (R231). -/
def execGsync (w : Rrr) (s : State) : Host.Outcome State Fault Refusal :=
  let v := w.dev 0xBF
  .next (runWord v (fun i s =>
    let s := i.standAt s (.gsync (v.b.getLsbD 0))
    if (i.nowActs s).all (·.wait == .passed) then .ok (i.upd s i.acts fun t => { t with wait := .run }) else .wait s) s)

/-! ### Traps -/

/-- TRAP (R376): USER for an issue with an active thread. -/
def execTrap (w : Ri) (s : State) : Host.Outcome State Fault Refusal :=
  let v := w.dev 0xF6
  .next (runWord v (fun i s =>
    Iss.trapIf s 0x12 (i.act.map fun t => ⟨t.tidx, 0, (v.d32 (i.src t)).setWidth 64 * 0x100000000#64 + BitVec.ofNat 64 v.imm⟩) fun _ => .ok s) s)

/-- BKPT (R376, R367): without a handler, and outside handler state, the context stops, the clause ends at the BKPT and its
threads resume after it. -/
def execBkpt (w : Rrr) (s : State) : Host.Outcome State Fault Refusal :=
  let v := w.dev 0xF9
  .next (runWord v (fun i s =>
    let t := trapOf 0x13 0 i.cos 0
    if i.desc.handler = 0 ∧ ¬ i.co.any (·.handler) then 
      .jump (i.upd (s.takeSync i.team.uid i.grp.gidx i.cos i.pc t) i.cos fun th => { th with pc := i.afterWord s i.pc, came := .resumed }) false
    else .trap s t) s)

/-- RTE (R377). -/
def execRte (w : Rrr) (s : State) : Host.Outcome State Fault Refusal :=
  let v := w.dev 0xF7
  .next (runWord v (fun i s =>
    let mode := v.b.toNat % 4
    let depth := fun (t : Thread) => (v.a32 (i.src t)).toNat
    Iss.trapIf s 0xF ((i.act.filter fun t => mode == 2 && depth t ≥ t.depth).map fun t => ⟨t.tidx, 3, frameVal 0 t⟩) fun _ =>
      let s := i.upd s i.cos fun t => if i.acts.contains t.tidx then
          (if mode = 2 then t.popTo (depth t) false else t).rte (i.resumeAt s t)
        else { t with pc := i.fall, came := .fell }
      .jump (if mode = 2 then i.bringBack (s.updGroup i.team.uid i.grp.gidx fun g => g.dropPairs (i.act.map fun t => (t.tidx, depth t))) else s) false) s)

/-- GTR (R378): USER in the thread's team, or in every member team of its cluster; the handler's accesses stand after it in T. -/
def execGtr (w : Rrr) (s : State) : Host.Outcome State Fault Refusal :=
  let v := w.dev 0xF8
  .next (runWord v (fun i s =>
    match i.lead with
    | none => .ok s
    | some l =>
      let val := (v.b32 l).setWidth 64
      let teams := if v.d.toNat % 4 = 0 then [i.team.uid] else (s.teams.filter (·.cluster == i.team.cluster)).map (·.uid)
      .ok (teams.foldl (fun s u => s.raise u 0x12 fun a => { a with user := some val, since := s.tick }) s)) s)

end Sys2Proof.Machine
end

