-- ==== Sys2Proof/Machine/MemOps.lean ====
section
/-! DEFINITION. Loads, stores, atomics, reductions, prefetch, ordering, cache maintenance and watches (R199–R217). -/

namespace Sys2Proof.Machine

/-! ### Checks of an issue (R200, R394) -/

/-- The first cause in R361's order that any thread of an issue meets, with the threads that meet it. -/
def memTrap (checks : List (Thread × Addr × List Miss)) : Option Trap :=
  match firstMiss (checks.flatMap fun c => c.2.2) with
  | none => none
  | some m =>
    let hits := checks.filterMap fun c => (c.2.2.find? (·.cause == m.cause)).map fun x => Hit.mk c.1.tidx x.sub c.2.1
    some { cause := m.cause, sub := ((hits.head?).map (·.sub)).getD m.sub, hits := hits }

/-- One checked access: the thread that makes it, its EA and its target. -/
structure Access where
  thr : Thread
  ea : Addr
  tgt : Target
  deriving DecidableEq, Repr

/-- The threads that receive the result of a doer's access, and in whose program order it stands: itself, or every active thread with
U = 1 (R21, R101) and for a word that acts once (R297, R318). -/
def Iss.receivers (i : Iss) (t : Thread) : List Nat := if i.dev.pre.u || actsOnce i.dev.op.toNat then i.acts else [t.tidx]

/-- Whether a system-view store of some threads of an issue is still open (R116, R117). -/
def Iss.hostStores (i : Iss) (s : State) (ts : List Nat) : Bool :=
  s.stores.any fun x => x.sysview.isSome && x.op.isNone && x.team == i.team.uid && x.orders.any ts.contains

/-- The walks that accesses of an issue need come first (R42): the issue waits for those under way or begun now. A cause that ranks before
translation's is raised at once (R361, R394); any other is known once the walks have returned. -/
def Iss.walked (i : Iss) (s : State) (trap : Option Trap) (eas : List (Agent × Addr)) (go : State → Done) : Done :=
  let early := match trap with | some t => decide (causeRank t.cause ≤ causeRank 7) | none => false
  if !early && eas.any (fun x => s.needsWalk x.1 x.2) then .wait (eas.foldl (fun s x => s.askWalk (i.team.uid, i.grp.gidx) x.1 x.2) s)
  else match trap with
    | some t => .trap (s.takeWalks i.team.uid i.grp.gidx) t
    | none => go s

/-- Check every access of an issue, then go on with all of them, A and D bits set (R200, R333, R394). A system-view load waits for the
earlier system-view stores of its threads (R117). -/
def Iss.access (i : Iss) (s : State) (n : Nat) (kind : AccKind) (alignSub : Nat) (ea : Thread → Addr) (go : State → List Access → Done) : Done :=
  let checks := i.doers.map fun t => (t, ea t, resolve s (.thread i.team.uid t.tidx) (ea t) n kind alignSub)
  i.walked s (memTrap (checks.map fun c => (c.1, c.2.1, c.2.2.1))) (i.doers.map fun t => (.thread i.team.uid t.tidx, ea t)) fun s =>
    let acc := checks.filterMap fun c => c.2.2.2.map fun t => Access.mk c.1 c.2.1 t
    if kind == .read && acc.any fun a => a.tgt.view == .system && i.hostStores s (i.receivers a.thr) then .wait s
    else
      let s := acc.foldl (fun s a => s.setAD a.tgt kind.writes) s
      go (s.countHome i.team.core (acc.map (·.tgt)) kind.writes) acc

/-- EA of a load, store, PREF or MWATCH (R199). -/
def Dev.ea (v : Dev) (t : Thread) : Addr := v.a64 t + (v.b32 t).signExtend 64
/-- EA of an atomic or reduction: the offset is literal bits [31:8] (R205). -/
def Dev.eaAtom (v : Dev) (t : Thread) : Addr := v.a64 t + (v.lw.extractLsb' 8 24).signExtend 64

/-- Data read: `n` bytes as destination words, zero- or sign-extended (R202). -/
def extend (n : Nat) (sign : Bool) (bs : List Byte) : List Word :=
  if n ≥ 4 then leWords (n / 4) bs
  else if sign then [(BitVec.ofNat (8 * n) (leNat bs)).signExtend 32]
  else [BitVec.ofNat 32 (leNat bs)]

/-- What one access will deliver: a system-view load's address and length instead of its data; `bad` says that a check block it read was bad
where it stands in T. `key` names the accumulator tile it was read from; `wrote` says that an atomic has written, `id` is a number given to it before;
`via` is its translation. -/
structure Due where
  thr : Thread
  ea : Addr
  vals : List Word
  blocks : List Nat
  bad : Bool := false
  host : Option (Nat × Nat) := none
  key : Nat := 0
  wrote : Bool := false
  id : Option Nat := none
  via : Option Trans := none
  deriving DecidableEq, Repr

/-- What an access of `n` bytes that reads a target will deliver, from the state in which it stands in T (R400, R401). -/
def State.due (s : State) (a : Access) (n : Nat) (sign : Bool) : Due :=
  if a.tgt.view = .system then { thr := a.thr, ea := a.ea, vals := [], blocks := [], host := some (a.tgt.pa, n), via := a.tgt.leaf }
  else { thr := a.thr, ea := a.ea, vals := extend n sign (s.bytesAt a.tgt n), blocks := blocksOf a.tgt.loc n,
         bad := (blocksOf a.tgt.loc n).any s.bad.contains, via := a.tgt.leaf }

/-- Send results on their way: destinations become due, the flag rises once (R131, R133); a system-view load leaves for the host as a
transaction of its own (R84, R117). `regs` destination registers a thread. -/
def Iss.deliver (i : Iss) (s : State) (regs ext sub : Nat) (dues : List Due) : State :=
  let issue := s.seq
  let s := { s with seq := s.seq + 1 }
  let s := match i.flag with
    | some f => if dues.isEmpty then s else s.flagUp i.team.uid i.grp.gidx f
    | none => s
  dues.foldl (fun s d =>
    let id := d.id.getD s.seq
    let ts := i.receivers d.thr
    let s := i.upd { s with seq := s.seq + 1 } ts fun t => (List.range regs).foldl (fun t k =>
      t.setReg (i.dev.d.toNat + k) { t.reg (i.dev.d.toNat + k) with tag := .due id k }) t
    { s with loads := s.loads ++ [{ id := id, issue := issue, team := i.team.uid, gidx := i.grp.gidx, tidxs := ts, vals := d.vals, ext := ext,
                                    blocks := d.blocks, ea := d.ea, sub := sub, flag := i.flag, sysview := d.host.map (·.1), bad := d.bad,
                                    since := s.time, key := d.key, wrote := d.wrote, via := d.via }],
             out := s.out ++ (d.host.map fun h => Out.hostLoad id (h.1 / 2 ^ 44 % 4) (h.1 % 2 ^ 44) h.2).toList }) s

/-- The place in T that the accesses of some threads of an issue have come to. -/
def Iss.floor (i : Iss) (ts : List Nat) : Nat := (i.co.filter fun t => ts.contains t.tidx).foldl (fun m t => max m t.pts) 0

/-- The accesses of some threads of an issue have come to place `p` of T. -/
def Iss.hear (i : Iss) (s : State) (ts : List Nat) (p : Nat) : State := i.upd s ts fun th => { th with pts := max th.pts p }

/-- The keys of some threads of an issue in `Past.seen`. -/
def Iss.keys (i : Iss) (ts : List Nat) : List Nat := ts.map (threadKey i.team.uid)

/-- A load of a thread, at its place in T ("Leases and logical time", R100, R104): it finds the bytes as they stand, or as they stood before a
recent write that nothing orders before it. It stands no earlier than place `low`. Its readers have then come to the place of what they read. -/
def Iss.read (i : Iss) (s : State) (n : Nat) (sign : Bool) (a : Access) (low : Nat := 0) : State × Due × Nat :=
  if a.tgt.view = .system then (s, s.due a n sign, low)
  else
    let ts := i.receivers a.thr
    let r := s.readAt (i.keys ts) (i.keys ts) (max low (i.floor ts)) a.tgt.loc n
    (i.hear (r.1.noteRead a.tgt.loc r.2.2) ts r.2.2, { s.due a n sign with vals := extend n sign r.2.1 }, r.2.2)

/-- The loads of an issue: they stand in T in lane order (R200). -/
def Iss.readAll (i : Iss) (s : State) (n : Nat) (sign : Bool) (acc : List Access) : State × List Due :=
  let r := acc.foldl (fun (p : State × List Due × Nat) a => let r := i.read p.1 n sign a p.2.2; (r.1, p.2.1 ++ [r.2.1], r.2.2)) (s.fenced, [], 0)
  (r.1, r.2.1)

/-- An access that stands in T now, after every write so far: its threads have seen them. -/
def Iss.standsNow (i : Iss) (s : State) (a : Access) : State :=
  let ts := i.receivers a.thr
  if a.tgt.view = .system then s
  else i.hear ((a.tgt.loc :: a.tgt.reps).foldl (fun s l => s.see (i.keys ts) (l / 16) (s.tick + 1)) s) ts s.tick

/-- A load of `n` bytes (R202). -/
def runLoad (v : Dev) (n : Nat) (sign : Bool) (s : State) : State :=
  runWord v (fun i s =>
    i.access s n .read 1 v.ea fun s acc =>
      let r := i.readAll s n sign acc
      .ok (i.deliver r.1 (max 1 (n / 4)) (n + if sign then 32 else 0) 1 r.2)) s

/-- What the storage code is still to say of the merge of the store `id`, or of the atomic that is the load `id`: its event is on the agenda (log 19).
One that fails is told so where it stands, and is not made (R401, R402, R407). -/
def State.foretold (s : State) (atomic : Bool) (id : Nat) : Bool :=
  (s.agenda.findSome? fun t => match t with
    | .event (.storeMerge x e) => if !atomic && x == id then some e.failed else none
    | .event (.loadDataReturn x e) => if atomic && x == id then some e.failed else none
    | _ => none).getD false

/-- Whether a store touches a stile line's request, whose place in T the Fold's order of launches follows (R301). -/
def State.onStile (s : State) (locs : List Nat) (n : Nat) : Bool := s.stiles.any fun l => locs.any fun x => x < l.loc + 8 && l.loc < x + n

/-- The place in T that the accesses of some threads have come to, as a state has it. -/
def Iss.floorIn (i : Iss) (s : State) (ts : List Nat) : Nat :=
  ((((s.group? i.team.uid i.grp.gidx).map (·.threads)).getD []).filter fun t => ts.contains t.tidx).foldl (fun m t => max m t.pts) 0

/-- A store of bytes, one access of an issue whose stores are `ws`: not made where it covers part of a bad block, or where its merge is to fail (R402); a
system-view one is posted (R117). It stands in T no earlier than place `low`, and not before what its thread has done; an STT, and a store to a stile
line, at the end. The place it has come to. -/
def Iss.storeOne (i : Iss) (issue : Nat) (ws : List (Nat × Nat)) (s : State) (low : Nat) (a : Access) (bs : List Byte) : State × Nat :=
  let n := bs.length
  let ts := i.receivers a.thr
  let rec0 : Store := {
    id := s.seq, issue := issue, team := i.team.uid, gidx := i.grp.gidx, tidxs := [a.thr.tidx], orders := ts, blocks := [],
    ea := a.ea, pc := i.pc, ctx := i.team.ctx, slice := i.team.slice, core := i.team.core, via := a.tgt.leaf }
  let s := { s with seq := s.seq + 1 }
  if a.tgt.view = .system then
    ({ s with out := s.out ++ [.hostStore rec0.id (a.tgt.pa / 2 ^ 44 % 4) (a.tgt.pa % 2 ^ 44) bs],
              stores := s.stores ++ [{ rec0 with sysview := some a.tgt.pa, data := bs }] }, low)
  else
    let blocks := (blocksOf a.tgt.loc n).filter fun b => !coversBlock ws b
    let bad := s.partialBad a.tgt.loc n || (!blocks.isEmpty && s.foretold false rec0.id)
    let s := { s with stores := s.stores ++ [{ rec0 with blocks := blocks, bad := bad }] }
    if bad then (s, low)
    else
      let locs := a.tgt.loc :: a.tgt.reps
      let r := if placesItself i.dev.op.toNat && !s.onStile locs n then s.placeFor (max low (i.floorIn s ts)) (locs.map (· / 16)) else (s, s.tick)
      let s := locs.foldl (fun s l => s.see (i.keys ts) (l / 16) (r.2 + 2)) (r.1.putAt r.2 a.tgt.reps bs)
      (i.hear s ts (r.2 + 1), r.2 + 1)

/-- The bad blocks that the stores of an issue cover whole together: their line request makes fresh check values (R97, R400, R407). -/
def Iss.mended (_i : Iss) (s : State) (acc : List Access) (data : Thread → List Byte) : List Nat :=
  if s.bad.isEmpty then [] else s.mended (acc.flatMap fun a => a.tgt.written (data a.thr).length)

/-- The stores of an issue, which stand in T in lane order (R200). The flag of the source class has risen and fallen again by the end of the issue:
every operand is read in it (R131). A block that they cover whole together is merged with nothing, so that no merge of it can fail (R400). -/
def Iss.storeAll (i : Iss) (s : State) (acc : List Access) (data : Thread → List Byte) : State :=
  let ws := acc.flatMap fun a => a.tgt.written (data a.thr).length
  (acc.foldl (fun (x : State × Nat) a => i.storeOne s.seq ws x.1 x.2 a (data a.thr))
    ({ s.fenced with seq := s.seq + 1, bad := s.bad.filter fun b => !(i.mended s acc data).contains b }, 0)).1

/-- A store of the low `n` bytes of the data registers (R203). -/
def runStore (v : Dev) (n : Nat) (s : State) : State :=
  runWord v (fun i s =>
    i.access s n .write 1 v.ea fun s acc =>
      .ok (i.storeAll s acc fun t => (wordsLe (t.vs v.d.toNat (max 1 (n / 4)))).take n)) s

/-! ### Tiles by offset (R204, R389) -/

/-- TILE's TRAPV (R359). -/
def tileVal (n : Nat) (st : TileState) : Addr :=
  BitVec.ofNat 64 (n + 256 * (match st with | .empty => 0 | .filling => 1 | .ready => 2 | .draining => 3))

/-- Access to a tile's region: TILE faults, the wait while it is not READY, then `go` with each thread's address (R95, R204). -/
def Iss.inTile (i : Iss) (s : State) (n : Nat) (go : (Thread → Addr) → Done) : Done :=
  let k := i.dev.a.toNat
  let tile := s.tile i.team.core (i.team.tileBase + k)
  let off := fun (t : Thread) => ((i.dev.rb32 t).toNat : Int) + (i.dev.lw.extractLsb' 8 24).toInt
  let bad := i.doers.filter fun t => off t < 0 || off t + n > tile.size || off t % n != 0
  if i.act.isEmpty then go fun _ => 0
  else if k ≥ i.desc.tiles then .trap s (trapOf 0xC 1 (i.doers.map (·.tidx)) (tileVal k .empty))
  else if tile.st = .empty then .trap s (trapOf 0xC 2 (i.doers.map (·.tidx)) (tileVal k .empty))
  else if !bad.isEmpty then .trap s (trapOf 0xC 6 (bad.map (·.tidx)) (tileVal k tile.st))
  else if tile.st ≠ .ready then .wait s
  else go fun t => BitVec.ofInt 64 (tile.base + off t)

/-- Bytes of a width code (R204). -/
def wdBytes (wd : Nat) : Nat := if wd ≤ 1 then 1 else if wd ≤ 3 then 2 else if wd = 4 then 4 else if wd = 5 then 8 else 16

/-! ### Atomics (R205–R208) -/

/-- R206's Op on `w`-bit values. -/
def atomOp (w aop : Nat) (old v : BitVec w) : BitVec w :=
  match aop with
  | 0 => old + v
  | 1 => old &&& v
  | 2 => old ||| v
  | 3 => old ^^^ v
  | 4 => if old.toInt ≤ v.toInt then old else v
  | 5 => if old.toNat ≤ v.toNat then old else v
  | 6 => if old.toInt ≤ v.toInt then v else old
  | 7 => if old.toNat ≤ v.toNat then v else old
  | _ => v

/-- R206's Op on numbers of `n` bytes. -/
def atomNat (n aop old v : Nat) : Nat := (atomOp (8 * n) aop (BitVec.ofNat (8 * n) old) (BitVec.ofNat (8 * n) v)).toNat

/-- One atomic step on `n` bytes: the new value, none when nothing is written (R100, R206–R209), with the old value and whether its block
was bad, or its merge is to fail, in which case nothing is written (R401, R402). -/
def State.atomStep (s : State) (t : Target) (n : Nat) (fails : Bool) (new : Nat → Option Nat) : State × Nat × Bool :=
  let old := Memory.nat s.mem t.loc n
  if fails || s.partialBad t.loc n then (s, old, true)
  else match new old with
    | some v => (s.put t.reps (toLe n v), old, false)
    | none => (s, old, false)

/-- Atomics that return the old value (R206, R207, R209): `new t old` is what is written. -/
def runAtomic (v : Dev) (n : Nat) (new : Thread → Nat → Option Nat) (s : State) : State :=
  runWord v (fun i s =>
    i.access s n .atomic 1 v.eaAtom fun s acc =>
      let r := acc.foldl (fun (p : State × List Due) a =>
        let id := p.1.seq
        let x := ({ p.1 with seq := id + 1 } : State).atomStep a.tgt n (p.1.foretold true id) (new a.thr)
        (i.standsNow x.1 a, p.2 ++ [{ thr := a.thr, ea := a.ea, vals := leWords (n / 4) (toLe n x.2.1), blocks := blocksOf a.tgt.loc n, bad := x.2.2,
                                      wrote := !x.2.2 && (new a.thr x.2.1).isSome, id := some id, via := a.tgt.leaf }])) (s, [])
      .ok (i.deliver r.1 (n / 4) n 2 r.2)) s

/-- Reductions (R208): nothing is returned; the flag of the source class has fallen again by the end of the issue (R131). -/
def runRed (v : Dev) (n : Nat) (operand : Thread → Nat) (s : State) : State :=
  runWord v (fun i s =>
    i.access s n .atomic 1 v.eaAtom fun s acc =>
      .ok (acc.foldl (fun y a =>
        let x := ({ y with seq := y.seq + 1 } : State).atomStep a.tgt n (y.foretold false y.seq) fun old => some (atomNat n (bits v.lw 3 0) old (operand a.thr))
        let z := i.standsNow x.1 a
        { z with stores := z.stores ++ [{ id := y.seq, issue := s.seq, team := i.team.uid, gidx := i.grp.gidx, tidxs := [a.thr.tidx],
                                          orders := i.receivers a.thr, blocks := blocksOf a.tgt.loc n, ea := a.ea, pc := i.pc,
                                          ctx := i.team.ctx, slice := i.team.slice, core := i.team.core, bad := x.2.2, via := a.tgt.leaf }] })
        { s with seq := s.seq + 1 })) s

/-- LD.b8 (R202). -/
def execLdB8 (w : Rrr) (s : State) : Host.Outcome State Fault Refusal :=
  let v := w.dev 0x90
  .next (runLoad v 1 false s)

/-- LD.s8 (R202). -/
def execLdS8 (w : Rrr) (s : State) : Host.Outcome State Fault Refusal :=
  let v := w.dev 0x91
  .next (runLoad v 1 true s)

/-- LD.b16 (R202). -/
def execLdB16 (w : Rrr) (s : State) : Host.Outcome State Fault Refusal :=
  let v := w.dev 0x92
  .next (runLoad v 2 false s)

/-- LD.s16 (R202). -/
def execLdS16 (w : Rrr) (s : State) : Host.Outcome State Fault Refusal :=
  let v := w.dev 0x93
  .next (runLoad v 2 true s)

/-- LD.b32 (R202). -/
def execLdB32 (w : Rrr) (s : State) : Host.Outcome State Fault Refusal :=
  let v := w.dev 0x94
  .next (runLoad v 4 false s)

/-- LD.b64 (R202). -/
def execLdB64 (w : Rrr) (s : State) : Host.Outcome State Fault Refusal :=
  let v := w.dev 0x95
  .next (runLoad v 8 false s)

/-- LD.b128 (R202). -/
def execLdB128 (w : Rrr) (s : State) : Host.Outcome State Fault Refusal :=
  let v := w.dev 0x96
  .next (runLoad v 16 false s)

/-- ST.b8 (R203). -/
def execStB8 (w : Rrr) (s : State) : Host.Outcome State Fault Refusal :=
  let v := w.dev 0x97
  .next (runStore v 1 s)

/-- ST.b16 (R203). -/
def execStB16 (w : Rrr) (s : State) : Host.Outcome State Fault Refusal :=
  let v := w.dev 0x98
  .next (runStore v 2 s)

/-- ST.b32 (R203). -/
def execStB32 (w : Rrr) (s : State) : Host.Outcome State Fault Refusal :=
  let v := w.dev 0x99
  .next (runStore v 4 s)

/-- ST.b64 (R203). -/
def execStB64 (w : Rrr) (s : State) : Host.Outcome State Fault Refusal :=
  let v := w.dev 0x9A
  .next (runStore v 8 s)

/-- ST.b128 (R203). -/
def execStB128 (w : Rrr) (s : State) : Host.Outcome State Fault Refusal :=
  let v := w.dev 0x9B
  .next (runStore v 16 s)

/-- LDT (R204): it begins while the tile is READY, so that it stands after every write that the tile waited for (R94). -/
def execLdt (w : Rrr) (s : State) : Host.Outcome State Fault Refusal :=
  let v := w.dev 0x9C
  .next (runWord v (fun i s =>
    let wd := bits v.lw 2 0
    let n := wdBytes wd
    let sign := wd == 1 || wd == 3
    i.inTile s n fun ea => i.access s n .read 1 ea fun s acc =>
      .ok (i.deliver (acc.foldl i.standsNow s) (max 1 (n / 4)) (n + if sign then 32 else 0) 1 (acc.map fun a => s.due a n sign))) s)

/-- STT (R204). -/
def execStt (w : Rrr) (s : State) : Host.Outcome State Fault Refusal :=
  let v := w.dev 0x9D
  .next (runWord v (fun i s =>
    let n := wdBytes (bits v.lw 2 0)
    i.inTile s n fun ea => i.access s n .write 1 ea fun s acc =>
      .ok (i.storeAll s acc fun t => (wordsLe (t.vs v.d.toNat (max 1 (n / 4)))).take n)) s)

/-- ATOM (R206). -/
def execAtom (w : Rrr) (s : State) : Host.Outcome State Fault Refusal :=
  let v := w.dev 0x9E
  .next (runAtomic v 4 (fun t old => some (atomNat 4 (bits v.lw 3 0) old (v.rb32 t).toNat)) s)

/-- ATOM64 (R206). -/
def execAtom64 (w : Rrr) (s : State) : Host.Outcome State Fault Refusal :=
  let v := w.dev 0x9F
  .next (runAtomic v 8 (fun t old => some (atomNat 8 (bits v.lw 3 0) old (v.rb64 t).toNat)) s)

/-- ACAS (R207). -/
def execAcas (w : Rrr) (s : State) : Host.Outcome State Fault Refusal :=
  let v := w.dev 0xA0
  .next (runAtomic v 4 (fun t old => if old = (v.d32 t).toNat then some (v.rb32 t).toNat else none) s)

/-- ACAS64 (R207). -/
def execAcas64 (w : Rrr) (s : State) : Host.Outcome State Fault Refusal :=
  let v := w.dev 0xA1
  .next (runAtomic v 8 (fun t old => if old = (v.d64 t).toNat then some (v.rb64 t).toNat else none) s)

/-- RED (R208). -/
def execRed (w : Rrr) (s : State) : Host.Outcome State Fault Refusal :=
  let v := w.dev 0xA2
  .next (runRed v 4 (fun t => (v.rb32 t).toNat) s)

/-- RED64 (R208). -/
def execRed64 (w : Rrr) (s : State) : Host.Outcome State Fault Refusal :=
  let v := w.dev 0xA3
  .next (runRed v 8 (fun t => (v.rb64 t).toNat) s)

/-- PREF (R211): a request whose effect is on time alone. -/
def execPref (w : Rrr) (s : State) : Host.Outcome State Fault Refusal :=
  let v := w.dev 0xA5
  .next (runWord v (fun _ s => .ok s) s)

/-- SYNC (R116, R212): system scope waits for the thread's own system-view accesses. The operations that the thread issues from then on read
nothing as it stood before the SYNC: every scope is taken as the widest, as R116 allows; among the thread's own accesses it changes nothing. -/
def execSync (w : Rrr) (s : State) : Host.Outcome State Fault Refusal :=
  let v := w.dev 0xA6
  .next (runWord v (fun i s =>
    let open_ := i.hostStores s i.acts ||
      s.loads.any fun l => l.sysview.isSome && l.team == i.team.uid && l.tidxs.any i.acts.contains
    if v.b.toNat % 4 = 3 && open_ then .wait s else .ok (i.upd s i.acts fun t => { t with sync := s.tick })) s)

/-- MWATCH (R216): arms the watch on the line read, and loads its word. -/
def execMwatch (w : Rrr) (s : State) : Host.Outcome State Fault Refusal :=
  let v := w.dev 0xA7
  .next (runWord v (fun i s =>
    i.access s 4 .watch 2 v.ea fun s acc =>
      let s := acc.foldl (fun s a => i.upd (i.standsNow s a) (i.receivers a.thr) fun t => { t with watch := some ⟨a.tgt.loc / 128, false⟩ }) s
      .ok (i.deliver s 1 4 2 (acc.map fun a => s.due a 4 false))) s)

/-- MWAIT's wait of one thread, or of the leader (R217): its status once its wait has ended, else the wait. -/
def mwaitTest (now : Nat) (bound : Word) (t : Thread) : Wait :=
  let seen := fun (w : Watch) (otherwise : Wait) => if w.seen then Wait.mwaitDone 1 else otherwise
  match t.wait, t.watch with
  | .mwaitDone st, _ => .mwaitDone st
  | .mwait d, some w => seen w (match d with
    | some x => if x ≤ now then .mwaitDone 0 else .mwait d
    | none => .mwait d)
  | .mwait _, none => .mwaitDone 2
  | _, none => .mwaitDone 2
  | _, some w => seen w (if bound = 0xFFFFFFFF#32 then .mwait none
      else if bound = 0 then .mwaitDone 0 else .mwait (some (now + bound.toNat)))

/-- The status of a wait that has ended. -/
def Wait.status (w : Wait) : Option Word :=
  match w with
  | .mwaitDone st => some (BitVec.ofNat 32 st)
  | _ => none

/-- MWAIT (R217). One that ends because the line was written leaves its threads after that write in T (R121). -/
def execMwait (w : Rrr) (s : State) : Host.Outcome State Fault Refusal :=
  let v := w.dev 0xA8
  .next (runWord v (fun i s =>
    let w := fun (t : Thread) => mwaitTest s.time (v.b32 t) t
    if i.doers.all fun t => (w t).status.isSome then
      .ok (i.upd s i.acts fun t => ({ t with wait := .run, watch := none, pts := if (w (i.src t)).status = some 1 then s.tick else t.pts } : Thread).setVs
        (v.wd (((w (i.src t)).status).getD 0)))
    else .wait (i.upd s (i.doers.map (·.tidx)) fun t => { t with wait := w t })) s)

/-- The device-memory pages that CWB and CINV touch: EA to EA + min(b, 2^20) − 1 (R213). -/
def cachePages (ea : Addr) (b : Word) : List Nat :=
  let l := min b.toNat (2 ^ 20)
  if l = 0 then [] else (List.range ((ea.toNat % 4096 + l + 4095) / 4096)).map fun k => (ea.toNat / 4096 + k) * 4096 % 2 ^ 64

/-- The part of the page at `p` that a range of CWB or CINV covers, in whole lines: its offset and length. -/
def cachePart (ea : Addr) (b : Word) (p : Nat) : Nat × Nat :=
  let lo := max p (ea.toNat / 128 * 128)
  let hi := min (p + 4096) ((ea.toNat + min b.toNat (2 ^ 20) + 127) / 128 * 128)
  (lo - p, hi - lo)

/-- CWB and CINV (R213, R214): read permission is needed, and tested once (R394); the threads go on when the write-backs, or the removal, are
complete. -/
def runCache (v : Dev) (inv : Bool) (s : State) : State :=
  runWord v (fun i s =>
    if i.act.any fun t => t.wait == .cacheDone then .ok (i.upd s i.acts fun t => { t with wait := .run })
    else if i.act.any fun t => (match t.wait with | .cache _ => true | _ => false) then .wait s
    else
    let pages := fun (t : Thread) => (cachePages (v.a64 t) (v.b32 t)).filter fun p => !inWindows p
    let look := fun (t : Thread) => (pages t).map fun p => (p, resolve s (.thread i.team.uid t.tidx) (BitVec.ofNat 64 p) 1 .read)
    i.walked s (memTrap (i.doers.map fun t => (t, v.a64 t, (look t).flatMap (·.2.1))))
      (i.doers.flatMap fun t => (pages t).map fun p => (.thread i.team.uid t.tidx, BitVec.ofNat 64 p)) fun s =>
      let runs := i.doers.flatMap fun t => (look t).flatMap fun r => match r.2.2 with
        | some g => if g.view = .system then [] else
            let c := cachePart (v.a64 t) (v.b32 t) r.1
            (if g.view = .repl then g.reps else [g.loc]).map fun l => (l + c.1, c.2)
        | none => []
      if !runs.isEmpty then
        .wait (i.upd { s with seq := s.seq + 1, cacheOps := s.cacheOps ++ [⟨s.seq, i.team.uid, i.grp.gidx, runs, inv⟩] } i.acts fun t => { t with wait := .cache s.seq })
      else .ok s) s

/-- CWB (R213). -/
def execCwb (w : Rrr) (s : State) : Host.Outcome State Fault Refusal :=
  let v := w.dev 0xA9
  .next (runCache v false s)

/-- CINV (R214). -/
def execCinv (w : Rrr) (s : State) : Host.Outcome State Fault Refusal :=
  let v := w.dev 0xAA
  .next (runCache v true s)

/-! ### The data comes, the store arrives -/

/-- LOAD_DATA_RETURN (R401): the data is checked and written, or its destinations fail, though the frame that held them is gone; the issue's last
return lowers the flag. -/
def State.returnLoad (s : State) (l : Load) (vals : Option (List Word)) (cause sub : Nat) : State :=
  let s : State := { s with loads := s.loads.filter (·.id != l.id) }
  let put := fun (r : Reg) => match r.tag with
    | .due id k => if id = l.id then (match vals with
        | some vs => { val := vs.getD k 0, tag := .ready }
        | none => { r with tag := .failed l.id l.ea cause sub l.flag }) else r
    | _ => r
  let s := s.updTeamThreads l.team (fun t => l.tidxs.contains t.tidx) fun t =>
    let gone := vals.isNone && !t.frames.any fun f => f.regs.any fun r => match r.tag with | .due id _ => id == l.id | _ => false
    { t with frames := t.frames.map fun f => { f with regs := f.regs.map put },
             lost := if gone then t.lost ++ [{ tag := .failed l.id l.ea cause sub l.flag }] else t.lost }
  if s.loads.any (·.issue == l.issue) then s else (s.flagDown? l.team l.gidx l.flag).meet l.team

/-- One more on counter `k` of R432, of the module and of a die. -/
def State.tally (s : State) (k die : Nat) : State :=
  { s with errs := s.errs.set k ((s.errs.getD k 0 + 1) % 2 ^ 64),
           dieErrs := tset s.dieErrs (die * 8 + k) ((tgetD s.dieErrs (die * 8 + k) 0 + 1) % 2 ^ 64) }

/-- The die a storage location belongs to; of lane storage that of the core where its holder stands. -/
def State.dieOfLoc (s : State) (loc : Nat) : Nat :=
  if loc < 2 ^ 40 then loc / 2 ^ 38
  else if loc < 2 ^ 41 then (loc - 2 ^ 40) / 2 ^ 25
  else if loc < 2 ^ 60 then dieOfCore ((loc - 2 ^ 41) / 0x180000)
  else ((s.team? ((loc - 2 ^ 60) / 4096 / 2048)).map fun t => dieOfCore t.core).getD 0

/-- An error is counted by kind of storage, that of a cache's copy as SRAM's; an uncorrectable one leaves its address (R427, R432, R434). -/
def State.countError (s : State) (loc : Nat) (bad : Bool) (cached : Bool := false) : State :=
  let die := s.dieOfLoc loc
  let n := (s.uncorrectable.filter (·.1 == die)).length
  { s.tally ((if loc < 2 ^ 40 ∧ cached = false then 2 else 0) + bad.toNat) die with
    uncorrectable := if bad && n < 4096 then s.uncorrectable ++ [(die, loc)] else s.uncorrectable }

/-- What the storage code reports of an access to some blocks (R427, R428): an uncorrectable block's check value fails from then on. -/
def State.eccAt (s : State) (blocks : List Nat) (e : Ecc) : State :=
  match blocks with
  | [] => s
  | b :: _ =>
    if e = .clean then s
    else { s.countError (b * 64) e.failed e.inCache with bad := if e.failed && !s.bad.contains b then s.bad ++ [b] else s.bad }

/-- What the storage code reports of a core's own store, an accumulator's or a table's (R428, R432). -/
def State.eccOn (s : State) (core : Nat) (e : Ecc) : State := if e = .clean then s else s.tally e.failed.toNat (dieOfCore core)

/-- An accumulator read fails its code: the tile is bad from then on, and the team that reads it is killed, unless a kill has come before
(R427, R420). -/
def State.wornRead (s : State) (l : Load) (t : Team) : State :=
  let s := s.updAcc (l.key / 512) (l.key % 512) fun a => { a with bad := true, old := false }
  if t.killed then s.returnLoad l none 0xB l.sub
  else (s.post t.ctx (s.ctxHart t.ctx) { cause := 0xB, src := 5, sub := 0x11, slice := t.slice }).kill t.uid

/-- LOAD_DATA_RETURN: the data fails its check when a block was bad where the access stands in T, or when the storage code finds an error it
cannot correct (R400, R401, R427). An atomic that is to fail so has been told where it stood, and has written nothing (R401, log 71). -/
def execLoadDataReturn (load : Nat) (ecc : Ecc) (s : State) : Host.Outcome State Fault Refusal :=
  match s.loads.find? (·.id == load) with
  | none => .next s
  | some l =>
    if l.sysview.isSome then .next s
    else
      let s := if l.blocks.isEmpty then s.eccOn (((s.team? l.team).map (·.core)).getD 0) ecc else s.eccAt l.blocks ecc
      if l.sub = 0x11 && ecc.failed then
        match s.team? l.team with
        | some t => .next (s.wornRead l t)
        | none => .next s
      else if l.bad then .next (s.returnLoad l none 0xB l.sub)
      else if ecc.failed && !l.wrote && (!l.blocks.isEmpty || l.sub == 3) then .next (s.returnLoad l none 0xB l.sub)
      else .next (s.returnLoad l (some l.vals) 0 0)

/-- A store leaves the list. -/
def State.finishStore (s : State) (x : Store) : State := { s with stores := s.stores.filter (·.id != x.id) }

/-- A merge that failed: its thread is told at its next clause boundary, or, once it has exited, the fault queue is (R402). -/
def State.failMerge (s : State) (x : Store) : State :=
  x.tidxs.foldl (fun s k =>
    if ((s.team? x.team).map fun t => t.live.any (·.tidx == k)).getD false then
      s.updTeamThreads x.team (·.tidx == k) fun th => { th with failedMerge := th.failedMerge ++ [(x.ea, x.pc)] }
    else s.post x.ctx (s.ctxHart x.ctx) (mergeEntry x.slice x.core x.gidx k (x.ea, x.pc))) s

/-- STORE_MERGE (R402): the outcome of the merge reaches its core. An error that the storage code finds leaves the block bad; the store or RED has been
told where it stood, and was not made in any replica (R407, log 71). -/
def execStoreMerge (store : Nat) (ecc : Ecc) (s : State) : Host.Outcome State Fault Refusal :=
  match s.stores.find? (·.id == store) with
  | none => .next s
  | some x =>
    if x.sysview.isSome then .next s
    else
      let s := s.eccAt x.blocks ecc
      .next ((if x.bad then s.failMerge x else s).finishStore x)

/-- What comes of a read of the host: its data, or a refusal, which is PAGE SUB 0x05 (R117, R405). -/
def State.hostAnswer (s : State) (l : Load) (data : Option (List Byte)) : State :=
  match l.reader, data with
  | some r, d => s.hostData l r d
  | none, some bs => s.returnLoad l (some (extend (l.ext % 32) (l.ext ≥ 32) bs)) 0 0
  | none, none => s.returnLoad l none 9 5

/-- Whether the port that a system-view access leaves through has its link (R343, R430). -/
def State.portUp (s : State) (sysview : Option Nat) : Bool :=
  match sysview with
  | some pa => (s.link (.pcie (pa / 2 ^ 44 % 4))).up
  | none => true

/-- SYSVIEW_LOAD_COMPLETION (R117, R405): the host's data, or a refusal: PAGE SUB 0x05 at the failed destination. Nothing comes back over a link
that is down, and the load fails (R430). -/
def execSysviewLoadCompletion (load : Nat) (data : Option (List Byte)) (s : State) : Host.Outcome State Fault Refusal :=
  match s.loads.find? fun l => l.id == load && l.sysview.isSome with
  | none => .next s
  | some l => .next (s.hostAnswer l (if s.portUp l.sysview then data else none))

/-- The PCIe completion timeout of R405, in ns. -/
def pcieTimeout : Nat := 50000000

/-- SYSVIEW_LOAD_TIMEOUT (R405): as a refusal, once 50 ms have passed. -/
def execSysviewLoadTimeout (load : Nat) (s : State) : Host.Outcome State Fault Refusal :=
  match s.loads.find? fun l => l.id == load && l.sysview.isSome && decide (l.since + pcieTimeout ≤ s.time) with
  | none => .next s
  | some l => .next (s.hostAnswer l none)

/-- A posted store that the completer does not take ends, and the port posts one entry (R405, R430); after a fatal error nothing is posted (R433). -/
def State.storeLost (s : State) (x : Store) : State := (s.postEvent x.ctx 9 6 x.ea).finishStore x

/-- PCIE_STORE_REFUSED (R405, R430): the port posts one entry. -/
def execPcieStoreRefused (store : Nat) (s : State) : Host.Outcome State Fault Refusal :=
  match s.stores.find? fun x => x.id == store && x.sysview.isSome with
  | none => .next s
  | some x =>
    .next (s.storeLost x)

/-- SYSVIEW_STORE_ACCEPTED (R116): the completer has accepted a posted store; over a link that is down nothing is accepted, and the store adds its
entry (R430). -/
def execSysviewStoreAccepted (store : Nat) (s : State) : Host.Outcome State Fault Refusal :=
  match s.stores.find? fun x => x.id == store && x.sysview.isSome with
  | none => .next s
  | some x => .next (if s.portUp x.sysview then s.finishStore x else s.storeLost x)

/-- WRITE_BACK_COMPLETE (R213, R214): the lines stand in HBM, and the threads that wait on it issue again, after what CINV brought into T. -/
def execWriteBackComplete (id : Nat) (s : State) : Host.Outcome State Fault Refusal :=
  match s.cacheOps.find? (·.id == id) with
  | none => .next s
  | some c => .next (({ s.writeBack c.runs c.inv with cacheOps := s.cacheOps.filter (·.id != id) } : State).updThreads c.team c.gidx (fun t => t.wait == .cache id)
      fun t => { t with wait := .cacheDone, pts := (s.writeBack c.runs c.inv).tick })

/-- MWAIT_BOUND_EXPIRY (R217): an unseen watch's bound has passed; the status is 00b. -/
def execMwaitBoundExpiry (team tidx : Nat) (s : State) : Host.Outcome State Fault Refusal :=
  .next (s.updTeamThreads team (·.tidx == tidx) fun t => match t.wait with
    | .mwait (some d) => if d ≤ s.time ∧ (t.watch.map (·.seen)) = some false then { t with wait := .mwaitDone 0 } else t
    | _ => t)

/-- SLEEP_EXPIRY (R228): the intervals that have passed end. -/
def execSleepExpiry (team gidx : Nat) (s : State) : Host.Outcome State Fault Refusal :=
  .next (s.updThreads team gidx (fun _ => true) fun t => match t.wait with
    | .sleep u => if u ≤ s.time then { t with wait := .slept } else t
    | _ => t)

/-- FRAME_GRANT (R34). -/
def execFrameGrant (core part : Nat) (s : State) : Host.Outcome State Fault Refusal := .next (s.grantFrames core part)

/-- TEDDER_WAIT_TIMEOUT (R37, R38). -/
def execTedderWaitTimeout (core part lane : Nat) (s : State) : Host.Outcome State Fault Refusal := .next (s.tedder core part lane)

/-- ASYNC_TRAP_TAKE (R362, R363): the elected group takes the first pending trap at its boundary, or a wait of it is interrupted. -/
def execAsyncTrapTake (team : Nat) (s : State) : Host.Outcome State Fault Refusal :=
  match s.team? team with
  | none => .next s
  | some t => match t.elected with
    | none => .next s
    | some g => .next ((s.boundaryTrap t g).getD s)

/-- GROUP_PROMOTE (R43, R45). -/
def execGroupPromote (core part : Nat) (s : State) : Host.Outcome State Fault Refusal := .next (s.promote core part)

end Sys2Proof.Machine
end

