-- ==== Sys2Proof/Machine/Float.lean ====
section
/-! DEFINITION. Exact values, the binary formats, rounding, and the correctly rounded functions (R52–R62, R174, R182, R189–R191). -/

namespace Sys2Proof.Machine

/-! ### Values and formats -/

/-- A floating-point value (R55): NaN, an infinity, or (−1)^neg × m × 2^e. -/
inductive FV
  | nan
  | inf (neg : Bool)
  | fin (neg : Bool) (m : Nat) (e : Int)
  deriving DecidableEq, Repr

/-- A binary format (R55, R56): exponent and fraction widths, bias, greatest finite code, canonical NaN; `inf` says that the code
after the greatest is infinity. -/
structure Fmt where
  eb : Nat
  mb : Nat
  bias : Nat
  top : Nat
  inf : Bool
  nan : Nat
  deriving DecidableEq, Repr

/-- FP32. -/
def fp32 : Fmt := ⟨8, 23, 127, 0x7F7FFFFF, true, 0x7FC00000⟩
/-- FP16. -/
def fp16 : Fmt := ⟨5, 10, 15, 0x7BFF, true, 0x7E00⟩
/-- BF16. -/
def bf16 : Fmt := ⟨8, 7, 127, 0x7F7F, true, 0x7FC0⟩
/-- E4M3. -/
def e4m3 : Fmt := ⟨4, 3, 7, 0x7E, false, 0x7F⟩
/-- E5M2. -/
def e5m2 : Fmt := ⟨5, 2, 15, 0x7B, true, 0x7E⟩
/-- E2M1, which has no NaN: R57 gives NaN the code 0. -/
def e2m1 : Fmt := ⟨2, 1, 1, 7, false, 0⟩

/-- The sign bit's weight. -/
def Fmt.signBit (f : Fmt) : Nat := 2 ^ (f.eb + f.mb)
/-- The exponent of a subnormal's unit. -/
def Fmt.emin (f : Fmt) : Int := 1 - (f.bias : Int) - f.mb

/-- The value of a pattern (R55, R56). -/
def Fmt.val (f : Fmt) (p : Nat) : FV :=
  let neg := p / f.signBit % 2 == 1
  let c := p % f.signBit
  if c > f.top then (if f.inf && c == f.top + 1 then .inf neg else .nan)
  else
    let x := c / 2 ^ f.mb
    if x = 0 then .fin neg c f.emin else .fin neg (2 ^ f.mb + c % 2 ^ f.mb) (f.emin + x - 1)

/-- The rounding modes of R174: 00b rn, 01b rz, 10b rd, 11b ru. -/
inductive RMode | rn | rz | rd | ru
  deriving DecidableEq, Repr

/-- The mode of a code. -/
def RMode.ofCode (n : Nat) : RMode := match n with | 0 => .rn | 1 => .rz | 2 => .rd | _ => .ru

/-- `m / 2^k` as an integer and whether it goes up by one in a mode. -/
def roundShift (mode : RMode) (neg : Bool) (m k : Nat) : Nat :=
  let n := m / 2 ^ k
  let r := m % 2 ^ k
  let up := match mode with
    | .rn => decide (2 * r > 2 ^ k) || (2 * r == 2 ^ k && n % 2 == 1)
    | .rz => false
    | .rd => r != 0 && neg
    | .ru => r != 0 && !neg
  if up then n + 1 else n

/-- A finite value rounded and encoded (R52, R174). The code of a magnitude n × 2^q is (q − emin) × 2^mb + n. -/
def Fmt.encFin (f : Fmt) (mode : RMode) (neg : Bool) (m : Nat) (e : Int) : Nat :=
  let s := if neg then f.signBit else 0
  if m = 0 then s
  else
    let q := max ((m.log2 : Int) + e - f.mb) f.emin
    let n := if q ≤ e then m * 2 ^ (e - q).toNat
      else roundShift mode neg m (min (q - e).toNat (m.log2 + 3))
    let code := (q - f.emin).toNat * 2 ^ f.mb + n
    let away := match mode with | .rn => f.inf | .rz => false | .rd => neg && f.inf | .ru => !neg && f.inf
    s + if code ≤ f.top then code else if away then f.top + 1 else f.top

/-- Enc(Round(v)) (R174). -/
def Fmt.enc (f : Fmt) (v : FV) (mode : RMode := .rn) : Nat :=
  match v with
  | .nan => f.nan
  | .inf neg => (if neg then f.signBit else 0) + (if f.inf then f.top + 1 else f.top)
  | .fin neg m e => f.encFin mode neg m e

/-! ### Arithmetic (IEEE 754, R175) -/

/-- The signed integer of a finite value over 2^e0, e0 at most its exponent. -/
def alignTo (neg : Bool) (m : Nat) (e e0 : Int) : Int := (if neg then -1 else 1) * (m * 2 ^ (e - e0).toNat : Nat)

/-- A value from a signed integer; a zero takes the sign given. -/
def FV.ofInt (x : Int) (e : Int) (zneg : Bool := false) : FV := .fin (if x = 0 then zneg else decide (x < 0)) x.natAbs e

/-- Exact sum; an exact zero is −0 only when both are negative (IEEE 754, round to nearest). -/
def FV.add (a b : FV) : FV :=
  match a, b with
  | .nan, _ | _, .nan => .nan
  | .inf s, .inf t => if s = t then .inf s else .nan
  | .inf s, _ | _, .inf s => .inf s
  | .fin s m e, .fin t n f =>
    if m = 0 ∧ n ≠ 0 then .fin t n f
    else if n = 0 ∧ m ≠ 0 then .fin s m e
    else
      let e0 := min e f
      FV.ofInt (alignTo s m e e0 + alignTo t n f e0) e0 (s && t)

/-- Negation. -/
def FV.neg (a : FV) : FV :=
  match a with
  | .nan => .nan
  | .inf s => .inf !s
  | .fin s m e => .fin (!s) m e

/-- Exact product. -/
def FV.mul (a b : FV) : FV :=
  match a, b with
  | .nan, _ | _, .nan => .nan
  | .inf s, .inf t => .inf (s != t)
  | .inf s, .fin t m _ | .fin t m _, .inf s => if m = 0 then .nan else .inf (s != t)
  | .fin s m e, .fin t n f => .fin (s != t) (m * n) (e + f)

/-- Exact product with 2^n. -/
def FV.scale (a : FV) (n : Int) : FV :=
  match a with
  | .fin s m e => .fin s m (e + n)
  | a => a

/-- a < b of values that are no NaN. -/
def FV.lt (a b : FV) : Bool :=
  match a, b with
  | .nan, _ | _, .nan => false
  | .inf s, .inf t => s && !t
  | .inf s, .fin _ _ _ => s
  | .fin _ _ _, .inf t => !t
  | .fin s m e, .fin t n f => let e0 := min e f; decide (alignTo s m e e0 < alignTo t n f e0)

/-- Whether a value is NaN. -/
def FV.isNan (a : FV) : Bool := a == .nan

/-- The conditions of FSETP (R160). -/
def fcond (c : Nat) (a b : FV) : Bool :=
  let bad := a.isNan || b.isNan
  let eq := !a.lt b && !b.lt a
  match c with
  | 0 => !bad && eq
  | 1 => bad || !eq
  | 2 => a.lt b
  | 3 => !bad && !b.lt a
  | 4 => b.lt a
  | 5 => !bad && !a.lt b
  | 6 => !bad
  | _ => bad

/-- The lesser (`hi = false`) or greater of two patterns (R178): a single NaN loses, −0 is below +0. -/
def Fmt.pick (f : Fmt) (hi : Bool) (a b : Nat) : Nat :=
  let x := f.val a
  let y := f.val b
  if x.isNan then (if y.isNan then f.nan else b)
  else if y.isNan then a
  else
    let below := x.lt y || (!y.lt x && decide (a ≥ f.signBit) && decide (b < f.signBit))
    if below = hi then b else a

/-- The magnitude of a finite value rounded to an integer. -/
def roundInt (mode : RMode) (neg : Bool) (m : Nat) (e : Int) : Nat :=
  if 0 ≤ e then m * 2 ^ e.toNat else roundShift mode neg m (min (-e).toNat (m.log2 + 3))

/-- F2I's result: rounded, then clamped to `lo` and `hi` (R183). -/
def toIntSat (mode : RMode) (lo hi : Int) (v : FV) : Int :=
  match v with
  | .nan => 0
  | .inf s => if s then lo else hi
  | .fin s m e => let n : Int := roundInt mode s m e; min (max (if s then -n else n) lo) hi

/-- The value of an integer (R184). -/
def ofInteger (x : Int) : FV := FV.ofInt x 0

/-- FRND (R180): integral, with the sign of its operand. -/
def integral (mode : RMode) (v : FV) : FV :=
  match v with
  | .fin s m e => .fin s (roundInt mode s m e) 0
  | v => v

/-! ### Correctly rounded functions (R182)

A quotient or a root is cut to an integer with many bits more than a result has, and one more bit says whether anything was cut:
rounding that is rounding the exact value. -/

/-- `n` with a bit appended that says whether the value lies above it. -/
def sticky (n : Nat) (rest : Bool) : Nat := 2 * n + rest.toNat

/-- m / n × 2^e, n ≠ 0. -/
def quotient (neg : Bool) (m n : Nat) (e : Int) : FV :=
  let k := n.log2 + 64
  .fin neg (sticky (m * 2 ^ k / n) (m * 2 ^ k % n != 0)) (e - k - 1)

/-- FDIV (R182): IEEE 754 division. -/
def FV.div (a b : FV) : FV :=
  match a, b with
  | .nan, _ | _, .nan => .nan
  | .inf _, .inf _ => .nan
  | .inf s, .fin t _ _ => .inf (s != t)
  | .fin s _ _, .inf t => .fin (s != t) 0 0
  | .fin s m e, .fin t n f =>
    if n = 0 then (if m = 0 then .nan else .inf (s != t)) else quotient (s != t) m n (e - f)

/-- The square root of m × 2^e, or its reciprocal, m ≠ 0. -/
def rootOf (recip : Bool) (m : Nat) (e : Int) : FV :=
  let m := if e % 2 = 0 then m else 2 * m
  let h := if e % 2 = 0 then e / 2 else (e - 1) / 2
  if recip then
    let k := m.log2 + 128
    let r := (2 ^ (2 * k) / m).sqrt
    .fin false (sticky r (r * r * m != 2 ^ (2 * k))) (-h - k - 1)
  else
    let r := (m * 2 ^ 128).sqrt
    .fin false (sticky r (r * r != m * 2 ^ 128)) (h - 64 - 1)

/-- FSQRT. -/
def FV.sqrt (a : FV) : FV :=
  match a with
  | .nan => .nan
  | .inf s => if s then .nan else .inf false
  | .fin s m e => if m = 0 then a else if s then .nan else rootOf false m e

/-- FRSQ. -/
def FV.rsqrt (a : FV) : FV :=
  match a with
  | .nan => .nan
  | .inf s => if s then .nan else .fin false 0 0
  | .fin s m e => if m = 0 then .inf s else if s then .nan else rootOf true m e

/-! Fixed point with 704 fraction bits: far more than any FP32 argument needs to tell its function's value from a tie (log 11). -/

/-- Fraction bits. -/
def fx : Nat := 704
/-- The fixed-point 1. -/
def fxOne : Int := 2 ^ fx
/-- Product. -/
def fxMul (a b : Int) : Int := a * b / fxOne
/-- Quotient. -/
def fxDiv (a b : Int) : Int := a * fxOne / b

/-- Terms x·y^k / (2k + 1), alternating when `alt`: the series of atan and atanh. -/
def atanTerms (alt : Bool) (y : Int) : Nat → Nat → Int → Int
  | 0, _, _ => 0
  | fuel + 1, k, t => t / (2 * k + 1 : Nat) + (if alt then -atanTerms alt y fuel (k + 1) (fxMul t y) else atanTerms alt y fuel (k + 1) (fxMul t y))

/-- atanh x for |x| ≤ 1/3. -/
def fxAtanh (x : Int) : Int := atanTerms false (fxMul x x) 240 0 x
/-- atan x for |x| ≤ 1/5. -/
def fxAtan (x : Int) : Int := atanTerms true (fxMul x x) 240 0 x
/-- π by Machin's formula. -/
def fxPi : Int := 16 * fxAtan (fxOne / 5) - 4 * fxAtan (fxOne / 239)
/-- The natural logarithm of 2. -/
def fxLn2 : Int := 2 * fxAtanh (fxOne / 3)

/-- The series of e^y from term k on, t the term before. -/
def expTerms (y : Int) : Nat → Nat → Int → Int
  | 0, _, _ => 0
  | fuel + 1, k, t => t + expTerms y fuel (k + 1) (fxMul t y / (k + 1 : Nat))
/-- e^y for 0 ≤ y < 1. -/
def fxExp (y : Int) : Int := expTerms y 200 0 fxOne

/-- The series of sine (k = 1) and cosine (k = 0) from the term t on: t, then −t·y/((k+1)(k+2)). -/
def sinTerms (y : Int) : Nat → Nat → Int → Int
  | 0, _, _ => 0
  | fuel + 1, k, t => t + sinTerms y fuel (k + 2) (-(fxMul t y / ((k + 1) * (k + 2) : Nat)))
/-- sin x for |x| < 1. -/
def fxSin (x : Int) : Int := sinTerms (fxMul x x) 100 1 x
/-- cos x for |x| < 1. -/
def fxCos (x : Int) : Int := sinTerms (fxMul x x) 100 0 fxOne

/-- A finite value in fixed point, cut below. -/
def toFx (neg : Bool) (m : Nat) (e : Int) : Int :=
  let x : Int := if 0 ≤ e + fx then m * 2 ^ (e + fx).toNat else m / 2 ^ (-(e + fx)).toNat
  if neg then -x else x

/-- A fixed-point result that is no dyadic number: rounded with a bit for the rest. -/
def ofFx (x : Int) (e : Int := 0) : FV := .fin (decide (x < 0)) (sticky x.natAbs true) (e - fx - 1)

/-- FEXP2: 2^a, exact at integers. -/
def FV.exp2 (a : FV) : FV :=
  match a with
  | .nan => .nan
  | .inf s => if s then .fin false 0 0 else .inf false
  | .fin s m e =>
    if m.log2 + e > 8 ∧ m ≠ 0 then (if s then .fin false 1 (-300) else .fin false 1 300)
    else
      let x := toFx s m e
      let n := x / fxOne
      let f := x % fxOne
      if f = 0 then .fin false 1 n else ofFx (fxExp (fxMul f fxLn2)) n

/-- FLOG2, exact at powers of two. -/
def FV.log2 (a : FV) : FV :=
  match a with
  | .nan => .nan
  | .inf s => if s then .nan else .inf false
  | .fin s m e =>
    if m = 0 then .inf true
    else if s then .nan
    else
      let n : Int := m.log2 + e
      if m = 2 ^ m.log2 then ofInteger n
      else
        let y := toFx false m (-(m.log2 : Int))
        ofFx (n * fxOne + fxDiv (2 * fxAtanh (fxDiv (y - fxOne) (y + fxOne))) fxLn2)

/-- The quadrant of x and what is left of it: x = k·π/2 + r, |r| ≤ π/4. -/
def quadrant (x : Int) : Int × Int :=
  let h := fxPi / 2
  let k := (2 * x + h) / (2 * h)
  (k, x - k * h)

/-- sin (k = 0) or cos (k = 1) of a finite non-zero argument. -/
def sinShift (k : Int) (s : Bool) (m : Nat) (e : Int) : FV :=
  let q := quadrant (toFx s m e)
  match (q.1 + k) % 4 with
  | 0 => ofFx (fxSin q.2)
  | 1 => ofFx (fxCos q.2)
  | 2 => ofFx (-fxSin q.2)
  | _ => ofFx (-fxCos q.2)

/-- FSIN. -/
def FV.sin (a : FV) : FV :=
  match a with
  | .nan | .inf _ => .nan
  | .fin s m e => if m = 0 then a else sinShift 0 s m e

/-- FCOS. -/
def FV.cos (a : FV) : FV :=
  match a with
  | .nan | .inf _ => .nan
  | .fin s m e => if m = 0 then .fin false 1 0 else sinShift 1 s m e

/-- FTANH: (1 − t) / (1 + t) with t = e^(−2|a|); beyond 64 the value rounds to ±1. -/
def FV.tanh (a : FV) : FV :=
  match a with
  | .nan => .nan
  | .inf s => .fin s 1 0
  | .fin s m e =>
    if m = 0 then a
    else if m.log2 + e ≥ 6 then .fin s (sticky (2 ^ 64 - 1) true) (-65)
    else
      let y := fxDiv (2 * toFx false m e) fxLn2
      let n := y / fxOne
      let t := fxDiv fxOne (fxExp (fxMul (y % fxOne) fxLn2) * 2 ^ n.toNat)
      let r := fxDiv (fxOne - t) (fxOne + t)
      ofFx (if s then -r else r)

/-! ### Narrow formats and scales (R57–R62, R189–R191) -/

/-- A term of a TS8 weight, in 64ths (R61). -/
def ts8Term (neg : Bool) (c : Nat) : Int := if c = 7 then 0 else (if neg then -1 else 1) * 2 ^ (6 - c)
/-- A TS8 weight, in 64ths. -/
def ts8Val (b : Nat) : Int := ts8Term (b / 128 % 2 == 1) (b / 16 % 8) + ts8Term (b / 8 % 2 == 1) (b % 8)
/-- Non-zero terms of a byte. -/
def ts8Count (b : Nat) : Nat := (if b / 16 % 8 = 7 then 0 else 1) + (if b % 8 = 7 then 0 else 1)
/-- R62's canonical bytes: no signed zero term. -/
def ts8Canonical (b : Nat) : Bool := !(b / 16 % 16 == 15) && !(b % 16 == 15)

/-- The best canonical byte by a measure that is least at the one wanted; bytes in rising order, the first of equals kept. -/
def ts8Best (rank : Nat → Nat × Nat × Nat) : Nat :=
  ((List.range 256).filter ts8Canonical).foldl (fun best b =>
    let x := rank b
    let y := rank best
    if x.1 < y.1 ∨ (x.1 = y.1 ∧ (x.2.1 < y.2.1 ∨ (x.2.1 = y.2.1 ∧ x.2.2 < y.2.2))) then b else best) 0

/-- R191's quantisation of a finite value: nearest weight, the smaller magnitude on a tie, fewest terms, lowest byte. -/
def ts8Quant (neg : Bool) (m : Nat) (e : Int) : Nat :=
  let k : Int := min e (-6)
  let y := if m ≠ 0 ∧ m.log2 + e ≥ 1 then alignTo neg 2 0 k else alignTo neg m e k
  ts8Best fun b =>
    let w := alignTo false 1 (-6) k * ts8Val b
    ((w - y).natAbs, w.natAbs, ts8Count b)

/-- The value of an element code (R56, R60, R61): format codes 0 E2M1, 1 E4M3, 2 E5M2, 3 INT8, 4 TS8 (R190). -/
def elemVal (fmt p : Nat) : FV :=
  match fmt with
  | 0 => e2m1.val p
  | 1 => e4m3.val p
  | 2 => e5m2.val p
  | 3 => ofInteger (BitVec.ofNat 8 p).toInt
  | _ => FV.ofInt (ts8Val p) (-6)

/-- F2Q's code (R190, R191) of a value over 2^(s − 127). -/
def quantise (fmt : Nat) (v : FV) (s : Nat) : Nat :=
  if v.isNan || s == 0xFF then (match fmt with | 0 => 0 | 1 => 0x7F | 2 => 0x7E | 3 => 0 | _ => 0x77)
  else
    let y := v.scale (127 - s)
    match fmt, y with
    | 0, _ => e2m1.enc y
    | 1, _ => e4m3.enc y
    | 2, _ => e5m2.enc y
    | 3, _ => (BitVec.ofInt 8 (toIntSat .rn (-128) 127 y)).toNat
    | _, .fin n m e => ts8Quant n m e
    | _, .inf n => ts8Quant n 2 0
    | _, .nan => 0x77

/-- Q2F's value (R190). -/
def dequantise (fmt p s : Nat) : FV := if s = 0xFF then .nan else (elemVal fmt p).scale (s - 127)

/-- FMXS's scale (R189) of a pattern. -/
def blockScale (fmt : Nat) (p : Nat) : Nat :=
  let emax : Int := match fmt with | 0 => 2 | 1 => 8 | 2 => 15 | 3 => 6 | _ => 0
  match fp32.val (p % 2 ^ 31) with
  | .nan => 0xFF
  | .inf _ => 0xFE
  | .fin _ m e => if m = 0 then 0x7F else (min (max ((m.log2 : Int) + e - emax + 127) 0) 254).toNat

/-- FCLS's class word (R187). -/
def classOf (p : Nat) : Nat :=
  let neg := p / 2 ^ 31 % 2 == 1
  let c := p % 2 ^ 31
  if c > 0x7F800000 then (if c / 2 ^ 22 % 2 = 0 then 0x100 else 0x200)
  else
    let k := if c = 0x7F800000 then 3 else if c ≥ 0x00800000 then 2 else if c ≠ 0 then 1 else 0
    if neg then 2 ^ (3 - k) else 2 ^ (4 + k)

/-- One addition of the GRADD.f32 tree (R195). -/
def combine (a b : Option FV) : Option FV :=
  match a, b with
  | some x, some y => some (fp32.val (fp32.enc (x.add y)))
  | some x, none | none, some x => some x
  | none, none => none

/-- One level of the tree. -/
def combinePairs : List (Option FV) → List (Option FV)
  | a :: b :: l => combine a b :: combinePairs l
  | l => l

/-- The tree over a power of two of places (R195). -/
def treeSum : Nat → List (Option FV) → Option FV
  | 0, l => l.head?.getD none
  | n + 1, l => treeSum n (combinePairs l)

end Sys2Proof.Machine
end

