-- ==== Sys2Proof/Machine/TileMath.lean ====
section
/-! DEFINITION. Exact arithmetic of accumulator tiles and reduction cells (R64–R73, R252–R255). -/

namespace Sys2Proof.Machine

/-- The NaN marker (R64). -/
def nanMark : Int := -(2 ^ 47)
/-- The greatest mantissa (R64). -/
def mantMax : Nat := 2 ^ 47 - 1

/-- Element `k` = 32i + j of a tile. -/
def Acc.elem (a : Acc) (k : Nat) : Int := tgetD a.mant k 0
/-- Zeros are not listed. -/
def mants (l : Tab Int) : Tab Int := l.filter (·.2 != 0)
/-- Every mantissa that is no NaN marker changed by `f` (R65); unlisted ones are 0 and stay 0. -/
def Acc.mapMant (a : Acc) (f : Int → Int) : Acc := { a with mant := mants (a.mant.map fun p => (p.1, if p.2 = nanMark then p.2 else f p.2)) }
/-- RaiseExponent (R65). -/
def Acc.raise (a : Acc) (n : Nat) : Acc := { a.mapMant (fun m => m.tdiv (2 ^ n)) with e := a.e + n }
/-- LowerExponent (R65). -/
def Acc.lower (a : Acc) (n : Nat) : Acc := { a.mapMant (fun m => m * 2 ^ n) with e := a.e - n }
/-- Every mantissa the NaN marker, e = 2047 (R68). -/
def Acc.allNan (a : Acc) : Acc := { a with mant := (List.range 1024).map fun k => (k, nanMark), e := 2047 }
/-- One element set. -/
def Acc.setElem (a : Acc) (k : Nat) (m : Int) : Acc := { a with mant := if m = 0 then tdel a.mant k else tset a.mant k m }
/-- The greatest magnitude of the mantissas that are no NaN marker. -/
def Acc.big (a : Acc) : Nat := a.mant.foldl (fun b p => if p.2 = nanMark then b else max b p.2.natAbs) 0
/-- The least n with Trunc0(big / 2^n) ≤ 2^47 − 1, for a big above it. -/
def excess (big : Nat) : Nat := big.log2 - 46

/-- The end of R68's row: renormalise, then write row `i`; none is the NaN marker. -/
def Acc.writeRow (a : Acc) (i : Nat) (r : List (Option Int)) : Acc :=
  let big := r.foldl (fun b x => match x with | some v => max b v.natAbs | none => b) 0
  let n := if big > mantMax then excess big else 0
  let (a, r) := if n = 0 then (a, r)
    else if a.e + n > 2047 then (a.allNan, r.map fun _ => none)
    else (a.raise n, r.map fun x => x.map fun v => v.tdiv (2 ^ n))
  let row := mants ((List.range 32).zip r |>.map fun p => (32 * i + p.1, p.2.getD nanMark))
  { a with mant := a.mant.filter (·.1 < 32 * i) ++ row ++ a.mant.filter (32 * i + 32 ≤ ·.1) }

/-- An exact dyadic number m × 2^x. -/
structure Dyad where
  m : Int
  x : Int
  deriving DecidableEq, Repr

/-- Trunc0(v / 2^q). -/
def Dyad.trunc (d : Dyad) (q : Int) : Int := if q ≤ d.x then d.m * 2 ^ (d.x - q).toNat else d.m.tdiv (2 ^ min (q - d.x).toNat (d.m.natAbs.log2 + 2))

/-- The sum of one group under its window (R66). -/
def groupSum (terms : List Dyad) : Dyad :=
  let terms := terms.filter (·.m != 0)
  match terms with
  | [] => ⟨0, 0⟩
  | t :: _ =>
    let top := fun (d : Dyad) => (d.m.natAbs.log2 : Int) + d.x + 1
    let anchor := terms.foldl (fun a d => max a (top d)) (top t)
    ⟨terms.foldl (fun s d => s + d.trunc (anchor - 62)) 0, anchor - 62⟩

/-- R66: the groups in order, the running sum in front of each after the first. -/
def dotGroups : Dyad → List (List Dyad) → Dyad
  | s, [] => s
  | s, g :: gs => dotGroups (groupSum (s :: g)) gs

/-- How an MMA's operands are read (R63, R250, R254): element codes of `elemVal`, with 5 BF16 and 6 FP16; K and the group width;
whether A and B carry scales. -/
structure MmaFmt where
  a : Nat
  b : Nat
  k : Nat
  w : Nat
  sa : Bool
  sb : Bool
  cycles : Nat
  deriving DecidableEq, Repr

/-- The format of an opcode (R63, R250, R259); AE5 and BE5 choose E5M2 in fp8. -/
def mmaFmt (op : Nat) (ae5 be5 : Bool) : MmaFmt :=
  match op with
  | 0xCA => ⟨0, 0, 768, 32, true, true, 48⟩
  | 0xCB => ⟨1, 1, 384, 32, true, true, 48⟩
  | 0xCC => ⟨if ae5 then 2 else 1, if be5 then 2 else 1, 384, 32, false, false, 48⟩
  | 0xCD => ⟨3, 3, 384, 32, false, false, 48⟩
  | 0xCE => ⟨3, 4, 384, 32, false, true, 24⟩
  | 0xCF => ⟨1, 4, 384, 32, false, true, 24⟩
  | 0xD0 => ⟨5, 5, 192, 16, false, false, 48⟩
  | _ => ⟨6, 6, 192, 16, false, false, 48⟩

/-- The element values of an operand row of 384 bytes (R254). -/
def rowElems (code : Nat) (bs : List Byte) : List FV :=
  match code with
  | 0 => bs.flatMap fun b => [elemVal 0 (b.toNat % 16), elemVal 0 (b.toNat / 16)]
  | 5 => (pairsOf bs).map bf16.val
  | 6 => (pairsOf bs).map fp16.val
  | c => bs.map fun b => elemVal c b.toNat
where
  /-- Little-endian 16-bit patterns. -/
  pairsOf : List Byte → List Nat
  | a :: b :: l => (a.toNat + 256 * b.toNat) :: pairsOf l
  | _ => []

/-- A finite value as a dyadic number. -/
def FV.dyad (v : FV) : Option Dyad :=
  match v with
  | .fin s m e => some ⟨if s then -m else m, e⟩
  | _ => none

/-- One operand row under its scales (R63): none when an element is NaN or infinite, or a scale is 0xFF (R67). -/
def scaledRow (code : Nat) (bs : List Byte) (scales : Option (List Byte)) : Option (List Dyad) :=
  let es := (rowElems code bs).mapM FV.dyad
  match es, scales with
  | none, _ => none
  | some l, none => some l
  | some l, some sc =>
    if sc.any (· == 0xFF) then none
    else some ((List.range l.length).zip l |>.map fun p => { p.2 with x := p.2.x + (sc.getD (p.1 / 32) 0).toNat - 127 })

/-- Cut a list into runs of `w`. -/
def chunksOf (w : Nat) : Nat → List Dyad → List (List Dyad)
  | 0, _ => []
  | n + 1, l => l.take w :: chunksOf w n (l.drop w)

/-- R66–R68's r(j) of one element: C in group 0 when Accumulate, products with the sign. -/
def dotElem (f : MmaFmt) (neg acc : Bool) (c e : Int) (a b : Option (List Dyad)) : Option Int :=
  match a, b with
  | some a, some b =>
    if acc && c == nanMark then none
    else
      let prods := (a.zip b).map fun p => (⟨(if neg then -1 else 1) * p.1.m * p.2.m, p.1.x + p.2.x⟩ : Dyad)
      some ((dotGroups (if acc then ⟨c, e⟩ else ⟨0, 0⟩) (chunksOf f.w (f.k / f.w) prods)).trunc e)
  | _, _ => none

/-- AMOV.add's r(j) (R268). -/
def addElem (t s : Int) (e es : Int) : Option Int :=
  if t = nanMark ∨ s = nanMark then none
  else
    let q := min e es
    some ((⟨t * 2 ^ (e - q).toNat + s * 2 ^ (es - q).toNat, q⟩ : Dyad).trunc e)

/-- AREAD's conversion (R70). -/
def readElem (m e : Int) : FV := if m = nanMark then .nan else if m = 0 then .fin false 0 0 else FV.ofInt m e

/-- ANORM's n (R263). -/
def Acc.normBy (a : Acc) : Nat :=
  let room := (a.e + 2048).toNat
  if a.big = 0 then room else min room (46 - a.big.log2)

/-- ASCL (R264). -/
def Acc.scale (a : Acc) (s : Int) : Acc :=
  let x := a.e + s
  if x > 2047 then
    if a.big = 0 then { a with e := 2047 }
    else if x - 2047 ≤ 47 ∧ a.big * 2 ^ (x - 2047).toNat ≤ mantMax then { a.mapMant (fun m => m * 2 ^ (x - 2047).toNat) with e := 2047 }
    else a.allNan
  else if x < -2048 then { a.mapMant (fun m => m.tdiv (2 ^ min (-2048 - x).toNat 48)) with e := -2048 }
  else { a with e := x }

/-- AWRITE.f32 of one element (R266). -/
def Acc.writeReal (a : Acc) (k : Nat) (v : FV) : Acc :=
  match v.dyad with
  | none => a.setElem k nanMark
  | some d =>
    let q := d.trunc a.e
    if q.natAbs > mantMax then
      let n := excess q.natAbs
      if a.e + n > 2047 then a.allNan else (a.raise n).setElem k (q.tdiv (2 ^ n))
    else a.setElem k q

/-- ASTR's image (R269): raw with its header; else one row of 32 elements. -/
def Acc.image (a : Acc) (img : Nat) : List Byte :=
  match img with
  | 0 => toLe 2 (a.e % 2 ^ 16).toNat ++ List.replicate 14 0 ++ (List.range 1024).flatMap fun k => toLe 6 (a.elem k % 2 ^ 48).toNat
  | 1 => (List.range 1024).flatMap fun k => toLe 4 (fp32.enc (readElem (a.elem k) a.e))
  | _ => (List.range 1024).flatMap fun k => toLe 2 (bf16.enc (readElem (a.elem k) a.e))

/-- The reduction of one element into a cell (R72): new cell, CLAMP, NAN. -/
def reduceCell (cell : Nat) (v : FV) (w : Int) : Nat × Bool × Bool :=
  let cap : Int := 2 ^ 100 - 1
  let add := fun (x : Int) => ((cell + x) % 2 ^ 128).toNat
  match v with
  | .nan => (cell, false, true)
  | .inf s => (add (if s then -cap else cap), true, false)
  | .fin s m e =>
    let d : Dyad := ⟨if s then -m else m, e⟩
    if m ≠ 0 ∧ (m.log2 : Int) + e - w ≥ 100 then (add (if s then -cap else cap), true, false)
    else
      let x := d.trunc w
      if x.natAbs > 2 ^ 100 - 1 then (add (if s then -cap else cap), true, false) else (add x, false, false)

end Sys2Proof.Machine
end

