-- ==== Sys2Proof/Machine/Matrix.lean ====
section
/-! DEFINITION. Convergence registers, reservations, MMA signatures, engines and accumulator instructions (R234–R269, R390, R391). -/

namespace Sys2Proof.Machine

/-! ### Convergence registers (R234–R240) -/

/-- Change register `k` of a team. -/
def State.updK (s : State) (u k : Nat) (f : KReg → KReg) : State :=
  s.updTeam u fun t => { t with kregs := tset t.kregs k (f (t.kreg k)) }

/-- Field D's register number. -/
def Dev.kn (v : Dev) : Nat := v.d.toNat % 8

/-- KDECL (R236). -/
def execKdecl (w : Rrr) (s : State) : Host.Outcome State Fault Refusal :=
  let v := w.dev 0xC0
  .next (runWord v (fun i s =>
    match i.lead with
    | none => .ok s
    | some l =>
      let b := v.b32 l
      let n := bits b 11 0
      if kdeclBad b i.team.groups.length then i.trapWord s 1 8 [l.tidx]
      else if (i.team.kreg v.kn).st = .open then i.trapWord s 0xD 9 [l.tidx]
      else .ok (s.updK i.team.uid v.kn fun r =>
        { r with st := .open, n := n, sg := bits b 31 16, gen := r.gen + 1, mma := none, signers := [], proto := [], op := none })) s)

/-- The ENGINE sub-cause of a plain signature (R390). -/
def plainFault (r : KReg) (x : Nat) : Option Nat :=
  if r.st ≠ .open then some 6 else if r.signers.contains x then some 7 else if r.mma = some true then some 8 else none

/-- One signature of thread `x` (R235). A completed register ends the waits at it: a meeting of its signers, those that have exited too, and of those
that wait (R107, R238). -/
def State.sign (s : State) (u k x : Nat) (mma : Bool) : State :=
  let s := s.updK u k fun r =>
    let l := r.signers ++ [x]
    { r with signers := l, mma := some mma, st := if l.length = r.n then .complete else .open }
  match s.team? u with
  | some t => if (t.kreg k).st = .complete then s.updTeam u fun t =>
      (t.join fun th => (t.kreg k).signers.contains th.tidx || (!th.exited && th.standsAt (.kwait k))).release (.kwait k) .passed
    else s
  | none => s

/-- Plain signatures one at a time until one faults (R391). -/
def signPlain (u k : Nat) (s : State) : List Nat → State × Option (Nat × Nat)
  | [] => (s, none)
  | x :: xs => match plainFault (((s.team? u).map (·.kreg k)).getD {}) x with
    | some e => (s, some (x, e))
    | none => signPlain u k (s.sign u k x false) xs

/-- KSIGN (R237). -/
def execKsign (w : Rrr) (s : State) : Host.Outcome State Fault Refusal :=
  let v := w.dev 0xC1
  .next (runWord v (fun i s =>
    match signPlain i.team.uid v.kn s i.acts with
    | (s, none) => .ok s
    | (s, some (x, e)) => i.trapWord s 0xD e [x]) s)

/-- KWAIT (R238): with the register complete, a meeting of its threads with the signers (R107). -/
def execKwait (w : Rrr) (s : State) : Host.Outcome State Fault Refusal :=
  let v := w.dev 0xC2
  .next (runWord v (fun i s =>
    if (i.team.kreg v.kn).st ≠ .open || i.act.all (·.wait == .passed) then
      .ok ((i.upd s i.acts fun t => { t with wait := .run }).updTeam i.team.uid fun t =>
        if (t.kreg v.kn).st = .complete then
          t.join fun th => (t.kreg v.kn).signers.contains th.tidx || i.acts.contains th.tidx
        else t)
    else .wait (i.upd s i.acts fun t => if t.wait = .passed then t else { t with wait := .kwait v.kn })) s)

/-- KRST (R239, R252): an open MMA generation's operation ends CANCELLED; every KWAIT on the register ends. -/
def execKrst (w : Rrr) (s : State) : Host.Outcome State Fault Refusal :=
  let v := w.dev 0xC3
  .next (runWord v (fun i s =>
    if i.act.isEmpty then .ok s
    else
      let r := i.team.kreg v.kn
      let s := s.updK i.team.uid v.kn fun r => { r with st := .idle, n := 0, mma := none, signers := [], proto := [], op := none }
      let s := s.updTeam i.team.uid (·.release (.kwait v.kn) .passed)
      .ok (match r.st, r.op with
        | .open, some o => s.endOp o .cancelled
        | _, _ => s)) s)

/-! ### Reservations (R242–R247) -/

/-- Whether an engine of a core is held, and by which team. -/
def State.heldBy (s : State) (core e : Nat) : Option Team :=
  s.teams.find? fun t => t.core == core && !t.swapped && (match t.resv with | some r => r.eng.getLsbD e | none => false)

/-- Whether a position of a core's accumulator store lies in a window. -/
def State.posHeld (s : State) (core p : Nat) : Bool :=
  s.teams.any fun t => t.core == core && !t.swapped && (match t.resv with | some r => r.base ≤ p && p < r.base + r.count | none => false)

/-- The lowest of `count` positions in a row of which none is held, `extra` counting as held. -/
def lowestRun (held : Nat → Bool) (count : Nat) : Option Nat :=
  (List.range (513 - count)).find? fun b => (List.range count).all fun k => !held (b + k)

/-- Whether the engines of a mask are free. -/
def State.engFree (s : State) (core : Nat) (m : BitVec 2) : Bool :=
  (List.range 2).all fun e => !(m.getLsbD e) || (s.heldBy core e).isNone

/-- Whether a request can be granted now: its units are free (R244), and R245 lets it pass the oldest one that waits. -/
def State.canReserve (s : State) (core : Nat) (eng : BitVec 2) (count order : Nat) : Option Nat :=
  if !s.engFree core eng then none
  else match lowestRun (s.posHeld core) count with
    | none => none
    | some b =>
      let waiting := s.teams.filterMap fun t => if t.core = core ∧ !t.swapped then t.mres.filter (fun m => !m.granted && m.order < order) else none
      match leastBy MresReq.order waiting with
      | none => some b
      | some o =>
        if eng &&& o.eng ≠ 0 then none
        else if count = 0 || (lowestRun (fun p => s.posHeld core p || (b ≤ p && p < b + count)) o.count).isSome then some b
        else none

/-- Grant a reservation: every tile of the window is zero with e = 0 and no user (R242). -/
def State.reserve (s : State) (t : Team) (eng : BitVec 2) (base count : Nat) : State :=
  { s.updTeam t.uid fun t => { t with resv := some ⟨eng, base, count⟩ } with
    accs := s.accs.filter fun a => !(t.core * 512 + base ≤ a.1 && a.1 < t.core * 512 + base + count) }

/-- MRES_GRANT: the waiting request that may be granted next, oldest first (R245). -/
def execMresGrant (core : Nat) (s : State) : Host.Outcome State Fault Refusal :=
  let cand := s.teams.filterMap fun t =>
    if t.core = core ∧ !t.swapped ∧ !t.retired then
      match t.mres with
      | some m => if m.granted then none else (s.canReserve core m.eng m.count m.order).map fun b => (t, m, b)
      | none => none
    else none
  match leastBy (fun x => x.2.1.order) cand with
  | none => .next s
  | some (t, m, b) => .next ((s.reserve t m.eng b m.count).updTeam t.uid fun t => { t with mres := some { m with granted := true, word := t.windowWord } })

/-- MRES's results, to every active thread: the window's word, or the one that its grant gave. -/
def Iss.mresOut (i : Iss) (s : State) (p : Bool) (given : Option Word := none) : Done :=
  let word := given.getD (((s.team? i.team.uid).map Team.windowWord).getD 0)
  .ok (i.upd s i.acts fun t => (t.setVs (i.dev.wd word)).setP (i.dev.a.toNat % 8) p)

/-- Whether a request for a reservation was made by thread `x` of group `g`. -/
def MresReq.by (m : MresReq) (g x : Nat) : Bool := m.gidx == g && m.who == x

/-- MRES (R244). A request that waits is taken up again by the set whose leader made it: another set of its group, one in a handler, gets p = 0. One
that was granted is answered so, though another group of the team has released the reservation since. -/
def execMres (w : Rrr) (s : State) : Host.Outcome State Fault Refusal :=
  let v := w.dev 0xC8
  .next (runWord v (fun i s =>
    match i.lead with
    | none => .ok s
    | some l =>
      let b := v.b32 l
      let count := bits b 25 16
      let eng := BitVec.ofNat 2 (bits b 1 0)
      let mine := i.team.mres.any (·.by i.grp.gidx l.tidx)
      if bits b 31 26 ≠ 0 ∨ bits b 15 2 ≠ 0 ∨ count > 512 ∨ (eng = 0 ∧ count = 0) then
        .ok (i.upd s i.acts fun t => (t.setVs (v.wd 0)).setP (v.a.toNat % 8) false)
      else if mine then
        (if (i.team.mres.map (·.granted)) = some true then i.mresOut (s.updTeam i.team.uid fun t => { t with mres := none }) true (i.team.mres.map (·.word))
         else .wait s)
      else if let some m := i.team.given.find? (·.by i.grp.gidx l.tidx) then
        i.mresOut (s.updTeam i.team.uid fun t => { t with given := t.given.filter (!·.by i.grp.gidx l.tidx) }) true (some m.word)
      else if i.team.resv.isSome || i.team.mres.isSome then i.mresOut s false
      else match s.canReserve i.team.core eng count s.seq with
        | some base => i.mresOut (s.reserve i.team eng base count) true
        | none => .wait ({ s with seq := s.seq + 1 }.updTeam i.team.uid fun t => { t with mres := some { gidx := i.grp.gidx, eng := eng, count := count, order := s.seq, who := l.tidx } })) s)

/-- MREL (R246): waits for the operations that hold the reservation, then releases it. -/
def execMrel (w : Rrr) (s : State) : Host.Outcome State Fault Refusal :=
  let v := w.dev 0xC9
  .next (runWord v (fun i s =>
    let done := i.act.any (·.wait == .passed)
    if i.act.isEmpty || done then .ok (i.upd s i.acts fun t => { t with wait := .run })
    else if i.team.resv.isNone then .ok (i.upd s i.acts fun t => { t with wait := .run })
    else if s.ops.any (·.holdsResv i.team.uid) then
      .wait (i.upd (s.updTeam i.team.uid fun t => { t with mrel := some i.grp.gidx }) i.acts fun t => { t with wait := .mrel })
    else .ok (i.upd (s.freeResv i.team.uid) i.acts fun t => { t with wait := .run })) s)

/-- MREL_RELEASE: a waiting MREL releases the engines and the window, and its active threads go on (R246). -/
def execMrelRelease (team : Nat) (s : State) : Host.Outcome State Fault Refusal :=
  match s.team? team with
  | none => .next s
  | some t => match t.mrel with
    | none => .next s
    | some g =>
      if s.ops.any (·.holdsResv team) then .next s
      else .next ((s.freeResv team).updThreads team g (fun th => !th.exited && th.wait == .mrel) fun th => { th with wait := .passed })

/-! ### Signing an MMA (R250–R255, R388–R391) -/

/-- The descriptor: the eight words from vA up (R253). -/
def Dev.mmaDesc (v : Dev) (t : Thread) : List Word := t.vs v.a.toNat 8
/-- Word `k` of a descriptor. -/
def dword (d : List Word) (k : Nat) : Word := d.getD k 0
/-- A pair of a descriptor. -/
def dpair (d : List Word) (k : Nat) : Addr := dword d (k + 1) ++ dword d k
/-- Whether operand `b` (A or B) is named by tile. -/
def byTile (d : List Word) (b : Bool) : Bool := (dword d 6).getLsbD (if b then 22 else 23)
/-- The operand's tile number. -/
def tileOf (d : List Word) (b : Bool) : Nat := (dword d (if b then 2 else 0)).toNat % 64
/-- The operand's stride. -/
def strideOf (d : List Word) (b : Bool) : Nat := (dword d (if b then 5 else 4)).toNat

/-- R389's tests of one operand tile: the sub-cause with the tile's state. -/
def Team.tileFault (t : Team) (s : State) (tiles : Nat) (d : List Word) (b : Bool) : Option (Nat × Addr) :=
  if !byTile d b then none
  else
    let k := tileOf d b
    let e := s.tile t.core (t.tileBase + k)
    if k ≥ tiles then some (1, tileVal k .empty)
    else if e.st = .empty then some (2, tileVal k .empty)
    else if (dword d (if b then 3 else 1)).toNat + 31 * strideOf d b + 384 > e.size then some (6, tileVal k e.st)
    else none

/-- The scale stream of a signer (R255). -/
def Dev.scaleStream (v : Dev) (t : Thread) : List Byte :=
  let n := scaleBytes v.op.toNat
  ((wordsLe (t.vs v.b.toNat (scaleRegs v.op.toNat (bits v.lw 9 8)))).drop (bits v.lw 9 8)).take n

/-- The prototype of a generation: descriptor, then OP, NEG, ACC (R251). -/
def Dev.proto (v : Dev) (t : Thread) : List Word :=
  v.mmaDesc t ++ [BitVec.ofNat 32 v.op.toNat, BitVec.ofNat 32 (bits v.lw 11 11), BitVec.ofNat 32 (bits v.lw 10 10)]

/-- ENGINE's sub-cause of one signature, in R390's order. -/
def Iss.mmaFault (i : Iss) (t : Team) (th : Thread) (sup : List Nat) : Option Nat :=
  let v := i.dev
  let d := v.mmaDesc th
  let c := dword d 6
  let k := bits v.lw 2 0
  let r := t.kreg k
  let eng := bits c 19 18
  let held := fun (n : Nat) => match t.resv with | some x => x.eng.getLsbD n | none => false
  let scaled := scaleBytes v.op.toNat != 0
  let supplies := scaled && i.grp.gidx == r.sg && decide (th.pos < 32)
  let odd := fun (b : Bool) => (if byTile d b then (dword d (if b then 3 else 1)).toNat else (dpair d (if b then 2 else 0)).toNat) % 128 != 0 ||
    strideOf d b % 128 != 0
  if (match t.resv with | some x => decide (bits c 8 0 ≥ x.count) | none => true) then some 1
  else if bits c 27 27 ≠ 0 || bits c 17 9 ≠ 0 || (v.op ≠ 0xCC && bits c 21 20 ≠ 0) || eng = 3 ||
      (byTile d false && (dword d 0).toNat / 64 ≠ 0) || (byTile d true && (dword d 2).toNat / 64 ≠ 0) then some 0xB
  else if (eng = 0 && !held 0 && !held 1) || (eng = 1 && !held 0) || (eng = 2 && !held 1) then some 2
  else if odd false || odd true then some 0xA
  else if r.st ≠ .open then some 6
  else if r.signers.contains th.tidx then some 7
  else if r.mma = some false then some 8
  else if r.op.isSome && v.proto th != r.proto then some 3
  else if supplies && sup.contains th.pos then some 4
  else if r.signers.length + 1 = r.n && scaled && !((List.range 32).all fun p => sup.contains p || (supplies && p == th.pos)) then some 5
  else none

/-- The scale positions an open generation has been given. -/
def State.supplied (s : State) (r : KReg) : List Nat := ((r.op.bind s.op?).map fun o => o.scales.map (·.1)).getD []

/-- The trap of one signature, if any: HANDLE, TILE, then ENGINE (R391). -/
def Iss.signFault (i : Iss) (s : State) (t : Team) (th : Thread) : Option Trap :=
  let d := i.dev.mmaDesc th
  let hit := fun (c sub : Nat) (val : Addr) => some (trapOf c sub [th.tidx] val)
  let given := fun (u : Thread) => (dword (i.dev.mmaDesc u) 7).setWidth 64
  if badHandle (dword d 7) then some { trapOf 0xE 1 [th.tidx] (given th) with own := i.act.map fun u => (u.tidx, given u) }
  else match (t.tileFault s i.desc.tiles d false).orElse fun _ => t.tileFault s i.desc.tiles d true with
    | some (sub, val) => hit 0xC sub val
    | none => (i.mmaFault t th (s.supplied (t.kreg (bits i.dev.lw 2 0)))).bind fun sub => hit 0xD sub (i.word.setWidth 64)

/-- Who owns an MMA (R276): its signer with the lowest TIDX, unless it is detached or that thread has exited. -/
def mmaOwner (t : Team) (det : Bool) (lowest : Nat) : Owner × Nat :=
  if !det && (t.live.any (·.tidx == lowest)) then (.thread, lowest) else (.team, 0)

/-- One signature takes effect (R251); the last one issues the operation (R110, R248). While its issuer so far owns it, the operation passes
to the lowest signer; an owner that an event of R276 gave it stays. -/
def Iss.signMma (i : Iss) (s : State) (th : Thread) : State :=
  let v := i.dev
  let u := i.team.uid
  let k := bits v.lw 2 0
  match s.team? u with
  | none => s
  | some t =>
    let r := t.kreg k
    let d := v.mmaDesc th
    let c := dword d 6
    let (s, uid) := match r.op with
      | some o => (s, o)
      | none =>
        let n := s.newOp ((s.freeSlot t.core).getD 0) {
          uid := 0, token := 0, kind := .mma, core := t.core, slot := 0, ctx := t.ctx, slice := t.slice, team := u, issuer := th.tidx, start := 0,
          st := .opening, pred := dword d 7, ord := c.getLsbD 31, det := c.getLsbD 30, pri := bits c 29 28, words := v.proto th, k := k }
        (n.1.updK u k fun r => { r with op := some n.2.uid, proto := v.proto th }, n.2.uid)
    let lowest := r.signers.foldl min th.tidx
    let s := s.updOp uid fun o =>
      let own := if !r.signers.isEmpty && (o.own != .thread || o.otid != o.issuer || (dword o.words 6).getLsbD 30) then (o.own, o.otid)
        else mmaOwner t o.det lowest
      { o with issuer := lowest, own := own.1, otid := own.2, sig := if lowest = th.tidx then s.seq else o.sig,
               scales := if scaleBytes v.op.toNat != 0 && i.grp.gidx == r.sg && decide (th.pos < 32) then tset o.scales th.pos (v.scaleStream th) else o.scales }
    let s := match s.op? uid with
      | some o => i.markHandle s [th.tidx] o
      | none => s
    let s := ({ s with seq := s.seq + 1 } : State).sign u k th.tidx true
    if r.signers.length + 1 = r.n then
      let s := s.updOp uid fun o => { o with st := .queued, start := s.seq }
      let p := (t.resv.map (·.base)).getD 0 + bits c 8 0
      { s.updAcc t.core p fun a => { a with order := a.order ++ [.op uid] } with seq := s.seq + 1 }
    else s

/-- Signatures one at a time, in lane order, until one faults (R391): how many were made. -/
def Iss.signAll (i : Iss) (s : State) : List Thread → Nat → State × Option Trap × Nat
  | [], n => (s, none, n)
  | th :: l, n => match s.team? i.team.uid with
    | none => (s, none, n)
    | some t => match i.signFault s t th with
      | some tr => (s, some tr, n)
      | none => i.signAll (i.signMma s th) l (n + 1)

/-- An issue of MMA (R251, R252): the flag rises once when a signature was made, and falls when the operation ends. -/
def runMma (v : Dev) (s : State) : State :=
  runWord v (fun i s =>
    let k := bits v.lw 2 0
    match i.act with
    | [] => .ok s
    | th :: _ =>
      let fresh := (i.team.kreg k).op.isNone && (i.signFault s i.team th).isNone
      if fresh && (s.freeSlot i.team.core).isNone then .wait s
      else
        let r := i.signAll s i.act 0
        let op := (((r.1.team? i.team.uid).map fun (t : Team) => t.kreg k).getD {}).op
        let s := match i.flag, op with
          | some f, some o => if r.2.2 = 0 then r.1 else
              (r.1.flagUp i.team.uid i.grp.gidx f).updOp o fun o => { o with flags := o.flags ++ [(i.team.uid, i.grp.gidx, f)] }
          | _, _ => r.1
        match r.2.1 with
        | some tr => .trap s tr
        | none => .ok s) s

/-- MMA.mxf4 (R251). -/
def execMmaMxf4 (w : Rrr) (s : State) : Host.Outcome State Fault Refusal :=
  let v := w.dev 0xCA
  .next (runMma v s)
/-- MMA.mxf8 (R251). -/
def execMmaMxf8 (w : Rrr) (s : State) : Host.Outcome State Fault Refusal :=
  let v := w.dev 0xCB
  .next (runMma v s)
/-- MMA.fp8 (R251). -/
def execMmaFp8 (w : Rrr) (s : State) : Host.Outcome State Fault Refusal :=
  let v := w.dev 0xCC
  .next (runMma v s)
/-- MMA.i8 (R251). -/
def execMmaI8 (w : Rrr) (s : State) : Host.Outcome State Fault Refusal :=
  let v := w.dev 0xCD
  .next (runMma v s)
/-- MMA.ts8i (R251). -/
def execMmaTs8i (w : Rrr) (s : State) : Host.Outcome State Fault Refusal :=
  let v := w.dev 0xCE
  .next (runMma v s)
/-- MMA.ts8e (R251). -/
def execMmaTs8e (w : Rrr) (s : State) : Host.Outcome State Fault Refusal :=
  let v := w.dev 0xCF
  .next (runMma v s)
/-- MMA.bf16 (R251). -/
def execMmaBf16 (w : Rrr) (s : State) : Host.Outcome State Fault Refusal :=
  let v := w.dev 0xD0
  .next (runMma v s)
/-- MMA.f16 (R251). -/
def execMmaF16 (w : Rrr) (s : State) : Host.Outcome State Fault Refusal :=
  let v := w.dev 0xD1
  .next (runMma v s)

end Sys2Proof.Machine
end

