-- ==== Sys2Proof/Machine/Engines.lean ====
section
/-! DEFINITION. The matrix engines' rows (R256–R260, R403) and the accumulator instructions (R248, R261–R269). -/

namespace Sys2Proof.Machine

/-! ### Engines -/

/-- The physical position of accumulator tile `t` of a team. -/
def Team.accPos (t : Team) (n : Nat) : Nat := (t.resv.map (·.base)).getD 0 + n

/-- Whether a user is first in a tile's order (R248). -/
def State.heads (s : State) (core p : Nat) (u : User) : Bool := (s.acc core p).order.head? == some u

/-- The states of the tile-table tiles an MMA names. -/
def State.mmaTiles (s : State) (t : Team) (o : Op) : List TileState :=
  [false, true].filterMap fun b => if byTile o.words b then some (s.tile t.core (t.tileBase + tileOf o.words b)).st else none

/-- Whether an MMA can start, or go on after a checkpoint, on an engine (R95, R113, R256, R279). -/
def State.canStartMma (s : State) (core e : Nat) (o : Op) : Bool :=
  o.kind == .mma && o.core == core && (o.st == .queued || (o.st == .running && o.engine.isNone)) &&
  (match s.team? o.team with
   | none => false
   | some t =>
     let eng := bits (dword o.words 6) 19 18
     let held := match t.resv with | some r => r.eng.getLsbD e | none => false
     !t.swapped && held && (eng == 0 || eng == e + 1) && s.ended o.ctx o.pred && !s.ordHeld o &&
     s.heads core (t.accPos (bits (dword o.words 6) 8 0)) (.op o.uid) && (s.mmaTiles t o).all fun x => x == .empty || x == .ready)

/-- The address where an operand's rows begin (R254). -/
def State.operandBase (s : State) (t : Team) (d : List Word) (b : Bool) : Addr :=
  if byTile d b then BitVec.ofNat 64 (s.tile t.core (t.tileBase + tileOf d b)).base + (dword d (if b then 3 else 1)).setWidth 64
  else dpair d (if b then 2 else 0)

/-- MMA_START (R256, R310, R408): an idle engine takes the operation of highest rank that can start. It takes each named tile's BASE as it stands
at this start or restart and keeps it for the rows it goes on to write; a SIZE that has changed since the signature is not tested again, as R408
names EMPTY alone (log 77). What a host has still to answer to an earlier start is not taken: the rows ask anew. -/
def execMmaStart (core engine : Nat) (s : State) : Host.Outcome State Fault Refusal :=
  if s.ops.any fun o => o.core == core && o.kind == .mma && o.st == .running && o.engine == some engine then .next s
  else match leastBy Op.rank (s.ops.filter (s.canStartMma core engine)) with
    | none => .next s
    | some o => match s.team? o.team with
      | none => .next s
      | some t =>
        if (s.mmaTiles t o).any (· == .empty) then .next ((s.updOp o.uid fun o => { o with prog := 0 }).failOp o 0xC 2 0)
        else
          let base := fun b => toLe 8 (s.operandBase t o.words b).toNat
          let cyc := (mmaFmt (dword o.words 8).toNat false false).cycles
          let s := s.updOp o.uid fun o => { o with st := .running, engine := some engine, bytes := base false ++ base true, lines := [], counted := true }
          let s : State := { s with loads := s.loads.filter (·.reader != some (.op o.uid)) }
          .next (if o.counted then s else s.charge o.ctx o.slice cyc (32 * cyc))

/-- The 128-byte lines of an operand row of 384 bytes. -/
def rowSpans (base : Addr) : List Span := (List.range 3).map fun k => ⟨base + BitVec.ofNat 64 (128 * k), 128⟩

/-- The key under which an operation keeps an operand line. -/
def lineKey (ea : Addr) : Nat := ea.toNat / 128

/-- An operand row from the lines an operation keeps. -/
def Op.rowBytes (o : Op) (base : Addr) : List Byte := (rowSpans base).flatMap fun x => tgetD o.lines (lineKey x.ea) (List.replicate 128 0)

/-- Row `r` of operand A or B begins here. -/
def Op.rowBase (o : Op) (b : Bool) (r : Nat) : Addr :=
  BitVec.ofNat 64 (leNat ((o.bytes.drop (if b then 8 else 0)).take 8)) + BitVec.ofNat 64 (r * strideOf o.words b)

/-- The tile after row `i` of an MMA (R66–R68), from the operand lines the operation keeps. -/
def Op.computeRow (o : Op) (i : Nat) (a : Acc) : Acc :=
  let c := dword o.words 6
  let op := (dword o.words 8).toNat
  let f := mmaFmt op (c.getLsbD 20) (c.getLsbD 21)
  let nb := f.k / 32
  let sc := fun (p : Nat) => tgetD o.scales p []
  let ra := scaledRow f.a (o.rowBytes (o.rowBase false i)) (if f.sa then some ((sc i).take nb) else none)
  let cols := (List.range 32).map fun j =>
    scaledRow f.b (o.rowBytes (o.rowBase true j)) (if f.sb then some (if f.sa then (sc j).drop nb else sc j) else none)
  a.writeRow i ((List.range 32).zip cols |>.map fun x =>
    dotElem f (dword o.words 9 != 0) (dword o.words 10 != 0) (a.elem (32 * i + x.1)) a.e ra x.2)

/-- Keep committed operand lines (R256). -/
def keepLines (l : Tab (List Byte)) (xs : List Span) (data : List (List Byte)) : Tab (List Byte) :=
  (xs.zip data).foldl (fun l x => tset l (lineKey x.1.ea) x.2) l

/-- MMA_ROW (R68, R256, R274, R296, R403): the running operation of an engine reads what the next row needs and writes the row. A tile whose code
had failed before an MMA with ACC clear is good again once that MMA has written every word of it, its last row (R427). -/
def execMmaRow (core engine : Nat) (s : State) : Host.Outcome State Fault Refusal :=
  match s.ops.find? fun o => o.core == core && o.kind == .mma && o.st == .running && o.engine == some engine with
  | none => .next s
  | some o => match s.team? o.team with
    | none => .next s
    | some t =>
      let p := t.accPos (bits (dword o.words 6) 8 0)
      let acc := s.acc core p
      let accum := dword o.words 10 != 0
      if o.cancel then .next (s.endOp o.uid .cancelled)
      else
        let need := rowSpans (o.rowBase false o.prog) ++ (List.range 32).flatMap fun j => rowSpans (o.rowBase true j)
        let need := need.foldl (fun l x => if (tget o.lines (lineKey x.ea)).isSome || l.any (fun (y : Span) => lineKey y.ea == lineKey x.ea) then l else l ++ [x]) []
        let old := if o.prog = 0 then acc.bad else acc.old
        let worn := if acc.bad && (accum || !old) then [OpMiss.mk 0 ⟨0xB, 0x11⟩] else []
        match s.gather o (.oper o.team) need worn with
        | .miss m => .next (s.failOp o m.miss.cause m.miss.sub m.ea)
        | .pending s => .next s
        | .got s data =>
          let o : Op := { o with lines := keepLines (dropHost 0 o.lines) need data, prog := o.prog + 1 }
          let s := (s.updAcc core p fun a => o.computeRow (o.prog - 1) { a with old := old && !accum, bad := a.bad && o.prog != 32 }).updOp o.uid fun x => { x with lines := o.lines, prog := o.prog }
          .next (if o.prog = 32 then s.endOp o.uid .done else s)

/-! ### Accumulator instructions -/

/-- The tile of an accumulator literal. -/
def Dev.accT (v : Dev) : Nat := bits v.lw 8 0

/-- An issue's place in a tile's order: its set is told by its first thread, so that a handler of another set of the group has a place of its own (R248). -/
def Iss.user (i : Iss) : User := .issue i.team.uid i.grp.gidx (i.cos.headD 0)

/-- An issue's use of tiles (R248, R249): ENGINE faults, a place in each tile's order at the first try, the wait for its turn, then
`go` with the physical positions; the use ends with it. `who` meets the fault. -/
def Iss.useTiles (i : Iss) (s : State) (ts : List Nat) (who : List Nat) (go : State → List Nat → Done) : Done :=
  if i.act.isEmpty then .ok s
  else match i.team.resv with
    | none => i.trapWord s 0xD 1 who
    | some r =>
      if ts.any (· ≥ r.count) then i.trapWord s 0xD 1 who
      else
        let me := i.user
        let ps := (dedup ts).map (r.base + ·)
        let core := i.team.core
        let s := ps.foldl (fun s p => if (s.acc core p).order.contains me then s else s.updAcc core p fun a => { a with order := a.order ++ [me] }) s
        if ps.all fun p => s.heads core p me then
          go (ps.foldl (fun s p => s.updAcc core p fun a => { a with order := a.order.filter (· != me) }) s) ps
        else .wait s

/-- A thread's use of a tile whose code has failed kills its team (R427), unless a kill has come before it (R420). -/
def Iss.wornTile (i : Iss) (s : State) : State :=
  if ((s.team? i.team.uid).map (·.killed)) = some true then s.endGroup i.team.uid i.grp.gidx
  else (s.post i.team.ctx (s.ctxHart i.team.ctx) { cause := 0xB, src := 5, sub := 0x11, slice := i.team.slice }).kill i.team.uid [i.grp.gidx]

/-- A use of one tile that reads it: `go` with its position, unless its code has failed. -/
def Iss.useTile (i : Iss) (s : State) (who : List Nat) (go : State → Nat → Done) : Done :=
  i.useTiles s [i.dev.accT] who fun s ps =>
    let p := ps.headD 0
    if (s.acc i.team.core p).bad then .over (i.wornTile s) else go s p

/-- The leader alone meets the faults of an instruction that acts once (R379). -/
def Iss.once (i : Iss) : List Nat := (i.lead.map (·.tidx)).toList

/-- AZERO (R262). -/
def execAzero (w : Rrr) (s : State) : Host.Outcome State Fault Refusal :=
  let v := w.dev 0xD2
  .next (runWord v (fun i s => i.useTiles s [v.accT] i.once fun s ps =>
    .ok (s.updAcc i.team.core (ps.headD 0) fun a => { a with mant := [], e := (v.lw.extractLsb' 9 12).toInt, bad := false })) s)

/-- ANORM (R263). -/
def execAnorm (w : Rrr) (s : State) : Host.Outcome State Fault Refusal :=
  let v := w.dev 0xD3
  .next (runWord v (fun i s => i.useTile s i.once fun s p =>
    let n := (s.acc i.team.core p).normBy
    .ok (i.upd (s.updAcc i.team.core p (·.lower n)) i.acts fun th => th.setVs (v.wd (BitVec.ofNat 32 n)))) s)

/-- ASCL (R264). -/
def execAscl (w : Rrr) (s : State) : Host.Outcome State Fault Refusal :=
  let v := w.dev 0xD4
  .next (runWord v (fun i s => i.useTile s i.once fun s p =>
    .ok (s.updAcc i.team.core p (·.scale ((i.lead.map fun t => (v.rb32 t).toInt).getD 0)))) s)

/-- AREAD's words of one thread (R265). -/
def Acc.readWords (a : Acc) (mode : Nat) (x : Word) : List Word :=
  let i := bits x 9 5
  match mode with
  | 0 => [BitVec.ofNat 32 (fp32.enc (readElem (a.elem (32 * i + bits x 4 0)) a.e))]
  | 1 =>
    let h := fun (j : Nat) => bf16.enc (readElem (a.elem (32 * i + 2 * bits x 4 1 + j)) a.e)
    [BitVec.ofNat 32 (h 1 * 2 ^ 16 + h 0)]
  | _ => leWords 2 (toLe 8 (a.elem (32 * i + bits x 4 0) % 2 ^ 64).toNat)

/-- AREAD (R265): the flag of SETA rises until the data arrives. -/
def execAread (w : Rrr) (s : State) : Host.Outcome State Fault Refusal :=
  let v := w.dev 0xD5
  .next (runWord v (fun i s => i.useTile s (i.doers.map (·.tidx)) fun s p =>
    let a := s.acc i.team.core p
    let mode := bits v.lw 10 9
    .ok (i.deliver s (if mode = 2 then 2 else 1) 4 0x11 (i.doers.map fun t => { thr := t, ea := 0, vals := a.readWords mode (v.a32 t), blocks := [], key := i.team.core * 512 + p }))) s)

/-- One element written by AWRITE (R266). -/
def Acc.writeWords (a : Acc) (mode : Nat) (x : Word) (data : Addr) : Acc :=
  let k := 32 * bits x 9 5 + bits x 4 0
  if mode = 2 then a.setElem k (data.extractLsb' 0 48).toInt else a.writeReal k (fp32.val (data.toNat % 2 ^ 32))

/-- AWRITE (R266): the flag of SETB has fallen again by the end of the issue (R131). -/
def execAwrite (w : Rrr) (s : State) : Host.Outcome State Fault Refusal :=
  let v := w.dev 0xD6
  .next (runWord v (fun i s => i.useTile s (i.doers.map (·.tidx)) fun s p =>
    let mode := bits v.lw 10 9
    .ok (i.doers.foldl (fun s t => s.updAcc i.team.core p fun a =>
      a.writeWords mode (v.a32 t) (if mode = 2 then v.d64 t else (v.d32 t).setWidth 64)) s)) s)

/-- AEXP (R267). -/
def execAexp (w : Rrr) (s : State) : Host.Outcome State Fault Refusal :=
  let v := w.dev 0xD7
  .next (runWord v (fun i s => i.useTile s (i.doers.map (·.tidx)) fun s p =>
    .ok (i.upd s i.acts fun th => th.setVs (v.wd (BitVec.ofInt 32 (s.acc i.team.core p).e)))) s)

/-- AMOV.add's rows (R268). -/
def addRows (src : Acc) (t : Acc) : Acc :=
  (List.range 32).foldl (fun a i => a.writeRow i ((List.range 32).map fun j => addElem (a.elem (32 * i + j)) (src.elem (32 * i + j)) a.e src.e)) t

/-- AMOV (R268): one user of both tiles. A source whose code has failed makes it fail with CHECK SUB 0x11 (R427). -/
def execAmov (w : Rrr) (s : State) : Host.Outcome State Fault Refusal :=
  let v := w.dev 0xD9
  .next (runWord v (fun i s =>
    i.useTiles s [v.accT, bits v.lw 17 9] i.once fun s _ =>
      let pt := i.team.accPos v.accT
      let src := s.acc i.team.core (i.team.accPos (bits v.lw 17 9))
      let add := v.lw.getLsbD 18
      if src.bad || (add && (s.acc i.team.core pt).bad) then .trap s (trapOf 0xB 0x11 i.once 0)
      else .ok (s.updAcc i.team.core pt fun a => if add then addRows src a else { a with mant := src.mant, e := src.e, bad := false })) s)

/-- ASTR (R269): an operation that writes an image of the tile; its place in the tile's order is taken here. -/
def execAstr (w : Rrr) (s : State) : Host.Outcome State Fault Refusal :=
  let v := w.dev 0xD8
  .next (runWord v (fun i s =>
    match i.lead with
    | none => .ok s
    | some l =>
      let img := bits v.lw 10 9
      let ea := v.a64 l
      let stride := if img = 0 then 0 else (v.rb32 l).toNat
      let outside := match i.team.resv with | some r => decide (v.accT ≥ r.count) | none => true
      if outside then i.trapWord s 0xD 1 [l.tidx]
      else if ea.toNat % 16 ≠ 0 ∨ stride % 16 ≠ 0 then .trap s (trapOf 7 4 [l.tidx] ea)
      else match s.freeSlot i.team.core with
        | none => .wait s
        | some k =>
          let det := v.lw.getLsbD 21
          let f := i.flag
          let n := s.newOp k {
            uid := 0, token := 0, kind := .astr, core := i.team.core, slot := 0, ctx := i.team.ctx, slice := i.team.slice, team := i.team.uid,
            issuer := l.tidx, start := 0, own := if det then .team else .thread, otid := if det then 0 else l.tidx, det := det,
            ord := v.lw.getLsbD 20, pri := bits v.lw 23 22,
            words := [v.lw, ea.extractLsb' 0 32, ea.extractLsb' 32 32, BitVec.ofNat 32 stride],
            flags := match f with | some f => [(i.team.uid, i.grp.gidx, f)] | none => [] }
          let s := n.1.updAcc i.team.core (i.team.accPos v.accT) fun a => { a with order := a.order ++ [.op n.2.uid] }
          let s := match f with | some f => s.flagUp i.team.uid i.grp.gidx f | none => s
          .ok (i.markHandle s i.acts n.2)) s)

end Sys2Proof.Machine
end

