-- ==== Sys2Proof/Machine/Copies.lean ====
section
/-! DEFINITION. Copy packets, Gleaners, chunks and completion (R282–R288, R292, R403, R408–R412), and ASTR's writes (R269). -/

namespace Sys2Proof.Machine

/-! ### The packet (R282, R283) -/

/-- The fields of a copy packet. -/
structure CopyPk where
  op : Nat
  b1 : Nat
  b2 : Nat
  b3 : Nat
  len : Nat
  src : Addr
  dst : Addr
  rows : Nat
  sstr : Nat
  dstr : Nat
  mask : Nat
  cid : Nat
  lsbw : Int
  rop : Nat
  pred : Word
  caddr : Addr
  cval : Nat
  ticket : Nat
  deriving DecidableEq, Repr

/-- Read a packet's 64 bytes. -/
def copyPk (bs : List Byte) : CopyPk :=
  let g := fun (o n : Nat) => leNat ((bs.drop o).take n)
  { op := g 0 1, b1 := g 1 1, b2 := g 2 1, b3 := g 3 1, len := g 4 4, src := BitVec.ofNat 64 (g 8 8), dst := BitVec.ofNat 64 (g 16 8),
    rows := g 24 4, sstr := g 28 4, dstr := g 32 4, mask := g 36 2, cid := g 38 2, lsbw := (BitVec.ofNat 16 (g 40 2)).toInt, rop := g 42 2,
    pred := BitVec.ofNat 32 (g 44 4), caddr := BitVec.ofNat 64 (g 48 8), cval := g 56 4, ticket := g 60 4 }

/-- ACQ with system scope (R108, R112). -/
def CopyPk.acqHost (p : CopyPk) : Bool := p.b1 % 2 == 1 && p.b1 / 4 % 4 == 3
/-- Whether an operation carries acquire at system scope (R112, R269). -/
def Op.acqHost (o : Op) : Bool :=
  if o.kind = .astr then (dword o.words 0).getLsbD 17 && bits (dword o.words 0) 19 18 == 3 else (copyPk o.bytes).acqHost
/-- DET. -/
def CopyPk.det (p : CopyPk) : Bool := p.b1 / 32 % 2 == 1
/-- ORD. -/
def CopyPk.ord (p : CopyPk) : Bool := p.b1 / 16 % 2 == 1
/-- CW. -/
def CopyPk.cw (p : CopyPk) : Bool := p.b2 / 4 % 2 == 1
/-- CK. -/
def CopyPk.ck (p : CopyPk) : Nat := p.b2 % 4
/-- PRI. -/
def CopyPk.pri (p : CopyPk) : Nat := p.b3 / 64
/-- ETYPE. -/
def CopyPk.etype (p : CopyPk) : Nat := p.b3 % 16
/-- The size of an element; 1 for a reserved code, which fails before it is used. -/
def CopyPk.z (p : CopyPk) : Nat := [1, 2, 4, 8, 4, 2, 2, 4, 8].getD p.etype 1
/-- The element types an operation accepts. -/
def CopyPk.types (p : CopyPk) : List Nat :=
  match p.op with
  | 1 => [0, 1, 2, 3]
  | 2 => [4, 5, 6, 7, 8]
  | 3 => [2]
  | 4 => [3]
  | _ => [0]
/-- The ranks of a multicast. -/
def CopyPk.ranks (p : CopyPk) : List Nat := (List.range 12).filter fun q => p.mask / 2 ^ q % 2 == 1
/-- Destination bytes of one row, of one rank. -/
def CopyPk.rowBytes (p : CopyPk) : Nat := if p.op = 2 then p.len / p.z * 16 else p.len
/-- Destination bytes of one rank. -/
def CopyPk.bytes (p : CopyPk) : Nat := p.rows * p.rowBytes
/-- How often a destination byte is written: once a rank. -/
def CopyPk.copies (p : CopyPk) : Nat := if p.op = 6 then p.ranks.length else 1
/-- The destination bytes counted. -/
def CopyPk.counted (p : CopyPk) : Nat := p.bytes * p.copies
/-- A row begins here at the source. -/
def CopyPk.srcRow (p : CopyPk) (r : Nat) : Addr := p.src + BitVec.ofNat 64 (r * p.sstr)
/-- A row begins here at the destination. -/
def CopyPk.dstRow (p : CopyPk) (r : Nat) : Addr := p.dst + BitVec.ofNat 64 (r * p.dstr)
/-- Whether an operation adds into its destination. -/
def CopyPk.reduces (p : CopyPk) : Bool := 2 ≤ p.op && p.op ≤ 4

/-! ### Start checks (R408) -/

/-- PEER, WIN and OFF of a peer address (R341). -/
def peerOf (a : Addr) : Nat × Nat × Nat := (a.toNat / 2 ^ 54, a.toNat / 2 ^ 48 % 64, a.toNat % 2 ^ 48)

/-- ILLEG's rows of R408, in their order. -/
def CopyPk.illegal (p : CopyPk) (k : OpKind) (cn : Nat) : List (Nat × Addr) :=
  let row := fun (b : Bool) (sub : Nat) (val : Addr) => if b then [(sub, val)] else []
  row (p.op > 6 || (k == .xcoll && (p.op == 1 || p.op == 6))) 0x11 0 ++
  row (p.b1 / 64 != 0 || p.b2 / 8 != 0 || p.b3 / 16 % 4 != 0 || p.mask / 2 ^ 12 != 0 ||
    ((p.ck == 0 || p.ck == 3) && p.cid != 0) || (p.op != 2 && p.lsbw != 0) ||
    (if p.op == 3 || p.op == 4 then decide (p.rop > 7) else p.rop != 0) || !p.types.contains p.etype || (p.op == 5 && p.sstr != 0)) 0x12 0 ++
  row ((p.ck == 1 && k != .xcopy) || (p.ck == 3 && k != .queue) || (p.ck == 2 && decide (p.cid ≥ cn))) 0x13 0 ++
  row (p.len % p.z != 0 || decide (p.counted > 2 ^ 40)) 0x14 0 ++
  row (p.op == 6 && !(inWindows p.dst.toNat && p.dst.toNat / 2 ^ 44 % 16 == 2 && p.dst.toNat % 2 ^ 44 / 2 ^ 20 == 0)) 0x16 p.dst

/-- The first address that breaks R283's alignment, or CADDR's. -/
def CopyPk.misaligned (p : CopyPk) : Option Addr :=
  let off := fun (a : Addr) (stride m : Nat) => a.toNat % m != 0 || stride % m != 0
  let z := p.z
  let bad := match p.op with
    | 1 => if off p.dst p.dstr z then some p.dst else none
    | 2 => if off p.dst p.dstr 16 then some p.dst else if off p.src p.sstr z then some p.src else none
    | 3 | 4 => if off p.src p.sstr z then some p.src else if off p.dst p.dstr z then some p.dst else none
    | 5 => if off p.src 0 8 then some p.src else none
    | _ => none
  bad.orElse fun _ => if p.caddr.toNat % 4 != 0 then some p.caddr else none

/-- The failures a packet's start checks find (R408), of XCOLL with its window's size and rights. A multicast in a queue packet has no cluster whose
size MASK could be tested against, and the spec does not say which would apply: that test is left out, so that its chunks meet R82's check of the window,
and one that writes no byte ends DONE (DESIGN CHOICE, log 85). -/
def State.startMisses (s : State) (o : Op) (p : CopyPk) (size : Nat) (rights : BitVec 2) : List OpMiss :=
  let one := fun (cause sub : Nat) (val : Addr) => OpMiss.mk val ⟨cause, sub⟩
  let when := fun (b : Bool) (m : OpMiss) => if b then [m] else []
  let t := s.team? o.team
  let d := t.map (·.desc)
  let ctx := s.ctx? o.ctx
  let x := peerOf p.dst
  let die := dieOfCore o.core
  let coll := o.kind == .xcoll
  (p.illegal o.kind ((ctx.map (·.cn)).getD 0)).map (fun r => one 1 r.1 r.2) ++
  when (badHandle p.pred) (one 0xE 1 0) ++
  when (p.ck == 1 && decide (p.cid ≥ (d.map (·.tiles)).getD 0)) (one 0xC 1 0) ++
  (if p.op == 6 && o.kind != .queue then
    match p.ranks.find? (fun q => decide (q ≥ (d.map (·.csize)).getD 1)) with
    | some q => [one 8 3 (p.dst + BitVec.ofNat 64 (q * 2 ^ 20))]
    | none => []
   else []) ++
  when (coll && !s.routes.any fun r => r.1 == die && r.2.1 == x.1) (one 8 7 p.dst) ++
  when (coll && !((ctx.map (·.grants)).getD []).contains (x.1, x.2.1)) (one 8 8 p.dst) ++
  when (coll && decide (x.2.2 + p.counted > size)) (one 8 9 p.dst) ++
  (match p.misaligned with | some a => [one 7 5 a] | none => []) ++
  when (coll && !(if p.reduces then rights.getLsbD 1 else rights.getLsbD 0)) (one 0xA 8 p.dst)

/-! ### Writes of an operation -/

/-- Who works for an operation (R82). -/
def Op.agent (o : Op) : Agent := if o.kind = .queue then .queue o.ctx (dieOfCore o.core) else .oper o.team

/-- A write by a Gleaner: none reads older bytes of the unit from then on (R103). -/
def State.gleanerPut (s : State) (locs : List Nat) (bs : List Byte) : State := (s.put locs bs).seeAll [0] locs bs.length

/-- A checked write of an operation: to storage, or posted to the host (R117). -/
def State.opStore (s : State) (o : Op) (t : Target) (ea : Addr) (bs : List Byte) : State :=
  if t.view = .system then
    { s with seq := s.seq + 1, out := s.out ++ [.hostStore s.seq (t.pa / 2 ^ 44 % 4) (t.pa % 2 ^ 44) bs],
             stores := s.stores ++ [{ id := s.seq, issue := s.seq, team := o.team, gidx := 0, tidxs := [], blocks := [], ea := ea, pc := 0,
                                      ctx := o.ctx, slice := o.slice, op := some o.uid, sysview := some t.pa, data := bs, via := t.leaf }] }
  else s.gleanerPut t.reps bs

/-- Where an operation keeps the checked target of its completion store (R286, R404). -/
def cwKey : Nat := 2 ^ 81
/-- A target as bytes. -/
def keepTarget (t : Target) : List Byte :=
  toLe 1 (if t.view = .system then 1 else 0) ++ toLe 8 t.pa ++ toLe 8 t.loc ++ t.reps.flatMap fun l => toLe 8 l
/-- The target that was kept. -/
def keptTarget (bs : List Byte) : Target :=
  let reps := (List.range ((bs.length - 17) / 8)).map fun k => leNat ((bs.drop (17 + 8 * k)).take 8)
  { view := if bs.headD 0 = 1 then .system else .inter, loc := leNat ((bs.drop 9).take 8), reps := reps, home := 0, pa := leNat ((bs.drop 1).take 8),
    leaf := none }

/-- The completion store's checks (R286): WINDOW, PAGE and PERM. -/
def State.cwLook (s : State) (o : Op) (p : CopyPk) : List OpMiss × Option Target :=
  if !p.cw then ([], none)
  else
    let r := resolve s o.agent p.caddr 4 .write
    (r.1.map fun m => ⟨p.caddr, m⟩, r.2)

/-- Where the completion store goes: under the translation that was checked with the last chunk (R404); a window address has none, and goes
where its team stands. The store went through that translation (R335). -/
def State.cwTarget (s : State) (o : Op) (p : CopyPk) : Option Target :=
  if p.cw && inWindows p.caddr.toNat then (s.cwLook o p).2 else (tget o.lines cwKey).map fun bs => { keptTarget bs with leaf := o.cw }

/-- R410's test: whether a count-down has a row in R94. -/
def Tile.counts (e : Tile) (n : Nat) : Bool := (e.st == .filling || e.st == .draining) && decide (n ≤ e.pend)

/-- A count-down (R94). -/
def Tile.countDown (e : Tile) (n : Nat) : Tile :=
  if e.pend - n ≠ 0 then { e with pend := e.pend - n }
  else if e.st = .filling then { e with pend := 0, st := .ready }
  else { e with pend := e.size, st := .filling }

/-- The queue sequence write's checked target (R292), none for another completion kind. -/
def State.cseqLook (s : State) (o : Op) (p : CopyPk) : List OpMiss × Option (Target × Addr) :=
  match if p.ck = 3 then s.queues.find? (·.id == o.queue) else none with
  | none => ([], none)
  | some q =>
    let ea := q.header + 136
    let r := s.look o.agent ⟨ea, 4⟩ .write
    (r.1, r.2.map fun t => (t, ea))

/-- The completion actions (R286, R410): the tile test, the completion store, the action of CK, DONE. -/
def State.completeCopy (s : State) (o : Op) (p : CopyPk) : State :=
  let tile := match s.team? o.team with
    | some t => t.tileBase + p.cid
    | none => 0
  if p.ck = 1 ∧ !((s.tile o.core tile).counts p.counted) then s.failOp o 0xC 7 0
  else
    let cw := s.cwTarget o p
    let broken : Bool := match cw with
      | some t => t.view != .system && s.partialBad t.loc 4
      | none => false
    if broken then s.failOp o 0xB 4 p.caddr
    else
      let s := match cw with
        | some t => s.opStore o t p.caddr (toLe 4 p.cval)
        | none => s
      let q := s.cseqLook o p
      match p.ck, firstOpMiss q.1 with
      | 1, _ => (s.updTile o.core tile (·.countDown p.counted)).endOp o.uid .done
      | 2, _ => (s.decCounter o.ctx p.cid none).endOp o.uid .done
      | 3, some m => s.failOp o m.miss.cause m.miss.sub m.ea
      | 3, none => match q.2 with
        | some (t, ea) => ((s.setAD t true).opStore o t ea (toLe 4 p.ticket)).endOp o.uid .done
        | none => s.endOp o.uid .done
      | _, _ => s.endOp o.uid .done

/-! ### Starting (R279, R280, R287, R288) -/

/-- A swapped-out team, or a context that has left the device, holds its operations (R281, R314); a chunk of a queue packet that has begun is
finished first. -/
def State.opHeld (s : State) (o : Op) : Bool :=
  (match s.ctx? o.ctx with
   | some c => (c.phase == .out || c.phase == .wiped) && !(o.kind == .queue && s.midChunk o)
   | none => true) ||
  (o.kind != .queue && match s.team? o.team with
   | some t => t.swapped
   | none => true)

/-- Whether a die's traffic to a peer leaves by a port, or by none at all (R342). -/
def State.routed (s : State) (d peer port : Nat) : Bool :=
  match s.routes.find? fun r => r.1 == d && r.2.1 == peer with
  | some r => r.2.2 == port
  | none => true

/-- The Gleaner an operation belongs to (R287): an XCOLL that has started stays with the port it started on. -/
def State.ofGleaner (s : State) (g : Gleaner) (o : Op) : Bool :=
  match g with
  | .router c => o.core == c && (o.kind == .xcopy || o.kind == .astr)
  | .ualink d port _ _ =>
    o.kind == .xcoll && dieOfCore o.core == d && (match o.port with
      | some p => p == port
      | none => s.routed d (peerOf (copyPk o.bytes).dst).1 port)
  | .queue q => o.kind == .queue && o.queue == q

/-- The tile of an ASTR. -/
def State.astrPos (s : State) (o : Op) : Nat :=
  match s.team? o.team with
  | some t => t.accPos (bits (dword o.words 0) 8 0)
  | none => 0

/-- Whether a copy or ASTR can start (R248, R279, R288). -/
def State.canStartCopy (s : State) (g : Gleaner) (o : Op) : Bool :=
  o.st == .queued && s.ofGleaner g o && !s.opHeld o && s.ended o.ctx o.pred && !s.ordHeld o &&
  (o.kind != .astr || s.heads o.core (s.astrPos o) (.op o.uid))

/-- An ASTR starts: it reads its tile, zeroes it if asked, and leaves the tile's order (R269, R427). -/
def State.startAstr (s : State) (o : Op) : State :=
  let p := s.astrPos o
  let a := s.acc o.core p
  let w := dword o.words 0
  if a.bad then s.failOp o 0xB 0x11 0
  else
    let s := if w.getLsbD 15 then s.updAcc o.core p fun a => { a with mant := [] } else s
    (s.leaveTiles o.uid).updOp o.uid fun o => { o with st := .running, counted := true, bytes := a.image (bits w 10 9) }

/-- The UALink port of a Gleaner. -/
def portOf (g : Gleaner) : Option Nat := match g with | .ualink _ p _ _ => some p | _ => none

/-- Whether a Gleaner's UALink port is down (R430). -/
def State.portLost (s : State) (g : Gleaner) : Bool := match g with | .ualink d p _ _ => !(s.link (.ualink d p)).up | _ => false

/-- COPY_START (R408): of the operations that can start, the one of highest rank is checked and begins; one that writes no data
completes at once. An XCOLL whose checks have found a route fails where the port it leads to is down (R430, log 51). -/
def execCopyStart (g : Gleaner) (s : State) : Host.Outcome State Fault Refusal :=
  match leastBy Op.rank (s.ops.filter (s.canStartCopy g)) with
  | none => .next s
  | some o =>
    if o.kind = .astr then .next (s.startAstr o)
    else
      let p := copyPk o.bytes
      let r : Nat × BitVec 2 := match g with
        | .ualink _ _ size rights => (size, rights)
        | _ => (0, 0)
      match firstOpMiss (s.startMisses o p r.1 r.2) with
      | some m => .next (s.failOp o m.miss.cause m.miss.sub m.ea)
      | none =>
        if s.portLost g then .next (s.failOp o 0xB 0x20 0)
        else if p.bytes ≠ 0 then .next (s.updOp o.uid fun o => { o with st := .running, port := portOf g })
        else match s.cwLook o p with
          | (m :: ms, _) =>
            let m := (firstOpMiss (m :: ms)).getD m
            .next (s.failOp o m.miss.cause m.miss.sub m.ea)
          | ([], t) =>
            let o : Op := { o with st := .running, lines := match t with | some t => [(cwKey, keepTarget t)] | none => [], cw := t.bind (·.leaf) }
            let s := s.updOp o.uid fun _ => o
            .next ((match t with | some t => s.setAD t true | none => s).completeCopy o p)

/-! ### Chunks (R285, R403) -/

/-- A run cut into aligned units of `u` bytes. -/
def cutAt (u : Nat) : Nat → Addr → Nat → List Span
  | 0, _, _ => []
  | fuel + 1, ea, n => if n = 0 then [] else
      let k := min n (u - ea.toNat % u)
      ⟨ea, k⟩ :: cutAt u fuel (ea + BitVec.ofNat 64 k) (n - k)

/-- One unit of a chunk: its row, its place in the row, its destination. -/
structure Piece where
  row : Nat
  col : Nat
  dst : Span
  deriving DecidableEq, Repr

/-- The places of spans that follow one another. -/
def spanCols (col : Nat) : List Span → List (Nat × Span)
  | [] => []
  | x :: xs => (col, x) :: spanCols (col + x.n) xs

/-- The units of bytes `lo` to `hi - 1` of the destination order, for rows of `len` bytes. -/
def piecesOf (unit len lo hi : Nat) (row : Nat → Addr) : List Piece :=
  if len = 0 ∨ hi ≤ lo then [] else
    (List.range ((hi - 1) / len - lo / len + 1)).flatMap fun k =>
      let r := lo / len + k
      let a := max lo (r * len) - r * len
      let b := min hi ((r + 1) * len) - r * len
      (spanCols a (cutAt unit (b - a) (row r + BitVec.ofNat 64 a) (b - a))).map fun x => ⟨r, x.1, x.2⟩

/-- Cut a list into runs of the given lengths. -/
def regroup {α : Type} : List Nat → List α → List (List α)
  | [], _ => []
  | n :: ns, l => l.take n :: regroup ns (l.drop n)

/-- The value of an element of a fixed reduction (R72). -/
def CopyPk.element (p : CopyPk) (bs : List Byte) : FV :=
  let v := leNat bs
  let int := fun (w : Nat) => let i := (BitVec.ofNat w v).toInt; FV.fin (decide (i < 0)) i.natAbs 0
  match p.etype with
  | 4 => fp32.val v
  | 5 => fp16.val v
  | 6 => bf16.val v
  | 7 => int 32
  | _ => int 64

/-- What a copy or ASTR writes: its rows, their length, its units, and how many bytes in all (R269, R283, R285). -/
structure Plan where
  unit : Nat
  len : Nat
  total : Nat
  row : Nat → Addr

/-- The plan of an operation. -/
def Op.plan (o : Op) : Plan :=
  if o.kind = .astr then
    let img := bits (dword o.words 0) 10 9
    let ea := dpair o.words 1
    { unit := 16, len := if img = 0 then 6160 else if img = 1 then 128 else 64, total := if img = 0 then 6160 else if img = 1 then 4096 else 2048,
      row := fun r => ea + BitVec.ofNat 64 (r * (dword o.words 3).toNat) }
  else
    let p := copyPk o.bytes
    { unit := if p.op = 3 ∨ p.op = 4 then p.z else 16, len := p.rowBytes, total := p.bytes, row := p.dstRow }

/-- The chunks of an operation. -/
def Op.chunks (o : Op) : Nat := (o.plan.total + 2047) / 2048
/-- The units of chunk `c`. -/
def Op.piecesAt (o : Op) (c : Nat) : List Piece :=
  let p := o.plan
  piecesOf p.unit p.len (2048 * c) (min (2048 * c + 2048) p.total) p.row
/-- What a chunk is charged (R310). -/
def Op.chunkEnergy (o : Op) (c : Nat) : Nat :=
  let n := (min (2048 * c + 2048) o.plan.total - 2048 * c) * (if o.kind = .astr then 1 else (copyPk o.bytes).copies)
  4 * ((n + 127) / 128)

/-- The source run of a unit: none for a fill, an ASTR, and a row whose address is not known. -/
def Op.sourceOf (o : Op) (entry : Nat → Option Addr) (x : Piece) : List Span :=
  let p := copyPk o.bytes
  if o.kind = .astr then []
  else match p.op with
    | 1 => []
    | 2 => [⟨p.srcRow x.row + BitVec.ofNat 64 (x.col / 16 * p.z), p.z⟩]
    | 3 | 4 => [⟨p.srcRow x.row + BitVec.ofNat 64 x.col, p.z⟩]
    | 5 => match entry x.row with
      | some a => spansOf x.dst.n (a + BitVec.ofNat 64 x.col) x.dst.n
      | none => []
    | _ => spansOf x.dst.n (p.srcRow x.row + BitVec.ofNat 64 x.col) x.dst.n

/-- The destination spans of a unit: one, or one a rank. -/
def Op.targetsOf (o : Op) (x : Piece) : List Span :=
  let p := copyPk o.bytes
  if o.kind != .astr && p.op == 6 then p.ranks.map fun q => ⟨x.dst.ea + BitVec.ofNat 64 (q * 2 ^ 20), x.dst.n⟩ else [x.dst]

/-- The bytes a unit brings when they come from no source: an ASTR's image, a fill's pattern. -/
def Op.ownBytes (o : Op) (x : Piece) : List Byte :=
  let p := copyPk o.bytes
  if o.kind = .astr then (o.bytes.drop (x.row * o.plan.len + x.col)).take x.dst.n
  else (List.range x.dst.n).map fun k => ((toLe 8 p.src.toNat).getD ((x.col + k) % p.z) 0)

/-- Keep the units of storage an operation is about to write, as they stand (R114). -/
def Op.saveUnits (o : Op) (s : State) (t : Target) : Op :=
  if t.view = .system then o
  else { o with lines := t.reps.foldl (fun l r => if (tget l (unitKey r)).isSome then l else tset l (unitKey r) (Memory.gets s.mem (r / 16 * 16) 16)) o.lines }

/-- Write one unit: a plain write, or a step of a reduction (R72, R283). -/
def writeUnit (s : State) (o : Op) (t : Target) (ea : Addr) (bs : List Byte) : State × Op :=
  let p := copyPk o.bytes
  let reads := o.kind != .astr && p.op != 1
  let o := if reads then o.saveUnits s t else o
  if o.kind != .astr && p.op == 2 then
    let r := reduceCell (Memory.nat s.mem t.loc 16) (p.element bs) p.lsbw
    (s.gleanerPut t.reps (toLe 16 r.1), { o with clamp := o.clamp || r.2.1, nan := o.nan || r.2.2 })
  else if o.kind != .astr && (p.op == 3 || p.op == 4) then
    (s.gleanerPut t.reps (toLe p.z (atomNat p.z p.rop (Memory.nat s.mem t.loc p.z) (leNat bs))), o)
  else (s.opStore o t ea bs, o)

/-- Send one unit to a peer (R342); a fixed reduction's contribution is made here, where its sticky bits stand (R72). -/
def sendUnit (s : State) (o : Op) (c : Nat) (ea : Addr) (bs : List Byte) : State × Op :=
  let p := copyPk o.bytes
  let send := fun (data : List Byte) (aop : Option (Nat × Int)) => { s with out := s.out ++ [.peer o.uid c ea data aop] }
  if p.op = 2 then
    let r := reduceCell 0 (p.element bs) p.lsbw
    (send (toLe 16 r.1) (some (0, p.lsbw)), { o with clamp := o.clamp || r.2.1, nan := o.nan || r.2.2 })
  else if p.op = 3 ∨ p.op = 4 then (send bs (some (p.z, p.rop)), o)
  else (send bs none, o)

/-- A chunk is checked whole, then made (R403): it fails, waits for the host's data, or leaves state and operation. -/
inductive Chunk
  | miss (m : OpMiss)
  | pending (s : State)
  | made (s : State) (o : Op)

/-- The row-list entries a chunk of a gather needs: their spans with what comes of looking at each. -/
def State.entries (s : State) (o : Op) (ps : List Piece) : List (Nat × Span × List OpMiss × Option Target) :=
  let p := copyPk o.bytes
  if o.kind = .astr ∨ p.op ≠ 5 then []
  else (dedup (ps.map (·.row))).map fun r =>
    let x : Span := ⟨p.src + BitVec.ofNat 64 (8 * r), 8⟩
    (r, x, s.look o.agent x .read)

/-- The address that entry `r` of a row list gives chunk `c`, from what was found of the entries it needs. -/
def Op.entryOf (o : Op) (s : State) (c : Nat) (es : List (Nat × Span × List OpMiss × Option Target)) (r : Nat) : Option Addr :=
  (es.find? (·.1 == r)).bind fun e => e.2.2.2.map fun t =>
    BitVec.ofNat 64 (leNat (if t.view = .system then tgetD o.lines (rowKey c r) [] else o.seen s t.loc 8))

/-- The row-list entries of the host's that chunk `c` has still to read: what each is kept under, its span and target. -/
def State.listLacks (s : State) (o : Op) (c : Nat) : List (Nat × Span × Target) :=
  (s.entries o (o.piecesAt c)).filterMap fun e => e.2.2.2.bind fun t =>
    if t.view = .system ∧ (tget o.lines (rowKey c e.1)).isNone then some (rowKey c e.1, e.2.1, t) else none

/-- The reads of the host that later chunks make of units that chunk `c` is about to write (R114): each is made first, as a transaction of its
own (R84). A gather whose list is the host's reads the later entries before that, to know which units they name. -/
def State.hostAhead (s : State) (o : Op) (c : Nat) (written : List Nat) : List (Nat × Span × Target) :=
  let cs := if written.isEmpty then [] else (List.range (o.chunks - c - 1)).map (c + 1 + ·)
  let lists := cs.flatMap (s.listLacks o)
  if !lists.isEmpty then lists
  else cs.flatMap fun k =>
    let ps := o.piecesAt k
    let srcs := ps.flatMap (o.sourceOf (o.entryOf s k (s.entries o ps)))
    ((List.range srcs.length).zip srcs).filterMap fun x => (s.look o.agent x.2 .read).2.bind fun t =>
      if t.view = .system ∧ written.contains (t.pa / 16) ∧ (tget o.lines (hostKey k x.1)).isNone then some (hostKey k x.1, x.2, t) else none

/-- Make chunk `c` of an operation. Every source unit is read before a unit is written; the writes of a chunk that cover a bad block whole
make its check value anew. -/
def State.makeChunk (s : State) (o : Op) (c : Nat) : Chunk :=
  let p := copyPk o.bytes
  let ps := o.piecesAt c
  let coll := o.kind == .xcoll
  let es := s.entries o ps
  let ask := fun (s : State) (l : List (Nat × Span × Target)) => l.foldl (fun s x => s.askFor o x.2.1 x.2.2 x.1) (s.keepAll (l.map (·.2.2)))
  let lacks := s.listLacks o c
  if !lacks.isEmpty then .pending (ask s lacks)
  else
    let entry := o.entryOf s c es
    let listed := fun (r : Nat) => (((es.find? (·.1 == r)).map (·.2.2.1)).getD [])
    let kind : AccKind := if o.kind != .astr && p.reduces then .atomic else .write
    let targets := if coll then [] else ps.flatMap fun x => (o.targetsOf x).map fun y => (y, (resolve s o.agent y.ea 1 kind).2)
    let mended := if s.bad.isEmpty || kind == .atomic then [] else s.mended (targets.flatMap fun y => match y.2 with | some t => t.written y.1.n | none => [])
    let looked := ps.map fun x => (x, if coll then [] else (o.targetsOf x).map fun y => (y, s.look o.agent y kind mended))
    let last := c + 1 == o.chunks && o.kind != .astr
    let cw := if last then s.cwLook o p else ([], none)
    let misses := looked.flatMap (fun x =>
      listed x.1.row ++ (o.sourceOf entry x.1).flatMap (fun y => (s.look o.agent y .read).1) ++ x.2.flatMap fun y => y.2.1) ++ cw.1
    match firstOpMiss misses with
    | some m => .miss m
    | none =>
      let srcs := ps.map (o.sourceOf entry)
      let written := targets.filterMap fun y => y.2.bind fun t => if t.view = .system then some (t.pa / 16) else none
      let ahead := if o.kind == .astr || p.op == 1 then [] else s.hostAhead o c written
      match s.gather o o.agent srcs.flatten [] c with
      | .miss m => .miss m
      | .pending s => .pending s
      | .got s data =>
       if !ahead.isEmpty then .pending (ask s ahead)
       else
        let s := es.foldl (fun s e => match e.2.2.2 with | some t => s.setAD t false | none => s) s
        let s := looked.foldl (fun s x => x.2.foldl (fun s y => match y.2.2 with | some t => s.setAD t true | none => s) s) s
        let s := match cw.2 with | some t => s.setAD t true | none => s
        let lines := dropHost c o.lines
        let o : Op := { o with lines := match cw.2 with | some t => tset lines cwKey (keepTarget t) | none => lines, cw := cw.2.bind (·.leaf) }
        let own := o.kind == .astr || p.op == 1
        let runs := (looked.zip ((regroup (srcs.map (·.length)) data).map List.flatten)).map fun x => (x.1, if own then o.ownBytes x.1.1 else x.2)
        let r := runs.foldl (fun (r : State × Op) x =>
          if coll then sendUnit r.1 r.2 c x.1.1.dst.ea x.2
          else x.1.2.foldl (fun (r : State × Op) y => match y.2.2 with
            | some t => writeUnit r.1 r.2 t y.1.ea x.2
            | none => r) r) (s, o)
        .made { r.1 with bad := r.1.bad.filter fun b => !mended.contains b } r.2

/-- A chunk is finished: PROG rises, and the slice is charged (R285, R310). -/
def State.countChunk (s : State) (o : Op) : State :=
  let s := s.updOp o.uid fun x => { x with prog := o.prog + 1 }
  if o.kind = .queue then s else s.charge o.ctx o.slice 0 (o.chunkEnergy o.prog)

/-- An operation whose last chunk is finished completes (R286): with acquire at system scope, once the host has accepted every one of its
writes (R112). -/
def State.tryComplete (s : State) (uid : Nat) : State :=
  match s.op? uid with
  | none => s
  | some o =>
    if o.prog < o.chunks then s
    else if o.acqHost && s.stores.any (·.op == some uid) then s
    else if o.kind = .astr then s.endOp uid .done
    else s.completeCopy o (copyPk o.bytes)

/-- A chunk is finished; the last one completes the operation. -/
def State.finishChunk (s : State) (o : Op) : State := (s.countChunk o).tryComplete o.uid

/-- COPY_CHUNK (R285): the next chunk of a running copy or ASTR; of XCOLL, the next chunk is sent. A chunk that was sent is
acknowledged before its operation fails or stops (R296, R403). One whose chunks are all finished completes when it may (R112). -/
def execCopyChunk (op : Nat) (s : State) : Host.Outcome State Fault Refusal :=
  match s.op? op with
  | none => .next s
  | some o =>
    if o.st ≠ .running ∨ o.kind = .mma ∨ s.opHeld o then .next s
    else if o.chunks ≤ o.prog then .next (if o.cancel then s.endOp o.uid .cancelled else s.tryComplete o.uid)
    else if o.kind = .xcoll then
      (if o.sent > o.prog ∧ (o.cancel ∨ o.sent ≥ o.chunks) then .next s
      else if o.cancel then .next (s.endOp o.uid .cancelled)
      else match s.makeChunk o o.sent with
        | .miss m => if o.sent > o.prog then .next s else .next (s.failOp o m.miss.cause m.miss.sub m.ea)
        | .pending s => .next s
        | .made s o => .next (s.updOp o.uid fun _ => { o with sent := o.sent + 1 }))
    else if o.cancel then .next (s.endOp o.uid .cancelled)
    else match s.makeChunk o o.prog with
      | .miss m => .next (s.failOp o m.miss.cause m.miss.sub m.ea)
      | .pending s => .next s
      | .made s o => .next ((s.updOp o.uid fun _ => o).finishChunk o)

/-- XCOLL_ACK (R293, R411): the peer has acknowledged chunks 0 to `chunks` − 1, or reports a failure after them. An HCAN that came first
makes it CANCELLED, without completion actions, once every chunk that was sent is acknowledged (R296, R299). -/
def execXcollAck (op chunks : Nat) (fail : Option (Nat × Nat)) (s : State) : Host.Outcome State Fault Refusal :=
  match s.op? op with
  | none => .next s
  | some o =>
    if o.kind ≠ .xcoll ∨ o.st ≠ .running then .next s
    else
      let n := min chunks o.sent - o.prog
      let s := (List.range n).foldl (fun s _ => match s.op? op with
        | some o => s.countChunk o
        | none => s) s
      match fail, s.op? op with
      | some (cause, sub), some o => .next (s.failOp o cause sub 0)
      | none, some o => .next (if !o.cancel then s.tryComplete op else if o.sent ≤ o.prog then s.endOp op .cancelled else s)
      | _, none => .next s

end Sys2Proof.Machine
end

