-- ==== Sys2Proof/Machine/ChildOps.lean ====
section
/-! DEFINITION. XCOPY, XCOLL, XQPOST, the handle and tile instructions, queues and inbound writes and reads (R271–R297, R341–R343, R411–R414). -/

namespace Sys2Proof.Machine

/-! ### XCOPY and XCOLL (R293) -/

/-- What the packet read of one thread meets: the window, its bounds, alignment, the check value (R293, R395, R396, R401). -/
def State.packetMiss (s : State) (u x : Nat) (ea : Addr) : List Miss × Option Target :=
  let w := ea.toNat / 2 ^ 44
  if !(inWindows ea.toNat && (w % 16 == 1 || w % 16 == 2)) then ([⟨8, 0xA⟩], none)
  else
    let r := resolve s (.thread u x) ea 64 .read 3
    match r.2 with
    | some t => if (blocksOf t.loc 64).any s.bad.contains then ([⟨0xB, 1⟩], none) else r
    | none => r

/-- The operation a packet makes. -/
def Iss.packetOp (i : Iss) (k : OpKind) (t : Thread) (bs : List Byte) (issue : Nat) : Op :=
  let p := copyPk bs
  { uid := 0, token := 0, kind := k, core := i.team.core, slot := 0, ctx := i.team.ctx, slice := i.team.slice, team := i.team.uid,
    issuer := t.tidx, start := 0, own := if p.det then .team else .thread, otid := if p.det then 0 else t.tidx, det := p.det, ord := p.ord,
    pri := p.pri, pred := p.pred, bytes := bs, issue := issue, floor := t.sync }

/-- A thread's next read of its packet, 16 bytes, in ascending order (R102, R293); with the last one its operation is made, once a slot is
free (R272). -/
def Iss.packetStep (i : Iss) (s : State) (k : OpKind) (issue : Nat) (t : Thread) (g : Target) : State :=
  let old := match t.wait with | .packet l => l | _ => []
  let got := if old.length < 64 then old ++ Memory.gets s.mem (g.loc + old.length) 16 else old
  let s := i.standsNow s ⟨t, 0, g⟩
  match if got.length < 64 then none else s.freeSlot i.team.core with
  | none => i.upd s [t.tidx] fun th => { th with wait := .packet got }
  | some slot =>
    let n := s.newOp slot (i.packetOp k t got issue)
    i.upd (i.markHandle n.1 (i.receivers t) n.2) [t.tidx] fun th => { th with wait := .made issue }

/-- A thread's packet read fails after the issue's checks have passed: its handle's register is a failed destination, and it makes no operation
(R401, log 72). -/
def Iss.packetFails (i : Iss) (s : State) (issue : Nat) (t : Thread) (ea : Addr) (m : Miss) : State :=
  i.upd (i.upd s (i.receivers t) fun th => th.setReg i.dev.d.toNat { th.reg i.dev.d.toNat with tag := .failed s.seq ea m.cause m.sub none })
    [t.tidx] fun th => { th with wait := .made issue }

/-- Whether a thread whose packet is read waits for a free slot (R272). -/
def State.slotWait (s : State) (core : Nat) (t : Thread) : Bool :=
  (match t.wait with | .packet l => decide (64 ≤ l.length) | _ => false) && (s.freeSlot core).isNone

/-- The flag of an issue rises while one of its operations has not ended; each of them then holds it up (R293). -/
def Iss.flagOps (i : Iss) (s : State) (issue : Nat) : State :=
  match i.flag with
  | none => s
  | some f => if s.ops.any fun o => o.issue == issue && !o.st.final then
      { s.flagUp i.team.uid i.grp.gidx f with
        ops := (s.flagUp i.team.uid i.grp.gidx f).ops.map fun o => if o.issue = issue then { o with flags := [(i.team.uid, i.grp.gidx, f)] } else o }
    else s

/-- The issue whose operation a thread has made. -/
def Thread.madeBy (t : Thread) : Option Nat := match t.wait with | .made n => some n | _ => none

/-- XCOPY and XCOLL (R293): their threads read their packets and make their operations one after another, one access a turn, so that a write
by another agent can fall between two units of a packet (R102). The issue is checked whole before its first access (R360); its threads' accesses
stand where it ends. -/
def runPacket (v : Dev) (k : OpKind) (s : State) : State :=
  runWord v (fun i s =>
    let left := i.doers.filter fun t => t.madeBy.isNone
    let looks := left.map fun t => (t, v.a64 t, s.packetMiss i.team.uid t.tidx (v.a64 t))
    match if i.doers.any (·.wait.begun) then none else memTrap (looks.map fun x => (x.1, x.2.1, x.2.2.1)) with
    | some t => .trap s t
    | none =>
      let issue := (i.doers.findSome? Thread.madeBy).getD (s.seq + 1)
      match looks with
      | [] => .ok (i.flagOps (i.hear (i.upd s i.acts fun t => { t with wait := .run }) i.acts s.tick) issue)
      | (t, ea, r) :: _ =>
        if s.slotWait i.team.core t then .wait s
        else match r.2 with
          | none => .more (i.packetFails s issue t ea ((firstMiss r.1).getD ⟨8, 0xA⟩))
          | some g => .more (i.packetStep { s with seq := s.seq + 1 } k issue t g)) s

/-- XCOPY (R293). -/
def execXcopy (w : Rrr) (s : State) : Host.Outcome State Fault Refusal :=
  let v := w.dev 0xE0
  .next (runPacket v .xcopy s)

/-- XCOLL (R293). -/
def execXcoll (w : Rrr) (s : State) : Host.Outcome State Fault Refusal :=
  let v := w.dev 0xE1
  .next (runPacket v .xcoll s)

/-! ### XQPOST (R294) -/

/-- One access of a series: resolve, check the block, set A and D. -/
def State.reach (s : State) (a : Agent) (ea : Addr) (n : Nat) (k : AccKind) (alignSub : Nat := 3) : List Miss × Option Target :=
  let r := resolve s a ea n k alignSub
  match r.2 with
  | some t => if k ≠ .write ∧ t.view ≠ .system ∧ (blocksOf t.loc n).any s.bad.contains then ([⟨0xB, if k = .atomic then 2 else 1⟩], none) else r
  | none => r

/-- A store of a series, of a thread: posted to the host, not made on part of a bad block (R402), else made. -/
def State.threadStore (s : State) (i : Iss) (x : Thread) (t : Target) (ea : Addr) (bs : List Byte) : State :=
  if t.view = .system then
    { s with seq := s.seq + 1, out := s.out ++ [.hostStore s.seq (t.pa / 2 ^ 44 % 4) (t.pa % 2 ^ 44) bs],
             stores := s.stores ++ [{ id := s.seq, issue := s.seq, team := i.team.uid, gidx := i.grp.gidx, tidxs := [x.tidx], orders := i.receivers x,
                                      blocks := [], ea := ea, pc := i.pc, ctx := i.team.ctx, slice := i.team.slice, core := i.team.core,
                                      sysview := some t.pa, data := bs, via := t.leaf }] }
  else if s.partialBad t.loc bs.length then
    s.updTeamThreads i.team.uid (·.tidx == x.tidx) fun th => { th with failedMerge := th.failedMerge ++ [(ea, i.pc)] }
  else i.standsNow (s.put t.reps bs) ⟨x, ea, t⟩

/-- The five units of CopyPacket: offset and length. -/
def packetUnits : List (Nat × Nat) := [(0, 16), (16, 16), (32, 16), (48, 8), (56, 4)]

/-- Whether a thread's XQPOST has ended. -/
def Thread.posted (t : Thread) : Bool := match t.wait with | .queueDone _ | .postFailed _ _ _ => true | _ => false
/-- The index a thread's XQPOST has claimed. -/
def Thread.claimed (t : Thread) : Option Addr :=
  match t.wait with | .queue n | .posting n _ _ | .queueDone n => some n | _ => none
/-- The unit a thread's XQPOST copies next; 5 is TICKET. -/
def Thread.nextUnit (t : Thread) : Nat := match t.wait with | .posting _ n _ => if n ≤ 5 then n else 0 | _ => 0

/-- The accesses one thread's XQPOST has still to make (R290, R294), each with its address and what it meets: the header's, the packet's
units, the slot's units and TICKET. `ahead` counts the threads before it that will claim an index of the same queue. -/
structure PostPlan where
  head : Addr × List Miss × Option Target
  tail : Addr × List Miss × Option Target
  src : List (Nat × Addr × Nat × List Miss × Option Target)
  dst : List (Nat × Addr × List Miss × Option Target)
  idx : Addr
  room : Nat
  all : List (Addr × List Miss)

/-- The plan of one thread's XQPOST. -/
def Iss.postPlan (i : Iss) (s : State) (t : Thread) (ahead : Nat) : PostPlan :=
  let hdr := i.dev.a64 t
  let pk := i.dev.rb64 t
  let a : Agent := .thread i.team.uid t.tidx
  let off := fun (x : Addr) (n : Nat) => x + BitVec.ofNat 64 n
  let bytes := fun (r : List Miss × Option Target) (n : Nat) => match r.2 with | some g => leNat (s.bytesAt g n) | none => 0
  let head := s.reach a hdr 8 .atomic
  let base := s.reach a (off hdr 8) 8 .read
  let cap := s.reach a (off hdr 16) 4 .read
  let tail := s.reach a (off hdr 128) 8 .read
  let idx := t.claimed.getD (BitVec.ofNat 64 (bytes head 8 + ahead))
  let room := 2 ^ (bytes cap 4 % 32)
  let slot := BitVec.ofNat 64 (bytes base 8) + BitVec.ofNat 64 (64 * (idx.toNat % room))
  let units := (List.range 5).zip packetUnits |>.filter fun u => t.nextUnit ≤ u.1
  let src := units.map fun u => (u.1, off pk u.2.1, u.2.2, s.reach a (off pk u.2.1) u.2.2 .read)
  let dst := (units ++ [((5, 60, 4) : Nat × Nat × Nat)]).map fun (u : Nat × Nat × Nat) => (u.1, off slot u.2.1, resolve s a (off slot u.2.1) u.2.2 .write 3)
  let aligned : List (Addr × List Miss) := [(hdr, if hdr.toNat % 128 = 0 then [] else [⟨7, 3⟩]), (pk, if pk.toNat % 64 = 0 then [] else [⟨7, 3⟩])]
  let first := aligned ++ [(hdr, head.1), (off hdr 8, base.1), (off hdr 16, cap.1), (off hdr 128, tail.1)] ++ src.map fun x => (x.2.1, x.2.2.2.1)
  { head := (hdr, head), tail := (off hdr 128, tail), src := src, dst := dst, idx := idx, room := room,
    all := first ++ (if first.all (·.2.isEmpty) then dst.map fun x => (x.2.1, x.2.2.1) else []) }

/-- The plans of the threads that have still to post. -/
def Iss.postPlans (i : Iss) (s : State) (ts : List Thread) : List (Thread × PostPlan) :=
  ((List.range ts.length).zip ts).map fun x =>
    (x.2, i.postPlan s x.2 ((ts.take x.1).filter fun u => u.claimed.isNone && i.dev.a64 u == i.dev.a64 x.2).length)

/-- The checks of every thread that has still to post, made together before the first access of the issue (R360, R361, R394); none once it has
begun (R404). -/
def Iss.postTrap (i : Iss) (s : State) (ts : List Thread) : Option Trap :=
  if i.doers.any (·.wait.begun) then none
  else memTrap ((i.postPlans s ts).flatMap fun x => x.2.all.map fun y => (x.1, y.1, y.2))

/-- Once the checks of an issue have passed, A and D are set for all that it will reach, so that its accesses stand under these translations
(R333, R404). -/
def Iss.postReach (i : Iss) (s : State) (ts : List Thread) : State :=
  if i.doers.any (·.wait.begun) then s
  else (i.postPlans s ts).foldl (fun s x =>
    let set := fun (s : State) (w : Bool) (t : Option Target) => match t with | some g => s.setAD g w | none => s
    let s := set (set s true x.2.head.2.2) false x.2.tail.2.2
    let s := x.2.src.foldl (fun s y => set s false y.2.2.2.2) s
    x.2.dst.foldl (fun s y => set s true y.2.2.2) s) s

/-- What the free-slot test makes of RIDX (R290). -/
def PostPlan.slotTest (p : PostPlan) (ridx : Nat) : Wait :=
  if p.room ≤ (p.idx - BitVec.ofNat 64 ridx).toNat then .queue p.idx else .posting p.idx 0 none

/-- One access of one thread's XQPOST (R102, R294): the claim, the test for a free slot, the read or the write of a unit, TICKET. Each of them stands
after the thread's accesses before it (R290). Unit 9 says that an index is claimed and RIDX not read yet, unit 8 that RIDX is on its way. A read of
the host waits for its data (R117). One that the host refuses, or that finds no translation after a swap, ends the thread's series (R405, log 72). -/
def Iss.postStep (i : Iss) (s : State) (t : Thread) : Done :=
  let p := i.postPlan s t 0
  let set := fun (s : State) (w : Wait) => i.upd s [t.tidx] fun th => { th with wait := w }
  let go := fun (s : State) (w : Wait) => Done.more (set s w)
  let fails := fun (ea : Addr) (ms : List Miss) => let m := (firstMiss ms).getD ⟨9, 5⟩; go (s.takeWalks i.team.uid i.grp.gidx) (.postFailed ea m.cause m.sub)
  let ask := fun (g : Target) (ea : Addr) (n key : Nat) (w : Wait) =>
    if i.hostStores s (i.receivers t) || s.loads.any (fun l => l.reader == some .post && l.team == i.team.uid && l.tidxs == [t.tidx] && l.key == key) then .wait s
    else go ((s.setAD g false).askHost .post i.team.uid i.grp.gidx [t.tidx] ea g.pa n key g.leaf) w
  let test := fun (s : State) (w : Wait) => match w with | .queue _ => Done.wait (set s w) | _ => go s w
  match t.wait with
  | .queueDone _ | .postFailed _ _ _ => .wait s
  | .queue _ | .posting _ 9 none => match p.tail.2.2 with
    | none => fails p.tail.1 p.tail.2.1
    | some g =>
      if g.view = .system then ask g p.tail.1 8 8 (.posting p.idx 8 none)
      else test (i.standsNow (s.setAD g false) ⟨t, p.tail.1, g⟩) (p.slotTest (leNat (s.bytesAt g 8)))
  | .posting idx n got =>
    if n = 8 then match got with
      | none => .wait s
      | some [] => fails p.tail.1 []
      | some bs => test s (p.slotTest (leNat bs))
    else match p.src.find? (·.1 == n), p.dst.find? (·.1 == n), got with
      | some (_, ea, len, _, some g), _, none =>
        if g.view = .system then ask g ea len n (.posting idx n none)
        else go (i.standsNow (s.setAD g false) ⟨t, ea, g⟩) (.posting idx n (some (s.bytesAt g len)))
      | some (_, ea, _, ms, none), _, none => fails ea ms
      | some (_, ea, _, _, _), _, some [] => fails ea []
      | some _, some (_, ea, _, some d), some bs => go ((s.setAD d true).threadStore i t d ea bs) (.posting idx (n + 1) none)
      | none, some (_, ea, _, some d), _ => go ((s.setAD d true).threadStore i t d ea (toLe 4 (idx.toNat % 2 ^ 32))) (.queueDone idx)
      | _, some (_, ea, ms, none), _ => fails ea ms
      | _, none, _ => fails p.tail.1 []
  | _ => match p.head.2.2 with
    | none => fails p.head.1 p.head.2.1
    | some g => go (i.standsNow ((s.setAD g true).put g.reps (toLe 8 ((p.idx.toNat + 1) % 2 ^ 64))) ⟨t, p.head.1, g⟩) (.posting p.idx 9 none)

/-- What the threads of an XQPOST write once all have posted: the indices they claimed, or failed destinations (R294, R405). -/
def Iss.postWrites (i : Iss) (s : State) (t : Thread) : State :=
  match t.wait with
  | .postFailed ea c sub => i.upd { s with seq := s.seq + 1 } (i.receivers t) fun th => (List.range 2).foldl (fun th k =>
      th.setReg (i.dev.d.toNat + k) { th.reg (i.dev.d.toNat + k) with tag := .failed s.seq ea c sub none }) th
  | _ => i.upd s (i.receivers t) fun th => th.setVs (i.dev.wdd (t.claimed.getD 0))

/-- XQPOST (R294): its threads post one after another, one access a turn; the threads write the indices they claimed once all have posted. A page
that its die's unit keeps no entry of is walked first (R42). -/
def execXqpost (w : Rrr) (s : State) : Host.Outcome State Fault Refusal :=
  let v := w.dev 0xE2
  .next (runWord v (fun i s =>
    match i.doers.filter fun t => !t.posted with
    | [] =>
      let s := i.doers.foldl i.postWrites s
      .ok (i.hear (i.upd s i.acts fun t => { t with wait := .run }) i.acts s.tick)
    | t :: ts =>
      let eas := (i.postPlans s (t :: ts)).flatMap fun x => x.2.all.map fun y => (.thread i.team.uid x.1.tidx, y.1)
      i.walked s (i.postTrap s (t :: ts)) eas fun s => i.postStep (i.postReach s (t :: ts)) t) s)

/-! ### Handle instructions (R295, R296) -/

/-- HANDLE for the doers whose operand is neither null nor a handle (R388); TRAPV is the value each active thread gave (R359). -/
def Iss.handles (i : Iss) (s : State) (k : Unit → Done) : Done :=
  let bad := i.doers.filter fun t => badHandle (i.dev.a32 t)
  let given := fun (t : Thread) => (i.dev.a32 (i.src t)).setWidth 64
  if bad.isEmpty then k ()
  else .trap s { cause := 0xE, sub := 1, hits := bad.map fun t => ⟨t.tidx, 1, given t⟩, own := i.act.map fun t => (t.tidx, given t) }

/-- Whether a thread owns an operation. -/
def Op.ownedBy (o : Op) (u x : Nat) : Bool := o.own == .thread && o.oteam == u && o.otid == x

/-- The record of a retired handle (R273), bits [31:0] first. -/
def retiredRecord (token : Word) : List Word := [BitVec.ofNat 32 (3 * 2 ^ 11 + 2), 0, 0, token]

/-- The record a handle reads as. -/
def State.recordOf (s : State) (ctx : Nat) (w : Word) : List Word :=
  match s.named? ctx w with
  | some o => o.record
  | none => retiredRecord w

/-- HWAIT (R296, R277): the handle join, after which its threads' accesses stand after the operation's writes (R110); the owner's join releases the record once every thread of the issue has read it. -/
def execHwait (w : Rrr) (s : State) : Host.Outcome State Fault Refusal :=
  let v := w.dev 0xE3
  .next (runWord v (fun i s =>
    i.handles s fun _ =>
      if i.doers.all fun t => s.ended i.team.ctx (v.a32 t) then
        let out := i.upd s i.acts fun t => ({ t with wait := .run, pts := s.tick } : Thread).setVs (v.wd ((s.recordOf i.team.ctx (v.a32 (i.src t))).headD 0))
        let mine := i.doers.filterMap fun t => (s.named? i.team.ctx (v.a32 t)).filter fun o => o.ownedBy i.team.uid t.tidx
        .ok (mine.foldl (fun s o => s.releaseOp o.uid) out)
      else .wait (i.upd s i.acts fun t => { t with wait := .hwait })) s)

/-- HTEST (R296). -/
def execHtest (w : Rrr) (s : State) : Host.Outcome State Fault Refusal :=
  let v := w.dev 0xE4
  .next (runWord v (fun i s =>
    i.handles s fun _ => .ok (i.upd s i.acts fun t => t.setP (v.d.toNat % 8) (s.ended i.team.ctx (v.a32 (i.src t))))) s)

/-- HSTAT (R296). -/
def execHstat (w : Rrr) (s : State) : Host.Outcome State Fault Refusal :=
  let v := w.dev 0xE5
  .next (runWord v (fun i s =>
    i.handles s fun _ => i.lanes s fun t => v.wds (s.recordOf i.team.ctx (v.a32 t))) s)

/-- One HCAN (R296): whether it made the change. -/
def State.hcan (s : State) (ctx : Nat) (w : Word) : State × Bool :=
  match s.named? ctx w with
  | none => (s, false)
  | some o => if o.st.final || o.cancel then (s, false) else (s.cancelOp o, true)

/-- HCAN (R296). -/
def execHcan (w : Rrr) (s : State) : Host.Outcome State Fault Refusal :=
  let v := w.dev 0xE6
  .next (runWord v (fun i s =>
    i.handles s fun _ => .ok (i.doers.foldl (fun s t =>
      let r := s.hcan i.team.ctx (v.a32 t)
      i.upd r.1 (i.receivers t) fun th => th.setP (v.d.toNat % 8) r.2) s)) s)

/-- HDET (R276, R277, R296). -/
def execHdet (w : Rrr) (s : State) : Host.Outcome State Fault Refusal :=
  let v := w.dev 0xE7
  .next (runWord v (fun i s =>
    i.handles s fun _ => .ok (i.doers.foldl (fun s t => match s.named? i.team.ctx (v.a32 t) with
      | none => s
      | some o =>
        if !o.ownedBy i.team.uid t.tidx then s
        else if o.st.final then s.releaseOp o.uid
        else s.updOp o.uid fun o => { o with own := .team, otid := 0, det := true }) s)) s)

/-- HPRI (R296). -/
def execHpri (w : Rrr) (s : State) : Host.Outcome State Fault Refusal :=
  let v := w.dev 0xE8
  .next (runWord v (fun i s =>
    i.handles s fun _ => .ok (i.doers.foldl (fun s t => match s.named? i.team.ctx (v.a32 t) with
      | none => s
      | some o => if o.st.final then s else s.updOp o.uid fun o => { o with pri := bits (v.b32 t) 1 0 }) s)) s)

/-- The operation an HADOPT may take (R276, R296). -/
def State.adoptable (s : State) (ctx u : Nat) (w : Word) : Option Op :=
  if w = 0 then (((s.ctx? ctx).map (·.orphans)).getD []).head?.bind s.op?
  else (s.named? ctx w).filter fun o => o.own == .orphan || (o.own == .team && o.oteam == u)

/-- HADOPT (R296). -/
def execHadopt (w : Rrr) (s : State) : Host.Outcome State Fault Refusal :=
  let v := w.dev 0xE9
  .next (runWord v (fun i s =>
    i.handles s fun _ => .ok (i.doers.foldl (fun s t => match s.adoptable i.team.ctx i.team.uid (v.a32 t) with
      | none => i.upd s (i.receivers t) fun th => th.setVs (v.wd 0)
      | some o =>
        let s := (s.updOp o.uid fun o => { o with own := .thread, oteam := i.team.uid, otid := t.tidx, det := false }).updCtx i.team.ctx fun c =>
          { c with orphans := c.orphans.filter (· != o.uid) }
        i.upd s (i.receivers t) fun th => th.setReg v.d.toNat { val := o.token, tag := if o.st.final then .ready else .mark }) s)) s)

/-! ### Tile instructions (R297, R389) -/

/-- The leader's tile `k`: TILE SUB 0x01, else `go` with its entry. -/
def Iss.withTile (i : Iss) (s : State) (k : Nat) (go : Thread → Tile → Done) : Done :=
  match i.lead with
  | none => .ok s
  | some l =>
    if k ≥ i.desc.tiles then .trap s (trapOf 0xC 1 [l.tidx] (tileVal k .empty)) else go l (s.tile i.team.core (i.team.tileBase + k))

/-- Whether a region lies within one window allocation of scratchpad, cluster memory or Sward (R92). -/
def State.oneWindow (s : State) (a : Agent) (base size : Nat) : Bool :=
  let part := fun (ea : Nat) => match ea / 2 ^ 44 % 16 with | 2 => ea / 2 ^ 20 | 3 => ea / 2 ^ 32 | _ => ea / 2 ^ 44
  inWindows base && inWindows (base + size - 1) && 1 ≤ base / 2 ^ 44 % 16 && base / 2 ^ 44 % 16 ≤ 3 && part base == part (base + size - 1) &&
  (window s a base .read).1.isEmpty && (window s a (base + size - 1) .read).1.isEmpty

/-- TDEF (R94, R297). -/
def execTdef (w : Rrr) (s : State) : Host.Outcome State Fault Refusal :=
  let v := w.dev 0xEA
  .next (runWord v (fun i s =>
    let k := v.d.toNat
    i.withTile s k fun l e =>
      let base := (v.a64 l).toNat % 2 ^ 56
      let size := (v.b32 l).toNat
      let bad := base % 128 ≠ 0 ∨ size % 128 ≠ 0 ∨ size < 128 ∨ size > 2 ^ 24 ∨ ¬ s.oneWindow (.thread i.team.uid l.tidx) base size
      if e.st ≠ .empty then .trap s (trapOf 0xC 3 [l.tidx] (tileVal k e.st))
      else if bad then .trap s (trapOf 0xC 4 [l.tidx] (tileVal k e.st))
      else .ok (s.updTile i.team.core (i.team.tileBase + k) fun _ => { base := base, size := size, pend := size, st := .filling, team := i.team.slot })) s)

/-- TSET's row of R94 for a mode, none where there is none. -/
def Tile.set (e : Tile) (mode : Nat) : Option Tile :=
  match mode, e.st with
  | 0, .ready => some { e with st := .filling, pend := e.size }
  | 1, .ready => some { e with st := .draining, pend := e.size }
  | 2, .empty => none
  | 2, _ => some { st := .empty, team := e.team }
  | _, _ => none

/-- A release faults every LDT and STT that waits for the tile, as though it had issued then (R95, R389): that of a clause in hand, or of a set
that waits in place while another of its group runs a handler (R363). -/
def State.releaseFaults (s : State) (core entry : Nat) : State :=
  let waits := fun (t : Team) => t.groups.flatMap fun g => (t.standing g).toList.map (fun i => (g, g.stalled, i)) ++
    (t.standing { g with clause := g.kept }).toList.map fun i => (g, true, i)
  (s.teams.filter fun t => t.core == core && !t.swapped).foldl (fun s t => (waits t).foldl (fun s x => match x with
    | (g, stalled, i) =>
      if stalled && (i.dev.op == 0x9C || i.dev.op == 0x9D) && t.tileBase + i.dev.a.toNat == entry && !i.act.isEmpty && !i.mustWait && !i.flagFull &&
          (i.away s).isEmpty then
        s.takeSync t.uid g.gidx i.cos i.pc { trapOf 0xC 2 (i.doers.map (·.tidx)) (tileVal i.dev.a.toNat .empty) with chn := i.cl.chain }
      else s) s) s

/-- TSET (R94, R297). -/
def execTset (w : Rrr) (s : State) : Host.Outcome State Fault Refusal :=
  let v := w.dev 0xEB
  .next (runWord v (fun i s =>
    let k := v.d.toNat
    i.withTile s k fun l e => match e.set (v.b.toNat % 4) with
      | none => .trap s (trapOf 0xC 5 [l.tidx] (tileVal k e.st))
      | some e =>
        let s := s.updTile i.team.core (i.team.tileBase + k) fun _ => e
        .ok (if e.st = .empty then s.releaseFaults i.team.core (i.team.tileBase + k) else s)) s)

/-- The entry of R93 as four words, bits [31:0] first. -/
def Tile.words (e : Tile) (slot : Nat) : List Word :=
  let st := match e.st with | .empty => 0 | .filling => 1 | .ready => 2 | .draining => 3
  leWords 4 (toLe 16 (e.base % 2 ^ 56 * 2 ^ 72 + e.size % 2 ^ 25 * 2 ^ 39 + e.pend % 2 ^ 25 * 2 ^ 14 + st * 2 ^ 12 + slot % 256))

/-- TQRY (R93, R297): the entry as it stands, counted on SETA. Its threads' accesses stand after the writes of the operations that have counted the tile
down (R110, R112). -/
def execTqry (w : Rrr) (s : State) : Host.Outcome State Fault Refusal :=
  let v := w.dev 0xEC
  .next (runWord v (fun i s =>
    i.withTile s v.a.toNat fun l e => .ok (i.deliver (i.hear s i.acts s.tick) 4 4 3 [{ thr := l, ea := 0, vals := e.words i.team.slot, blocks := [] }])) s)

/-! ### Queues (R289–R292, R414) -/

/-- A queue's Gleaner meets a cause: one entry, and the queue waits for a write to the line of WIDX (R414). -/
def State.queueFault (s : State) (q : Queue) (cause sub : Nat) (val : Addr) : State :=
  ({ s with queues := mapWhere (·.id == q.id) (fun q => { q with blocked := true }) s.queues }).post q.ctx (12 * q.die)
    { cause := cause, src := 5, sub := sub, val := val }

/-- What comes of a read by a queue's Gleaners: its bytes; the host's data is on its way; the host has refused it (R405). -/
inductive QueueRead
  | got (s : State) (bs : List Byte)
  | pending (s : State)
  | refused

/-- A queue's Gleaners read at a target; of the host each read of a packet is one transaction, told by `key`. -/
def State.queueRead (s : State) (q : Queue) (key n : Nat) (ea : Addr) (g : Target) : QueueRead :=
  if g.view ≠ .system then .got ((s.setAD g false).seeAll [0] [g.loc] n) (s.bytesAt g n)
  else match tget q.host key with
    | some [] => .refused
    | some bs => .got s bs
    | none => .pending (if s.loads.any fun l => l.reader == some (.queue q.id) && l.key == key then s
        else (s.setAD g false).askHost (.queue q.id) (2 ^ 64) 0 [] ea g.pa n key g.leaf)

/-- A queue's Gleaners forget what they have read of the host. -/
def State.queueForget (s : State) (q : Queue) : State := { s with queues := mapWhere (·.id == q.id) (fun q => { q with host := [] }) s.queues }

/-- A list of reads of a queue's Gleaners, in order: the first cause that one meets, with its address, or what the reads give. -/
def State.queueReads (s : State) (q : Queue) : List (Nat × Nat × Addr × List Miss × Option Target) → List Byte → Except (Miss × Addr) QueueRead
  | [], acc => .ok (.got s acc)
  | (key, n, ea, ms, tg) :: rest, acc => match firstMiss ms, tg with
    | some m, _ => .error (m, ea)
    | none, none => .error (⟨9, 1⟩, ea)
    | none, some g => match s.queueRead q key n ea g with
      | .got s bs => s.queueReads q rest (acc ++ bs)
      | .refused => .error (⟨9, 5⟩, ea)
      | .pending s => .ok (.pending s)

/-- The packet of the next index is taken into the Gleaners' own record, and RIDX passes it (R291). -/
def State.takePacket (s : State) (q : Queue) (bs : List Byte) (ridx : Addr × Option Target) : State :=
  let p := copyPk bs
  let o : Op := { uid := s.seq, token := 0, kind := .queue, core := 48 * q.die, slot := 0, ctx := q.ctx, slice := 0, team := 2 ^ 64,
                  issuer := 0, start := s.seq, sig := s.seq, own := .team, oteam := 2 ^ 64, det := p.det, ord := p.ord, pri := p.pri,
                  pred := p.pred, bytes := bs, queue := q.id }
  let next := q.ridx + 1
  let s : State := { s with seq := s.seq + 1, ops := s.ops ++ [o],
                            queues := mapWhere (·.id == q.id) (fun q => { q with ridx := next, host := [] }) s.queues }
  match ridx.2 with
  | some g => (s.setAD g true).opStore o g ridx.1 (toLe 8 next.toNat)
  | none => s

/-- A queue whose context has left the device takes no packet (R314, R422). -/
def State.queueAway (s : State) (q : Queue) : Bool :=
  match s.ctx? q.ctx with
  | some c => c.phase == .out || c.phase == .wiped
  | none => true

/-- QUEUE_TAKE (R291, R414): the packet of the next index, once it is claimed and its ticket stands in its slot. -/
def execQueueTake (queue : Nat) (s : State) : Host.Outcome State Fault Refusal :=
  match s.queues.find? (·.id == queue) with
  | none => .next s
  | some q =>
    if q.blocked || s.queueAway q then .next s
    else
      let a : Agent := .queue q.ctx q.die
      let slot := q.ring + BitVec.ofNat 64 (64 * (q.ridx.toNat % 2 ^ q.capl))
      let lines := match (resolve s a q.header 8 .read).2 with
        | some t => (t.loc :: t.reps).map (· / 128)
        | none => q.index
      let s : State := { s with queues := mapWhere (·.id == q.id) (fun q => { q with index := lines }) s.queues }
      let fail := fun (s : State) (m : Miss) (ea : Addr) => (s.queueForget q).queueFault q m.cause m.sub ea
      let one := fun (key : Nat) (ea : Addr) (n : Nat) => (key, n, ea, s.reach a ea n .read 5)
      let units := (List.range 5).zip packetUnits |>.map fun u => one (2 + u.1) (slot + BitVec.ofNat 64 u.2.1) u.2.2
      let ridx := s.reach a (q.header + 128) 8 .write 5
      match s.queueReads q [one 0 q.header 8] [] with
      | .error (m, ea) => .next (fail s m ea)
      | .ok (.got s w) =>
        if leNat w ≤ q.ridx.toNat then .next (s.queueForget q)
        else match s.queueReads q [one 1 (slot + 60) 4] [] with
          | .error (m, ea) => .next (fail s m ea)
          | .ok (.got s k) =>
            if leNat k ≠ q.ridx.toNat % 2 ^ 32 then .next (s.queueForget q)
            else match firstMiss ridx.1 with
              | some m => .next (fail s m (q.header + 128))
              | none => match s.queueReads q units [] with
                | .error (m, ea) => .next (fail s m ea)
                | .ok (.got s bs) => .next (s.takePacket q (bs ++ k) (q.header + 128, ridx.2))
                | .ok (.pending s) => .next s
                | .ok .refused => .next s
          | .ok (.pending s) => .next s
          | .ok .refused => .next s
      | .ok (.pending s) => .next s
      | .ok .refused => .next s

/-! ### What comes from peers and from the host (R119, R341–R343, R405, R411) -/

/-- The receiving context posts an entry for a peer's write (R411). -/
def State.peerFault (s : State) (ctx die cause sub : Nat) (val : Addr) : State :=
  s.post ctx (12 * die) { cause := cause, src := 5, sub := sub, val := val }

/-- The receiving Gleaner answers a peer's write: it stands in T, or why it does not (R119, R411). -/
def State.peerAnswer (s : State) (w : PeerWrite) (fail : Option (Nat × Nat)) : State :=
  { s with out := s.out ++ [.peerAck w.die w.peer w.op w.chunk fail] }

/-- One unit of a peer's write: a posted write of a system-view page (R117), a write, or a step of a reduction (R210, R283). -/
def State.peerUnit (s : State) (ctx : Nat) (aop : Option (Nat × Int)) (ea : Addr) (t : Target) (bs : List Byte) : State :=
  let s := s.setAD t true
  if t.view = .system then
    { s with seq := s.seq + 1, out := s.out ++ [.hostStore s.seq (t.pa / 2 ^ 44 % 4) (t.pa % 2 ^ 44) bs],
             stores := s.stores ++ [{ id := s.seq, issue := s.seq, team := 2 ^ 64, gidx := 0, tidxs := [], blocks := [], ea := ea, pc := 0, ctx := ctx,
                                      sysview := some t.pa, data := bs, via := t.leaf }] }
  else match aop with
    | none => s.gleanerPut t.reps bs
    | some (0, _) => s.gleanerPut t.reps (toLe 16 ((Memory.nat s.mem t.loc 16 + leNat bs) % 2 ^ 128))
    | some (n, k) => s.gleanerPut t.reps (toLe n (atomNat n k.toNat (Memory.nat s.mem t.loc n) (leNat bs)))

/-- A peer's write in an open window: every run of its chunk is checked at the receiver before any is written; once a chunk of an operation has
failed here, neither it nor a later one is (R342, R411). -/
def State.peerWrite (s : State) (w : PeerWrite) (c : Context) (x : Window) : State :=
  let runs := (w.off, w.data) :: w.more
  let right := match w.aop with | none => x.write | some _ => x.reduce
  let outside := runs.find? fun r => decide (r.1 + r.2.length > x.size)
  let at_ := fun (off : Nat) => x.base + BitVec.ofNat 64 off
  if !w.granted || !right || outside.isSome then
    (s.peerFault c.num w.die 8 8 (at_ ((outside.map (·.1)).getD w.off))).peerAnswer w (some (8, 8))
  else if s.peerFails.any fun f => f.1 == w.peer && f.2.1 == w.op && f.2.2 ≤ w.chunk then s
  else
    let unit := match w.aop with | some (0, _) => 16 | some (n, _) => n | none => 16
    let a : Agent := .queue c.num w.die
    let kind : AccKind := match w.aop with | some _ => .atomic | none => .write
    let spans := runs.flatMap fun r => cutAt unit r.2.length (at_ r.1) r.2.length
    let targets := spans.map fun y => (y, (resolve s a y.ea 1 kind).2)
    let mended := if s.bad.isEmpty || w.aop.isSome then [] else s.mended (targets.flatMap fun y => match y.2 with | some t => t.written y.1.n | none => [])
    let looked := spans.map fun y => (y, if w.aop.isSome && y.ea.toNat % unit != 0 then ([OpMiss.mk y.ea ⟨7, 5⟩], none) else s.look a y kind mended)
    match firstOpMiss (looked.flatMap (·.2.1)) with
    | some m => ({ s.peerFault c.num w.die m.miss.cause m.miss.sub m.ea with peerFails := (w.peer, w.op, w.chunk) :: s.peerFails }).peerAnswer w
        (some (m.miss.cause, m.miss.sub))
    | none =>
      let s := (looked.zip (regroup (spans.map (·.n)) (runs.flatMap (·.2)))).foldl (fun s y => match y.1.2.2 with
        | none => s
        | some t => s.peerUnit c.num w.aop y.1.1.ea t y.2) s
      ({ s with bad := s.bad.filter fun b => !mended.contains b } : State).peerAnswer w none

/-- UALINK_INBOUND_WRITE (R119, R341, R342, R411). Past a lost flit, on a port that is down, none is made (R430). A write that names a closed window is refused at the port, and the context that last opened
it has the entry (log 41). -/
def execUalinkInboundWrite (w : PeerWrite) (s : State) : Host.Outcome State Fault Refusal :=
  if !(s.link (.ualink w.die w.port)).up then .next s
  else match s.contexts.find? fun c => (tget c.windows w.win).isSome with
  | none => .next ((match tget s.lastWindow w.win with
      | some c => s.peerFault c w.die 8 8 (BitVec.ofNat 64 w.off)
      | none => s).peerAnswer w (some (8, 8)))
  | some c => match tget c.windows w.win with
    | none => .next s
    | some x => .next (s.peerWrite w c x)

/-- UALINK_INBOUND_READ (R341): refused; on a port that is down none comes (R430). -/
def execUalinkInboundRead (die port peer _win _off _len : Nat) (s : State) : Host.Outcome State Fault Refusal :=
  if !(s.link (.ualink die port)).up then .next s
  else .next { s with out := s.out ++ [.refusedRead die port peer] }

/-- The runs of consecutive locations of `n` bytes of the interleaved view from offset `o`, cut at aligned units (R87, R343). -/
def barSpans (unit o n : Nat) : List (Nat × Nat × Nat) :=
  (cutAt unit n (BitVec.ofNat 64 o) n).map fun x =>
    (x.ea.toNat - o, ((paLoc (0x800000000000 + x.ea.toNat)).getD 0), x.n)

/-- Bytes that a PCIe agent has written, or read as T gives them, stand in HBM too from then on: it never reads an older one (R103). -/
def State.flushed (s : State) (locs : List Nat) : State := { s with hbm := s.hbm.filter fun e => !(e.2.2 && locs.contains e.1) }

/-- What No Snoop writes have left in HBM at some locations stands in T (R103, R214). -/
def State.standHbm (s : State) (locs : List Nat) : State :=
  let mine := s.hbm.filter fun e => !e.2.2 && locs.contains e.1
  if mine.isEmpty then s
  else { s.poke (mine.map fun e => (e.1, e.2.1)) with hbm := s.hbm.filter fun e => !(!e.2.2 && locs.contains e.1) }

/-- PCIE_INBOUND_WRITE (R119, R212, R343): writes of aligned 8-byte units; with No Snoop, HBM alone is written, and the bytes stand in T
at a later CINV (R214), or before a later snooped read of them (R103); of a stile line's request the launch follows all the same (R301). Of a byte that a device write has changed too, a race, the device's mark
stays. A bad block that is covered whole is cured, and its new bytes stand in T at once (R400, log 14). Over a link that is down none comes. -/
def execPcieInboundWrite (die bar0 : Nat) (data : List Byte) (noSnoop : Bool) (s : State) : Host.Outcome State Fault Refusal :=
  if die > 3 ∨ s.cap.dump = 2 ∨ (s.link (.pcie die)).up = false then .next s
  else if noSnoop then
    let spans := barSpans 8 bar0 data.length
    let whole := (barSpans 64 bar0 data.length).filter fun x => x.2.2 == 64 && s.bad.contains (x.2.1 / 64)
    let s : State := { s with hbm := spans.foldl (fun t x =>
      (cellsAt x.2.1 ((data.drop x.1).take x.2.2)).foldl (fun t c => tset t c.1 (c.2, ((tget t c.1).map (·.2)).getD false)) t) s.hbm }
    let s := (spans.filter fun x => !whole.any fun y => y.2.1 / 64 == x.2.1 / 64).foldl (fun s x => s.stileHit x.2.1 ((data.drop x.1).take x.2.2)) s
    .next (whole.foldl (fun s x =>
      let s := s.put [x.2.1] ((data.drop x.1).take 64)
      s.flushed ((List.range 64).map (x.2.1 + ·))) s)
  else
    let spans := barSpans 8 bar0 data.length
    let s := (spans.foldl (fun s x => s.put [x.2.1] ((data.drop x.1).take x.2.2)) s).flushed (spans.flatMap fun x => (List.range x.2.2).map (x.2.1 + ·))
    .next ((barSpans 64 bar0 data.length).foldl (fun s x => s.cure x.2.1 x.2.2) s)

/-- Whether HBM gives its own byte at a location (R212): it does where a No Snoop write left it there; of a byte that a device write has
changed since, it is a free choice whether it has been written back yet (log 14). -/
def State.hbmOwn (s : State) (draw l : Nat) : Bool :=
  match tget s.hbm l with
  | some e => !e.2 || (Config.freeWord draw).getLsbD 0
  | none => false

/-- A byte as HBM gives it. -/
def State.hbmByte (s : State) (draw l : Nat) : Byte :=
  if s.hbmOwn draw l then ((tget s.hbm l).map (·.1)).getD 0 else Memory.get s.mem l

/-- Bytes that die 0's BAR2 shows of the dump region (R434). -/
def dumpLoc (off : Nat) : Nat := locHbm 0 (0x3FFC000000 + off)

/-- PCIE_INBOUND_READ (R212, R343, R405, R434): the bytes, or Completer Abort when a block of them is bad, the BAR is not
the device's, or HBM is powered down (R433). Over a link that is down none comes. -/
def execPcieInboundRead (die bar off len : Nat) (noSnoop : Bool) (s : State) : Host.Outcome State Fault Refusal :=
  let answer := fun (s : State) (d : Option (List Byte)) => { s with out := s.out ++ [.completion die d] }
  let spans := if bar = 0 then barSpans 64 off len
    else if bar = 2 ∧ die = 0 ∧ off + len ≤ 2 ^ 26 then (cutAt 64 len (BitVec.ofNat 64 off) len).map fun x => (x.ea.toNat - off, dumpLoc x.ea.toNat, x.n)
    else []
  if (s.link (.pcie die)).up = false then .next s
  else if (len ≠ 0 ∧ spans.isEmpty) ∨ s.cap.dump = 2 then .next (answer s none)
  else if spans.any fun x => (blocksOf x.2.1 x.2.2).any s.bad.contains then .next (answer s none)
  else
    let locs := spans.flatMap fun x => (List.range x.2.2).map (x.2.1 + ·)
    if noSnoop then
      let drawn := (List.range locs.length).zip locs
      .next (answer { s.flushed ((drawn.filter fun x => !s.hbmOwn (s.draws + x.1) x.2).map (·.2)) with draws := s.draws + locs.length }
        (some (drawn.map fun x => s.hbmByte (s.draws + x.1) x.2)))
    else
      let s := (s.standHbm locs).flushed locs
      .next (answer s (some (locs.map (Memory.get s.mem))))

end Sys2Proof.Machine
end

