-- ==== Sys2Proof/Machine/Crypto.lean ====
section
/-! DEFINITION. What the spec names by FIPS 202 and FIPS 204 (R434, R438–R440): SHA3-512, SHAKE, and ML-DSA-87 with HashML-DSA. The spec names the
standards and does not restate them; the algorithms here are theirs (log 5). -/

namespace Sys2Proof.Machine

/-! ### Keccak (FIPS 202) -/

/-- Rotation of lane x + 5y. -/
def keccakRot : List Nat := [0, 1, 62, 28, 27, 36, 44, 6, 55, 20, 3, 10, 43, 25, 39, 41, 45, 15, 21, 8, 18, 2, 61, 56, 14]

/-- The constants of the 24 rounds. -/
def keccakRc : List Addr :=
  [0x0000000000000001, 0x0000000000008082, 0x800000000000808A, 0x8000000080008000, 0x000000000000808B, 0x0000000080000001, 0x8000000080008081,
   0x8000000000008009, 0x000000000000008A, 0x0000000000000088, 0x0000000080008009, 0x000000008000000A] ++
  [0x000000008000808B, 0x800000000000008B, 0x8000000000008089, 0x8000000000008003, 0x8000000000008002, 0x8000000000000080, 0x000000000000800A,
   0x800000008000000A, 0x8000000080008081, 0x8000000000008080, 0x0000000080000001, 0x8000000080008008]

/-- One round on 25 lanes of 64 bits: theta, rho and pi, chi, iota. -/
def keccakRound (a : List Addr) (rc : Addr) : List Addr :=
  let g := fun (l : List Addr) (i : Nat) => l.getD i 0
  let c := (List.range 5).map fun x => g a x ^^^ g a (x + 5) ^^^ g a (x + 10) ^^^ g a (x + 15) ^^^ g a (x + 20)
  let d := (List.range 5).map fun x => g c ((x + 4) % 5) ^^^ (g c ((x + 1) % 5)).rotateLeft 1
  let t := (List.range 25).map fun i => (g a i ^^^ g d (i % 5)).rotateLeft (keccakRot.getD i 0)
  let b := (List.range 25).map fun i => g t ((i % 5 + 3 * (i / 5)) % 5 + 5 * (i % 5))
  let e := (List.range 25).map fun i => g b i ^^^ (~~~ g b (i / 5 * 5 + (i + 1) % 5) &&& g b (i / 5 * 5 + (i + 2) % 5))
  e.set 0 (g e 0 ^^^ rc)

/-- The permutation. -/
def keccakF (a : List Addr) : List Addr := keccakRc.foldl keccakRound a

/-- The sponge takes in blocks of `rate` bytes. -/
def keccakAbsorb (rate : Nat) : Nat → List Byte → List Addr → List Addr
  | 0, _, a => a
  | n + 1, bs, a =>
    let w := fun (i : Nat) => BitVec.ofNat 64 (leNat ((bs.drop (8 * i)).take 8))
    keccakAbsorb rate n (bs.drop rate) (keccakF ((List.range 25).map fun i => if i < rate / 8 then a.getD i 0 ^^^ w i else a.getD i 0))

/-- The sponge gives out blocks of `rate` bytes. -/
def keccakSqueeze (rate : Nat) : Nat → List Addr → List Byte
  | 0, _ => []
  | n + 1, a => ((a.take (rate / 8)).flatMap fun w => toLe 8 w.toNat) ++ keccakSqueeze rate n (keccakF a)

/-- `n` bytes of a sponge of a rate over a message, with a domain byte. -/
def keccak (rate domain : Nat) (m : List Byte) (n : Nat) : List Byte :=
  let pad := rate - m.length % rate
  let tail : List Byte := if pad = 1 then [BitVec.ofNat 8 (domain + 0x80)] else [BitVec.ofNat 8 domain] ++ List.replicate (pad - 2) 0 ++ [0x80]
  (keccakSqueeze rate ((n + rate - 1) / rate) (keccakAbsorb rate ((m.length + pad) / rate) (m ++ tail) (List.replicate 25 0))).take n

/-- SHA3-512. -/
def sha3 (m : List Byte) : List Byte := keccak 72 0x06 m 64
/-- SHAKE128: `n` bytes. -/
def shake128 (m : List Byte) (n : Nat) : List Byte := keccak 168 0x1F m n
/-- SHAKE256: `n` bytes. -/
def shake256 (m : List Byte) (n : Nat) : List Byte := keccak 136 0x1F m n

/-! ### ML-DSA-87 (FIPS 204) -/

namespace Mldsa

/-- The modulus. -/
def q : Nat := 8380417
/-- A polynomial: 256 coefficients below q. -/
abbrev Poly := List Nat

/-- Coefficientwise sum. -/
def add (a b : Poly) : Poly := List.zipWith (fun x y => (x + y) % q) a b
/-- Coefficientwise difference. -/
def sub (a b : Poly) : Poly := List.zipWith (fun x y => (x + q - y) % q) a b
/-- Coefficientwise product. -/
def mul (a b : Poly) : Poly := List.zipWith (fun x y => x * y % q) a b

/-- The root for index `i`: 1753 to the power of its eight bits reversed. -/
def zeta (i : Nat) : Nat := 1753 ^ ((List.range 8).foldl (fun n k => 2 * n + i / 2 ^ k % 2) 0) % q

/-- The number-theoretic transform of a block with index `m`. -/
def nttAt : Nat → Nat → Poly → Poly
  | 0, _, w => w
  | n + 1, m, w =>
    let lo := w.take (2 ^ n)
    let z := zeta m
    let t := (w.drop (2 ^ n)).map fun x => z * x % q
    nttAt n (2 * m) (add lo t) ++ nttAt n (2 * m + 1) (sub lo t)
/-- The transform. -/
def ntt (w : Poly) : Poly := nttAt 8 1 w
/-- The inverse transform of a block, but for the factor 1/256. -/
def inttAt : Nat → Nat → Poly → Poly
  | 0, _, w => w
  | n + 1, m, w =>
    let lo := inttAt n (2 * m + 1) (w.take (2 ^ n))
    let hi := inttAt n (2 * m) (w.drop (2 ^ n))
    let z := q - zeta m
    add lo hi ++ (sub lo hi).map fun x => z * x % q
/-- The inverse transform. -/
def intt (w : Poly) : Poly := (inttAt 8 1 w).map fun x => 8347681 * x % q

/-- The representative of least magnitude modulo `m`. -/
def centre (r m : Nat) : Int := let x := r % m; if m / 2 < x then (x : Int) - m else x
/-- An integer modulo q. -/
def ofInt (x : Int) : Nat := (x % q).toNat
/-- The greatest magnitude of a coefficient. -/
def norm (v : List Poly) : Nat := v.foldl (fun n p => p.foldl (fun n x => max n (centre x q).natAbs) n) 0

/-- `n`-bit numbers packed, the lowest bits first. -/
def pack (n : Nat) (ws : List Nat) : List Byte := toLe (n * ws.length / 8) (ws.foldr (fun w v => w + 2 ^ n * v) 0)
/-- 256 numbers of `n` bits. -/
def unpack (n : Nat) (bs : List Byte) : List Nat := let v := leNat bs; (List.range 256).map fun i => v / 2 ^ (n * i) % 2 ^ n
/-- Coefficients of at most `b` packed as b - w in `n` bits. -/
def packLow (n b : Nat) (p : Poly) : List Byte := pack n (p.map fun x => ((b : Int) - centre x q).toNat)

/-- Samples from triples of bytes, below q. -/
def triples : List Byte → List Nat
  | a :: b :: c :: rest =>
    let z := a.toNat + 2 ^ 8 * b.toNat + 2 ^ 16 * (c.toNat % 128)
    if z < q then z :: triples rest else triples rest
  | _ => []
/-- A polynomial of the matrix, in the transformed domain. Twelve blocks are drawn; no seed is known that needs more than six. -/
def rejNtt (seed : List Byte) : Poly := (triples (shake128 seed (168 * 12))).take 256
/-- A polynomial with coefficients from -2 to 2. -/
def rejBounded (seed : List Byte) : Poly :=
  ((((shake256 seed (136 * 8)).flatMap fun b => [b.toNat % 16, b.toNat / 16]).filter (· < 15)).map fun h => ofInt (2 - (h % 5 : Nat))).take 256
/-- The matrix, eight rows of seven. -/
def expandA (rho : List Byte) : List (List Poly) :=
  (List.range 8).map fun r => (List.range 7).map fun s => rejNtt (rho ++ [BitVec.ofNat 8 s, BitVec.ofNat 8 r])
/-- A matrix times a vector, both transformed. -/
def timesVec (a : List (List Poly)) (v : List Poly) : List Poly := a.map fun row => (List.zipWith mul row v).foldl add (List.replicate 256 0)
/-- A polynomial times each of a vector's, back from the transformed domain. -/
def scale (c : Poly) (v : List Poly) : List Poly := v.map fun p => intt (mul c (ntt p))

/-- Power2Round: the high part, and the low one modulo q. -/
def power2Round (r : Nat) : Nat × Nat := let r0 := centre r (2 ^ 13); ((((r % q : Nat) : Int) - r0).toNat / 2 ^ 13, ofInt r0)
/-- The low-order rounding range. -/
def gamma2 : Nat := 261888
/-- Decompose: high part and low part. -/
def decompose (r : Nat) : Nat × Int :=
  let r := r % q
  let r0 := centre r (2 * gamma2)
  if (r : Int) - r0 = q - 1 then (0, r0 - 1) else ((((r : Int) - r0) / (2 * gamma2)).toNat, r0)
/-- UseHint. -/
def useHint (h : Bool) (r : Nat) : Nat :=
  let x := decompose r
  if h then (if 0 < x.2 then (x.1 + 1) % 16 else (x.1 + 15) % 16) else x.1

/-- SampleInBall's choice of 60 places, from bytes: each step places a sign at one of the first i + 1 places. -/
def ballAt (signs : List Byte) : Nat → List Byte → Poly → Poly
  | 0, _, c => c
  | n + 1, bs, c =>
    let i := 255 - n
    match bs.dropWhile (fun b => decide (i < b.toNat)) with
    | [] => c
    | j :: rest =>
      let bit := (signs.getD ((59 - n) / 8) 0).toNat / 2 ^ ((59 - n) % 8) % 2
      ballAt signs n rest ((c.set i (c.getD j.toNat 0)).set j.toNat (if bit = 1 then q - 1 else 1))
/-- SampleInBall. -/
def ball (seed : List Byte) : Poly :=
  let bs := shake256 seed 1096
  ballAt (bs.take 8) 60 (bs.drop 8) (List.replicate 256 0)

/-- A key pair as key generation makes it. -/
structure Key where
  rho : List Byte
  k : List Byte
  tr : List Byte
  s1 : List Poly
  s2 : List Poly
  t0 : List Poly
  pub : List Byte
  deriving DecidableEq, Repr

/-- Key generation from a seed of 32 bytes; `pub` is the public key of 2,592 bytes. -/
def keyGen (seed : List Byte) : Key :=
  let h := shake256 (seed ++ [8, 7]) 128
  let rho := h.take 32
  let at_ := fun (n : Nat) => rejBounded ((h.drop 32).take 64 ++ [BitVec.ofNat 8 n, 0])
  let s1 := (List.range 7).map at_
  let s2 := (List.range 8).map fun r => at_ (7 + r)
  let t := List.zipWith add ((timesVec (expandA rho) (s1.map ntt)).map intt) s2
  let pub := rho ++ (t.flatMap fun p => pack 10 (p.map fun x => (power2Round x).1))
  { rho := rho, k := h.drop 96, tr := shake256 pub 64, s1 := s1, s2 := s2, t0 := t.map fun p => p.map fun x => (power2Round x).2, pub := pub }

/-- The high parts of a vector, packed. -/
def packHigh (w : List (List Nat)) : List Byte := w.flatMap (pack 4)

/-- The hints of one polynomial: the places where a carry changes the high part. -/
def hintsOf (r t : Poly) : List Nat :=
  ((List.range 256).zip (List.zipWith (fun x y => (decompose x).1 != (decompose (x + y)).1) r t)).filterMap fun x => if x.2 then some x.1 else none

/-- Hints packed: the places, zeros up to 75, and where each polynomial's places end. -/
def packHints (h : List (List Nat)) : List Byte :=
  let places := h.flatten
  (places ++ List.replicate (75 - places.length) 0 ++ (List.range 8).map fun i => ((h.take (i + 1)).map List.length).foldl (· + ·) 0).map (BitVec.ofNat 8)

/-- Signing's rejection loop, with the counter `kappa`; it ends on its first accepted try, of at most `fuel`. -/
def tries (key : Key) (a : List (List Poly)) (mu rnd : List Byte) : Nat → Nat → List Byte
  | 0, _ => []
  | fuel + 1, kappa =>
    let y := (List.range 7).map fun r => (unpack 20 (shake256 (rnd ++ toLe 2 (kappa + r)) 640)).map fun (x : Nat) => ofInt (2 ^ 19 - (x : Int))
    let w := (timesVec a (y.map ntt)).map intt
    let ct := shake256 (mu ++ packHigh (w.map fun p => p.map fun x => (decompose x).1)) 64
    let c := ntt (ball ct)
    let z := List.zipWith add y (scale c key.s1)
    let r := List.zipWith sub w (scale c key.s2)
    let low := r.foldl (fun n p => p.foldl (fun n x => max n (decompose x).2.natAbs) n) 0
    let t := scale c key.t0
    let h := List.zipWith hintsOf r t
    if 2 ^ 19 - 120 ≤ norm z ∨ gamma2 - 120 ≤ low ∨ gamma2 ≤ norm t ∨ 75 < h.flatten.length then tries key a mu rnd fuel (kappa + 7)
    else ct ++ z.flatMap (packLow 20 (2 ^ 19)) ++ packHints h

/-- The places of the hints of eight polynomials, none where they are not in the one form that packing gives. -/
def unpackHints (bs : List Byte) : Option (List (List Nat)) :=
  let ends := (bs.drop 75).map BitVec.toNat
  let starts := 0 :: ends
  let parts := (List.range 8).map fun i => ((bs.drop (starts.getD i 0)).take (ends.getD i 0 - starts.getD i 0)).map BitVec.toNat
  let rising := fun (l : List Nat) => (l.zip (l.drop 1)).all fun x => x.1 < x.2
  let last := ends.getD 7 0
  if ((List.range 8).all fun i => starts.getD i 0 ≤ ends.getD i 0) && decide (last ≤ 75) && parts.all rising && ((bs.take 75).drop last).all (· == 0) then some parts
  else none

/-- Verification of a signature over a formatted message. -/
def verify (pub msg sig : List Byte) : Bool :=
  let z := (List.range 7).map fun i => (unpack 20 ((sig.drop (64 + 640 * i)).take 640)).map fun (x : Nat) => ofInt (2 ^ 19 - (x : Int))
  let t1 := (List.range 8).map fun i => (unpack 10 ((pub.drop (32 + 320 * i)).take 320)).map fun x => x * 2 ^ 13 % q
  if pub.length ≠ 2592 ∨ sig.length ≠ 4627 then false
  else match unpackHints (sig.drop 4544) with
    | none => false
    | some h =>
      let mu := shake256 (shake256 pub 64 ++ msg) 64
      let c := ntt (ball (sig.take 64))
      let w := (List.zipWith sub (timesVec (expandA (pub.take 32)) (z.map ntt)) (t1.map fun p => mul c (ntt p))).map intt
      let w1 := List.zipWith (fun hs p => (List.range 256).zip p |>.map fun x => useHint (hs.contains x.1) x.2) h w
      decide (norm z < 2 ^ 19 - 120) && sig.take 64 == shake256 (mu ++ packHigh w1) 64

/-- What HashML-DSA signs for a message: its SHA3-512 digest under that function's object identifier, with an empty context. -/
def preHash (m : List Byte) : List Byte := [1, 0, 0x06, 0x09, 0x60, 0x86, 0x48, 0x01, 0x65, 0x03, 0x04, 0x02, 0x0A] ++ sha3 m

/-- The HashML-DSA-87 signature of a message with SHA3-512, 4,627 bytes; `rnd` are the 32 bytes of randomness. -/
def hashSign (key : Key) (m rnd : List Byte) : List Byte :=
  let mu := shake256 (key.tr ++ preHash m) 64
  tries key (expandA key.rho) mu (shake256 (key.k ++ rnd ++ mu) 64) 1024 0

/-- Whether a HashML-DSA-87 signature of a message with SHA3-512 verifies under a public key. -/
def hashVerify (pub m sig : List Byte) : Bool := verify pub (preHash m) sig

end Mldsa

end Sys2Proof.Machine
end

