-- ==== Sys2Proof/Machine/Launch.lean ====
section
/-! DEFINITION. Launch descriptors, slices, admission (R16–R18, R33, R46, R47, R78, R79, R92, R300–R309, R415), the launch-group
instructions (R318–R324), SYSC (R337–R339), unassigned opcodes (R381). -/

namespace Sys2Proof.Machine

/-! ### Descriptors (R302) -/

/-- The fields of a descriptor's 256 bytes at `va`; `argp` overrides ARGX (R328). -/
def parseDesc (bs : List Byte) (va : Addr) (argp : Option Addr) : Desc :=
  let g := fun (o n : Nat) => leNat ((bs.drop o).take n)
  let flg := g 39 1
  { entry := BitVec.ofNat 64 (g 0 8), argp := argp.getD (if g 8 8 = 0 then va + 192 else BitVec.ofNat 64 (g 8 8)),
    nx := g 16 4, ny := g 20 4, nz := g 24 4, tsize := g 28 2, width := 32 * 2 ^ (g 30 1 % 4), spread := 2 ^ (g 31 1 % 8),
    clh := g 32 1 / 16, clw := g 32 1 % 16, frame := (g 33 1 % 8 + 1) * 8, priv := g 34 2, scr := g 36 1, csh := g 37 1, tiles := g 38 1,
    keep := flg / 8 % 2 == 1, home := flg / 4 % 2 == 1, setw := flg / 2 % 2 == 1, uchk := flg % 2 == 1,
    deadline := g 40 8, budget := g 48 8, equota := g 56 8, handler := BitVec.ofNat 64 (g 64 8), wctr := g 72 2, winit := g 74 2, dctr := g 76 2,
    cls := g 78 1 % 4 }

/-- Threads of a lane at a partition position (R17, R18). -/
def Desc.laneThreads (d : Desc) (pos lane : Nat) : Nat :=
  ((List.range d.tsize).filter fun t => t / d.width % d.spread == pos && t % d.width % 16 == lane).length

/-- Groups of a team. -/
def Desc.groups (d : Desc) : Nat := (d.tsize + d.width - 1) / d.width

/-- A valid descriptor (R302): ranges, zero fields, one core, one cluster. -/
def validDesc (bs : List Byte) (d : Desc) (cn : Nat) : Bool :=
  let g := fun (o n : Nat) => leNat ((bs.drop o).take n)
  let n := d.nx * d.ny * d.nz
  let ctr := fun (c : Nat) => c == 0xFFFF || decide (c < cn)
  d.entry.toNat % 16 == 0 && d.handler.toNat % 16 == 0 && decide (1 ≤ n) && decide (n ≤ 2 ^ 32) &&
  decide (1 ≤ d.tsize) && decide (d.tsize ≤ 2048) && g 30 1 / 4 == 0 && g 30 1 % 4 != 3 && g 31 1 / 8 == 0 && decide (g 31 1 ≤ 4) &&
  decide (d.clw < 8) && decide (d.clh < 6) && decide (d.csize ≤ 12) && n % d.csize == 0 && g 33 1 / 8 == 0 &&
  d.priv % 16 == 0 && decide (d.priv ≤ 4096) && decide (d.scr ≤ 24) && decide (d.csh ≤ 16) && decide (d.scr + d.csh ≤ 24) && decide (d.tiles ≤ 64) &&
  g 39 1 / 16 == 0 && ctr d.wctr && ctr d.dctr && g 78 1 / 4 == 0 && ((bs.drop 79).take 113).all (· == 0) &&
  (!d.home || (decide (d.clw < 2) && decide (d.clh < 2))) && decide (d.tsize ≤ 1024 * d.spread) &&
  (List.range (min d.spread d.groups)).all fun p =>
    decide (((List.range d.groups).filter (· % d.spread == p)).length ≤ 32) &&
    (List.range 16).all fun l =>
      let k := d.laneThreads p l
      decide (k ≤ 64) && decide (k * (d.frame / 8) ≤ 384) && decide (k * d.priv ≤ 4096)

/-- The Fold's read of a descriptor for a context, on a die: its bytes, or the cause it meets (R319, R415). -/
def State.readDesc (s : State) (ctx die : Nat) (va : Addr) : Except OpMiss (State × List Byte) :=
  let a : Agent := .queue ctx die
  let spans := cutAt 16 256 va 256
  let seen := spans.map fun x => (x, if inWindows x.ea.toNat then ([OpMiss.mk x.ea ⟨8, 6⟩], none) else s.look a x .read)
  match firstOpMiss (seen.flatMap fun x => x.2.1 ++ match x.2.2 with
    | some t => if t.view = .system then [OpMiss.mk x.1.ea ⟨9, 3⟩] else []
    | none => []) with
  | some m => .error m
  | none =>
    let s := seen.foldl (fun s x => match x.2.2 with | some t => s.setAD t false | none => s) s
    .ok (s, seen.flatMap fun x => match x.2.2 with | some t => s.bytesAt t x.1.n | none => [])

/-! ### Launching (R303–R306, R415) -/

/-- Whether a context admits launches and teams, new ones and returning ones: it runs, and does not drain (R314). -/
def State.admits (s : State) (ctx : Nat) : Bool :=
  match s.ctx? ctx with
  | some c => c.phase == .running
  | none => false

/-- Slices of a context that hold an entry (R304). -/
def State.entriesOf (s : State) (ctx : Nat) : Nat := (s.slices.filter (·.ctx == ctx)).length
/-- Whether a context may take a launch: it runs, and an entry is free (R300, R314). -/
def State.canLaunch (s : State) (ctx : Nat) : Bool :=
  s.admits ctx && decide (s.entriesOf ctx < 1024) && decide (s.slices.length < 4096)

/-- The slice ids of a context that something still bears: a slice, a team, or an operation that may outlive both (R310). -/
def State.idsHeld (s : State) (ctx : Nat) : List Word :=
  (s.slices.filter (·.ctx == ctx)).map (·.id) ++ (s.teams.filter (·.ctx == ctx)).map (·.slice) ++ (s.ops.filter (·.ctx == ctx)).map (·.slice)

/-- The id a new slice takes: the least that nothing bears (R303 leaves it open; log 13). -/
def State.freeId (s : State) (ctx : Nat) : Word :=
  let held := s.idsHeld ctx
  BitVec.ofNat 32 (((List.range (held.length + 1)).find? fun k => !held.contains (BitVec.ofNat 32 (k + 1))).getD 0 + 1)

/-- The launch event (R302–R306, R415): the slice is made, or one entry says why not. `join` keeps its entry for an ejoin. A descriptor
with SETW = 1 that names no counter is valid and sets none: the spec does not say (log 69). -/
def State.launch (s : State) (ctx column : Nat) (va : Addr) (argp : Option Addr) (join : Bool) (who : Option Who) : State × Word :=
  let refuse := fun (s : State) (cause sub : Nat) => (s.postBy ctx cause sub va who (some 0), (0 : Word))
  match s.ctx? ctx with
  | none => (s, 0)
  | some c =>
    if s.stopped then (s, 0)
    else if va.toNat % 256 ≠ 0 then refuse s 1 0x20
    else match s.readDesc ctx (dieOfColumn column) va with
      | .error m => refuse s m.miss.cause m.miss.sub
      | .ok (s, bs) =>
        let d := parseDesc bs va argp
        if !validDesc bs d c.cn then refuse s 1 0x20
        else
          let id := s.freeId ctx
          let set := d.setw && d.wctr != 0xFFFF
          let s := if set then s.updCtx ctx fun c => { c with counters := tset c.counters d.wctr d.winit } else s
          let now := d.wctr == 0xFFFF || (((s.ctx? ctx).map (·.counter d.wctr)).getD 0) == 0
          let x : Slice := { id := id, ctx := ctx, desc := d, column := column, joined := join || d.keep, ready := if now then some s.seq else none, left := d.total }
          let s := { s with slices := s.slices ++ [x], seq := s.seq + 1, owing := s.owing.filter fun y => !(y.ctx == ctx && y.id == id) }
          let s := if now then s.poolCheck x else s
          (if set && d.winit == 0 then s.readyOn ctx d.wctr else s, id)

/-- LAUNCH (R319); a page of the descriptor that its die's unit keeps no entry of is walked first (R42). -/
def execLaunch (w : Rrr) (s : State) : Host.Outcome State Fault Refusal :=
  let v := w.dev 0xF0
  .next (runWord v (fun i s =>
    match i.lead with
    | none => .ok s
    | some l =>
      if !s.canLaunch i.team.ctx then .wait s
      else
        let va := v.a64 l
        i.walked s none (if va.toNat % 256 = 0 then [(.queue i.team.ctx (dieOfCore i.team.core), va)] else []) fun s =>
          let r := (s.takeWalks i.team.uid i.grp.gidx).launch i.team.ctx (columnOfCore i.team.core) va none false (some (i.who l))
          .ok (i.upd r.1 i.acts fun t => t.setVs (v.wd r.2))) s)

/-- STILE_LAUNCH (R301, R115): the oldest request whose context can launch is taken; the Fold answers in bytes 8–15 of the line, in
every replica of it (R90). After a fatal error each is refused with id 0 (R433). -/
def execStileLaunch (line : Nat) (s : State) : Host.Outcome State Fault Refusal :=
  let ready := s.stiles.filterMap fun l => match l.reqs with
    | r :: _ => if s.stopped || s.canLaunch l.ctx then some (l, r) else none
    | [] => none
  match leastBy (fun x => x.2.2) ready with
  | none => .next s
  | some (l, va, _) =>
    if l.id ≠ line then .next s
    else
      let s := { s with stiles := mapWhere (·.id == line) (fun l => { l with reqs := l.reqs.drop 1, taken := (l.taken + 1) % 2 ^ 32 }) s.stiles }
      let r : State × Word := if s.stopped then (s, 0) else s.launch l.ctx l.column va none false none
      .next (r.1.pokeAll (l.reps.map (· + 8)) (toLe 4 r.2.toNat ++ toLe 4 ((l.taken + 1) % 2 ^ 32)))

/-! ### Room on a core (R16, R17, R32, R47, R78, R79, R92) -/

/-- Teams that stand on a core. -/
def State.teamsOn (s : State) (core : Nat) : List Team := s.teams.filter fun t => t.core == core && !t.swapped

/-- The lowest of `n` numbers in a row below `limit` of which none is held. -/
def freeRun (held : Nat → Bool) (n limit : Nat) : Option Nat :=
  (List.range (limit + 1 - n)).find? fun b => (List.range n).all fun k => !held (b + k)

/-- Where a team stands on a core. -/
structure Place4 where
  slot : Nat
  units : List Nat
  tileBase : Nat
  parts : List Nat
  base : Nat
  deriving DecidableEq, Repr

/-- Threads of a team that take a lane at a partition position. -/
def Team.inLane (t : Team) (spread pos lane : Nat) : List Thread :=
  (t.groups.filter (·.gidx % spread == pos)).flatMap fun g => g.threads.filter fun th => th.lane == lane && !th.exited

/-- Whether a partition can take what a team has at a position. Freed granules and records serve waiting requests first (R34). -/
def State.partFits (s : State) (core part : Nat) (t : Team) (d : Desc) (pos : Nat) : Bool :=
  let gs := fun (t : Team) (f : Group → Bool) => (t.groups.filter f).length
  let here := ((s.teamsOn core).filter (!·.retired)).foldl (fun n x => n + gs x (·.part == part)) 0
  decide (here + gs t (·.gidx % d.spread == pos) ≤ 32) && !s.owesFrames core part &&
  (List.range 16).all fun l =>
    let new := t.inLane d.spread pos l
    let old := s.laneThreads core part l
    let use := (new.flatMap fun th => th.frames.map Frame.use).foldl LaneUse.add (s.laneUse core part l)
    let priv := old.foldl (fun n x => n + ((s.team? x.1).map (·.desc.priv)).getD 0) (new.length * d.priv)
    decide (old.length + new.length ≤ 64) && decide (use.gran ≤ 384) && decide (use.recs ≤ 256) && decide (use.spill ≤ 128) && decide (priv ≤ 4096)

/-- Partitions for the positions of a team, the fullest position first, each the lowest that fits and is not taken yet. -/
def State.choose (s : State) (core : Nat) (t : Team) (d : Desc) : List Nat → List (Nat × Nat) → Option (List (Nat × Nat))
  | [], taken => some taken
  | p :: ps, taken =>
    match (List.range 16).find? fun k => !(taken.any (·.2 == k)) && s.partFits core k t d p with
    | some k => s.choose core t d ps (taken ++ [(p, k)])
    | none => none

/-- Room for a team on a core: slot, units, tile entries, partitions, and the window of its reservation (R47, R78, R79, R92, R247). One that
returns takes the slot it had, which TQRY shows (R93, R313). -/
def State.roomFor (s : State) (core : Nat) (t : Team) (d : Desc) : Option Place4 :=
  let ts := s.teamsOn core
  let free := (List.range 24).filter fun u => !ts.any fun x => x.units.contains u
  let slot := if t.swapped then (if ts.any (·.slot == t.slot) then none else some t.slot) else (List.range 256).find? fun k => !ts.any (·.slot == k)
  let tiles := freeRun (fun k => ts.any fun x => x.tileBase ≤ k && k < x.tileBase + x.desc.tiles) d.tiles 64
  let size := fun (p : Nat) => ((t.groups.filter (·.gidx % d.spread == p)).map fun g => g.threads.length).foldl (· + ·) 0
  let order := sortBy (fun p => 2048 - size p) (List.range d.spread)
  let win := match t.resv with
    | some r => if (List.range 2).any fun e => r.eng.getLsbD e && ts.any fun x => (match x.resv with | some q => q.eng.getLsbD e | none => false) then none
        else freeRun (fun k => ts.any fun x => match x.resv with | some q => q.base ≤ k && k < q.base + q.count | none => false) r.count 512
    | none => some 0
  match slot, tiles, s.choose core t d order [], win with
  | some sl, some tb, some ps, some b =>
    if d.scr + d.csh ≤ free.length then
      some { slot := sl, units := free.take (d.scr + d.csh), tileBase := tb, base := b,
             parts := (List.range d.spread).map fun p => ((ps.find? (·.1 == p)).map (·.2)).getD 0 }
    else none
  | _, _, _, _ => none

/-- A team in its place. -/
def Team.settleAt (t : Team) (core : Nat) (p : Place4) (spread : Nat) : Team :=
  { t with core := core, slot := p.slot, units := p.units, tileBase := p.tileBase, parts := p.parts,
           resv := t.resv.map fun r => { r with base := p.base },
           groups := t.groups.map fun g => { g with part := p.parts.getD (g.gidx % spread) 0 } }

/-- The cores of a cluster whose corner is `core`, by rank (R46). -/
def rectangle (core : Nat) (d : Desc) : Option (List Nat) :=
  let x := core % 48 % 8
  let y := core % 48 / 8
  if x + d.clw + 1 ≤ 8 ∧ y + d.clh + 1 ≤ 6 then
    some ((List.range (d.clh + 1)).flatMap fun k => (List.range (d.clw + 1)).map fun i => core / 48 * 48 + 8 * (y + k) + x + i)
  else none

/-- Whether a slice's teams may run on a core: column or class pool, no clock change, no other slice's reserve (R303, R308, R315). -/
def State.coreServes (s : State) (x : Slice) (core : Nat) : Bool :=
  let c := columnOfCore core
  (if x.desc.home then x.column == c else (s.column c).cls == x.desc.cls) && !(s.column c).changing &&
  !s.reserves.any fun r => r.cores.contains core && !(r.ctx == x.ctx && r.slice == x.id)

/-! ### Waits of a team that may swap (R312, R313) -/

/-- Whether a thread waits at one of R312's waits, and that wait has not ended: at its own, with the set it is held with, or in place with
the set of its group's clause. The end of a SLYLD meeting counts while every thread of the team still stands at it (R321). -/
def State.swapWait (s : State) (t : Team) (g : Group) (th : Thread) : Bool :=
  let one := fun (x : Thread) => match x.wait with
    | .mwait d => !(x.watch.map (·.seen) |>.getD true) && !(match d with | some u => decide (u ≤ s.time) | none => false)
    | .bar _ _ => !t.waitEnded x
    | .slyld => true
    | .slyldDone false => t.allAt (.slyldDone false)
    | _ => false
  let inPlace := match g.clause with
    | some c => g.stalled && c.set.contains th.tidx && (match t.standing g with
      | some i => i.awaitsHandle || (i.joined.any fun h => !s.ended t.ctx h) || i.co.any fun x => match x.wait with
        | .queue idx => s.queueFull i x idx
        | _ => false
      | none => false)
    | none => false
  inPlace || (if th.held.isEmpty then one th else th.held.any fun k => g.threads.any fun x => x.tidx == k && !x.exited && one x)

/-- Whether a swapped-out team may return: a wait of it has ended, or it left for pre-emption and its context is back (R313, R314). -/
def State.eligible (s : State) (t : Team) : Bool :=
  t.swapped && (t.evicted || t.killed || t.groups.any fun g => g.threads.any fun th => !th.exited && !s.swapWait t g th)

/-! ### Admission (R307, R308) -/

/-- A thread of a new team (R18, R33). -/
def newThread (d : Desc) (t : Nat) : Thread :=
  let j := t % d.width
  { tidx := t, lane := j % 16, slot := j / 16, pc := d.entry + 4, frames := [newFrame d.frame] }

/-- A new team (R18, R33); its place is set later. -/
def newTeam (x : Slice) (uid index core cluster rank : Nat) : Team :=
  let d := x.desc
  { uid := uid, ctx := x.ctx, slice := x.id, desc := d, index := index, core := core, cluster := cluster, rank := rank, parts := [], slot := 0, units := [],
    tileBase := 0,
    groups := (List.range d.groups).map fun g =>
      { gidx := g, part := 0, threads := sortBy Thread.laneOrd ((List.range (min d.width (d.tsize - g * d.width))).map fun j =>
          newThread d (g * d.width + j)) } }

/-- Some groups of a team come to their partitions, youngest last: while there are places the eligible parked groups, those before them first, are
promoted (R41, R43). That a group which comes to a core enters the active set only in its turn among the parked ones, and that it has then been
promoted as R45 means it, is the model's choice (log 78). -/
def State.seat (s : State) (u : Nat) (gs : List Group) : State :=
  match s.team? u with
  | none => s
  | some t =>
    let s := s.updTeam u fun t => { t with groups := t.groups.map fun g => if gs.any (·.gidx == g.gidx) then { g with active := false } else g }
    let s := gs.foldl (fun s g => s.toPool u g.gidx) s
    (dedup t.parts).foldl (fun s p => (List.range 8).foldl (fun s _ => s.promote t.core p) s) s

/-- The storage of a team's units reads zero, with fresh check values (R79); no reader finds there what another holder wrote. -/
def State.zeroUnits (s : State) (core : Nat) (units : List Nat) : State :=
  units.foldl (fun s u =>
    let lo := locSram core (u * 65536)
    { s with mem := Memory.clear s.mem lo (lo + 65536), bad := s.bad.filter (fun b => !(lo / 64 ≤ b && b < lo / 64 + 1024)),
             past := s.past.filter fun p => !(lo / 16 ≤ p.unit && p.unit < lo / 16 + 4096) }) s

/-- A team is admitted at place `p` of T: what its threads and the operations they issue do stands after it (R115). -/
def Team.bornAt (t : Team) (p : Nat) : Team :=
  { t with started := true, groups := t.groups.map fun g => { g with threads := g.threads.map fun th => { th with pts := p, sync := p } } }

/-- One member of a gang takes its place; its tile entries are EMPTY (R92), and its threads' accesses stand after its admission (R115). -/
def State.admitOne (s : State) (x : Slice) (index core cluster rank : Nat) : State :=
  let t := newTeam x s.seq index core cluster rank
  match s.roomFor core t x.desc with
  | none => s
  | some p =>
    let t := (t.settleAt core p x.desc.spread).bornAt s.tick
    let s := { s with seq := s.seq + 1, teams := s.teams ++ [t],
                      tiles := s.tiles.filter fun e => !(core * 64 + p.tileBase ≤ e.1 && e.1 < core * 64 + p.tileBase + x.desc.tiles) }
    (s.zeroUnits core p.units).seat t.uid t.groups

/-- The rank of a ready slice: earliest deadline, then ready event (R307). -/
def Slice.rank (x : Slice) : Nat := (if x.desc.deadline = 0 then 2 ^ 64 else x.desc.deadline) * 2 ^ 80 + x.ready.getD 0

/-- Slices with unclaimed teams that compete (R307, R308, R311, R314). -/
def State.competing (s : State) : List Slice :=
  sortBy Slice.rank (s.slices.filter fun x => x.ready.isSome && !x.closed && !x.complete && decide (x.next < x.desc.total) &&
    s.admits x.ctx)

/-- The cores on which the next team or gang of a slice fits, with `core` its corner. -/
def State.canHost (s : State) (x : Slice) (core : Nat) : Option (List Nat) :=
  (rectangle core x.desc).filter fun cs => cs.all fun c => s.coreServes x c && (s.roomFor c (newTeam x 0 0 c 0 0) x.desc).isSome

/-- The class a slice competes in on its own terms: its column's for HOME. -/
def State.classOf (s : State) (x : Slice) : Nat := if x.desc.home then (s.column x.column).cls else x.desc.cls

/-- The slice of a team, or, where it has completed and its entry is gone while operations keep the team (R48, R278), what stands for it:
a HOME team's column is that of the core it left. -/
def State.sliceOf (s : State) (t : Team) : Slice :=
  (s.slice? t.ctx t.slice).getD { id := t.slice, ctx := t.ctx, desc := t.desc, column := columnOfCore t.core, joined := false, ready := none, left := 0 }

/-- The cores to which a swapped-out cluster of a slice may return, `core` being the corner (R313). They may be of another die: DIE, which R313's
list leaves out, then changes as COLUMN does (log 79). -/
def State.returnTo (s : State) (x : Slice) (ms : List Team) (core : Nat) : Option (List Nat) :=
  (rectangle core x.desc).filter fun cs => ms.all fun m => s.coreServes x (cs.getD m.rank 0) && (s.roomFor (cs.getD m.rank 0) m x.desc).isSome

/-- Whether an eligible swapped-out cluster of the class could return to one of some cores: it ranks before every unclaimed team (R313). -/
def State.returnsFirst (s : State) (cls : Nat) (cs : List Nat) : Bool :=
  s.teams.any fun t => t.swapped && t.rank == 0 &&
    let ms := s.teams.filter (·.cluster == t.cluster)
    let x := s.sliceOf t
    ms.any s.eligible && s.admits t.ctx && s.classOf x == cls && (List.range 192).any fun k => match s.returnTo x ms k with
      | some places => places.any cs.contains
      | none => false

/-- TEAM_ADMIT (R308, R47): the core claims the next team, or gang, of the highest-ranked slice it can seat; an eligible team that was
swapped out returns before (R313). A gang once placed, its slice ranks anew. -/
def execTeamAdmit (core : Nat) (s : State) : Host.Outcome State Fault Refusal :=
  match s.competing.findSome? fun x => (s.canHost x core).map fun cs => (x, cs) with
  | none => .next s
  | some (x, cs) =>
    if s.returnsFirst (s.classOf x) cs then .next s else
    let cluster := s.seq
    let s := { s with seq := s.seq + 1 }
    let s := ((List.range cs.length).zip cs).foldl (fun s c => s.admitOne x (x.next + c.1) c.2 cluster c.1) s
    .next { s.updSlice x.ctx x.id (fun y => { y with next := y.next + cs.length, topAt := none }) with
      reserves := s.reserves.filter fun r => !(r.ctx == x.ctx && r.slice == x.id) }

/-- The slices that rank first, each in its class, or in its column for HOME (R307). -/
def State.tops (s : State) : List Slice :=
  s.competing.filter fun x => !s.competing.any fun y => y.rank < x.rank && s.classOf y == s.classOf x && (!y.desc.home || (x.desc.home && x.column == y.column))

/-- Since when each slice has ranked first. -/
def State.markTops (s : State) : State :=
  let top := s.tops
  { s with slices := s.slices.map fun x => { x with topAt := if top.any (fun y => y.ctx == x.ctx && y.id == x.id) then x.topAt.orElse fun _ => some s.time else none } }

/-- The rectangle from a corner that the Fold may promise to a cluster slice: it has ranked first for 100 µs and has none yet (R308). -/
def State.promise (s : State) (x : Slice) (core : Nat) : Option (List Nat) :=
  let long := match x.topAt with | some t => decide (t + 100000 ≤ s.time) | none => false
  if decide (x.desc.csize > 1) && long && !s.reserves.any (fun r => r.ctx == x.ctx && r.slice == x.id) then
    (rectangle core x.desc).filter fun cs => cs.all (s.coreServes x)
  else none

/-- CLUSTER_PLACE_TIMEOUT (R308): a cluster that has ranked first for 100 µs is promised a rectangle. Contexts give their slices equal ids: of those
that have waited so long the highest-ranked that may have this rectangle gets it. -/
def execClusterPlaceTimeout (slice : Word) (core : Nat) (s : State) : Host.Outcome State Fault Refusal :=
  match s.competing.findSome? fun x => if x.id = slice then (s.promise x core).map fun cs => (x, cs) else none with
  | none => .next s
  | some (x, cs) => .next { s with reserves := s.reserves ++ [⟨x.ctx, slice, cs⟩] }

/-! ### The other instructions (R318–R324) -/

/-- DEPDEC (R320, R382, R416). -/
def execDepdec (w : Rrr) (s : State) : Host.Outcome State Fault Refusal :=
  let v := w.dev 0xF1
  .next (runWord v (fun i s =>
    match i.lead, i.ctx s with
    | some l, some c =>
      let n := bits (v.b32 l) 11 0
      if n ≥ c.cn then i.trapWord s 1 8 [l.tidx]
      else
        let s := s.decCounter i.team.ctx n (some (i.who l))
        .ok (i.upd s i.acts fun t => t.setVs (v.wd (BitVec.ofNat 32 (c.counter n - 1))))
    | _, _ => .ok s) s)

/-- SLYLD (R321): the meeting of the whole team. -/
def execSlyld (w : Rrr) (s : State) : Host.Outcome State Fault Refusal :=
  let v := w.dev 0xF2
  .next (runWord v (fun i s =>
    let done := fun (t : Thread) => match t.wait with | .slyldDone _ => true | _ => false
    let s := (i.upd s i.acts fun t => if done t then t else { t with wait := .slyld }).meet i.team.uid
    if (i.nowActs s).all done then
      .ok (i.upd s i.acts fun t => ({ t with wait := .run } : Thread).setVs (v.wd (if t.wait = .slyldDone true then 1 else 0)))
    else .wait s) s)

/-- What is left of a limit (R322). -/
def leftOf (limit used : Nat) : Addr := if limit = 0 then BitVec.allOnes 64 else BitVec.ofNat 64 (limit - used)

/-- BUDGT (R322). -/
def execBudgt (w : Rrr) (s : State) : Host.Outcome State Fault Refusal :=
  let v := w.dev 0xF3
  .next (runWord v (fun i s =>
    match s.slice? i.team.ctx i.team.slice with
    | none => .ok s
    | some x =>
      let val := match v.b.toNat % 4 with
        | 0 => leftOf x.desc.budget x.cycles
        | 1 => BitVec.ofNat 64 x.cycles
        | 2 => leftOf x.desc.equota x.energy
        | _ => BitVec.ofNat 64 x.desc.deadline
      .ok (i.upd s i.acts fun t => t.setVs (v.wdd val))) s)

/-- PTRAP (R323). -/
def execPtrap (w : Rrr) (s : State) : Host.Outcome State Fault Refusal :=
  let v := w.dev 0xF4
  .next (runWord v (fun i s =>
    match i.lead with
    | none => .ok s
    | some l =>
      .ok (i.upd (s.updTeam i.team.uid fun t => { t with throttleMask := (v.b32 l).extractLsb' 0 2 }) i.acts fun t =>
        t.setVs (v.wd (i.team.throttleMask.setWidth 32)))) s)

/-- The counters of R324 that the machine keeps, none for the prefetch counters. -/
def State.pstat (s : State) (core n : Nat) : Option Nat :=
  let k := s.core core
  let c := s.column (columnOfCore core)
  match n with
  | 0x0000 => some k.homeLoc
  | 0x0001 => some k.homeRem
  | 0x0030 => some k.tdSpill
  | 0x0031 => some k.tdRefill
  | 0x0032 => some k.tdHbm
  | 0x0040 => some c.level
  | 0x0041 => some c.cls
  | 0x0042 => some c.events
  | _ => none

/-- PSTAT (R324, R382): counted on SETA. A prefetch counter has risen by a free value since it was last
read (R123; log 2). -/
def execPstat (w : Rrr) (s : State) : Host.Outcome State Fault Refusal :=
  let v := w.dev 0xF5
  .next (runWord v (fun i s =>
    match i.lead with
    | none => .ok s
    | some l =>
      let n := bits (v.b32 l) 15 0
      let unit := bits (v.b32 l) 23 16
      if !pstatNamed n unit then i.trapWord s 1 8 [l.tidx]
      else
        let out := fun (s : State) (val : Nat) => Done.ok (i.deliver s 2 8 1 [{ thr := l, ea := 0, vals := leWords 2 (toLe 8 val), blocks := [] }])
        match s.pstat i.team.core n with
        | some val => out s val
        | none =>
          let key := i.team.core * 512 + unit * 256 + n
          let val := (tgetD s.pf key 0 + (Config.freeDouble s.draws).toNat) % 2 ^ 64
          out { s with draws := s.draws + 1, pf := tset s.pf key val } val) s)

/-- UNASSIGNED_OPCODE (R381): ILLEG SUB 0x01, whatever the other bits hold. -/
def execUnassignedOpcode (op : BitVec 8) (w : Rrr) (s : State) : Host.Outcome State Fault Refusal :=
  let v := w.dev op
  .next (runWord v (fun _ s => .ok s) s)

/-! ### SYSC (R337–R339) -/

/-- The physical address of record `k` of a column's service ring. -/
def ringRec (ring k : Nat) : Nat := ring + 64 * k
/-- `n` bytes of a column's ring at a physical address, as its die reads them (R90), with the state after the read. Those of a ring in host memory are
asked for as read `key` and are none until they have come (R117); they are forgotten once used, so that the next look is a read of its own. -/
def State.ringRead (s : State) (column pa n key : Nat) : State × Option (List Byte) :=
  if !hostPa pa then (s, some (s.peekPa pa n (dieOfColumn column)))
  else match tget (s.column column).fromHost key with
    | some bs => (s.updColumn column fun c => { c with fromHost := tdel c.fromHost key }, some bs)
    | none => (if s.loads.any fun l => l.reader == some (.ring column) && l.key == key then s
        else s.askHost (.ring column) (2 ^ 64) 0 [] (BitVec.ofNat 64 pa) pa n key, none)

/-- The STATUS of a record, read as `ringRead` reads. -/
def State.ringStatus (s : State) (column ring k key : Nat) : State × Option Nat :=
  let r := s.ringRead column (ringRec ring k + 48) 4 key
  (r.1, r.2.map leNat)

/-- A request's record but for STATUS (R338): bytes 0–47 and 52–63. -/
def Iss.request (i : Iss) (t : Thread) : List Byte × List Byte :=
  (toLe 4 i.team.ctx ++ toLe 4 i.team.slice.toNat ++ toLe 4 t.tidx ++ toLe 2 (i.dev.imm % 4096) ++ toLe 1 i.team.core ++ [0] ++ wordsLe (t.vs i.dev.d.toNat 8),
   List.replicate 12 0)

/-- Post a request at the column's post index: STATUS := 0 last, then ESVC (R339). -/
def Iss.postRequest (i : Iss) (s : State) (t : Thread) (ring : Nat) : State :=
  let c := columnOfCore i.team.core
  let k := (s.column c).post
  let r := i.request t
  let s := (s.pokePa (ringRec ring k) r.1).pokePa (ringRec ring k + 52) r.2
  let s := (s.pokePa (ringRec ring k + 48) (toLe 4 0)).updColumn c fun x => { x with post := (k + 1) % 64, posted := x.posted + 1 }
  i.upd (s.setMip c 16) [t.tidx] fun th => { th with wait := .sysc k }

/-- SYSC (R337): the threads ask one after another, in lane order, each once the record at the post index is free (R339); their later accesses stand
after the service's (R115). -/
def execSysc (w : Ri) (s : State) : Host.Outcome State Fault Refusal :=
  let v := w.dev 0xFA
  .next (runWord v (fun i s =>
    if i.act.isEmpty then .ok s
    else match (s.column (columnOfCore i.team.core)).ring with
    | none => i.trapWord s 1 0xA i.cos
    | some ring =>
      let args := fun (t : Thread) => match t.wait with | .syscDone a => some a | _ => none
      match i.doers.find? fun t => (args t).isNone with
      | none => .ok (i.upd s i.acts fun t => ({ t with wait := .run, pts := s.tick } : Thread).setVs (v.wds ((args (i.src t)).getD [])))
      | some t => match t.wait with
        | .sysc _ => .wait s
        | _ =>
          let c := columnOfCore i.team.core
          let r := s.ringStatus c ring (s.column c).post 0
          .wait (if r.2 = some 2 then i.postRequest r.1 t ring else r.1)) s)

/-- A reply reaches the thread that waits for record `k` of a column's ring (R337). -/
def State.giveReply (s : State) (column k : Nat) (args : List Word) : State :=
  let get := fun (th : Thread) => if th.wait = .sysc k then { th with wait := .syscDone args } else th
  let give := fun (t : Team) => if columnOfCore t.core = column then { t with groups := t.groups.map fun g => { g with threads := g.threads.map get } } else t
  { s with teams := s.teams.map give }

/-- SYSC_REPLY (R339): the device sees STATUS 1 in the oldest record it posted, reads ARGS and returns them, and frees the record. -/
def execSyscReply (column : Nat) (s : State) : Host.Outcome State Fault Refusal :=
  let c := s.column column
  match c.ring with
  | none => .next s
  | some ring =>
    let at_ := ringRec ring c.served
    let asked := (tget c.fromHost 2).isSome || s.loads.any fun l => l.reader == some (.ring column) && l.key == 2
    let r := if asked then (s, some 1) else s.ringStatus column ring c.served 1
    if c.posted = 0 then .next s
    else if r.2 ≠ some 1 then .next r.1
    else match r.1.ringRead column (at_ + 16) 32 2 with
      | (s, none) | (s, some []) => .next s
      | (s, some bs) => .next (((s.giveReply column c.served (leWords 8 bs)).pokePa (at_ + 48) (toLe 4 2)).updColumn column fun x =>
          { x with served := (c.served + 1) % 64, posted := c.posted - 1 })

end Sys2Proof.Machine
end

