-- ==== Sys2Proof/Machine/Swap.lean ====
section
/-! DEFINITION. Swap and pre-emption (R281, R312–R314, R422), deadlock (R418), throttling (R316, R317), classes (R315), walks and
invalidations (R332–R336). -/

namespace Sys2Proof.Machine

/-! ### Context reset (R422) -/

/-- The context is reset: its teams, operations, slices and requests go; `sub` is that of the entry. Its threads exit as a kill makes them, their failed
merges posted, and the stores that await their merge go on to report it (R402). With no `sub` nothing is posted (R435). -/
def State.resetContext (s : State) (ctx : Nat) (sub : Option Nat) : State :=
  match s.ctx? ctx with
  | none => s
  | some c =>
    let mine := s.teams.filter (·.ctx == ctx)
    let isMine := fun (u : Nat) => mine.any (·.uid == u)
    let ops := s.ops.filter (·.ctx == ctx)
    let gone := fun (u : Nat) => ops.any (·.uid == u)
    let keep := fun (x : User) => match x with | .op u => !gone u | .issue u _ _ => !isMine u
    let pending := fun (id : Word) => match s.slice? ctx id with | some x => x.ready.isSome | none => false
    let join := fun (h : Nat × Hart) => match h.2.joinId with
      | some (k, id) => if k = ctx then (h.1, { h.2 with joinId := none, joinVal := some (if pending id then 0x14 else BitVec.allOnes 64) }) else h
      | none => h
    let read := fun (l : Load) => match l.reader with
      | some (.op u) => gone u
      | some (.queue q) => s.queues.any fun x => x.id == q && x.ctx == ctx
      | _ => false
    let freed := (mine.filter (!·.swapped)).flatMap fun t => (List.range t.desc.tiles).map fun i => t.core * 64 + t.tileBase + i
    let s := if sub.isNone then s else
      mine.foldl (fun s t => t.groups.foldl (fun s g => s.postMerges t.uid g.gidx ((g.threads.filter (!·.exited)).map (·.tidx))) s) s
    let s : State := { s with
      teams := s.teams.filter (·.ctx != ctx),
      ops := s.ops.filter (·.ctx != ctx),
      slots := s.slots.map fun x => (x.1, if (x.2.op.map gone).getD false then { x.2 with op := none } else x.2),
      tiles := s.tiles.filter fun e => !freed.contains e.1,
      accs := s.accs.map fun a => (a.1, { a.2 with order := a.2.order.filter keep }),
      loads := s.loads.filter fun l => !(isMine l.team || read l),
      frameReqs := s.frameReqs.filter fun r => !isMine r.team,
      cacheOps := s.cacheOps.filter fun x => !isMine x.team,
      slices := s.slices.filter (·.ctx != ctx),
      owing := s.owing.filter (·.ctx != ctx),
      reserves := s.reserves.filter (·.ctx != ctx),
      stiles := s.stiles.map fun l => if l.ctx = ctx then { l with reqs := [] } else l,
      bkpt := s.bkpt.filter (· != ctx),
      harts := s.harts.map join }
    let s := s.updCtx ctx fun c => { c with phase := .wiped, orphans := [] }
    match sub with
    | some n => s.post ctx c.hart { cause := 0x14, src := 5, sub := n }
    | none => s

/-! ### Moving teams (R281, R312–R314) -/

/-- A byte of a swapped-out team's units in its save area. -/
def savedLoc (u off : Nat) : Nat := 2 ^ 61 + u * 2 ^ 21 + off

/-- A location after runs of 64 KiB move. -/
def movedLoc (runs : List (Nat × Nat)) (l : Nat) : Nat :=
  match runs.find? fun r => r.1 ≤ l && l < r.1 + 65536 with
  | some r => r.2 + (l - r.1)
  | none => l

/-- Runs of storage move, with their check blocks, watches, recent writes and the old units that copies keep (R114). -/
def State.moveRuns (s : State) (runs : List (Nat × Nat)) : State :=
  let here := fun (l : Nat) => runs.any fun r => r.1 ≤ l && l < r.1 + 65536
  let watch := fun (th : Thread) => { th with watch := th.watch.map fun w => { w with line := movedLoc runs (w.line * 128) / 128 } }
  let key := fun (e : Nat × List Byte) => if 2 ^ 90 ≤ e.1 ∧ e.1 < 2 ^ 100 then (2 ^ 90 + movedLoc runs ((e.1 - 2 ^ 90) * 16) / 16, e.2) else e
  { s with mem := Memory.puts (s.mem.filter fun c => !here c.1) ((s.mem.filter fun c => here c.1).map fun c => (movedLoc runs c.1, c.2)),
           bad := s.bad.map fun b => movedLoc runs (b * 64) / 64,
           past := s.past.map fun p => { p with unit := movedLoc runs (p.unit * 16) / 16 },
           teams := s.teams.map fun t => { t with groups := t.groups.map fun g => { g with threads := g.threads.map watch } },
           ops := s.ops.map fun o => { o with lines := (o.lines.map key).foldl (fun l e => tset l e.1 e.2) [] } }

/-- Entries of a table move from keys `a + k` to `b + k`, for `k` below `n`. -/
def moveKeys {α : Type} (t : Tab α) (a b n : Nat) : Tab α :=
  let mine := fun (e : Nat × α) => a ≤ e.1 && e.1 < a + n
  ((t.filter mine).map fun e => (b + (e.1 - a), e.2)).foldl (fun t e => tset t e.1 e.2) (t.filter fun e => !mine e)

/-- The runs of a team's units towards its save area. -/
def Team.runs (t : Team) : List (Nat × Nat) :=
  (List.range t.units.length).zip t.units |>.map fun x => (locSram t.core (x.2 * 65536), savedLoc t.uid (x.1 * 65536))

/-- Whether every access a team has made to storage has come to its end, and every row and chunk its operations have begun (R281). -/
def State.quiet (s : State) (u : Nat) : Bool :=
  !s.loads.any (fun l => l.team == u && l.sysview.isNone) && (!s.stores.any fun x => x.team == u && x.sysview.isNone) &&
  !s.ops.any fun o => o.team == u && o.kind != .queue && !o.st.final && (decide (o.prog < o.sent) || s.midChunk o)

/-- Whether a thread's XQPOST has begun, also one that a trap has interrupted since: its checks have passed (R404). -/
def Thread.posting (th : Thread) : Bool :=
  let begun := fun (w : Wait) => match w with | .posting _ _ _ | .queue _ | .queueDone _ | .postFailed _ _ _ => true | _ => false
  !th.exited && (begun th.wait || (th.resume.map fun x => begun x.2).getD false)

/-- A team with an XQPOST begun comes to another die with the translations under which it stands: the die's unit keeps them too, where it keeps none of
those pages (R404, log 72). -/
def State.bringTrans (s : State) (t : Team) (die : Nat) : State :=
  match if t.threads.any Thread.posting then s.ctx? t.ctx else none with
  | none => s
  | some c =>
    let new := (s.tlb.filter fun e => e.die == dieOfCore t.core && e.asid == c.asid).map fun e => { e with die := die }
    { s with tlb := s.tlb ++ new.filter fun e => !s.tlb.any e.same }

/-- Whether a thread is in the middle of a word that takes several steps, or in SYSC, under which no team is swapped out (R102, R337). -/
def Thread.midWord (th : Thread) : Bool :=
  match th.wait with
  | .posting _ _ _ | .packet _ | .made _ | .sysc _ | .syscDone _ | .cache _ | .cacheDone => true
  | _ => false

/-- Whether a group stands at a clause boundary, so that its team may leave (R130): its clause is not begun, and no SYSC waits. -/
def Group.mayLeave (t : Team) (g : Group) : Bool :=
  g.atHead && !(g.threads.any fun th => !th.exited && th.midWord) && !(g.stalled && (match t.standing g with
    | some i => i.dev.op == 0xFA
    | none => false))

/-- Checkpoint and move one team out (R281, R312). A SLYLD meeting that this swap answers reads 1 for the whole team (R321). -/
def State.moveOut (s : State) (t : Team) (evict : Bool) : State :=
  let met := !t.live.isEmpty && t.allAt (.slyldDone false)
  let s := s.moveRuns t.runs
  let s : State := { s with
    tiles := moveKeys s.tiles (t.core * 64 + t.tileBase) (savedCore t.uid * 64) t.desc.tiles,
    accs := match t.resv with
      | some r => moveKeys s.accs (t.core * 512 + r.base) (savedCore t.uid * 512) r.count
      | none => s.accs,
    ops := s.ops.map fun o => if o.team = t.uid then { o with engine := none } else o,
    frameReqs := s.frameReqs.filter fun r => r.team != t.uid }
  s.updTeam t.uid fun t =>
    { (if met then t.release (.slyldDone false) (.slyldDone true) else t) with swapped := true, evicted := evict }

/-- A context whose last team has left the device is out (R314). -/
def State.settlePhase (s : State) (ctx : Nat) : State :=
  match s.ctx? ctx with
  | some c => match c.phase with
    | .swapping _ => if s.teams.any fun t => t.ctx == ctx && !t.swapped then s else s.updCtx ctx fun c => { c with phase := .out }
    | _ => s
  | none => s

/-- Whether another team waits for the core that `t` holds (R312). -/
def State.contended (s : State) (t : Team) : Bool :=
  let column := columnOfCore t.core
  s.competing.any fun x => (x.ctx == t.ctx && x.id == t.slice) || (s.classOf x == (s.column column).cls && (!x.desc.home || x.column == column))

/-- TEAM_SWAP_OUT (R281, R312–R314): a cluster whose threads all wait, or whose context is pre-empted, leaves its cores. -/
def execTeamSwapOut (team : Nat) (s : State) : Host.Outcome State Fault Refusal :=
  match s.team? team with
  | none => .next s
  | some t =>
    let members := s.teams.filter (·.cluster == t.cluster)
    let forced := match s.ctx? t.ctx with | some c => (match c.phase with | .swapping _ => true | _ => false) | none => false
    let still := members.all fun m => !m.swapped && s.quiet m.uid && m.groups.all fun g => g.mayLeave m
    let waits := members.all fun m => !m.killed && m.groups.all fun g => g.threads.all fun th => th.exited || s.swapWait m g th
    let live := members.any fun m => !m.live.isEmpty
    if still && (forced || (waits && live && s.contended t)) then .next ((members.foldl (fun s m => s.moveOut m forced) s).settlePhase t.ctx)
    else .next s

/-- An event of the governor reaches a team, or one is raised as it returns (R317). An armed one folds into one that is pending. -/
def State.throttle (s : State) (u : Nat) (begins : Bool) : State :=
  match s.team? u with
  | none => s
  | some t =>
    if !t.throttleMask.getLsbD (if begins then 0 else 1) then s
    else
      let cnt := match t.async.throttle with | some v => min 255 (v.toNat / 256 % 256 + 1) | none => 1
      let v : Addr := BitVec.ofNat 64 (cnt * 256 + begins.toNat * 4 + (s.column (columnOfCore t.core)).level)
      s.raise u 0x11 fun a => { a with throttle := some v }

/-- The groups of a team that has returned take their places again: those that were active come to the pool, the one promoted first before the
others; the parked ones keep their age (R41, R43, R51). -/
def State.reseat (s : State) (u : Nat) : State :=
  match s.team? u with
  | none => s
  | some t => s.seat u (sortBy (·.promotedAt) (t.groups.filter fun g => g.active && g.threads.any (!·.exited)))

/-- Move one team in (R313, R317): its operations go on from the core it stands on (R281). A trap that waited for its return, and has no
handler, kills it now (R311, R367). -/
def State.moveIn (s : State) (t : Team) (core : Nat) : State :=
  match s.roomFor core t t.desc with
  | none => s
  | some p =>
    let t' := t.settleAt core p t.desc.spread
    let s := (s.bringTrans t (dieOfCore core)).zeroUnits core p.units
    let s := s.moveRuns ((t'.runs).map fun r => (r.2, r.1))
    let s : State := { s with
      tiles := moveKeys (s.tiles.filter fun e => !(core * 64 + p.tileBase ≤ e.1 && e.1 < core * 64 + p.tileBase + t.desc.tiles))
        (savedCore t.uid * 64) (core * 64 + p.tileBase) t.desc.tiles,
      accs := match t.resv with
        | some r => moveKeys (s.accs.filter fun e => !(core * 512 + p.base ≤ e.1 && e.1 < core * 512 + p.base + r.count)) (savedCore t.uid * 512) (core * 512 + p.base) r.count
        | none => s.accs,
      ops := s.ops.map fun o => if o.team = t.uid ∧ o.kind ≠ .queue then { o with core := core } else o }
    let s := (s.updTeam t.uid fun x => { x.settleAt core p x.desc.spread with swapped := false, evicted := false }).reseat t.uid
    let low := (s.column (columnOfCore core)).level != 3
    (if low != t.throttled then s.throttle t.uid low else s).asyncKill t.uid

/-- TEAM_SWAP_IN (R313): an eligible team, or a restored one, returns to a core or rectangle that fits; one whose slice has completed too, for the
operations it has left (R281, R314). -/
def execTeamSwapIn (team core : Nat) (s : State) : Host.Outcome State Fault Refusal :=
  match s.team? team with
  | none => .next s
  | some t =>
    let members := s.teams.filter (·.cluster == t.cluster)
    match s.returnTo (s.sliceOf t) members core with
    | none => .next s
    | some cs =>
      if t.swapped && s.admits t.ctx && members.any s.eligible then .next (members.foldl (fun s m => s.moveIn m (cs.getD m.rank 0)) s)
      else .next s

/-- DRAIN_TIMEOUT (R314): the swap begins, and the swap timer with it. -/
def execDrainTimeout (ctx : Nat) (s : State) : Host.Outcome State Fault Refusal :=
  match s.ctx? ctx with
  | none => .next s
  | some c => match c.phase with
    | .draining u => if u ≤ s.time then .next ((s.updCtx ctx fun c => { c with phase := .swapping (s.time + c.swap) }).settlePhase ctx) else .next s
    | _ => .next s

/-- SWAP_TIMEOUT (R314, R422). -/
def execSwapTimeout (ctx : Nat) (s : State) : Host.Outcome State Fault Refusal :=
  match s.ctx? ctx with
  | none => .next s
  | some c => match c.phase with
    | .swapping u => if u ≤ s.time then .next (s.resetContext ctx (some 0x10)) else .next s
    | _ => .next s

/-! ### Deadlock (R418, R420) -/

/-- Whether a handle names an operation of a generation that is still open in a team (R418). -/
def State.opens (s : State) (t : Team) (w : Word) : Bool :=
  match s.named? t.ctx w with
  | some o => o.st == .opening && o.team == t.uid
  | none => false

/-- Whether a thread's own wait is an internal one that has not ended (R418). -/
def Team.internal (t : Team) (x : Thread) : Bool :=
  match x.wait with
  | .bar _ _ => !t.waitEnded x
  | .gsync false | .kwait _ | .slyld => true
  | _ => false

/-- Whether the set of an issue that waits in place is in an internal wait: at its threads' own, for an open generation's operation, or at an MREL that
such an operation holds up (R418). -/
def State.standsInside (s : State) (t : Team) (i : Iss) : Bool :=
  (i.dev.op == 0xC9 && t.mrel == some i.grp.gidx && s.ops.any fun o => o.holdsResv t.uid && o.st == .opening) ||
  (i.joined ++ i.handlesRead).any (s.opens t) || i.co.any t.internal

/-- Whether a thread stands in an internal wait that has not ended (R418): at its own, with the set it is held with, in place with the set of its group's
clause, of the clause that is kept while another set runs its handler, or of the word to which an RTE has sent its set back meanwhile. -/
def State.internalWait (s : State) (t : Team) (g : Group) (th : Thread) : Bool :=
  let inPlace := fun (c : Option Clause) (stalled : Bool) => match c with
    | some c => stalled && c.set.contains th.tidx && ((t.standing { g with clause := some c }).map (s.standsInside t)).getD false
    | none => false
  let back := g.threads.filter fun x => !x.exited && x.held.isEmpty && x.came == .resumed && x.pc == th.pc && !(g.clause.any fun c => c.set.contains x.tidx)
  let again := g.clause.isSome && back.any (·.tidx == th.tidx) && ((s.issueAt t g back).map (s.standsInside t)).getD false
  th.wait == .rejoin || th.atBrx || inPlace g.clause g.stalled || inPlace g.kept true || again ||
    (if th.held.isEmpty then t.internal th else th.held.any fun k => g.threads.any fun x => x.tidx == k && !x.exited && t.internal x)

/-- R418: every thread in an internal wait, and no operation that a BRX meeting depends on still to end. -/
def State.stuck (s : State) (t : Team) : Bool :=
  let met := t.groups.filter fun g => g.threads.any fun th => !th.exited && th.atBrx
  let mates := t.groups.filter fun g => met.any fun m => m.gidx % t.desc.spread == g.gidx % t.desc.spread
  !t.swapped && !t.retired && !t.live.isEmpty &&
  t.groups.all (fun g => g.threads.all fun th => th.exited || s.internalWait t g th) &&
  !s.ops.any fun o => !o.st.final && o.st != .opening && o.flags.any fun f => f.1 == t.uid && mates.any (·.gidx == f.2.1)

/-- R418: a cluster of which every member is stuck, or stands wholly at GSYNC.cluster with every other member stuck or finished. -/
def State.clusterStuck (s : State) (cluster : Nat) : Bool :=
  let ms := s.teams.filter (·.cluster == cluster)
  decide (ms.length > 1) && ms.any s.stuck && ms.all fun t => t.live.isEmpty || s.stuck t ||
    (t.allAt (.gsync true) && ms.all fun o => o.uid == t.uid || o.live.isEmpty || s.stuck o)

/-- Since when teams and clusters have been stuck without a break, as every step finds them (R418). -/
def State.markStuck (s : State) : State :=
  let since := fun (b : Bool) (x : Option Nat) => if b then x.orElse fun _ => some s.time else none
  { s with teams := s.teams.map fun t =>
      { t with stuckAt := since (s.stuck t) t.stuckAt, clusterStuckAt := since (s.clusterStuck t.cluster) t.clusterStuckAt } }

/-- DEADLOCK_TIMEOUT (R418, R420): one entry, and the kill. A cluster that has been stuck for 1 ms is reported as one, though its team has
been so for as long. -/
def execDeadlockTimeout (team : Nat) (s : State) : Host.Outcome State Fault Refusal :=
  match s.team? team with
  | none => .next s
  | some t =>
    let long := fun (x : Option Nat) => match x with | some x => decide (x + 1000000 ≤ s.time) | none => false
    let whole := s.clusterStuck t.cluster && long t.clusterStuckAt
    if whole || (s.stuck t && long t.stuckAt) then
      .next ((s.post t.ctx (columnOfCore t.core) { cause := 0x14, src := 4, sub := if whole then 2 else 1, slice := t.slice, core := t.core }).kill t.uid)
    else .next s

/-! ### Operating classes and throttling (R315–R317) -/

/-- COLUMN_CLASS_MOVE (R315, R331): an idle column moves towards the pools' counts; it admits nothing until its clock has changed. What its
cores' CLOCK counts so far is kept (R172). -/
def execColumnClassMove (column cls : Nat) (s : State) : Host.Outcome State Fault Refusal :=
  let c := s.column column
  let count := fun (k : Nat) => ((List.range 48).filter fun x => (s.column x).cls == k).length
  let busy := s.teams.any fun t => !t.swapped && columnOfCore t.core == column
  if busy || c.changing || c.cls == cls || count c.cls ≤ s.poolGoal.getD c.cls 0 || s.poolGoal.getD cls 0 ≤ count cls then .next s
  else .next (s.updColumn column fun c => { c with cls := cls, changing := true, clockBase := c.ticks s.time, clockSince := s.time })

/-- CLOCK_CHANGE_DONE (R315). -/
def execClockChangeDone (column : Nat) (s : State) : Host.Outcome State Fault Refusal :=
  .next (s.updColumn column fun c => { c with changing := false })

/-- GRANT_LEVEL_STEP (R14, R316, R317, R431): one step towards the governor's target, at most once a microsecond; a die whose draw is near its
share has all its columns' levels go down. -/
def execGrantLevelStep (column : Nat) (s : State) : Host.Outcome State Fault Refusal :=
  let c := s.column column
  let target := if c.heldZero || c.dieDrawn then 0 else c.target
  if c.level = target ∨ (c.steppedAt ≠ 0 ∧ s.time + 1 < c.steppedAt + 1000) then .next s
  else
    let new := if target < c.level then c.level - 1 else c.level + 1
    let begins := c.level == 3
    let event := begins || new == 3
    let s := s.updColumn column fun c => { c with level := new, steppedAt := s.time + 1, events := c.events + event.toNat }
    let s := if target < c.level then s.tally 5 (dieOfColumn column) else s
    if !event then .next s
    else .next ((s.teams.filter fun t => !t.swapped && !t.retired && columnOfCore t.core == column).foldl (fun s t => s.throttle t.uid begins) s)

/-! ### Walks and invalidations (R332–R336) -/

/-- WALK_RETURN (R332): the result of a walk, read when it returns, is kept, and the groups that wait for it go on; a walk that fails keeps
nothing, and they meet its cause. -/
def execWalkReturn (die walk : Nat) (s : State) : Host.Outcome State Fault Refusal :=
  match s.walks.find? fun w => w.id == walk && w.die == die && !w.returned with
  | none => .next s
  | some w =>
    let done : State := { s with walks := s.walks.filter (·.id != walk) }
    match s.ctx? w.ctx with
    | none => .next done
    | some c => match walkFrom s w.va die 5 c.root with
      | .error _ => .next { s with walks := mapWhere (·.id == walk) (fun w => { w with returned := true }) s.walks }
      | .ok l => .next (if (s.kept? die c.asid w.va).isSome then done else done.keep (l.trans die c.asid w.va))

/-- Whether an invalidation covers some bytes for an ASID (R334). -/
def Inval.covers (i : Inval) (lo n : Nat) : Bool :=
  i.pages == 0 || (decide (lo < i.va + i.pages * 4096) && decide (i.va < lo + n))

/-- Whether an invalidation is for an ASID (R334). -/
def Inval.isFor (i : Inval) (asid : Nat) : Bool := match i.asid with | some x => x == asid | none => true

/-- Whether an invalidation removes an entry: one that could translate an address of its range for its ASID, whole (R334). -/
def Inval.removes (i : Inval) (e : Trans) : Bool :=
  (i.isFor e.asid || pteBit e.pte 5) && i.covers (e.vpn * leafSize e.level e.napot) (leafSize e.level e.napot)

/-- Whether an invalidation may take away, on a die, what a context's accesses there use. -/
def State.touches (s : State) (die : Nat) (i : Inval) (ctx : Nat) : Bool :=
  match s.ctx? ctx with
  | none => false
  | some c => i.isFor c.asid || s.tlb.any fun e => e.die == die && e.asid == c.asid && i.removes e

/-- Whether what has begun on a die under the old translations goes on (R404): an MMA's row, a chunk or a packet's read that waits for the host, or
an XQPOST whose checks have passed, of a team that is swapped out too, whichever die it returns to. It is finished before the die's unit receives an
invalidation (log 72). -/
def State.begunOn (s : State) (die : Nat) (i : Inval) : Bool :=
  !s.stopped &&
  ((s.ops.any fun o => s.midChunk o && dieOfCore o.core == die && s.touches die i o.ctx) ||
   (s.teams.any fun t => s.touches die i t.ctx && t.threads.any Thread.posting) ||
   s.queues.any fun q => q.die == die && s.touches die i q.ctx &&
     ((!q.host.isEmpty && !q.blocked && !s.queueAway q) || s.loads.any fun l => l.reader == some (.queue q.id)))

/-- INVALIDATION_RECEIVE (R334, R335): a participant removes the entries of the range; results of walks in flight are discarded. A base core keeps no
entries between its accesses, each of which walks anew, so that there is none to remove (DESIGN CHOICE, log 88). -/
def execInvalidationReceive (who : Participant) (inv : Nat) (s : State) : Host.Outcome State Fault Refusal :=
  match s.invals.find? fun i => i.id == inv && i.toReceive.contains who with
  | none => .next s
  | some i =>
    let got := fun (i : Inval) => match who with
      | .unit d => tset i.gotAt d s.seq
      | .hart _ => i.gotAt
    let told : State := { s with invals := mapWhere (·.id == inv) (fun i => { i with toReceive := i.toReceive.filter (· != who), gotAt := got i }) s.invals }
    match who with
    | .hart _ => .next told
    | .unit d =>
      if s.begunOn d i then .next s
      else .next { told with
        queues := mapWhere (fun q => q.die == d && s.queueAway q && s.touches d i q.ctx) (fun q => { q with host := [] }) s.queues
        tlb := s.tlb.filter fun e => !(e.die == d && i.removes e),
        walks := s.walks.filter fun w => !(w.die == d && (match s.ctx? w.ctx with | some c => i.isFor c.asid | none => true) && i.covers (w.va / 4096 * 4096) 4096) }

/-- Whether an operation on a die still holds a translation of the range: that of its completion store, checked with its last chunk. -/
def State.holdsTarget (_s : State) (die : Nat) (i : Inval) (o : Op) : Bool :=
  !o.st.final && (match o.cw with | some e => e.die == die && i.removes e | none => false)

/-- Whether an access that went through a removed entry, before the participant received the invalidation, has still to reach its end: a load whose data
has not come, or a store, atomic or reduction that is not acknowledged, of device memory or of the host's, whoever made it. -/
def State.stillOut (s : State) (i : Inval) (mine : Trans → Bool) (before : Nat → Bool) : Bool :=
  let under := fun (x : Option Trans) => match x with | some e => mine e && i.removes e | none => false
  (s.loads.any fun l => before l.id && under l.via) || s.stores.any fun x => before x.id && under x.via

/-- The number that names a hart's translations in `Trans.die`, apart from the dies' own units. -/
def hartUnit (h : Nat) : Nat := 2 ^ 8 + h

/-- INVALIDATION_ACK (R334, R335): once it has received it, and nothing on its die, or of its own earlier accesses, goes on under a translation that
it has removed, a participant acknowledges; the last acknowledgement ends the invalidation. -/
def execInvalidationAck (who : Participant) (inv : Nat) (s : State) : Host.Outcome State Fault Refusal :=
  match s.invals.find? fun i => i.id == inv && !i.toReceive.contains who && i.toAck.contains who with
  | none => .next s
  | some i =>
    let waits := match who with
      | .unit d => !s.stopped && (s.ops.any (s.holdsTarget d i) || s.stillOut i (·.die == d) fun id => decide (id < tgetD i.gotAt d 0))
      | .hart h => s.stillOut i (·.die == hartUnit h) fun id => decide (id < i.id)
    if waits then .next s else
    let l := mapWhere (·.id == inv) (fun (i : Inval) => { i with toAck := i.toAck.filter (· != who) }) s.invals
    .next { s with invals := l.filter fun i => !i.toAck.isEmpty }

end Sys2Proof.Machine
end

