-- ==== Sys2Proof/Machine/Fold.lean ====
section
/-! DEFINITION. The Fold's command interface (R330, R331, R440), contexts and registrations (R300, R301, R413), compute reset (R435). -/

namespace Sys2Proof.Machine

/-! ### The command block (R330) -/

/-- A little-endian field of some bytes. -/
def fieldOf (bs : List Byte) (o n : Nat) : Nat := leNat ((bs.drop o).take n)

/-- Argument `k` of a command block, eight bytes each from byte 8 (log 15). -/
def argOf (bs : List Byte) (k : Nat) : Nat := fieldOf bs (8 + 8 * k) 8

/-- The context whose ASID and root page number satp holds (R327). Two contexts may have both alike, and the spec does not say which is current then: here
the one that was created first (DESIGN CHOICE, log 86). -/
def State.currentCtx (s : State) (h : Nat) : Option Context :=
  let v := (s.hart h).satp.toNat
  s.contexts.find? fun c => c.asid == v / 2 ^ 44 % 2 ^ 16 && c.root == v % 2 ^ 44

/-- A posted store that base core `h` makes, or the Fold for its command, leaves for the host (R343). The spec does not say which context's fault
queue a refusal of it is posted to (R405): here that of the hart's current context as it leaves, and none where it has none (log 81). -/
def State.hartPost (s : State) (h pa : Nat) (ea : Addr) (via : Option Trans) (bs : List Byte) : State :=
  { s with seq := s.seq + 1, out := s.out ++ [.hostStore s.seq (pa / 2 ^ 44 % 4) (pa % 2 ^ 44) bs],
           stores := s.stores ++ [{ id := s.seq, issue := s.seq, team := 2 ^ 64 + 1 + h, gidx := 0, tidxs := [], blocks := [], ea := ea, pc := 0,
                                    ctx := ((s.currentCtx h).map (·.num)).getD 0, sysview := some pa, data := bs, via := via }] }

/-- Bytes that the Fold writes into its command block: in storage, or posted to the host. -/
def State.cmdPut (s : State) (c : Cmd) (off : Nat) (bs : List Byte) : State :=
  if hostPa c.blk then s.hartPost c.hart (c.blk + off) (BitVec.ofNat 64 (c.blk + off)) none bs else s.pokePa (c.blk + off) bs

/-- RESULT is written as the command's last act (R330). -/
def State.reply (s : State) (c : Cmd) (v : Nat) : State := s.cmdPut c 60 (toLe 4 v)

/-- The bytes of a command block as the Fold reads them, on the die of the commanding base core (R90); one of the host's was read before (R117). -/
def State.cmdBlock (s : State) (c : Cmd) : List Byte :=
  if hostPa c.blk then (s.hart c.hart).block else s.peekPa c.blk 64 (dieOfColumn c.hart)

/-- Serve a command of code `code` whose block holds that code: fatal device (R433), zero fields, then `f`, which answers the reason of a
refusal or the state; `noCtx` asks that CTX be zero. -/
def runCmd (code : Nat) (noCtx : Bool) (c : Cmd) (s : State) (f : List Byte → State → Except Nat State) : State :=
  let bs := s.cmdBlock c
  if fieldOf bs 0 2 ≠ code then s
  else
    let s := s.updHart c.hart fun h => { h with efcmd := BitVec.ofNat 64 (c.blk / 64 * 64 % 2 ^ 56) }
    if s.stopped then s.reply c 0x103
    else if fieldOf bs 2 2 ≠ 0 ∨ fieldOf bs 56 4 ≠ 0 ∨ (noCtx ∧ fieldOf bs 4 4 ≠ 0) then s.reply c 0x101
    else match f bs s with
      | .error r => s.reply c (0x100 + r)
      | .ok s => s.reply c 1

/-- A command that names a context. -/
def runCtxCmd (code : Nat) (c : Cmd) (s : State) (f : List Byte → Context → State → Except Nat State) : State :=
  runCmd code false c s fun bs s => match s.ctx? (fieldOf bs 4 4) with
    | none => .error 1
    | some x => f bs x s

/-- The units of eight bytes and more that the Fold writes at a physical address, each block whole (R400), in every replica (R90). -/
def State.putPa (s : State) (pa : Nat) (bs : List Byte) : State :=
  (cutAt 64 bs.length (BitVec.ofNat 64 pa) bs.length).foldl (fun s x =>
    s.put (paLocs x.ea.toNat) ((bs.drop (x.ea.toNat - pa)).take x.n)) s

/-! ### Contexts (R300) -/

/-- The least context number that is free. -/
def State.freeCtx (s : State) : Nat :=
  ((List.range (s.contexts.length + 1)).find? fun k => (s.ctx? (k + 1)).isNone).getD 0 + 1

/-- The Sward units of a die that no context holds: the lowest run of `n` (R81). -/
def State.freeSward (s : State) (die n : Nat) : Option Nat :=
  freeRun (fun u => s.contexts.any fun c => c.swardBase.getD die 0 ≤ u && u < c.swardBase.getD die 0 + c.sward.getD die 0) n 448

/-- A timer of R300: 0 asks for the default. -/
def timerOf (v low high dflt : Nat) : Option Nat := if v = 0 then some dflt else if low ≤ v ∧ v ≤ high then some v else none

/-- Whether a physical address is one of HBM's, in any of its views (R85). -/
def inHbm (pa : Nat) : Bool := (paLoc pa).isSome

/-- CREATE (R300, R331): the context and its fault queue's counters at 0 (R370); its number into bytes 4–7. -/
def execCreate (c : Cmd) (s : State) : Host.Outcome State Fault Refusal :=
  .next (runCmd 0x01 true c s fun bs s =>
    let sward := [fieldOf bs 48 2, fieldOf bs 50 2, fieldOf bs 52 2, fieldOf bs 54 2]
    let cn := fieldOf bs 10 2
    let save := fieldOf bs 32 8
    match timerOf (fieldOf bs 12 4) 1000 100000000 200000, timerOf (fieldOf bs 40 8) 100000 100000000 2000000 with
    | some drain, some swap =>
      if cn > 4096 ∨ sward.any (· > 448) ∨ fieldOf bs 16 8 ≥ 2 ^ 44 ∨ !inHbm (fieldOf bs 24 8) ∨ !inHbm save then .error 1
      else if cn + (s.contexts.map (·.cn)).foldl (· + ·) 0 > 4096 then .error 2
      else match s.freeSward 0 (fieldOf bs 48 2), s.freeSward 1 (fieldOf bs 50 2), s.freeSward 2 (fieldOf bs 52 2), s.freeSward 3 (fieldOf bs 54 2) with
        | some b0, some b1, some b2, some b3 =>
          let x : Context := { num := s.freeCtx, asid := fieldOf bs 8 2, root := fieldOf bs 16 8, hart := c.hart, sward := sward, swardBase := [b0, b1, b2, b3],
                               spill := fieldOf bs 24 8, save := save, cn := cn, drain := drain, swap := swap }
          let s : State := { s with contexts := s.contexts ++ [x] }
          let s := (s.pokePa save (List.replicate 16 0)).pokePa (save + 0x40) (List.replicate 8 0)
          .ok (s.cmdPut c 4 (toLe 4 x.num))
        | _, _, _, _ => .error 2
    | _, _ => .error 1)

/-- A context is removed, with its registrations. -/
def State.dropContext (s : State) (ctx : Nat) : State :=
  { s with contexts := s.contexts.filter (·.num != ctx), stiles := s.stiles.filter (·.ctx != ctx), queues := s.queues.filter (·.ctx != ctx),
           walks := s.walks.filter (·.ctx != ctx) }

/-- DESTROY (R331, R422): the reset, its entry included, then every item is freed. -/
def execDestroy (c : Cmd) (s : State) : Host.Outcome State Fault Refusal :=
  .next (runCtxCmd 0x02 c s fun _ x s => .ok ((s.resetContext x.num (some 0x10)).dropContext x.num))

/-- PREEMPT (R314): the drain begins. The spec lists no wrong states: here every state but running is one (DESIGN CHOICE, log 87). -/
def execPreempt (c : Cmd) (s : State) : Host.Outcome State Fault Refusal :=
  .next (runCtxCmd 0x03 c s fun _ x s =>
    if x.phase = .running then .ok (s.updCtx x.num fun x => { x with phase := .draining (s.time + x.drain) }) else .error 3)

/-- RESTORE (R314, R422): the context runs again. The spec lists no wrong states: here a context that runs, or whose swap has begun, is in one
(DESIGN CHOICE, log 87). -/
def execRestore (c : Cmd) (s : State) : Host.Outcome State Fault Refusal :=
  .next (runCtxCmd 0x04 c s fun _ x s =>
    match x.phase with
    | .draining _ | .out | .wiped => .ok { s.updCtx x.num (fun x => { x with phase := .running }) with bkpt := s.bkpt.filter (· != x.num) }
    | _ => .error 3)

/-- A registration is refused while the context accepts only RESTORE and DESTROY (R422). -/
def whenLive (x : Context) (f : Except Nat State) : Except Nat State := if x.phase = .wiped then .error 3 else f

/-- STILE (R301): a 128-byte line of device memory, at most 16 a column. -/
def execStile (c : Cmd) (s : State) : Host.Outcome State Fault Refusal :=
  .next (runCtxCmd 0x05 c s fun bs x s => whenLive x <|
    let col := argOf bs 0
    let va := argOf bs 1
    if col ≥ 48 ∨ va % 128 ≠ 0 ∨ 2 ^ 56 ≤ va ∨ inWindows va then .error 1
    else if (s.stiles.filter (·.column == col)).length ≥ 16 then .error 2
    else match leafOf s (dieOfColumn col) x.asid x.root va false with
      | .error _ => .error 1
      | .ok l => match physical (leafPa l va) (dieOfColumn col) with
        | .error _ => .error 1
        | .ok t => if t.view = .system then .error 1
          else .ok { s with seq := s.seq + 1, stiles := s.stiles ++ [{ id := s.seq, ctx := x.num, column := col, loc := t.loc, reps := t.reps }] })

/-- QUEUE (R289, R413): the header, in device memory or the Sward, is checked once, and the Gleaners keep RING and CAPL. The spec does not say
that two queues cannot share Gleaners: none is held by one queue, and the command is not refused for want of them (log 69). -/
def execQueue (c : Cmd) (s : State) : Host.Outcome State Fault Refusal :=
  .next (runCtxCmd 0x06 c s fun bs x s => whenLive x <|
    let va := argOf bs 0
    let die := argOf bs 1
    if die > 3 ∨ va % 128 ≠ 0 then .error 1
    else
      let looks := (List.range 2).map fun k => if 2 ^ 64 ≤ va + 128 * k then ([], none) else resolve s (.queue x.num die) (BitVec.ofNat 64 (va + 128 * k)) 128 .read
      match looks.map (·.2) with
      | [some a, some b] =>
        if a.view = .system ∨ b.view = .system ∨ (blocksOf a.loc 128 ++ blocksOf b.loc 128).any s.bad.contains then .error 1
        else
          let h := s.bytesAt a 128 ++ s.bytesAt b 128
          let ring := fieldOf h 8 8
          let capl := fieldOf h 16 4
          if ring % 64 ≠ 0 ∨ capl > 24 ∨ fieldOf h 20 108 ≠ 0 ∨ fieldOf h 140 116 ≠ 0 then .error 1
          else
            let s := (s.setAD a false).setAD b false
            .ok { s with seq := s.seq + 1,
                         queues := s.queues ++ [{ id := s.seq, ctx := x.num, die := die, header := BitVec.ofNat 64 va, ring := BitVec.ofNat 64 ring, capl := capl,
                                                  index := (a.loc :: a.reps).map (· / 128) }] }
      | _ => .error 1)

/-- PWIN (R331, R341): opens a receiving window; one that another context has open is a resource exhausted. -/
def execPwin (c : Cmd) (s : State) : Host.Outcome State Fault Refusal :=
  .next (runCtxCmd 0x07 c s fun bs x s => whenLive x <|
    let w := argOf bs 0
    let size := argOf bs 2
    let rights := argOf bs 3
    if w > 63 ∨ size % 4096 ≠ 0 ∨ rights > 3 then .error 1
    else if s.contexts.any fun y => y.num != x.num && (tget y.windows w).isSome then .error 2
    else .ok (({ s with lastWindow := tset s.lastWindow w x.num } : State).updCtx x.num fun x => { x with
      windows := tset x.windows w { base := BitVec.ofNat 64 (argOf bs 1), size := size, write := rights % 2 == 1, reduce := rights / 2 == 1 } }))

/-- PGRANT (R331). -/
def execPgrant (c : Cmd) (s : State) : Host.Outcome State Fault Refusal :=
  .next (runCtxCmd 0x08 c s fun bs x s => whenLive x <|
    if argOf bs 0 > 1023 ∨ argOf bs 1 > 63 then .error 1
    else .ok (s.updCtx x.num fun x => { x with grants := if x.grants.contains (argOf bs 0, argOf bs 1) then x.grants else x.grants ++ [(argOf bs 0, argOf bs 1)] }))

/-- ROUTE (R331, R342): a die's traffic to a peer, through one port. -/
def execRoute (c : Cmd) (s : State) : Host.Outcome State Fault Refusal :=
  .next (runCmd 0x09 false c s fun bs s =>
    let die := argOf bs 0
    let peer := argOf bs 1
    if die > 3 ∨ peer > 1023 ∨ argOf bs 2 > 7 then .error 1
    else .ok { s with routes := (s.routes.filter fun r => !(r.1 == die && r.2.1 == peer)) ++ [(die, peer, argOf bs 2)] })

/-- POOL (R309, R315, R331): the counts the pools move to; every ready slice of a class left without a column says so once, one whose teams are all
claimed, or that admits no more, too. -/
def execPool (c : Cmd) (s : State) : Host.Outcome State Fault Refusal :=
  .next (runCmd 0x0A false c s fun bs s =>
    let goal := (List.range 4).map (argOf bs)
    if goal.foldl (· + ·) 0 ≠ 48 then .error 1
    else
      let s : State := { s with poolGoal := goal }
      .ok (s.slices.foldl (fun s x => s.poolCheck x) s))

/-- Whether 4 KiB from a physical address may be a buffer: storage, or the host's memory (R85). -/
def pageOk (pa : Nat) : Bool := hostPa pa || (paLoc pa).isSome

/-- SVCRING (R331, R339): the column's ring, in storage or in host memory; its post index starts at record 0, and nothing that was read of an older ring
counts. -/
def execSvcring (c : Cmd) (s : State) : Host.Outcome State Fault Refusal :=
  .next (runCmd 0x0B false c s fun bs s =>
    let col := argOf bs 0
    let pa := argOf bs 1
    if col ≥ 48 ∨ pa % 4096 ≠ 0 ∨ !pageOk pa then .error 1
    else .ok ({ s with loads := s.loads.filter (·.reader != some (Reader.ring col)) }.updColumn col fun x =>
      { x with ring := some pa, post := 0, served := 0, posted := 0, fromHost := [] }))

/-! ### Identity, counters, dump (R440) -/

/-- Whether an address may be a buffer of ATTEST or CERT: 8 KiB of storage or of the host's memory, 4 KiB aligned. -/
def bufferOk (pa : Nat) : Bool := pa % 4096 == 0 && pageOk pa && pageOk (pa + 4096)

/-- Bytes that the Fold writes into a command's buffer: in storage, or posted to the host. -/
def State.bufPut (s : State) (c : Cmd) (pa : Nat) (bs : List Byte) : State :=
  if hostPa pa then (cutAt 64 bs.length (BitVec.ofNat 64 pa) bs.length).foldl (fun s x =>
    s.hartPost c.hart x.ea.toNat x.ea none ((bs.drop (x.ea.toNat - pa)).take x.n)) s
  else s.putPa pa bs

/-- Whether an ATTEST has still to read its nonce of the host (R117, R440): it is accepted, and its buffer is the host's. -/
def State.asksNonce (s : State) (c : Cmd) : Bool :=
  let bs := s.cmdBlock c
  fieldOf bs 0 2 == 0x0C && !s.stopped && fieldOf bs 2 2 == 0 && fieldOf bs 56 4 == 0 && fieldOf bs 4 4 == 0 && bufferOk (argOf bs 0) &&
    hostPa (argOf bs 0) && (s.hart c.hart).nonce.isNone

/-- The Fold asks the host for a nonce; its base core waits meanwhile. -/
def State.askNonce (s : State) (c : Cmd) : State :=
  let pa := argOf (s.cmdBlock c) 0
  (s.updHart c.hart fun h => { h with hostRead := some { rd := none, va := 0, size := 64, nonce := true } }).askHost (.hart c.hart) (2 ^ 64) 0 [] 0 pa 64 0

/-- The nonce of ATTEST's buffer: as it stands in storage, or as it was read of the host (R440). -/
def State.nonceAt (s : State) (c : Cmd) (pa : Nat) : List Byte :=
  if hostPa pa then ((s.hart c.hart).nonce).getD [] else s.peekPa pa 64 (dieOfColumn c.hart)

/-- `n` bytes that a configuration gives. -/
def bytesOf (n : Nat) (f : Nat → Byte) : List Byte := (List.range n).map f

/-- The firmware measurement: the SHA3-512 of the accepted image (R439). -/
def State.measurement (s : State) : List Byte := sha3 s.image.bytes

/-- The seed of the device key (R439). -/
def deviceSeed : List Byte := (sha3 (bytesOf 32 Config.secret)).take 32
/-- The device key (R439). -/
def deviceKey : Mldsa.Key := Mldsa.keyGen deviceSeed
/-- The alias key that a firmware measurement gives (R439). -/
def aliasKey (measurement : List Byte) : Mldsa.Key := Mldsa.keyGen ((sha3 (deviceSeed ++ measurement)).take 32)

/-- The public key that a certificate names (R439, R440): the device key, or the alias key of the running firmware. -/
def State.certKey (s : State) (isAlias : Bool) : List Byte := if isAlias then (aliasKey s.measurement).pub else deviceKey.pub

/-- The 32 bytes of randomness of the next signature: free values (FIPS 204; log 5). -/
def State.signRnd (s : State) : List Byte := (List.range 8).flatMap fun k => toLe 4 (Config.freeWord (s.draws + k)).toNat

/-- Bytes 64–2,847 of the report (R440). -/
def State.reportBody (s : State) : List Byte :=
  s.measurement ++ toLe 8 s.image.svn ++ toLe 8 Config.serial.toNat ++ List.replicate 112 0 ++ (aliasKey s.measurement).pub

/-- ATTEST (R440): the report after the verifier's nonce, signed over all that precedes the signature. A nonce in host memory is read first; where the
host refuses it, the buffer is a field outside its range (log 75). -/
def execAttest (c : Cmd) (s : State) : Host.Outcome State Fault Refusal :=
  if s.asksNonce c then .next (s.askNonce c)
  else .next ((runCmd 0x0C true c s fun bs s =>
    let pa := argOf bs 0
    let nonce := s.nonceAt c pa
    if !bufferOk pa || nonce.length != 64 then .error 1
    else
      let sig := Mldsa.hashSign (aliasKey s.measurement) (nonce ++ s.reportBody) s.signRnd
      .ok (({ s with draws := s.draws + 8 } : State).bufPut c (pa + 64) (s.reportBody ++ sig))).updHart c.hart fun h => { h with nonce := none })

/-- CERT (R440): the certificate that byte 16 of ARG names, its length before it. -/
def execCert (c : Cmd) (s : State) : Host.Outcome State Fault Refusal :=
  .next (runCmd 0x0D true c s fun bs s =>
    let pa := argOf bs 0
    let which := fieldOf bs 24 1
    if !bufferOk pa ∨ which > 1 then .error 1
    else
      let key := s.certKey (which == 1)
      let n := Config.certLength (which == 1) key
      .ok (s.bufPut c pa (toLe 8 n ++ bytesOf (min n 8184) (Config.certByte (which == 1) key))))

/-- ERRSTAT (R432, R440): the six counters into ARG. -/
def execErrstat (c : Cmd) (s : State) : Host.Outcome State Fault Refusal :=
  .next (runCmd 0x0E true c s fun _ s => .ok (s.cmdPut c 8 (s.errs.flatMap (toLe 8))))

/-- Firmware writes bytes of the dump region; a block that is written whole has a fresh check value (R400). -/
def State.dumpPut (s : State) (off : Nat) (bs : List Byte) : State :=
  ({ s with mem := Memory.puts s.mem (cellsAt (dumpLoc off) bs) } : State).cure (dumpLoc off) bs.length
/-- A field of the dump region. -/
def State.dumpGet (s : State) (off n : Nat) : Nat := Memory.nat s.mem (dumpLoc off) n

/-- DUMPCLR (R434, R440): STATE 0 and LOST 0. -/
def execDumpclr (c : Cmd) (s : State) : Host.Outcome State Fault Refusal :=
  .next (runCmd 0x0F true c s fun _ s => .ok ((s.dumpPut 6 [0]).dumpPut 20 [0, 0, 0, 0]))

/-! ### Compute reset (R435) -/

/-- Firmware writes the capability on every endpoint that responds: one whose link is up (R433, R436, R437). -/
def State.showCap (s : State) (c : Cap) : State :=
  { s with cap := c, caps := (List.range 4).foldl (fun t d => if (s.link (.pcie d)).up then tset t d c else t) s.caps }

/-- The compute dies and the Fold at their reset values; HBM, its check values, the base cores, the links, what firmware keeps, the bring-up capability
included (R437), and the model's own fields as they stand. A dump that was being written stays incomplete, STATE 3 (R434; log 80). The cores that a fatal
error stopped run again where HBM has power (log 50). -/
def State.computeReset (s : State) : State :=
  let s := (s.contexts.map (·.num)).foldl (fun s n => s.resetContext n none) s
  let s := if s.dumping.isSome then s.dumpPut 6 [3] else s
  let unit := fun (p : Participant) => match p with | .unit _ => false | .hart _ => true
  { powered := s.powered, cap := s.cap, stopped := s.stopped && s.cap.dump == 2, caps := s.caps, boot := s.boot,
    errs := s.errs, dieErrs := s.dieErrs, sensors := s.sensors, links := s.links, uncorrectable := s.uncorrectable,
    mem := s.mem.filter fun c => decide (c.1 < 2 ^ 40), tick := s.tick, hbm := s.hbm, bad := s.bad.filter fun b => decide (b < 2 ^ 34),
    invals := (s.invals.map fun i => { i with toReceive := i.toReceive.filter unit, toAck := i.toAck.filter unit }).filter fun i => !i.toAck.isEmpty,
    fuses := s.fuses, image := s.image, loads := s.loads.filter fun l => match l.reader with | some (.hart _) => true | _ => false,
    stores := s.stores.filter fun x => decide (2 ^ 64 < x.team), harts := s.harts, out := s.out, agenda := s.agenda, seq := s.seq, draws := s.draws, curHart := s.curHart }

/-- RESET (R435, R440): RESULT is written after the reset. -/
def execReset (c : Cmd) (s : State) : Host.Outcome State Fault Refusal :=
  .next (runCmd 0x10 true c s fun _ s => .ok s.computeReset)

/-- A code that is no command's: RESULT 0x101, or 0x103 in fatal error (R330, R433). -/
def State.noCommand (s : State) (c : Cmd) : State :=
  (s.updHart c.hart fun h => { h with efcmd := BitVec.ofNat 64 (c.blk / 64 * 64 % 2 ^ 56) }).reply c (if s.stopped then 0x103 else 0x101)

/-- The Fold carries out the command of a block, whatever its code (R330, R331). -/
def State.command (s : State) (c : Cmd) : Host.Outcome State Fault Refusal :=
  match fieldOf (s.cmdBlock c) 0 2 with
  | 0x01 => execCreate c s
  | 0x02 => execDestroy c s
  | 0x03 => execPreempt c s
  | 0x04 => execRestore c s
  | 0x05 => execStile c s
  | 0x06 => execQueue c s
  | 0x07 => execPwin c s
  | 0x08 => execPgrant c s
  | 0x09 => execRoute c s
  | 0x0A => execPool c s
  | 0x0B => execSvcring c s
  | 0x0C => execAttest c s
  | 0x0D => execCert c s
  | 0x0E => execErrstat c s
  | 0x0F => execDumpclr c s
  | 0x10 => execReset c s
  | _ => .next (s.noCommand c)

end Sys2Proof.Machine
end

