-- ==== Sys2Proof/Machine/Harts.lean ====
section
/-! DEFINITION. The base cores: their registers, translation and traps as the RISC-V privileged architecture gives them (log 12), and
what the spec says of them (R118, R326–R330, R334, R338, R339, R372, R405). -/

namespace Sys2Proof.Machine

/-! ### Registers -/

/-- A general register; x0 reads zero. -/
def Hart.r (h : Hart) (n : BitVec 5) : Addr := if n = 0 then 0 else tgetD h.x n.toNat 0
/-- Write a general register; x0 discards. -/
def Hart.setR (h : Hart) (n : BitVec 5) (v : Addr) : Hart := if n = 0 then h else { h with x := tset h.x n.toNat v }
/-- A bit of mstatus. -/
def Hart.st (h : Hart) (n : Nat) : Bool := h.mstatus.getLsbD n
/-- A register with one bit set to `b`. -/
def withBit (v : Addr) (n : Nat) (b : Bool) : Addr := if b then v ||| BitVec.ofNat 64 (2 ^ n) else v &&& ~~~(BitVec.ofNat 64 (2 ^ n))
/-- The code of a mode in MPP. -/
def Mode.code (m : Mode) : Nat := match m with | .user => 0 | .supervisor => 1 | .machine => 3
/-- An instruction of a hart retires: `rd := v`, and the next word. -/
def State.retireHart (s : State) (h : Nat) (rd : BitVec 5) (v : Addr) : State := s.updHart h fun x => { x.setR rd v with pc := x.pc + 4 }

/-! ### Traps (R326, R328, R405; log 12) -/

/-- A trap of a hart: to S-mode when it is delegated and the hart is not in M-mode, else to M-mode; `intr` says an interrupt, which a
vectored trap vector sends to four times its number. -/
def Hart.trap (h : Hart) (intr : Bool) (cause : Nat) (tval : Addr) : Hart :=
  let code : Addr := BitVec.ofNat 64 (cause + if intr then 2 ^ 63 else 0)
  let deleg := h.mode != .machine && (if intr then h.mideleg else h.medeleg).getLsbD cause
  let vec := fun (v : Addr) => (v &&& ~~~3#64) + (if intr && v.getLsbD 0 then BitVec.ofNat 64 (4 * cause) else 0)
  if deleg then
    { h with scause := code, sepc := h.pc, stval := tval, mode := .supervisor, pc := vec h.stvec, joinId := none,
             mstatus := withBit (withBit (withBit h.mstatus 5 (h.st 1)) 1 false) 8 (h.mode == .supervisor) }
  else
    { h with mcause := code, mepc := h.pc, mtval := tval, mode := .machine, pc := vec h.mtvec, joinId := none,
             mstatus := withBit (withBit (withBit (withBit h.mstatus 7 (h.st 3)) 3 false) 11 (h.mode.code % 2 == 1)) 12 (h.mode == .machine) }

/-- An exception of hart `h`. -/
def State.hartTrap (s : State) (h cause : Nat) (tval : Addr) : State := s.updHart h (·.trap false cause tval)

/-- The interrupt a hart takes: of ESVC and EFLT the lower-numbered, those that go to M-mode first. -/
def Hart.interrupt (h : Hart) : Option Nat :=
  let ready := fun (n : Nat) => (h.mip &&& h.mie).getLsbD n
  let toM := fun (n : Nat) => ready n && !h.mideleg.getLsbD n && (h.mode != .machine || h.st 3)
  let toS := fun (n : Nat) => ready n && h.mideleg.getLsbD n && (h.mode == .user || (h.mode == .supervisor && h.st 1))
  ([16, 17].find? toM).orElse fun _ => [16, 17].find? toS

/-! ### Translation of a hart's own accesses (log 12) -/

/-- The page fault of an access. -/
def pageFault (k : AccKind) : Nat := match k with | .read => 13 | .fetch => 12 | _ => 15
/-- The access fault of an access. -/
def accessFault (k : AccKind) : Nat := match k with | .read => 5 | .fetch => 1 | _ => 7

/-- An entry that a hart finds malformed at a level. -/
def hartMalformed (pte level : Nat) : Bool :=
  let ppn := pte / 2 ^ 10 % 2 ^ 44
  pte / 2 ^ 54 % 128 ≠ 0 || (pteBit pte 2 && !pteBit pte 1) ||
  (if pteLeaf pte then (pteBit pte 63 && (level != 0 || ppn % 16 != 8)) || (level != 0 && ppn % 2 ^ (9 * level) != 0)
   else level == 0 || pteBit pte 4 || pteBit pte 6 || pteBit pte 7 || pteBit pte 63 || pte / 2 ^ 61 % 4 ≠ 0)

/-- A leaf allows a hart's access in a mode, with SUM and MXR; its A bit, and D for a write, must be set (Svade). -/
def hartAllowed (pte : Nat) (k : AccKind) (user sum mxr : Bool) : Bool :=
  (if user then pteBit pte 4 else !pteBit pte 4 || (sum && k != .fetch)) &&
  (match k with
   | .read | .watch => pteBit pte 1 || (mxr && pteBit pte 3)
   | .fetch => pteBit pte 3
   | .write | .atomic => pteBit pte 2 && pteBit pte 7) && pteBit pte 6

/-- A hart's walk: `fuel` levels down from the table at `ppn`, or the exception. Every access of a hart walks anew: whether a hart keeps translations
between its accesses is left open, and here it keeps none (DESIGN CHOICE, log 88). -/
def hartWalk (s : State) (die va : Nat) (k : AccKind) (allowed : Nat → Bool) : Nat → Nat → Except Nat Leaf
  | 0, _ => .error (pageFault k)
  | fuel + 1, ppn =>
    match physical (ppn * 4096 + vpnAt va fuel * 8) die with
    | .error _ => .error (accessFault k)
    | .ok t =>
      if t.view = .system ∨ s.bad.contains (t.loc / 64) then .error (accessFault k)
      else
        let pte := Memory.nat s.mem t.loc 8
        if !pteBit pte 0 || hartMalformed pte fuel then .error (pageFault k)
        else if pteLeaf pte then (if allowed pte then .ok ⟨pte, fuel, t.pteAt⟩ else .error (pageFault k))
        else hartWalk s die va k allowed fuel (pte / 2 ^ 10 % 2 ^ 44)

/-- Where a hart's access goes: its translation in its mode, then R85's views; or the exception. A store of a replicated page is judged at the
sequencer's replica (R407). -/
def State.hartAddr (s : State) (h : Nat) (va : Addr) (k : AccKind) : Except Nat Target :=
  let x := s.hart h
  let mode := if x.st 17 && k != .fetch then (if x.st 12 then Mode.machine else if x.st 11 then .supervisor else .user) else x.mode
  let levels := match (x.satp >>> 60).toNat with | 8 => 3 | 9 => 4 | 10 => 5 | _ => 0
  let pa : Except Nat (Nat × Option Trans) :=
    if mode = .machine ∨ levels = 0 then .ok (va.toNat, none)
    else
      let width := 12 + 9 * levels
      if (va.setWidth width).signExtend 64 ≠ va then .error (pageFault k)
      else (hartWalk s (dieOfColumn h) va.toNat k (fun pte => hartAllowed pte k (mode == .user) (x.st 18) (x.st 19)) levels (x.satp.toNat % 2 ^ 44)).map
        fun l => (leafPa l va.toNat, some (l.trans (hartUnit h) (x.satp.toNat / 2 ^ 44 % 2 ^ 16) va.toNat))
  match pa with
  | .error e => .error e
  | .ok (pa, leaf) => match physical pa (dieOfColumn h) with
    | .error _ => .error (accessFault k)
    | .ok t =>
      if t.view ≠ .system ∧ s.cap.dump = 2 then .error (accessFault k)
      else .ok { t with leaf := leaf, loc := if t.view = .repl ∧ k.writes then locHbm t.home (t.pa % 2 ^ 38) else t.loc }

/-- The places of an access of `n` bytes: one when it is aligned, else one a byte. -/
def State.hartSpans (s : State) (h : Nat) (va : Addr) (n : Nat) (k : AccKind) : List (Addr × Nat × Except Nat Target) :=
  let one := fun (a : Addr) (n : Nat) =>
    (a, n, match s.hartAddr h a k with
      | .error e => .error e
      | .ok t => if t.view ≠ .system ∧ (blocksOf t.loc n).any s.bad.contains then .error (accessFault k) else .ok t)
  if va.toNat % n = 0 then [one va n] else (List.range n).map fun i => one (va + BitVec.ofNat 64 i) 1

/-- The first exception among some places. -/
def firstFault (l : List (Addr × Nat × Except Nat Target)) : Option (Addr × Nat) :=
  l.findSome? fun x => match x.2.2 with | .error e => some (x.1, e) | .ok _ => none

/-- The number that names a base core in `Past.seen`. -/
def hartKey (h : Nat) : Nat := 2 ^ 80 + h

/-- What a base core does from now on stands after all that has been done (R118): its own stores, edisp, ejoin's return, an interrupt. -/
def State.hartNow (s : State) (h : Nat) : State := s.updHart h fun x => { x with pts := s.tick }

/-- A load of a base core from storage, `n` bytes within one unit: it stands at a place in T, chosen freely, after those of its earlier accesses (R104,
R118; log 3). -/
def State.hartRead (s : State) (h loc n : Nat) : State × List Byte :=
  let r := s.readAt [hartKey h] [hartKey h] (s.hart h).pts loc n
  (r.1.updHart h fun x => { x with pts := r.2.2 }, r.2.1)

/-- A store of a hart (R118): a place in T, a launch where it writes a stile line's request (R301), or the exception. -/
def State.hartStore (s : State) (h : Nat) (va : Addr) (bs : List Byte) : State × Bool :=
  let l := s.hartSpans h va bs.length .write
  match firstFault l with
  | some (a, e) => (s.hartTrap h e a, false)
  | none => (l.foldl (fun s x => match x.2.2 with
    | .error _ => s
    | .ok t =>
      let d := (bs.drop (x.1 - va).toNat).take x.2.1
      if t.view = .system then s.hartPost h t.pa x.1 t.leaf d else ((s.put t.reps d).seeAll [hartKey h] t.reps d.length).hartNow h) s, true)

/-! ### Xesdsp (R328, R329) -/

/-- edisp's eight stores of a0 to a7; the flag says that all were made. -/
def State.argStores (s : State) (h : Nat) (base : Addr) : Nat → Nat → State × Bool
  | 0, _ => (s, true)
  | k + 1, i =>
    let r := s.hartStore h (base + BitVec.ofNat 64 (8 * i)) (toLe 8 ((s.hart h).r (BitVec.ofNat 5 (10 + i))).toNat)
    if r.2 then r.1.argStores h base k (i + 1) else r

/-- edisp (R118, R328, R327, R433). While no entry is free, or the context does not run, it does not retire and is run again. -/
def execEdisp (rd rs1 rs2 : BitVec 5) (s : State) : Host.Outcome State Fault Refusal :=
  let h := s.curHart
  let x := s.hart h
  let va := x.r rs1
  let block := x.r rs2
  if rs2 = 0 ∧ va.toNat % 256 ≠ 0 then .next (s.hartTrap h 6 va)
  else if rs2 ≠ 0 ∧ block.toNat % 64 ≠ 0 then .next (s.hartTrap h 6 block)
  else
    let r := s.argStores h (if rs2 = 0 then va + 192 else block) 8 0
    if !r.2 then .next r.1
    else match r.1.currentCtx h with
      | none => .next (r.1.retireHart h rd 0)
      | some c =>
        if r.1.stopped then .next (r.1.retireHart h rd 0)
        else if !r.1.canLaunch c.num then .next r.1
        else
          let y := r.1.launch c.num h va (if rs2 = 0 then none else some block) true none
          .next ((y.1.hartNow h).retireHart h rd (y.2.setWidth 64))

/-- ejoin (R118, R329, R304, R433): `joinVal` is what the completion of the slice it waited on brought. What its hart does after it stands after all that
has been done. -/
def execEjoin (rd rs1 : BitVec 5) (s : State) : Host.Outcome State Fault Refusal :=
  let h := s.curHart
  let x := s.hart h
  let out := fun (s : State) (v : Addr) => Host.Outcome.next (((s.updHart h fun y => { y with joinId := none, joinVal := none }).hartNow h).retireHart h rd v)
  match x.joinVal with
  | some v => out s v
  | none => match s.currentCtx h with
    | none => out s (BitVec.allOnes 64)
    | some c =>
      let id := (x.r rs1).setWidth 32
      match s.slice? c.num id with
      | none => out s (BitVec.allOnes 64)
      | some y =>
        if y.complete then out (s.dropSlice y) y.joinValue
        else if s.stopped then out s (BitVec.allOnes 64)
        else .next (s.updHart h fun y => { y with joinId := some (c.num, id) })

/-! ### Xesinv (R334) -/

/-- The bits of an encoding for the trap value register of an illegal instruction (log 12). -/
def wordVal (i : Instr) : Addr := ((encodeHart i).getD 0).setWidth 64

/-- eginv (R334): one invalidation to the 48 harts and the four units; illegal in U-mode. -/
def execEginv (rs1 rs2 : BitVec 5) (s : State) : Host.Outcome State Fault Refusal :=
  let h := s.curHart
  let x := s.hart h
  if x.mode = .user then .next (s.hartTrap h 2 (wordVal (.eginv rs1 rs2)))
  else
    let v := x.r rs2
    let all := (List.range 48).map Participant.hart ++ (List.range 4).map Participant.unit
    let i : Inval := { id := s.seq, hart := h, va := (x.r rs1).toNat / 4096 * 4096, pages := (v >>> 20).toNat,
                       asid := if v.getLsbD 19 then none else some (v.toNat % 2 ^ 16), toReceive := all, toAck := all }
    .next (({ s with seq := s.seq + 1, invals := s.invals ++ [i] } : State).retireHart h 0 0)

/-- eginvw (R334): retires once every earlier eginv of this hart is acknowledged; illegal in U-mode. -/
def execEginvw (s : State) : Host.Outcome State Fault Refusal :=
  let h := s.curHart
  if (s.hart h).mode = .user then .next (s.hartTrap h 2 (wordVal .eginvw))
  else if s.invals.any (·.hart == h) then .next s
  else .next (s.retireHart h 0 0)

/-- ILLEGAL_INSTRUCTION_EXCEPTION (R326). -/
def execIllegalInstructionException (w : Word) (s : State) : Host.Outcome State Fault Refusal :=
  .next (s.hartTrap s.curHart 2 (w.setWidth 64))

/-! ### Registers that software writes (R330, R338, R339, R372) -/

/-- The value a csrw, csrs or csrc leaves, of the bits `mask` that it can change. -/
def csrNew (op : CsrOp) (old v mask : Addr) : Addr :=
  let new := match op with | .write => v | .set => old ||| v | .clear => old &&& ~~~v
  (old &&& ~~~mask) ||| (new &&& mask)

/-- What software leaves of the pending bits 16 and 17: it can clear them and not set them (R339). -/
def mipNew (op : CsrOp) (old v mask : Addr) : Addr := old &&& csrNew op old v (mask &&& 0x30000)

/-- What a read of a register returns (R4, R330, R338): sip and sie show what is delegated. -/
def Hart.csr (x : Hart) (c : Csr) : Addr :=
  match c with
  | .efcmd => x.efcmd | .mip => x.mip | .sip => x.mip &&& x.mideleg | .mie => x.mie | .sie => x.mie &&& x.mideleg
  | .mideleg => x.mideleg | .medeleg => x.medeleg | .satp => x.satp | .mtvec => x.mtvec | .stvec => x.stvec | .mstatus => x.mstatus

/-- The least mode that may use a register. -/
def csrNeeds (c : Csr) : Mode :=
  match c with
  | .efcmd | .sip | .sie | .satp | .stvec => .supervisor
  | .mip | .mie | .mideleg | .medeleg | .mtvec | .mstatus => .machine

/-- A register as a write leaves it; efcmd keeps BLK alone (R330). -/
def Hart.csrSet (y : Hart) (csr : Csr) (op : CsrOp) (v : Addr) : Hart :=
  let all := BitVec.allOnes 64
  match csr with
  | .efcmd => { y with efcmd := csrNew op y.efcmd v 0x00FFFFFFFFFFFFC0 }
  | .mip => { y with mip := mipNew op y.mip v all }
  | .sip => { y with mip := mipNew op y.mip v y.mideleg }
  | .mie => { y with mie := csrNew op y.mie v all }
  | .sie => { y with mie := csrNew op y.mie v y.mideleg }
  | .mideleg => { y with mideleg := csrNew op y.mideleg v all }
  | .medeleg => { y with medeleg := csrNew op y.medeleg v all }
  | .satp =>
    let new := csrNew op y.satp v all
    if [0, 8, 9, 10].contains (new >>> 60).toNat then { y with satp := new } else y
  | .mtvec => { y with mtvec := csrNew op y.mtvec v all }
  | .stvec => { y with stvec := csrNew op y.stvec v all }
  | .mstatus => { y with mstatus := csrNew op y.mstatus v all }

/-- REGISTER_WRITE: csrrw, csrrs or csrrc on a register of R330, R338 or log 12; rd receives what it held, so that a set or clear of no
bits is a read. A csrw to efcmd hands the Fold the command block it names, which the Fold reads first (R330, log 75). What a base core does once it has
looked at its pending interrupts stands after what they announce (R339, R372). -/
def execRegisterWrite (hart : Nat) (csr : Csr) (op : CsrOp) (v : CsrArg) (s : State) : Host.Outcome State Fault Refusal :=
  let x := s.hart hart
  if x.hostRead.isSome then .next s
  else if x.mode.code < (csrNeeds csr).code then .next (({ s with draws := s.draws + 1 } : State).hartTrap hart 2 (Config.freeDouble s.draws))
  else
    let s := s.updHart hart fun y => (y.csrSet csr op v.value).setR v.rd (y.csr csr)
    let s := if csr = .mip ∨ csr = .sip then s.hartNow hart else s
    let blk := (s.hart hart).efcmd.toNat
    if csr ≠ .efcmd ∨ op ≠ .write then .next s
    else if hostPa blk then
      .next ((s.updHart hart fun y => { y with hostRead := some { rd := none, va := 0, size := 64 } }).askHost (.hart hart) (2 ^ 64) 0 [] 0 blk 64 0)
    else s.command ⟨hart, blk⟩

/-! ### Loads and stores (R118, R405) -/

/-- A load that reads the host: each place of the host's is a transaction of its own (R84); what stands in storage is read now. -/
def State.hostLoad (s : State) (a : HartAccess) (l : List (Addr × Nat × Except Nat Target)) : State :=
  ((List.range l.length).zip l).foldl (fun s x => match x.2.2.2 with
    | .error _ => s
    | .ok t =>
      if t.view = .system then s.askHost (.hart a.hart) (2 ^ 64) 0 [] x.2.1 t.pa x.2.2.1 x.1 t.leaf
      else
        let v := s.hartRead a.hart t.loc x.2.2.1
        v.1.updHart a.hart fun y => { y with hostRead := y.hostRead.map fun r => { r with got := tset r.got x.1 (some v.2) } })
    (s.updHart a.hart fun y => { y with hostRead := some { rd := some a.rd, va := a.va, size := a.size } })

/-- The places of a base core's load from storage, read one after another. -/
def State.hartReads (s : State) (h : Nat) (l : List (Addr × Nat × Except Nat Target)) : State × List Byte :=
  l.foldl (fun p x => match x.2.2 with
    | .ok t => let v := p.1.hartRead h t.loc x.2.1; (v.1, p.2 ++ v.2)
    | .error _ => p) (s, [])

/-- BASE_CORE_ACCESS (R118, R301, R405). A base core that waits for the host makes no other access. -/
def execBaseCoreAccess (a : HartAccess) (s : State) : Host.Outcome State Fault Refusal :=
  if (s.hart a.hart).hostRead.isSome then .next s
  else match a.store with
  | some v => .next (s.hartStore a.hart a.va (toLe a.size v.toNat)).1
  | none =>
    let l := s.hartSpans a.hart a.va a.size .read
    match firstFault l with
    | some (ea, e) => .next (s.hartTrap a.hart e ea)
    | none =>
      if l.any fun x => match x.2.2 with | .ok t => t.view == .system | .error _ => false then .next (s.hostLoad a l)
      else
        let r := s.hartReads a.hart l
        .next (r.1.updHart a.hart fun x => x.setR a.rd (BitVec.ofNat 64 (leNat r.2)))

/-- How many transactions a base core's read of the host takes: one for a command block or an aligned load, else one a byte. -/
def HostRead.parts (r : HostRead) : Nat := if r.va.toNat % r.size = 0 then 1 else r.size

/-- A base core whose read of the host has come goes on: the load is done, or takes its access fault (R405); the Fold has to carry out the
command whose block it has read, or, where the host refused it, none; or it goes on with the ATTEST whose nonce it has read, of no bytes where the host
refused it (log 75). -/
def State.hostReadDone (s : State) (h : Nat) (r : HostRead) : State × Option Cmd :=
  let s := s.updHart h fun x => { x with hostRead := none }
  let parts := (List.range r.parts).map fun k => (k, (tget r.got k).bind id)
  match parts.find? (·.2.isNone), r.rd with
  | _, none => if r.nonce then
      let s := s.updHart h fun x => { x with nonce := some (parts.flatMap fun x => x.2.getD []) }
      (s, some ⟨h, (s.hart h).efcmd.toNat⟩)
    else if parts.any (·.2.isNone) then (s, none)
    else
      let s := s.updHart h fun x => { x with block := parts.flatMap fun x => x.2.getD [] }
      (s, some ⟨h, (s.hart h).efcmd.toNat⟩)
  | some x, some _ => (s.hartTrap h 5 (r.va + BitVec.ofNat 64 x.1), none)
  | none, some rd => (s.updHart h fun x => x.setR rd (BitVec.ofNat 64 (leNat (parts.flatMap fun x => x.2.getD []))), none)

/-! ### Fetch -/

/-- The word a hart fetches: four bytes at its pc, or the exception; none where the host's memory holds them. -/
def State.hartWord (s : State) (h : Nat) : Except Nat (Option Word) :=
  match s.hartAddr h (s.hart h).pc .fetch with
  | .error e => .error e
  | .ok t =>
    if t.view = .system then .ok none
    else if s.bad.contains (t.loc / 64) then .error 1
    else .ok (some (BitVec.ofNat 32 (Memory.nat s.mem t.loc 4)))

end Sys2Proof.Machine
end

