-- ==== Sys2Proof/Machine/Device.lean ====
section
/-! DEFINITION. What no instruction causes: storage errors, links, heat, fatal errors and the dump, resets (R427–R437). -/

namespace Sys2Proof.Machine

/-! ### The dump (R434) -/

/-- The first bytes of a list, filled with zeros to `n`. -/
def fit (n : Nat) (bs : List Byte) : List Byte := (bs ++ List.replicate n 0).take n

/-- Type 0x01: a die's six counters. -/
def State.dumpCounters (s : State) (die : Nat) : List Byte := (List.range 6).flatMap fun k => toLe 8 (tgetD s.dieErrs (die * 8 + k) 0)

/-- Type 0x02: the last reading of every sensor of a die: those of its columns, then those of its stacks. -/
def State.dumpSensors (s : State) (die : Nat) : List Byte :=
  ((List.range 12).map (12 * die + ·) ++ (List.range 4).map (48 + 4 * die + ·)).flatMap fun k => (tgetD s.sensors k []).flatMap (toLe 2)

/-- The dies of a UCIe edge (R437). -/
def edgeDies (e : Nat) : Nat × Nat := match e with | 0 => (0, 1) | 1 => (2, 3) | 2 => (0, 2) | _ => (1, 3)

/-- Type 0x03: the links of a die, 16 bytes each: state, retrains, replays. -/
def State.dumpLinks (s : State) (die : Nat) : List Byte :=
  let ls := [Link.pcie die] ++ (List.range 8).map (Link.ualink die) ++
    ((List.range 4).filter fun e => (edgeDies e).1 == die || (edgeDies e).2 == die).map Link.ucie
  ls.flatMap fun l => let r := s.link l; toLe 4 r.up.toNat ++ toLe 4 r.retrains ++ toLe 8 r.replays

/-- Type 0x04: each context with its slices not yet joined. -/
def State.dumpContexts (s : State) : List Byte :=
  s.contexts.flatMap fun c =>
    let xs := s.slices.filter (·.ctx == c.num)
    toLe 4 c.num ++ toLe 4 xs.length ++ s.peekPa c.save 16 ++ xs.flatMap fun x => toLe 4 x.id.toNat ++ toLe 4 x.left

/-- Type 0x05: a core's record: the 256 slot states, four bits each, 0 for a free slot; then its teams and their groups, of which those that find no room
in the 512 bytes are cut off: the spec does not say what becomes of them (DESIGN CHOICE, log 48). -/
def State.dumpCore (s : State) (core : Nat) : List Byte :=
  let state := fun (k : Nat) => match (tgetD s.slots (core * 256 + k) { gen := 0, op := none }).op.bind s.op? with
    | some o => o.st.code + 1
    | none => 0
  let groups := fun (t : Team) => t.groups.flatMap fun g => toLe 8 g.gidx ++ toLe 8 (((t.select g).map (·.1.toNat)).getD 0)
  fit 512 ((List.range 128).map (fun k => BitVec.ofNat 8 (state (2 * k) + 16 * state (2 * k + 1))) ++
    (s.teamsOn core).flatMap fun t => toLe 4 t.ctx ++ toLe 4 t.slice.toNat ++ toLe 8 t.groups.length ++ groups t)

/-- Type 0x06: a die's uncorrectable addresses, those of HBM as die-local physical addresses. -/
def State.dumpUncorrectable (s : State) (die : Nat) : List Byte :=
  (s.uncorrectable.filter (·.1 == die)).flatMap fun x => toLe 8 (if x.2 < 2 ^ 40 then 9 * 2 ^ 44 + x.2 else x.2)

/-- The sections: type, die, content. -/
def State.dumpSections (s : State) : List (Nat × Nat × List Byte) :=
  let per := fun (ty : Nat) (f : Nat → List Byte) => (List.range 4).map fun d => (ty, d, f d)
  per 1 s.dumpCounters ++ per 2 s.dumpSensors ++ per 3 s.dumpLinks ++ [(4, 0, s.dumpContexts)] ++
  per 5 (fun d => (List.range 48).flatMap fun k => s.dumpCore (48 * d + k)) ++ per 6 s.dumpUncorrectable

/-- The directory entry of a section that stands at an offset. -/
def dumpEntry (x : Nat × Nat × List Byte) (off : Nat) : List Byte := toLe 2 x.1 ++ toLe 1 x.2.1 ++ [0] ++ toLe 4 x.2.2.length ++ toLe 8 off

/-- The header of R434 with a STATE, but for NSEC and DIGEST. -/
def State.dumpHead (s : State) (state cause die unit : Nat) : List Byte :=
  fit 256 (toLe 4 0x45344450 ++ toLe 2 1 ++ toLe 1 state ++ toLe 1 cause ++ toLe 8 s.time ++ toLe 1 die ++ [0] ++ toLe 2 unit ++ toLe 4 0 ++
    toLe 4 0 ++ toLe 4 s.image.svn)

/-- Firmware begins the dump (R433): the header with STATE 1. -/
def State.startDump (s : State) (cause die unit : Nat) : State :=
  { s.dumpPut 0 (s.dumpHead 1 cause die unit) with dumping := some (0, 256 + 16 * s.dumpSections.length) }

/-- Firmware goes on with the dump: the next section and its directory entry; after the last one NSEC and the digest, then STATE 2, the fatal
record's DUMP, and the signal (R433, R434). -/
def State.dumpStep (s : State) (k off : Nat) : State :=
  let secs := s.dumpSections
  match secs[k]? with
  | some x => { (s.dumpPut (256 + 16 * k) (dumpEntry x off)).dumpPut off x.2.2 with dumping := some (k + 1, off + x.2.2.length) }
  | none =>
    let s := s.dumpPut 24 (toLe 4 secs.length)
    let s := s.dumpPut 128 (sha3 (Memory.gets s.mem (dumpLoc 256) (off - 256)))
    let s := (s.dumpPut 6 [2]).showCap { s.cap with dump := 1 }
    { s with dumping := none, out := s.out ++ [.msix 0 0] }

/-! ### Fatal errors (R432, R433, R437) -/

/-- Firmware powers the dies and HBM down: HBM's contents are lost, and a dump that was being written stops. -/
def State.hbmOff (s : State) : State :=
  { s.showCap { s.cap with dump := 2 } with
    dumping := none, mem := s.mem.filter fun c => decide (2 ^ 40 ≤ c.1), hbm := [], bad := s.bad.filter fun b => decide (2 ^ 34 ≤ b) }

/-- A fatal error that is not dumped adds 1 to LOST (R434). -/
def State.dumpLost (s : State) : State := s.dumpPut 20 (toLe 4 ((s.dumpGet 20 4 + 1) % 2 ^ 32))

/-- A fatal error after the first (R433, R434): the second is in the fatal record, and in the header when it comes during the dump; each adds 1 to LOST,
STATE not being 0. A thermal trip or a supply fault stops the dump, powers HBM down, and is signalled where the first was not yet. -/
def State.fatalAgain (s : State) (cause : Nat) : State :=
  let first := s.cap.fcause2 == 0
  let r := if first then s.showCap { s.cap with fcause2 := cause } else s
  if cause = 1 ∨ cause = 6 then { r.hbmOff with out := if s.dumping.isSome then r.out ++ [.msix 0 0] else r.out }
  else if s.cap.dump = 2 then r
  else (if s.dumping.isSome && first then r.dumpPut 17 (toLe 1 cause) else r).dumpLost

/-- A fatal device error (R433): the first stops the device; the fatal record is written, then the dump is begun, unless HBM is powered down
or the region holds one that DUMPCLR has not cleared. -/
def State.fatal (s : State) (cause die unit : Nat) : State :=
  if s.stopped then s.fatalAgain cause
  else
    let join := fun (h : Nat × Hart) => if h.2.joinId.isSome then (h.1, { h.2 with joinId := none, joinVal := some (BitVec.allOnes 64) }) else h
    let s : State := { s with stopped := true, harts := s.harts.map join }
    let s := s.showCap { s.cap with phase := 3, step := 0, fcause := cause, fcause2 := 0, fdie := die, funit := unit, ftime := s.time, dump := 0 }
    let signal := fun (s : State) => { s with out := s.out ++ [.msix 0 0] }
    if cause = 1 ∨ cause = 6 then signal s.hbmOff
    else if s.dumpGet 6 1 ≠ 0 then signal s.dumpLost
    else s.startDump cause die unit

/-! ### Heat, supply, watchdog, scrub (R429, R431, R432) -/

/-- SENSOR_SAMPLE (R14, R431): readings in 0.125 °C against the limits; a draw against the allotment or near the die's share. -/
def execSensorSample (reading : Reading) (s : State) : Host.Outcome State Fault Refusal :=
  match reading with
  | .stack die stack temp =>
    let s : State := { s with sensors := tset s.sensors (48 + 4 * die + stack) [temp] }
    .next (if 105 * 8 ≤ temp then s.fatal 1 die stack else s)
  | .die die drawn =>
    .next ((List.range 12).foldl (fun s k => s.updColumn (12 * die + k) fun c => { c with dieDrawn := drawn }) s)
  | .column col temps drawn =>
    let s : State := { s with sensors := tset s.sensors col temps }
    let any := fun (d : Nat) => temps.any fun t => decide (d * 8 ≤ t)
    if any 115 then .next (s.fatal 1 (dieOfColumn col) col)
    else .next (s.updColumn col fun c => { c with
      heldZero := any 105 || (c.heldZero && any 100),
      target := if any 95 || drawn then 0 else if any 92 then c.level else 3 })

/-- SUPPLY_FAULT_TIMEOUT (R431). -/
def execSupplyFaultTimeout (die rail : Nat) (s : State) : Host.Outcome State Fault Refusal := .next (s.fatal 6 die rail)

/-- WATCHDOG_EXPIRY (R432). -/
def execWatchdogExpiry (die unit : Nat) (s : State) : Host.Outcome State Fault Refusal := .next (s.fatal 5 die unit)

/-- HBM_SCRUB (R429): what the code finds in a block is counted; no byte changes and nothing is cured. A block that is bad already is found so. -/
def execHbmScrub (block : Nat) (ecc : Ecc) (s : State) : Host.Outcome State Fault Refusal :=
  if block < 2 ^ 34 ∧ s.cap.dump ≠ 2 then .next (s.eccAt [block] (if s.bad.contains block then .bad else ecc)) else .next s

/-! ### Links (R430) -/

/-- The die that counts a link's replays. -/
def dieOfLink (l : Link) : Nat := match l with | .ucie e => (edgeDies e).1 | .ualink d _ => d | .pcie d => d

/-- LINK_REPLAY (R430): counted, for the link and for the flit; it changes time only. -/
def execLinkReplay (r : Replay) (s : State) : Host.Outcome State Fault Refusal :=
  if !(s.link r.link).up then .next s
  else .next ((s.updLink r.link fun x => { x with replays := x.replays + 1, flit := if r.again then x.flit + 1 else 1 }).tally 4 (dieOfLink r.link))

/-- The edges that traffic from die `d` to die `q` takes: the horizontal one first (R10). -/
def routeEdges (d q : Nat) : List Nat :=
  (if d % 2 = q % 2 then [] else [d / 2]) ++ (if d / 2 = q / 2 then [] else [2 + q % 2])

/-- Whether a die's unit keeps an entry of a replicated page whose sequencer it reaches over an edge (R407). -/
def Trans.sequencedOver (e : Trans) (edge : Nat) : Bool :=
  let pa := e.pte / 2 ^ 10 % 2 ^ 44 * 4096
  pa / 2 ^ 44 == 10 && (routeEdges e.die (pa / 2 ^ 40 % 4)).contains edge

/-- A UCIe edge is lost: no other route stands for it (R430). Where a replicated page's updates reach their sequencer over it, the loss of that route
is a second error, with cause 0x04 (R407, R432; log 51). -/
def State.edgeLost (s : State) (edge : Nat) : State :=
  let s := s.fatal 2 (edgeDies edge).1 edge
  match s.tlb.find? (·.sequencedOver edge) with
  | some e => s.fatal 4 e.die edge
  | none => s

/-- A UALink port is down (R430): its operations fail, those that wait for it and those that run on its Gleaner; its routes go. After a fatal error the
Gleaners have stopped, and nothing of theirs ends (R433). -/
def State.portDown (s : State) (die port : Nat) : State :=
  let mine := s.ops.filter fun o => o.kind == .xcoll && !o.st.final && dieOfCore o.core == die && (match o.port with
    | some p => p == port
    | none => s.routes.any fun r => r == (die, (peerOf (copyPk o.bytes).dst).1, port))
  let s := if s.stopped then s else mine.foldl (fun s o => s.failOp o 0xB 0x20 0) s
  { s with routes := s.routes.filter fun r => !(r.1 == die && r.2.2 == port) }

/-- LINK_RETRAIN_EXPIRY (R430): once the replays of a flit have run out, up to three retrains; then the link is lost. -/
def execLinkRetrainExpiry (link : Link) (up : Bool) (s : State) : Host.Outcome State Fault Refusal :=
  let r := s.link link
  if !r.up || decide (r.flit < 16) then .next s
  else if up then .next (s.updLink link fun r => { r with retrains := r.retrains + 1, flit := 0, tries := 0 })
  else
    let last := r.tries + 1 ≥ 3
    let s := s.updLink link fun r => { r with retrains := r.retrains + 1, tries := r.tries + 1, up := !last || (match link with | .pcie _ => true | _ => false) }
    if !last then .next s
    else match link with
      | .ucie e => .next (s.edgeLost e)
      | .ualink d p => .next (s.portDown d p)
      | .pcie _ => .next s

/-- PCIE_LINK_DOWN (R430, R405): system-view loads of the port fail; each posted store adds an entry. -/
def execPcieLinkDown (die : Nat) (s : State) : Host.Outcome State Fault Refusal :=
  let mine := fun (v : Option Nat) => match v with | some pa => pa / 2 ^ 44 % 4 == die | none => false
  let s := s.updLink (.pcie die) fun r => { r with up := false }
  let s := (s.loads.filter fun l => mine l.sysview).foldl (fun s l => s.hostAnswer l none) s
  .next ((s.stores.filter fun x => mine x.sysview).foldl State.storeLost s)

/-! ### Resets and power (R434–R437) -/

/-- HOT_RESET (R435). -/
def execHotReset (s : State) : Host.Outcome State Fault Refusal := .next s.computeReset

/-- Why the boot ROM does not accept an image (R437, R438), none when it does: its key does not hash to the fused digest, its signature does
not verify, its security version is below the count of blown fuses. With several the first of these is reported. The spec does not say whether the
signature and the measurement cover the security version and the raise flag: here they cover neither (DESIGN CHOICE, log 76). -/
def Image.rejected (i : Image) (fuses : Nat) : Option Nat :=
  if sha3 i.key ≠ bytesOf 64 Config.keyDigest then some 2
  else if !Mldsa.hashVerify i.key i.bytes i.sig then some 1
  else if i.svn < fuses then some 3
  else none

/-- The fuses that stand blown once an accepted image has run: its raise flag blows them up to its version, of the 64 there are (R438). -/
def Image.blows (i : Image) (fuses : Nat) : Nat := if i.raiseFlag then max fuses (min i.svn 64) else fuses

/-- What the boot ROM makes of an image in step 1 (R436–R438): the reason it fails for, or the image. -/
def bootRom (image : Option Image) (fuses : Nat) : Except Nat Image :=
  match image with
  | none => .error 4
  | some i => match Image.rejected i fuses with
    | some r => .error r
    | none => .ok i

/-- The links as a power-on leaves them: the PCIe links that train are up, the UALink ports down until step 6 (R436). -/
def bootLinks (p : PowerOn) : List (Link × LinkRegs) :=
  ((List.range 4).filter fun d => !p.endpoints.contains d).map (fun d => (.pcie d, { up := false })) ++
  (List.range 32).map fun k => (.ualink (k / 8) (k % 8), { up := false })

/-- POWER_ON_RESET (R435–R438): the whole module is reset, and bring-up is at step 1. What is the model's own goes on. -/
def execPowerOnReset (result : PowerOn) (s : State) : Host.Outcome State Fault Refusal :=
  let t : State := { State.reset with fuses := s.fuses, boot := some result, links := bootLinks result, seq := s.seq, draws := s.draws, agenda := s.agenda,
                                      out := s.out }
  .next (t.showCap { step := 1 })

/-- A step that fails holds the module in reset (R436). -/
def State.bootFails (s : State) (f : BringupFail) : State :=
  { s.showCap { phase := 2, step := f.step, reason := f.reason, unit := f.unit, die := f.die } with boot := none }

/-- Step 6 of bring-up: the UALink ports come up but for those that fail (R436). -/
def State.trainPorts (s : State) (lost : List (Nat × Nat)) : State :=
  (List.range 32).foldl (fun s n => s.updLink (.ualink (n / 8) (n % 8)) fun _ => { up := !lost.contains (n / 8, n % 8) }) s

/-- The step that bring-up is at is done (R436): the image is accepted and blows its fuses (1); the dump region has its header, in HBM of zeros
(2); the edges are up (3); the keys and SRAM stand as they are derived and zeroed (4); the module is ready (5); the UALink ports that train are up
(6). Or it fails. -/
def State.bootStep (s : State) (p : PowerOn) : State :=
  let k := s.cap.step
  if s.cap.phase = 1 ∨ s.cap.phase = 3 then
    { s.trainPorts p.lost with boot := none }
  else if k = 1 then match bootRom p.image s.fuses with
    | .error r => s.bootFails { step := 1, reason := r, unit := 0, die := 0 }
    | .ok i => { s.showCap { step := 2 } with image := i, fuses := Image.blows i s.fuses }
  else match p.fail.filter (·.step == k) with
    | some f => s.bootFails f
    | none =>
      let s := if k = 2 then s.dumpPut 0 (s.dumpHead 0 0 0 0) else s
      s.showCap (if k < 5 then { step := k + 1 } else { phase := 1 })

/-- Firmware goes on with what it has begun: the dump, else bring-up. -/
def State.firmware (s : State) : State :=
  if !s.powered then s
  else match s.dumping, s.boot with
    | some (k, off), _ => s.dumpStep k off
    | none, some p => s.bootStep p
    | none, none => s

/-- POWER_LOSS (R434): everything the module held is lost but what its fuses hold. -/
def execPowerLoss (s : State) : Host.Outcome State Fault Refusal :=
  .next { State.reset with powered := false, fuses := s.fuses, seq := s.seq, draws := s.draws, agenda := s.agenda, out := s.out }

/-- What a configuration read of the bring-up capability returns on a die's endpoint at offset `off`, a multiple of 4 below 0x30 (R4, R437): zero before
firmware first writes it there. HDR and VHDR have the layout of PCI Express (log 5). -/
def State.capDword (s : State) (die off : Nat) : Word :=
  let c := tgetD s.caps die {}
  let written := (tget s.caps die).isSome
  let w := fun (l : List (Nat × Nat × Nat)) => BitVec.ofNat 32 ((l.map fun x => x.1 % 2 ^ x.2.2 * 2 ^ x.2.1).foldl (· + ·) 0)
  match off with
  | 0x00 => if !written then 0 else w [(Config.capLink.toNat, 20, 12), (1, 16, 4), (0x000B, 0, 16)]
  | 0x04 => if !written then 0 else w [(0x030, 20, 12), (1, 16, 4), (0x0E54, 0, 16)]
  | 0x08 => w [(c.phase, 28, 4), (c.step, 24, 4), (c.reason, 16, 8), (c.unit, 8, 8), (c.die, 0, 8)]
  | 0x10 => w [(c.fcause, 24, 8), (c.fcause2, 16, 8), (c.fdie, 8, 8), (c.dump, 0, 8)]
  | 0x14 => BitVec.ofNat 32 c.funit
  | 0x18 => BitVec.ofNat 32 c.ftime
  | 0x1C => BitVec.ofNat 32 (c.ftime / 2 ^ 32)
  | 0x20 => if !written then 0 else BitVec.ofNat 32 s.image.svn
  | _ => 0

/-! ### Upsets in storage (R427, R428) -/

/-- An upset that the code corrects is counted; one it cannot correct has the outcome of R427. -/
def State.upset (s : State) (u : Upset) : State :=
  let sram := fun (die : Nat) (bad : Bool) => s.tally bad.toNat die
  match u with
  | .memory loc bad => s.eccAt [loc / 64] (if bad then .bad else .corrected)
  | .cached loc bad => s.eccAt [loc / 64] (if bad then .cacheBad else .cacheCorrected)
  | .register u _ n bad => match s.team? u with
    | none => s
    | some t =>
      let s := sram (dieOfCore t.core) bad
      if bad then (s.post t.ctx (s.ctxHart t.ctx) { cause := 0xB, src := 5, sub := 0x10, slice := t.slice, val := BitVec.ofNat 64 n }).kill u else s
  | .accumulator core pos bad =>
    let s := sram (dieOfCore core) bad
    if bad then s.updAcc core pos fun a => { a with bad := true, old := false } else s
  | .tables core bad =>
    let s := sram (dieOfCore core) bad
    if bad then (dedup ((s.teamsOn core).map (·.ctx))).foldl (fun s n => s.resetContext n (some 0x12)) s else s
  | .fold die unit bad =>
    let s := sram die bad
    if bad then s.fatal 3 die unit else s
  | .hartCache h bad =>
    let s := sram (dieOfColumn h) bad
    if bad then ({ s.updHart h (fun x => { x with joinVal := none }) with draws := s.draws + 1 } : State).hartTrap h 19 (Config.freeDouble s.draws) else s

/-- An upset names storage the part has, and that holds something (R7): HBM while it has power, the Sward's 448 units of a die, a core's 24 units, the
lane storage of a resident thread; a cache holds copies of HBM. What the Fold's, a translation unit's, a Gleaner's or a timestamp's state reports is a
column or a port of its die (R434). -/
def State.holdsUpset (s : State) (u : Upset) : Bool :=
  let thread := fun (u x : Nat) => ((s.team? u).map fun t => !t.swapped && t.threads.any (·.tidx == x)).getD false
  match u with
  | .memory loc _ =>
    if loc < 2 ^ 40 then s.cap.dump != 2
    else if loc < 2 ^ 41 then decide ((loc - 2 ^ 40) / 2 ^ 25 < 4) && decide ((loc - 2 ^ 40) % 2 ^ 25 < 448 * 65536)
    else if loc < 2 ^ 60 then decide ((loc - 2 ^ 41) / 0x180000 < 192)
    else thread ((loc - 2 ^ 60) / 4096 / 2048) ((loc - 2 ^ 60) / 4096 % 2048)
  | .cached loc _ => decide (loc < 2 ^ 40) && s.cap.dump != 2
  | .register u x n _ => thread u x && decide (n < 256)
  | .accumulator c p _ => goodCore c && decide (p < 512)
  | .tables c _ => goodCore c
  | .fold d unit _ => goodDie d && goodUnit d unit
  | .hartCache h _ => goodColumn h

/-! ### What may move in each phase (R433, R435, R436) -/

/-- Bring-up has made the module ready (R436); it stays so after a fatal error, where PHASE reads 3 (R437). -/
def State.ready (s : State) : Bool := s.powered && (s.cap.phase == 1 || s.cap.phase == 3)

/-- Whether an agent's instruction or event may come: without power only power-on; held in bring-up nothing but power; after a fatal error
only the base cores with their invalidations and accesses, refusals, what is on its way to or from the host, errors and resets. -/
def State.allows (s : State) (i : Instr) : Bool :=
  match i with
  | .powerOnReset _ => true
  | .powerLoss => s.powered
  | .edisp .. | .ejoin .. | .eginv .. | .eginvw | .illegalInstructionException _ | .registerWrite .. | .baseCoreAccess _
  | .create _ | .destroy _ | .preempt _ | .restore _ | .stile _ | .queue _ | .pwin _ | .pgrant _ | .route _ | .pool _ | .svcring _
  | .attest _ | .cert _ | .errstat _ | .dumpclr _ | .reset _ | .stileLaunch _ | .invalidationReceive .. | .invalidationAck ..
  | .sysviewLoadCompletion .. | .sysviewLoadTimeout _ | .pcieStoreRefused _ | .sysviewStoreAccepted _ | .pcieLinkDown _
  | .pcieInboundWrite .. | .pcieInboundRead .. | .hotReset | .sensorSample _ | .supplyFaultTimeout .. | .watchdogExpiry .. | .hbmScrub ..
  | .linkReplay _ | .linkRetrainExpiry .. => s.ready
  | _ => s.ready && !s.stopped

/-- Whether an upset may come. -/
def State.upsets (s : State) (u : Upset) : Bool :=
  s.ready && s.holdsUpset u &&
  (!s.stopped || (match u with | .memory .. | .cached .. | .fold .. | .hartCache .. => true | _ => false))

end Sys2Proof.Machine
end

