-- ==== Sys2Proof/Machine/FloatOps.lean ====
section
/-! DEFINITION. Floating-point, conversion and group instructions: FSETP, FADD to FMXS, SHFLI to MRNK.i64, AFADD (R160, R174–R197, R209). -/

namespace Sys2Proof.Machine

/-- The FP32 value of a word. -/
def fv (w : Word) : FV := fp32.val w.toNat
/-- Enc(RoundNE(v)) as a word. -/
def fw (v : FV) : Word := BitVec.ofNat 32 (fp32.enc v)
/-- Enc(Round(v)) in a mode. -/
def fwm (v : FV) (code : Nat) : Word := BitVec.ofNat 32 (fp32.enc v (RMode.ofCode code))
/-- Half `h` of a word. -/
def half (w : Word) (h : Nat) : Nat := (w.extractLsb' (16 * h) 16).toNat
/-- A function of the two halves of A, B and D (R181). -/
def halves (f : Nat → Nat → Nat → Nat) (a b d : Word) : Word :=
  BitVec.ofNat 32 (f (half a 1) (half b 1) (half d 1) * 2 ^ 16 + f (half a 0) (half b 0) (half d 0))
/-- A rounded function of values on one half. -/
def onHalf (m : Fmt) (f : FV → FV → FV → FV) (a b d : Nat) : Nat := m.enc (f (m.val a) (m.val b) (m.val d))
/-- A word with the `n` bits from `at` up replaced. -/
def insertBits (w : Word) (pos n x : Nat) : Word :=
  BitVec.ofNat 32 (w.toNat / 2 ^ (pos + n) * 2 ^ (pos + n) + x % 2 ^ n * 2 ^ pos + w.toNat % 2 ^ pos)
/-- F2I's limits by type code (R183). -/
def intLo (t : Nat) : Int := match t with | 0 => -(2 ^ 31) | 2 => -(2 ^ 63) | _ => 0
/-- F2I's upper limits. -/
def intHi (t : Nat) : Int := match t with | 0 => 2 ^ 31 - 1 | 1 => 2 ^ 32 - 1 | 2 => 2 ^ 63 - 1 | _ => 2 ^ 64 - 1
/-- I2F's operand by type code (R184). -/
def intOf (v : Dev) (t : Thread) (k : Nat) : Int :=
  match k with | 0 => (v.a32 t).toInt | 1 => (v.a32 t).toNat | 2 => (v.a64 t).toInt | _ => (v.a64 t).toNat
/-- Bits and place of an element position (R190). -/
def elemBits (fmt : Nat) : Nat := if fmt = 0 then 4 else 8

/-- FSETP (R160). -/
def execFsetp (w : Pc) (s : State) : Host.Outcome State Fault Refusal :=
  let v := w.dev 0x44
  .next (runWord v (fun i s => i.each s fun t th => th.setP v.pd (fcond w.cond.toNat (fv (v.a32 t)) (fv (v.b32 t)))) s)

/-- FADD (R177). -/
def execFadd (w : Rrr) (s : State) : Host.Outcome State Fault Refusal :=
  let v := w.dev 0x58
  .next (runLanes v (fun t => v.wd (fw ((fv (v.a32 t)).add (fv (v.b32 t))))) s)

/-- FSUB (R177). -/
def execFsub (w : Rrr) (s : State) : Host.Outcome State Fault Refusal :=
  let v := w.dev 0x59
  .next (runLanes v (fun t => v.wd (fw ((fv (v.a32 t)).add (fv (v.b32 t)).neg))) s)

/-- FMUL (R177). -/
def execFmul (w : Rrr) (s : State) : Host.Outcome State Fault Refusal :=
  let v := w.dev 0x5A
  .next (runLanes v (fun t => v.wd (fw ((fv (v.a32 t)).mul (fv (v.b32 t))))) s)

/-- FFMA (R177). -/
def execFfma (w : Rrr) (s : State) : Host.Outcome State Fault Refusal :=
  let v := w.dev 0x5B
  .next (runLanes v (fun t => v.wd (fw (((fv (v.a32 t)).mul (fv (v.b32 t))).add (fv (v.d32 t))))) s)

/-- FMIN (R178). -/
def execFmin (w : Rrr) (s : State) : Host.Outcome State Fault Refusal :=
  let v := w.dev 0x5C
  .next (runLanes v (fun t => v.wd (BitVec.ofNat 32 (fp32.pick false (v.a32 t).toNat (v.b32 t).toNat))) s)

/-- FMAX (R178). -/
def execFmax (w : Rrr) (s : State) : Host.Outcome State Fault Refusal :=
  let v := w.dev 0x5D
  .next (runLanes v (fun t => v.wd (BitVec.ofNat 32 (fp32.pick true (v.a32 t).toNat (v.b32 t).toNat))) s)

/-- FABS (R179). -/
def execFabs (w : Rrr) (s : State) : Host.Outcome State Fault Refusal :=
  let v := w.dev 0x5E
  .next (runLanes v (fun t => v.wd (v.a32 t &&& 0x7FFFFFFF)) s)

/-- FNEG (R179). -/
def execFneg (w : Rrr) (s : State) : Host.Outcome State Fault Refusal :=
  let v := w.dev 0x5F
  .next (runLanes v (fun t => v.wd (v.a32 t ^^^ 0x80000000)) s)

/-- FRND (R180). -/
def execFrnd (w : Rrr) (s : State) : Host.Outcome State Fault Refusal :=
  let v := w.dev 0x60
  .next (runLanes v (fun t => v.wd (fw (integral (RMode.ofCode (v.b.toNat % 4)) (fv (v.a32 t))))) s)

/-- HADD2 (R181). -/
def execHadd2 (w : Rrr) (s : State) : Host.Outcome State Fault Refusal :=
  let v := w.dev 0x61
  .next (runLanes v (fun t => v.wd (halves (onHalf fp16 fun a b _ => a.add b) (v.a32 t) (v.b32 t) (v.d32 t))) s)

/-- HMUL2 (R181). -/
def execHmul2 (w : Rrr) (s : State) : Host.Outcome State Fault Refusal :=
  let v := w.dev 0x62
  .next (runLanes v (fun t => v.wd (halves (onHalf fp16 fun a b _ => a.mul b) (v.a32 t) (v.b32 t) (v.d32 t))) s)

/-- HFMA2 (R181). -/
def execHfma2 (w : Rrr) (s : State) : Host.Outcome State Fault Refusal :=
  let v := w.dev 0x63
  .next (runLanes v (fun t => v.wd (halves (onHalf fp16 fun a b d => (a.mul b).add d) (v.a32 t) (v.b32 t) (v.d32 t))) s)

/-- HMIN2 (R181). -/
def execHmin2 (w : Rrr) (s : State) : Host.Outcome State Fault Refusal :=
  let v := w.dev 0x64
  .next (runLanes v (fun t => v.wd (halves (fun a b _ => fp16.pick false a b) (v.a32 t) (v.b32 t) (v.d32 t))) s)

/-- HMAX2 (R181). -/
def execHmax2 (w : Rrr) (s : State) : Host.Outcome State Fault Refusal :=
  let v := w.dev 0x65
  .next (runLanes v (fun t => v.wd (halves (fun a b _ => fp16.pick true a b) (v.a32 t) (v.b32 t) (v.d32 t))) s)

/-- BADD2 (R181). -/
def execBadd2 (w : Rrr) (s : State) : Host.Outcome State Fault Refusal :=
  let v := w.dev 0x66
  .next (runLanes v (fun t => v.wd (halves (onHalf bf16 fun a b _ => a.add b) (v.a32 t) (v.b32 t) (v.d32 t))) s)

/-- BMUL2 (R181). -/
def execBmul2 (w : Rrr) (s : State) : Host.Outcome State Fault Refusal :=
  let v := w.dev 0x67
  .next (runLanes v (fun t => v.wd (halves (onHalf bf16 fun a b _ => a.mul b) (v.a32 t) (v.b32 t) (v.d32 t))) s)

/-- BFMA2 (R181). -/
def execBfma2 (w : Rrr) (s : State) : Host.Outcome State Fault Refusal :=
  let v := w.dev 0x68
  .next (runLanes v (fun t => v.wd (halves (onHalf bf16 fun a b d => (a.mul b).add d) (v.a32 t) (v.b32 t) (v.d32 t))) s)

/-- FRCP (R182). -/
def execFrcp (w : Rrr) (s : State) : Host.Outcome State Fault Refusal :=
  let v := w.dev 0x69
  .next (runLanes v (fun t => v.wd (fw ((FV.fin false 1 0).div (fv (v.a32 t))))) s)

/-- FRSQ (R182). -/
def execFrsq (w : Rrr) (s : State) : Host.Outcome State Fault Refusal :=
  let v := w.dev 0x6A
  .next (runLanes v (fun t => v.wd (fw (fv (v.a32 t)).rsqrt)) s)

/-- FSQRT (R182). -/
def execFsqrt (w : Rrr) (s : State) : Host.Outcome State Fault Refusal :=
  let v := w.dev 0x6B
  .next (runLanes v (fun t => v.wd (fw (fv (v.a32 t)).sqrt)) s)

/-- FEXP2 (R182). -/
def execFexp2 (w : Rrr) (s : State) : Host.Outcome State Fault Refusal :=
  let v := w.dev 0x6C
  .next (runLanes v (fun t => v.wd (fw (fv (v.a32 t)).exp2)) s)

/-- FLOG2 (R182). -/
def execFlog2 (w : Rrr) (s : State) : Host.Outcome State Fault Refusal :=
  let v := w.dev 0x6D
  .next (runLanes v (fun t => v.wd (fw (fv (v.a32 t)).log2)) s)

/-- FSIN (R182). -/
def execFsin (w : Rrr) (s : State) : Host.Outcome State Fault Refusal :=
  let v := w.dev 0x6E
  .next (runLanes v (fun t => v.wd (fw (fv (v.a32 t)).sin)) s)

/-- FCOS (R182). -/
def execFcos (w : Rrr) (s : State) : Host.Outcome State Fault Refusal :=
  let v := w.dev 0x6F
  .next (runLanes v (fun t => v.wd (fw (fv (v.a32 t)).cos)) s)

/-- FTANH (R182). -/
def execFtanh (w : Rrr) (s : State) : Host.Outcome State Fault Refusal :=
  let v := w.dev 0x70
  .next (runLanes v (fun t => v.wd (fw (fv (v.a32 t)).tanh)) s)

/-- FDIV (R182). -/
def execFdiv (w : Rrr) (s : State) : Host.Outcome State Fault Refusal :=
  let v := w.dev 0x71
  .next (runLanes v (fun t => v.wd (fw ((fv (v.a32 t)).div (fv (v.b32 t))))) s)

/-- F2I (R183). -/
def execF2i (w : Rrr) (s : State) : Host.Outcome State Fault Refusal :=
  let v := w.dev 0x72
  let k := v.b.toNat % 4
  .next (runLanes v (fun t =>
    let r := toIntSat (RMode.ofCode (v.b.toNat / 4 % 4)) (intLo k) (intHi k) (fv (v.a32 t))
    if k ≥ 2 then v.wdd (BitVec.ofInt 64 r) else v.wd (BitVec.ofInt 32 r)) s)

/-- I2F (R184). -/
def execI2f (w : Rrr) (s : State) : Host.Outcome State Fault Refusal :=
  let v := w.dev 0x73
  .next (runLanes v (fun t => v.wd (fwm (ofInteger (intOf v t (v.b.toNat % 4))) (v.b.toNat / 4 % 4))) s)

/-- F2H (R185). -/
def execF2h (w : Rrr) (s : State) : Host.Outcome State Fault Refusal :=
  let v := w.dev 0x74
  let m := if v.b.getLsbD 0 then bf16 else fp16
  .next (runLanes v (fun t => v.wd (insertBits (v.d32 t) (if v.b.getLsbD 1 then 16 else 0) 16 (m.enc (fv (v.a32 t))))) s)

/-- H2F (R185). -/
def execH2f (w : Rrr) (s : State) : Host.Outcome State Fault Refusal :=
  let v := w.dev 0x75
  let m := if v.b.getLsbD 0 then bf16 else fp16
  .next (runLanes v (fun t => v.wd (fw (m.val (half (v.a32 t) (if v.b.getLsbD 1 then 1 else 0))))) s)

/-- F2Q (R190, R191). -/
def execF2q (w : Rrr) (s : State) : Host.Outcome State Fault Refusal :=
  let v := w.dev 0x76
  let n := elemBits (bits v.lw 2 0)
  .next (runLanes v (fun t => v.wd (insertBits (v.d32 t) (n * bits v.lw 7 3) n
    (quantise (bits v.lw 2 0) (fv (v.a32 t)) ((v.rb32 t).toNat % 256)))) s)

/-- Q2F (R190). -/
def execQ2f (w : Rrr) (s : State) : Host.Outcome State Fault Refusal :=
  let v := w.dev 0x77
  let n := elemBits (bits v.lw 2 0)
  .next (runLanes v (fun t => v.wd (fw (dequantise (bits v.lw 2 0) ((v.a32 t).toNat / 2 ^ (n * bits v.lw 7 3) % 2 ^ n)
    ((v.rb32 t).toNat % 256)))) s)

/-- FSCL (R186). -/
def execFscl (w : Rrr) (s : State) : Host.Outcome State Fault Refusal :=
  let v := w.dev 0x78
  .next (runLanes v (fun t => v.wd (fw ((fv (v.a32 t)).scale (v.b32 t).toInt))) s)

/-- FCLS (R187). -/
def execFcls (w : Rrr) (s : State) : Host.Outcome State Fault Refusal :=
  let v := w.dev 0x79
  .next (runLanes v (fun t => v.wd (BitVec.ofNat 32 (classOf (v.a32 t).toNat))) s)

/-- FXCVT (R188). -/
def execFxcvt (w : Rrr) (s : State) : Host.Outcome State Fault Refusal :=
  let v := w.dev 0x7A
  .next (runLanes v (fun t => v.wd (fw (FV.ofInt (BitVec.ofNat 128 (leNat (wordsLe (t.vs v.a.toNat 4)))).toInt (v.b32 t).toInt))) s)

/-- FMXS (R189). -/
def execFmxs (w : Rrr) (s : State) : Host.Outcome State Fault Refusal :=
  let v := w.dev 0x7B
  .next (runLanes v (fun t => v.wd (BitVec.ofNat 32 (blockScale (v.b.toNat % 8) (v.a32 t).toNat))) s)

/-! ### Group instructions (R192) -/

/-- The active thread at a position. -/
def Iss.atPos (i : Iss) (j : Int) : Option Thread := i.act.find? fun t => (t.pos : Int) == j

/-- A shuffle (R193): A of the thread at the source position, else one's own. -/
def runShuffle (v : Dev) (src : Nat → Nat → Nat → Int) (s : State) : State :=
  runWord v (fun i s => i.each s fun _ th =>
    th.setVs (v.wd (v.a32 ((i.atPos (src i.desc.width th.pos (v.b32 th).toNat)).getD th)))) s

/-- An integer reduction (R194): every active thread gets the same word. -/
def runReduce (v : Dev) (f : List Word → Word) (s : State) : State :=
  runWord v (fun i s => i.each s fun _ th => th.setVs (v.wd (f (i.act.map v.a32)))) s

/-- The sum of words mod 2^32. -/
def sumWords (l : List Word) : Word := l.foldl (· + ·) 0

/-- One thread of CXCH (R196): its key's new value and whether it took the partner's. -/
def exchange {n : Nat} (c : Word) (pos : Nat) (mine : BitVec n) (theirs : Option (BitVec n)) : BitVec n × Bool :=
  match theirs with
  | none => (mine, false)
  | some other =>
    let lo := min pos (pos ^^^ bits c 7 0)
    let asc := lo &&& bits c 15 8 == 0
    let less := if c.getLsbD 16 then mine.toInt ≤ other.toInt else mine.toNat ≤ other.toNat
    let least := if less then mine else other
    let most := if less then other else mine
    let want := if (pos == lo) == asc then least else most
    if want = mine then (mine, false) else (other, true)

/-- CXCH on keys of a width (R196). -/
def runExchange {n : Nat} (v : Dev) (key : Thread → BitVec n) (out : BitVec n → List (Nat × Word)) (s : State) : State :=
  runWord v (fun i s => i.each s fun _ th =>
    let c := v.b32 th
    let r := exchange c th.pos (key th) ((i.atPos (th.pos ^^^ bits c 7 0 : Nat)).map key)
    (th.setVs (out r.1)).setP (bits c 19 17) r.2) s

/-- MRNK.i64's rank of one thread (R197). -/
def mergeRank (act : List Thread) (key : Thread → Addr) (c : Word) (t : Thread) : Nat :=
  let h := bits c 7 0
  if h = 0 then t.pos
  else
    let base := fun (u : Thread) => u.pos / (2 * h) * (2 * h)
    let inA := fun (u : Thread) => decide (u.pos - base u < h)
    let num := fun (u : Thread) => if c.getLsbD 8 then (key u).toInt else (key u).toNat
    let mates := act.filter fun u => base u == base t
    let own := (mates.filter fun u => inA u == inA t && decide (u.pos < t.pos)).length
    let other := (mates.filter fun u => inA u != inA t && (if inA t then decide (num u < num t) else decide (num u ≤ num t))).length
    base t + own + other

/-- SHFLI (R193). -/
def execShfli (w : Rrr) (s : State) : Host.Outcome State Fault Refusal :=
  let v := w.dev 0x80
  .next (runShuffle v (fun w _ n => (n % w : Nat)) s)

/-- SHFLU (R193). -/
def execShflu (w : Rrr) (s : State) : Host.Outcome State Fault Refusal :=
  let v := w.dev 0x81
  .next (runShuffle v (fun _ p n => (p : Int) - n) s)

/-- SHFLD (R193). -/
def execShfld (w : Rrr) (s : State) : Host.Outcome State Fault Refusal :=
  let v := w.dev 0x82
  .next (runShuffle v (fun _ p n => (p : Int) + n) s)

/-- SHFLX (R193). -/
def execShflx (w : Rrr) (s : State) : Host.Outcome State Fault Refusal :=
  let v := w.dev 0x83
  .next (runShuffle v (fun w p n => (p ^^^ (n % w) : Nat)) s)

/-- GRADD.i32 (R194). -/
def execGraddI32 (w : Rrr) (s : State) : Host.Outcome State Fault Refusal :=
  let v := w.dev 0x84
  .next (runReduce v (sumWords) s)

/-- GRADD.f32 (R195). -/
def execGraddF32 (w : Rrr) (s : State) : Host.Outcome State Fault Refusal :=
  let v := w.dev 0x85
  .next (runWord v (fun i s =>
    let places := (List.range i.desc.width).map fun (j : Nat) => (i.atPos j).map fun u => fv (v.a32 u)
    i.each s fun _ th => th.setVs (v.wd (fw ((treeSum i.desc.width.log2 places).getD .nan)))) s)

/-- GRMIN.s32 (R194). -/
def execGrminS32 (w : Rrr) (s : State) : Host.Outcome State Fault Refusal :=
  let v := w.dev 0x86
  .next (runReduce v (fun l => l.foldl (fun a b => if a.toInt ≤ b.toInt then a else b) 0x7FFFFFFF) s)

/-- GRMAX.s32 (R194). -/
def execGrmaxS32 (w : Rrr) (s : State) : Host.Outcome State Fault Refusal :=
  let v := w.dev 0x87
  .next (runReduce v (fun l => l.foldl (fun a b => if b.toInt ≤ a.toInt then a else b) 0x80000000) s)

/-- GSCAN.i32 (R194). -/
def execGscanI32 (w : Rrr) (s : State) : Host.Outcome State Fault Refusal :=
  let v := w.dev 0x88
  .next (runWord v (fun i s => i.each s fun _ th =>
    th.setVs (v.wd (sumWords ((i.act.filter fun u => u.pos < th.pos || (u.pos == th.pos && !v.b.getLsbD 0)).map v.a32)))) s)

/-- CXCH.i64 (R196). -/
def execCxchI64 (w : Rrr) (s : State) : Host.Outcome State Fault Refusal :=
  let v := w.dev 0x89
  .next (runExchange v v.a64 v.wdd s)

/-- CXCH.i32 (R196). -/
def execCxchI32 (w : Rrr) (s : State) : Host.Outcome State Fault Refusal :=
  let v := w.dev 0x8A
  .next (runExchange v v.a32 v.wd s)

/-- MRNK.i64 (R197). -/
def execMrnkI64 (w : Rrr) (s : State) : Host.Outcome State Fault Refusal :=
  let v := w.dev 0x8B
  .next (runWord v (fun i s => i.each s fun _ th => th.setVs (v.wd (BitVec.ofNat 32 (mergeRank i.act v.a64 (v.b32 th) th)))) s)

/-- AFADD (R209). -/
def execAfadd (w : Rrr) (s : State) : Host.Outcome State Fault Refusal :=
  let v := w.dev 0xA4
  .next (runAtomic v 4 (fun t old => some (fp32.enc ((fp32.val old).add (fv (v.rb32 t))))) s)

end Sys2Proof.Machine
end

