-- ==== Sys2Proof/Machine/Dispatch.lean ====
section
/-! DEFINITION. One arm per instruction: its meaning, or its refusal by name. -/

namespace Sys2Proof.Machine

/-- The effect of an instruction. -/
def exec (i : Instr) (s : State) : Host.Outcome State Fault Refusal :=
  match i with
  | .nop w => Sys2Proof.Machine.execNop w s
  | .iaddI32 w => Sys2Proof.Machine.execIaddI32 w s
  | .iaddI64 w => Sys2Proof.Machine.execIaddI64 w s
  | .isubI32 w => Sys2Proof.Machine.execIsubI32 w s
  | .isubI64 w => Sys2Proof.Machine.execIsubI64 w s
  | .imulI32 w => Sys2Proof.Machine.execImulI32 w s
  | .imulI64 w => Sys2Proof.Machine.execImulI64 w s
  | .imulhS32 w => Sys2Proof.Machine.execImulhS32 w s
  | .imulhN32 w => Sys2Proof.Machine.execImulhN32 w s
  | .imulhS64 w => Sys2Proof.Machine.execImulhS64 w s
  | .imulhN64 w => Sys2Proof.Machine.execImulhN64 w s
  | .imadI32 w => Sys2Proof.Machine.execImadI32 w s
  | .imadI64 w => Sys2Proof.Machine.execImadI64 w s
  | .iminS32 w => Sys2Proof.Machine.execIminS32 w s
  | .iminN32 w => Sys2Proof.Machine.execIminN32 w s
  | .iminS64 w => Sys2Proof.Machine.execIminS64 w s
  | .iminN64 w => Sys2Proof.Machine.execIminN64 w s
  | .imaxS32 w => Sys2Proof.Machine.execImaxS32 w s
  | .imaxN32 w => Sys2Proof.Machine.execImaxN32 w s
  | .imaxS64 w => Sys2Proof.Machine.execImaxS64 w s
  | .imaxN64 w => Sys2Proof.Machine.execImaxN64 w s
  | .iabsS32 w => Sys2Proof.Machine.execIabsS32 w s
  | .iabsS64 w => Sys2Proof.Machine.execIabsS64 w s
  | .inegI32 w => Sys2Proof.Machine.execInegI32 w s
  | .inegI64 w => Sys2Proof.Machine.execInegI64 w s
  | .idivS32 w => Sys2Proof.Machine.execIdivS32 w s
  | .idivN32 w => Sys2Proof.Machine.execIdivN32 w s
  | .idivS64 w => Sys2Proof.Machine.execIdivS64 w s
  | .idivN64 w => Sys2Proof.Machine.execIdivN64 w s
  | .iremS32 w => Sys2Proof.Machine.execIremS32 w s
  | .iremN32 w => Sys2Proof.Machine.execIremN32 w s
  | .iremS64 w => Sys2Proof.Machine.execIremS64 w s
  | .iremN64 w => Sys2Proof.Machine.execIremN64 w s
  | .iaddsS32 w => Sys2Proof.Machine.execIaddsS32 w s
  | .isubsS32 w => Sys2Proof.Machine.execIsubsS32 w s
  | .isadN32 w => Sys2Proof.Machine.execIsadN32 w s
  | .idp4S8 w => Sys2Proof.Machine.execIdp4S8 w s
  | .and w => Sys2Proof.Machine.execAnd w s
  | .or w => Sys2Proof.Machine.execOr w s
  | .xor w => Sys2Proof.Machine.execXor w s
  | .andn w => Sys2Proof.Machine.execAndn w s
  | .not w => Sys2Proof.Machine.execNot w s
  | .lop3 w => Sys2Proof.Machine.execLop3 w s
  | .shlI32 w => Sys2Proof.Machine.execShlI32 w s
  | .shlI64 w => Sys2Proof.Machine.execShlI64 w s
  | .shrI32 w => Sys2Proof.Machine.execShrI32 w s
  | .shrI64 w => Sys2Proof.Machine.execShrI64 w s
  | .sarI32 w => Sys2Proof.Machine.execSarI32 w s
  | .sarI64 w => Sys2Proof.Machine.execSarI64 w s
  | .rotlI32 w => Sys2Proof.Machine.execRotlI32 w s
  | .rotlI64 w => Sys2Proof.Machine.execRotlI64 w s
  | .shf w => Sys2Proof.Machine.execShf w s
  | .popcI32 w => Sys2Proof.Machine.execPopcI32 w s
  | .popcI64 w => Sys2Proof.Machine.execPopcI64 w s
  | .clzI32 w => Sys2Proof.Machine.execClzI32 w s
  | .clzI64 w => Sys2Proof.Machine.execClzI64 w s
  | .ctzI32 w => Sys2Proof.Machine.execCtzI32 w s
  | .ctzI64 w => Sys2Proof.Machine.execCtzI64 w s
  | .brev w => Sys2Proof.Machine.execBrev w s
  | .bfe w => Sys2Proof.Machine.execBfe w s
  | .bfi w => Sys2Proof.Machine.execBfi w s
  | .andI64 w => Sys2Proof.Machine.execAndI64 w s
  | .orI64 w => Sys2Proof.Machine.execOrI64 w s
  | .xorI64 w => Sys2Proof.Machine.execXorI64 w s
  | .isetpS32 w => Sys2Proof.Machine.execIsetpS32 w s
  | .isetpN32 w => Sys2Proof.Machine.execIsetpN32 w s
  | .isetpS64 w => Sys2Proof.Machine.execIsetpS64 w s
  | .isetpN64 w => Sys2Proof.Machine.execIsetpN64 w s
  | .fsetp w => Sys2Proof.Machine.execFsetp w s
  | .plop w => Sys2Proof.Machine.execPlop w s
  | .sel w => Sys2Proof.Machine.execSel w s
  | .pmov w => Sys2Proof.Machine.execPmov w s
  | .vote w => Sys2Proof.Machine.execVote w s
  | .findmI32 w => Sys2Proof.Machine.execFindmI32 w s
  | .findmI64 w => Sys2Proof.Machine.execFindmI64 w s
  | .elect w => Sys2Proof.Machine.execElect w s
  | .mov w => Sys2Proof.Machine.execMov w s
  | .movk w => Sys2Proof.Machine.execMovk w s
  | .movi w => Sys2Proof.Machine.execMovi w s
  | .movh w => Sys2Proof.Machine.execMovh w s
  | .gsr w => Sys2Proof.Machine.execGsr w s
  | .ssr w => Sys2Proof.Machine.execSsr w s
  | .movd w => Sys2Proof.Machine.execMovd w s
  | .fadd w => Sys2Proof.Machine.execFadd w s
  | .fsub w => Sys2Proof.Machine.execFsub w s
  | .fmul w => Sys2Proof.Machine.execFmul w s
  | .ffma w => Sys2Proof.Machine.execFfma w s
  | .fmin w => Sys2Proof.Machine.execFmin w s
  | .fmax w => Sys2Proof.Machine.execFmax w s
  | .fabs w => Sys2Proof.Machine.execFabs w s
  | .fneg w => Sys2Proof.Machine.execFneg w s
  | .frnd w => Sys2Proof.Machine.execFrnd w s
  | .hadd2 w => Sys2Proof.Machine.execHadd2 w s
  | .hmul2 w => Sys2Proof.Machine.execHmul2 w s
  | .hfma2 w => Sys2Proof.Machine.execHfma2 w s
  | .hmin2 w => Sys2Proof.Machine.execHmin2 w s
  | .hmax2 w => Sys2Proof.Machine.execHmax2 w s
  | .badd2 w => Sys2Proof.Machine.execBadd2 w s
  | .bmul2 w => Sys2Proof.Machine.execBmul2 w s
  | .bfma2 w => Sys2Proof.Machine.execBfma2 w s
  | .frcp w => Sys2Proof.Machine.execFrcp w s
  | .frsq w => Sys2Proof.Machine.execFrsq w s
  | .fsqrt w => Sys2Proof.Machine.execFsqrt w s
  | .fexp2 w => Sys2Proof.Machine.execFexp2 w s
  | .flog2 w => Sys2Proof.Machine.execFlog2 w s
  | .fsin w => Sys2Proof.Machine.execFsin w s
  | .fcos w => Sys2Proof.Machine.execFcos w s
  | .ftanh w => Sys2Proof.Machine.execFtanh w s
  | .fdiv w => Sys2Proof.Machine.execFdiv w s
  | .f2i w => Sys2Proof.Machine.execF2i w s
  | .i2f w => Sys2Proof.Machine.execI2f w s
  | .f2h w => Sys2Proof.Machine.execF2h w s
  | .h2f w => Sys2Proof.Machine.execH2f w s
  | .f2q w => Sys2Proof.Machine.execF2q w s
  | .q2f w => Sys2Proof.Machine.execQ2f w s
  | .fscl w => Sys2Proof.Machine.execFscl w s
  | .fcls w => Sys2Proof.Machine.execFcls w s
  | .fxcvt w => Sys2Proof.Machine.execFxcvt w s
  | .fmxs w => Sys2Proof.Machine.execFmxs w s
  | .shfli w => Sys2Proof.Machine.execShfli w s
  | .shflu w => Sys2Proof.Machine.execShflu w s
  | .shfld w => Sys2Proof.Machine.execShfld w s
  | .shflx w => Sys2Proof.Machine.execShflx w s
  | .graddI32 w => Sys2Proof.Machine.execGraddI32 w s
  | .graddF32 w => Sys2Proof.Machine.execGraddF32 w s
  | .grminS32 w => Sys2Proof.Machine.execGrminS32 w s
  | .grmaxS32 w => Sys2Proof.Machine.execGrmaxS32 w s
  | .gscanI32 w => Sys2Proof.Machine.execGscanI32 w s
  | .cxchI64 w => Sys2Proof.Machine.execCxchI64 w s
  | .cxchI32 w => Sys2Proof.Machine.execCxchI32 w s
  | .mrnkI64 w => Sys2Proof.Machine.execMrnkI64 w s
  | .ldB8 w => Sys2Proof.Machine.execLdB8 w s
  | .ldS8 w => Sys2Proof.Machine.execLdS8 w s
  | .ldB16 w => Sys2Proof.Machine.execLdB16 w s
  | .ldS16 w => Sys2Proof.Machine.execLdS16 w s
  | .ldB32 w => Sys2Proof.Machine.execLdB32 w s
  | .ldB64 w => Sys2Proof.Machine.execLdB64 w s
  | .ldB128 w => Sys2Proof.Machine.execLdB128 w s
  | .stB8 w => Sys2Proof.Machine.execStB8 w s
  | .stB16 w => Sys2Proof.Machine.execStB16 w s
  | .stB32 w => Sys2Proof.Machine.execStB32 w s
  | .stB64 w => Sys2Proof.Machine.execStB64 w s
  | .stB128 w => Sys2Proof.Machine.execStB128 w s
  | .ldt w => Sys2Proof.Machine.execLdt w s
  | .stt w => Sys2Proof.Machine.execStt w s
  | .atom w => Sys2Proof.Machine.execAtom w s
  | .atom64 w => Sys2Proof.Machine.execAtom64 w s
  | .acas w => Sys2Proof.Machine.execAcas w s
  | .acas64 w => Sys2Proof.Machine.execAcas64 w s
  | .red w => Sys2Proof.Machine.execRed w s
  | .red64 w => Sys2Proof.Machine.execRed64 w s
  | .afadd w => Sys2Proof.Machine.execAfadd w s
  | .pref w => Sys2Proof.Machine.execPref w s
  | .sync w => Sys2Proof.Machine.execSync w s
  | .mwatch w => Sys2Proof.Machine.execMwatch w s
  | .mwait w => Sys2Proof.Machine.execMwait w s
  | .cwb w => Sys2Proof.Machine.execCwb w s
  | .cinv w => Sys2Proof.Machine.execCinv w s
  | .bra w => Sys2Proof.Machine.execBra w s
  | .brx w => Sys2Proof.Machine.execBrx w s
  | .bri w => Sys2Proof.Machine.execBri w s
  | .call w => Sys2Proof.Machine.execCall w s
  | .calli w => Sys2Proof.Machine.execCalli w s
  | .ret w => Sys2Proof.Machine.execRet w s
  | .unwind w => Sys2Proof.Machine.execUnwind w s
  | .frsz w => Sys2Proof.Machine.execFrsz w s
  | .exit w => Sys2Proof.Machine.execExit w s
  | .yield w => Sys2Proof.Machine.execYield w s
  | .sleep w => Sys2Proof.Machine.execSleep w s
  | .bara w => Sys2Proof.Machine.execBara w s
  | .barw w => Sys2Proof.Machine.execBarw w s
  | .bar w => Sys2Proof.Machine.execBar w s
  | .gsync w => Sys2Proof.Machine.execGsync w s
  | .kdecl w => Sys2Proof.Machine.execKdecl w s
  | .ksign w => Sys2Proof.Machine.execKsign w s
  | .kwait w => Sys2Proof.Machine.execKwait w s
  | .krst w => Sys2Proof.Machine.execKrst w s
  | .mres w => Sys2Proof.Machine.execMres w s
  | .mrel w => Sys2Proof.Machine.execMrel w s
  | .mmaMxf4 w => Sys2Proof.Machine.execMmaMxf4 w s
  | .mmaMxf8 w => Sys2Proof.Machine.execMmaMxf8 w s
  | .mmaFp8 w => Sys2Proof.Machine.execMmaFp8 w s
  | .mmaI8 w => Sys2Proof.Machine.execMmaI8 w s
  | .mmaTs8i w => Sys2Proof.Machine.execMmaTs8i w s
  | .mmaTs8e w => Sys2Proof.Machine.execMmaTs8e w s
  | .mmaBf16 w => Sys2Proof.Machine.execMmaBf16 w s
  | .mmaF16 w => Sys2Proof.Machine.execMmaF16 w s
  | .azero w => Sys2Proof.Machine.execAzero w s
  | .anorm w => Sys2Proof.Machine.execAnorm w s
  | .ascl w => Sys2Proof.Machine.execAscl w s
  | .aread w => Sys2Proof.Machine.execAread w s
  | .awrite w => Sys2Proof.Machine.execAwrite w s
  | .aexp w => Sys2Proof.Machine.execAexp w s
  | .astr w => Sys2Proof.Machine.execAstr w s
  | .amov w => Sys2Proof.Machine.execAmov w s
  | .xcopy w => Sys2Proof.Machine.execXcopy w s
  | .xcoll w => Sys2Proof.Machine.execXcoll w s
  | .xqpost w => Sys2Proof.Machine.execXqpost w s
  | .hwait w => Sys2Proof.Machine.execHwait w s
  | .htest w => Sys2Proof.Machine.execHtest w s
  | .hstat w => Sys2Proof.Machine.execHstat w s
  | .hcan w => Sys2Proof.Machine.execHcan w s
  | .hdet w => Sys2Proof.Machine.execHdet w s
  | .hpri w => Sys2Proof.Machine.execHpri w s
  | .hadopt w => Sys2Proof.Machine.execHadopt w s
  | .tdef w => Sys2Proof.Machine.execTdef w s
  | .tset w => Sys2Proof.Machine.execTset w s
  | .tqry w => Sys2Proof.Machine.execTqry w s
  | .launch w => Sys2Proof.Machine.execLaunch w s
  | .depdec w => Sys2Proof.Machine.execDepdec w s
  | .slyld w => Sys2Proof.Machine.execSlyld w s
  | .budgt w => Sys2Proof.Machine.execBudgt w s
  | .ptrap w => Sys2Proof.Machine.execPtrap w s
  | .pstat w => Sys2Proof.Machine.execPstat w s
  | .trap w => Sys2Proof.Machine.execTrap w s
  | .rte w => Sys2Proof.Machine.execRte w s
  | .gtr w => Sys2Proof.Machine.execGtr w s
  | .bkpt w => Sys2Proof.Machine.execBkpt w s
  | .sysc w => Sys2Proof.Machine.execSysc w s
  | .unassignedOpcode op w => Sys2Proof.Machine.execUnassignedOpcode op w s
  | .illegalInstructionException w => Sys2Proof.Machine.execIllegalInstructionException w s
  | .edisp rd rs1 rs2 => Sys2Proof.Machine.execEdisp rd rs1 rs2 s
  | .ejoin rd rs1 => Sys2Proof.Machine.execEjoin rd rs1 s
  | .eginv rs1 rs2 => Sys2Proof.Machine.execEginv rs1 rs2 s
  | .eginvw => Sys2Proof.Machine.execEginvw s
  | .loadDataReturn load ecc => Sys2Proof.Machine.execLoadDataReturn load ecc s
  | .storeMerge store ecc => Sys2Proof.Machine.execStoreMerge store ecc s
  | .mmaStart core engine => Sys2Proof.Machine.execMmaStart core engine s
  | .mmaRow core engine => Sys2Proof.Machine.execMmaRow core engine s
  | .copyStart gleaner => Sys2Proof.Machine.execCopyStart gleaner s
  | .copyChunk op => Sys2Proof.Machine.execCopyChunk op s
  | .teamAdmit core => Sys2Proof.Machine.execTeamAdmit core s
  | .frameGrant core part => Sys2Proof.Machine.execFrameGrant core part s
  | .groupPromote core part => Sys2Proof.Machine.execGroupPromote core part s
  | .queueTake queue => Sys2Proof.Machine.execQueueTake queue s
  | .stileLaunch line => Sys2Proof.Machine.execStileLaunch line s
  | .mresGrant core => Sys2Proof.Machine.execMresGrant core s
  | .mrelRelease team => Sys2Proof.Machine.execMrelRelease team s
  | .walkReturn die walk => Sys2Proof.Machine.execWalkReturn die walk s
  | .asyncTrapTake team => Sys2Proof.Machine.execAsyncTrapTake team s
  | .create c => Sys2Proof.Machine.execCreate c s
  | .destroy c => Sys2Proof.Machine.execDestroy c s
  | .preempt c => Sys2Proof.Machine.execPreempt c s
  | .restore c => Sys2Proof.Machine.execRestore c s
  | .stile c => Sys2Proof.Machine.execStile c s
  | .queue c => Sys2Proof.Machine.execQueue c s
  | .pwin c => Sys2Proof.Machine.execPwin c s
  | .pgrant c => Sys2Proof.Machine.execPgrant c s
  | .route c => Sys2Proof.Machine.execRoute c s
  | .pool c => Sys2Proof.Machine.execPool c s
  | .svcring c => Sys2Proof.Machine.execSvcring c s
  | .attest c => Sys2Proof.Machine.execAttest c s
  | .cert c => Sys2Proof.Machine.execCert c s
  | .errstat c => Sys2Proof.Machine.execErrstat c s
  | .dumpclr c => Sys2Proof.Machine.execDumpclr c s
  | .reset c => Sys2Proof.Machine.execReset c s
  | .registerWrite hart csr op v => Sys2Proof.Machine.execRegisterWrite hart csr op v s
  | .clusterPlaceTimeout slice core => Sys2Proof.Machine.execClusterPlaceTimeout slice core s
  | .tedderWaitTimeout core part lane => Sys2Proof.Machine.execTedderWaitTimeout core part lane s
  | .xcollAck op chunks fail => Sys2Proof.Machine.execXcollAck op chunks fail s
  | .ualinkInboundWrite w => Sys2Proof.Machine.execUalinkInboundWrite w s
  | .pcieInboundWrite die bar0 data noSnoop => Sys2Proof.Machine.execPcieInboundWrite die bar0 data noSnoop s
  | .pcieInboundRead die bar off len noSnoop => Sys2Proof.Machine.execPcieInboundRead die bar off len noSnoop s
  | .mwaitBoundExpiry team tidx => Sys2Proof.Machine.execMwaitBoundExpiry team tidx s
  | .sleepExpiry team gidx => Sys2Proof.Machine.execSleepExpiry team gidx s
  | .invalidationReceive who inv => Sys2Proof.Machine.execInvalidationReceive who inv s
  | .invalidationAck who inv => Sys2Proof.Machine.execInvalidationAck who inv s
  | .syscReply column => Sys2Proof.Machine.execSyscReply column s
  | .sysviewLoadCompletion load data => Sys2Proof.Machine.execSysviewLoadCompletion load data s
  | .sysviewLoadTimeout load => Sys2Proof.Machine.execSysviewLoadTimeout load s
  | .pcieStoreRefused store => Sys2Proof.Machine.execPcieStoreRefused store s
  | .deadlockTimeout team => Sys2Proof.Machine.execDeadlockTimeout team s
  | .grantLevelStep column => Sys2Proof.Machine.execGrantLevelStep column s
  | .sensorSample reading => Sys2Proof.Machine.execSensorSample reading s
  | .supplyFaultTimeout die rail => Sys2Proof.Machine.execSupplyFaultTimeout die rail s
  | .watchdogExpiry die unit => Sys2Proof.Machine.execWatchdogExpiry die unit s
  | .hbmScrub block ecc => Sys2Proof.Machine.execHbmScrub block ecc s
  | .linkReplay r => Sys2Proof.Machine.execLinkReplay r s
  | .linkRetrainExpiry link up => Sys2Proof.Machine.execLinkRetrainExpiry link up s
  | .pcieLinkDown die => Sys2Proof.Machine.execPcieLinkDown die s
  | .drainTimeout ctx => Sys2Proof.Machine.execDrainTimeout ctx s
  | .swapTimeout ctx => Sys2Proof.Machine.execSwapTimeout ctx s
  | .teamSwapOut team => Sys2Proof.Machine.execTeamSwapOut team s
  | .teamSwapIn team core => Sys2Proof.Machine.execTeamSwapIn team core s
  | .columnClassMove column cls => Sys2Proof.Machine.execColumnClassMove column cls s
  | .hotReset => Sys2Proof.Machine.execHotReset s
  | .powerOnReset result => Sys2Proof.Machine.execPowerOnReset result s
  | .baseCoreAccess a => Sys2Proof.Machine.execBaseCoreAccess a s
  | .ualinkInboundRead die port peer win off len => Sys2Proof.Machine.execUalinkInboundRead die port peer win off len s
  | .writeBackComplete id => Sys2Proof.Machine.execWriteBackComplete id s
  | .sysviewStoreAccepted store => Sys2Proof.Machine.execSysviewStoreAccepted store s
  | .clockChangeDone column => Sys2Proof.Machine.execClockChangeDone column s
  | .powerLoss => Sys2Proof.Machine.execPowerLoss s

end Sys2Proof.Machine
end

