-- ==== Sys2Proof/Machine/Turns.lean ====
section
/-! DEFINITION. What each agent's turn comes to (log 1): a word or an event to execute, a command for the Fold, a stop, or nothing more; and the placing of one
word where the next step fetches it. -/

namespace Sys2Proof.Machine

/-- What comes of a turn. -/
inductive Move
  | rest (s : State)
  | run (s : State) (i : Instr)
  | serve (s : State) (c : Cmd)
  | halt (f : Fault)
  | refuse (r : Refusal)

/-- Whether a step comes as an event: it is no instruction word of a SIMT core or a base core. -/
def isEvent (i : Instr) : Bool := i.dev.isNone && (match i with | .edisp .. | .ejoin .. | .eginv .. | .eginvw | .illegalInstructionException _ => false | _ => true)

/-- The SIMT cores run: bring-up has made the module ready, and no fatal error has stopped them (R433, R436). -/
def State.computing (s : State) : Bool := s.ready && !s.stopped

/-- A partition's turn (R41–R45, R127). -/
def State.issueTurn (s : State) (core part : Nat) : Move :=
  if !s.computing then .rest s
  else match s.turn core part with
    | .idle s => .rest s
    | .go s i => .run s i

/-- A base core's turn: it goes on from a read of the host once it has come; an interrupt, unless a joined slice's value is still to be written; else a word is fetched (R326, R339, R372). -/
def State.hartTurn (s : State) (h : Nat) : Move :=
  if !s.ready then .rest s
  else
    let s : State := { s with curHart := h }
    let x := s.hart h
    match x.hostRead with
    | some r =>
      if !(List.range r.parts).all fun k => (tget r.got k).isSome then .rest s
      else match s.hostReadDone h r with
        | (s, none) => .rest s
        | (s, some c) => .serve s c
    | none =>
    match if x.joinVal.isSome then none else x.interrupt with
    | some n => .rest ((s.hartNow h).updHart h (·.trap true n 0))
    | none => match s.hartWord h with
      | .error e => .rest (s.hartTrap h e x.pc)
      | .ok none => .halt .hostMemory
      | .ok (some w) => match decodeHart w with
        | some i => .run s i
        | none => .refuse (.baseIsa w)

/-- What has to stand without a break is noted as every step finds it (R308, R418). -/
def State.marked (s : State) : State := if s.computing then s.markTops.markStuck else s

/-- A turn; what the part does not have does not move (R7). -/
def State.move (s : State) (t : Turn) : Move :=
  match t with
  | .issue core part => if goodCore core && part < 16 then s.issueTurn core part else .rest s
  | .hart h => if goodColumn h then s.hartTurn h else .rest s
  | .event i => if isEvent i && i.wf && s.allows i then .run s i else .rest s
  | .upset u => .rest (if s.upsets u then s.upset u else s)
  | .firmware => .rest s.firmware
  | .pass ns => .rest (if s.powered then { s with time := (s.time + ns) % 2 ^ 64 } else s)

/-- Any turn but a partition's may end a wait, so that a group that was found to wait is tried again (R44); and no store stands in T before what it does. -/
def State.stirredBy (s : State) (t : Turn) : State := match t with | .issue _ _ => s | _ => { s.goesOn with fence := none }

/-- The next turn: the agenda's first; when it is empty, one nanosecond passes. -/
def State.nextMove (s : State) : Move :=
  match s.agenda with
  | t :: rest => (({ s.marked with agenda := rest } : State).stirredBy t).move t
  | [] => s.marked.goesOn.move (.pass 1)

/-! ### One word, placed (log 16) -/

/-- Where the placed packet stands: virtual and physical address; the two page tables. -/
def probeVa : Nat := 0x10000
/-- Physical base of what a placed word needs. -/
def probePa : Nat := 0x800000000000

/-- The descriptor of the placed team: one team of one 32-thread group with room for every register. -/
def probeDesc : Desc :=
  { entry := BitVec.ofNat 64 probeVa, argp := 0, nx := 1, ny := 1, nz := 1, tsize := 32, width := 32, spread := 1, clh := 0, clw := 0, frame := 64, priv := 64,
    scr := 1, csh := 1, tiles := 4, keep := false, home := false, setw := false, uchk := false, deadline := 0, budget := 0, equota := 0,
    handler := BitVec.ofNat 64 (probeVa + 4096), wctr := 0xFFFF, winit := 0, dctr := 0xFFFF, cls := 0 }

/-- The tables of the placed context: one 512 GiB leaf, user, readable, writable, executable, over the interleaved view. -/
def probeTables (m : List Host.Cell) : List Host.Cell :=
  let at_ := fun (m : List Host.Cell) (pa v : Nat) => Memory.puts m (paCells pa (toLe 8 v))
  at_ (at_ m (probePa + 0x20000) ((probePa + 0x30000) / 4096 * 1024 + 1)) (probePa + 0x30000) (probePa / 4096 * 1024 + 0xDF)

/-- A SIMT word in slot 1 of the packet at which a team's one group stands, the team alone on core 0, its turn next; die 0's unit keeps the
translation of the packet. -/
def State.placeDevice (s : State) (w : Word) : State :=
  let n := s.freeCtx
  let x : Slice := { id := 1, ctx := n, desc := probeDesc, column := 0, joined := false, ready := some s.seq, next := 1, left := 1 }
  let c : Context := { num := n, asid := 0, root := (probePa + 0x20000) / 4096, hart := 0, sward := [0, 0, 0, 0], swardBase := [0, 0, 0, 0],
                       spill := probePa + 0x1000000, save := probePa + 0x2000000, cn := 0, drain := 200000, swap := 2000000 }
  let t := (newTeam x (s.seq + 1) 0 0 s.seq 0).settleAt 0 { slot := 0, units := [0, 1], tileBase := 0, parts := [0], base := 0 } 1
  let blocks := (paCells (probePa + probeVa) (probePacket w) ++ paCells (probePa + 0x20000) [0] ++ paCells (probePa + 0x30000) [0]).map (·.1 / 64)
  let s : State := { s with
           powered := true, stopped := false, cap := { s.cap with phase := 1 }, seq := s.seq + 2, contexts := s.contexts ++ [c], slices := s.slices ++ [x],
           teams := s.teams.filter (·.core != 0) ++ [{ t with started := true }],
           mem := Memory.puts (probeTables s.mem) (paCells (probePa + probeVa) (probePacket w)), bad := s.bad.filter fun b => !blocks.contains b,
           agenda := [.issue 0 0] }
  { s with tlb := s.tlb.filter (·.die != 0) ++ (match walkFrom s probeVa 0 5 ((probePa + 0x20000) / 4096) with
      | .ok l => [l.trans 0 0 probeVa]
      | .error _ => []) }

/-- A base-core word at hart 0's pc, in device memory, its turn next. -/
def State.placeHart (s : State) (w : Word) : State :=
  let cells := paCells (probePa + probeVa) (toLe 4 w.toNat)
  { s.updHart 0 (fun h => { h with pc := BitVec.ofNat 64 (probePa + probeVa), mode := .machine, mie := 0, joinVal := none, joinId := none, hostRead := none }) with
    powered := true, stopped := false, cap := { s.cap with phase := 1, dump := if s.cap.dump = 2 then 0 else s.cap.dump }, mem := Memory.puts s.mem cells,
    bad := s.bad.filter fun b => !(cells.map (·.1 / 64)).contains b, agenda := [.hart 0] }

/-- A word where the next step fetches it: a base core's when `decodeTableWord` reads it so. -/
def State.placeWord (s : State) (w : Word) : State := if Sys2Proof.hartWord w then s.placeHart w else s.placeDevice w

end Sys2Proof.Machine
end

