-- ==== Sys2Proof/Machine/Step.lean ====
section
/-! DEFINITION. One step: the next agent of the agenda moves. -/

namespace Sys2Proof.Machine

/-- One step: the next turn, and what it executes. -/
def step (s : State) : Host.Outcome State Fault Refusal :=
  match s.nextMove with
  | .rest s => .next s
  | .run s i => exec i s
  | .serve s c => s.command c
  | .halt f => .fault f
  | .refuse r => .refused r

/-- The state with one table word where the next step fetches it (log 16). Words are 32 bits; the bits above `nbits` are zero. -/
def State.withFetchWord (s : State) (_nbits w : Nat) : State := s.placeWord (BitVec.ofNat 32 w)

end Sys2Proof.Machine
end

