-- ==== Sys2Proof/Safety.lean ====
section
/-! DEFINITION. What counts as a safe run, and the terms the statements use: a word that issues, what it completes with, what a step may
change of a thread. -/

namespace Sys2Proof.Machine

/-- What every state on a safe run has: canonical memory. -/
def State.Good (s : State) : Prop := Memory.wf s.mem = true

/-- A run of `n` steps that meets no fault and no refusal. -/
def RunsFor (n : Nat) (s : State) : Prop := ∃ t, Host.Core.run core n s = .next t

/-- The word `v` issues from `s` as `i`, and nothing holds it back (R28, R133, R150, R361): a group stands at it, no word-level cause
is met, PACKET among them, the current frame of every co-located thread is in the bank, no register it touches is due, marked or failed, its flag can
rise, and UCHK finds no difference. -/
structure Issues (s : State) (v : Dev) (i : Iss) : Prop where
  found : issueOf s v = some i
  packet : i.packetTrap s = none
  word : i.wordTrap s = none
  here : ∀ t ∈ i.co, t.frame.place = .bank
  fresh : i.failed = none
  ready : i.mustWait = false
  room : i.flagFull = false
  alike : i.uniformHits = none

/-- The state after an issue whose active threads are each changed by `f` of their source thread (R21) and themselves: the word's
co-located set goes past it (R124), and the slice is charged (R310). -/
def Iss.changed (i : Iss) (s : State) (f : Thread → Thread → Thread) : State := i.finish (i.upd s i.acts fun th => f (i.src th) th)

/-- Issued where `p` holds, `ins` answers the next state `t`. -/
def Completes (ins : Instr) (p : Dev → Iss → State → Prop) (t : Dev → Iss → State → State) : Prop :=
  ∀ v s i, ins.dev = some v → Issues s v i → p v i s → exec ins s = .next (t v i s)

/-- Issued, `ins` answers a next state in which every active thread's D holds `f` of its source thread. -/
def Writes32 (ins : Instr) (f : Dev → Thread → Word) : Prop :=
  Completes ins (fun _ _ _ => True) fun v i s => i.changed s fun src th => th.setVs [(v.d.toNat, f v src)]

/-- Issued, `ins` answers a next state in which every active thread's D and D + 1 hold the low and high halves of `f` of its source
thread (R140). -/
def Writes64 (ins : Instr) (f : Dev → Thread → Addr) : Prop :=
  Completes ins (fun _ _ _ => True) fun v i s => i.changed s fun src th =>
    th.setVs [(v.d.toNat, (f v src).extractLsb' 0 32), (v.d.toNat + 1, (f v src).extractLsb' 32 32)]

/-- Issued, `ins` answers a next state in which predicate D[2:0] of every active thread is `f` of its source thread. -/
def SetsPred (ins : Instr) (f : Dev → Thread → Bool) : Prop :=
  Completes ins (fun _ _ _ => True) fun v i s => i.changed s fun src th => th.setP (v.d.toNat % 8) (f v src)

/-- R154's signed quotient: all ones for a divisor of zero, else truncated toward zero. -/
def quotS {n : Nat} (a b : BitVec n) : BitVec n := if b = 0 then BitVec.allOnes n else BitVec.ofInt n (a.toInt.tdiv b.toInt)

/-- R154's unsigned quotient. -/
def quotN {n : Nat} (a b : BitVec n) : BitVec n := if b = 0 then BitVec.allOnes n else a / b

/-- R160's signed conditions. -/
def condS {n : Nat} (c : BitVec 3) (a b : BitVec n) : Bool :=
  match c.toNat with
  | 0 => a == b | 1 => a != b | 2 => a.slt b | 3 => a.sle b | 4 => b.slt a | 5 => b.sle a | 6 => a &&& b != 0 | _ => a &&& b == 0

/-- R160's unsigned conditions. -/
def condN {n : Nat} (c : BitVec 3) (a b : BitVec n) : Bool :=
  match c.toNat with
  | 0 => a == b | 1 => a != b | 2 => a.ult b | 3 => a.ule b | 4 => b.ult a | 5 => b.ule a | 6 => a &&& b != 0 | _ => a &&& b == 0

/-- The predicate that three bits of a field name, 7 reading true, XORed with the bit above them (R161, R165). -/
def predOperand (f : Field) (t : Thread) : Bool := t.p (f.toNat % 8) != f.getLsbD 3

/-- The number of the leader's position, the least of the active threads (R21, R167). -/
def Iss.leadPos (i : Iss) : Nat := (i.lead.map Thread.pos).getD 0

/-- What FINDM gives a thread, `e` being the active threads of its key (R166). -/
def matched (v : Dev) (th : Thread) (e : List Thread) : Thread :=
  let rank := e.countP fun u => u.pos < th.pos
  (th.setVs [(v.d.toNat, BitVec.ofNat 32 (((e.map Thread.pos).min?.getD 0) * 2 ^ 16 + rank * 2 ^ 8 + e.length))]).setP (v.b.toNat % 8) (rank == 0)

/-- R181: one rounded operation on each half of a word, in a format of 16 bits. -/
def perHalf (m : Fmt) (f : FV → FV → FV → FV) (a b c : Word) : Word :=
  let one := fun (k : Nat) => BitVec.ofNat 16 (m.enc (f (m.val (half a k)) (m.val (half b k)) (m.val (half c k))))
  one 1 ++ one 0

/-- Bits [7:0] and their followers of an instruction's integer operand, taken as numbers (R196, R197). -/
def byteAt (w : Word) (k : Nat) : Nat := w.toNat / 2 ^ (8 * k) % 256

/-! ### Memory accesses of an issue -/

/-- No thread that performs an access of an issue meets a cause, nor a page that its die's unit has to walk for (R42, R200, R394). -/
def Iss.allClear (i : Iss) (s : State) (n : Nat) (kind : AccKind) (sub : Nat) (ea : Thread → Addr) : Prop :=
  ∀ t ∈ i.doers, (resolve s (.thread i.team.uid t.tidx) (ea t) n kind sub).1 = [] ∧ s.needsWalk (.thread i.team.uid t.tidx) (ea t) = false

/-- The accesses of an issue, in lane order, each with its target. -/
def Iss.accesses (i : Iss) (s : State) (n : Nat) (kind : AccKind) (sub : Nat) (ea : Thread → Addr) : List Access :=
  i.doers.filterMap fun t => ((resolve s (.thread i.team.uid t.tidx) (ea t) n kind sub).2).map fun g => ⟨t, ea t, g⟩

/-- The state once the translations of some accesses stand (R333): A and D bits, the home counters (R99). -/
def Iss.translated (i : Iss) (s : State) (kind : AccKind) (acc : List Access) : State :=
  (acc.foldl (fun s a => s.setAD a.tgt kind.writes) s).countHome i.team.core (acc.map (·.tgt)) kind.writes

/-- The storage locations that the leaf entries of some accesses take (R333). -/
def leafBytes (acc : List Access) : List Nat := acc.flatMap fun a => match a.tgt.leaf with
  | some e => e.at_.reps.flatMap fun l => (List.range 8).map (l + ·)
  | none => []

/-- The storage locations that stores of `n` bytes change (R102). -/
def storedBytes (n : Nat) (acc : List Access) : List Nat := acc.flatMap fun a => a.tgt.reps.flatMap fun l => (List.range n).map (l + ·)

/-- The slice of an issue has no limit on cycles or energy (R311). -/
def Iss.unlimited (i : Iss) (s : State) : Prop := ∀ x, s.charged? i.team.ctx i.team.slice = some x → x.desc.budget = 0 ∧ x.desc.equota = 0

/-- No system-view load among some accesses stands behind a system-view store of its threads (R117). -/
def Iss.hostFree (i : Iss) (s : State) (kind : AccKind) (acc : List Access) : Prop :=
  kind = .read → ∀ a ∈ acc, a.tgt.view = .system → i.hostStores s (i.receivers a.thr) = false

/-- Issued where nothing is met and no store of the host's is ahead, a load of `n` bytes at `ea` answers a state in which what `get` reads, or a
system-view load's request, is on its way (R117, R202). -/
def Loads (ins : Instr) (n : Nat) (sign : Bool) (kind : AccKind) (sub : Nat) (ea : Dev → Thread → Addr)
    (get : Iss → State → List Access → State × List Due) : Prop :=
  Completes ins (fun v i s => i.allClear s n kind sub (ea v) ∧ i.hostFree s kind (i.accesses s n kind sub (ea v))) fun v i s =>
    let acc := i.accesses s n kind sub (ea v)
    let r := get i (i.translated s kind acc) acc
    i.finish (i.deliver r.1 (max 1 (n / 4)) (n + if sign then 32 else 0) sub r.2)

/-- Issued where nothing is met, a store of the low `n` bytes of its data registers at `ea` has stored them in lane order (R203). -/
def Stores (ins : Instr) (n : Nat) (ea : Dev → Thread → Addr) : Prop :=
  Completes ins (fun v i s => i.allClear s n .write 1 (ea v)) fun v i s =>
    let acc := i.accesses s n .write 1 (ea v)
    i.finish (i.storeAll (i.translated s .write acc) acc fun t => (wordsLe (t.vs v.d.toNat (max 1 (n / 4)))).take n)

/-- The address a load or store names: the pair A and the sign-extended B (R199). -/
def plainEa (v : Dev) (t : Thread) : Addr := v.a64 t + (v.b32 t).signExtend 64

/-- The address an atomic names: the pair A and the literal's signed bits [31:8] (R205). -/
def atomicEa (v : Dev) (t : Thread) : Addr := v.a64 t + (v.lw.extractLsb' 8 24).signExtend 64

/-- A thread by team, group and TIDX. -/
def State.thread? (s : State) (u g x : Nat) : Option Thread := (s.group? u g).bind fun gr => gr.threads.find? (·.tidx == x)

/-- What an instruction that only writes registers of the current frame leaves of a thread, `ws` being the registers it may write. -/
structure Thread.KeepsBut (ws : List Nat) (a b : Thread) : Prop where
  place : b.lane = a.lane ∧ b.slot = a.slot ∧ b.exited = a.exited ∧ b.handler = a.handler
  frames : b.frames.length = a.frames.length ∧ b.frames.tail = a.frames.tail
  record : b.frame.ret = a.frame.ret ∧ b.frame.link = a.frame.link ∧ b.frame.place = a.frame.place ∧ b.size = a.size
  regs : ∀ n, n ∉ ws → b.reg n = a.reg n
  meets : b.watch = a.watch ∧ b.arrivals = a.arrivals ∧ b.failedMerge = a.failedMerge

/-- The thread's predicates and trap record are kept. -/
def Thread.KeepsRecord (a b : Thread) : Prop := b.preds = a.preds ∧ b.trapc = a.trapc ∧ b.trapa = a.trapa ∧ b.trapv = a.trapv

/-! ### Accumulator tiles and slots -/

/-- An issue may use tiles of its team's window now: they lie in it, and no other user is first in their order (R248, R249). -/
def Iss.mayUse (i : Iss) (s : State) (ts : List Nat) : Prop := i.act ≠ [] ∧ ∃ r, i.team.resv = some r ∧
  ∀ t ∈ ts, t < r.count ∧ ∀ u, (s.acc i.team.core (r.base + t)).order.head? = some u → u = i.user

/-- The state once an issue has taken its place in the order of some tiles and left it (R248). -/
def Iss.used (i : Iss) (s : State) (ts : List Nat) : State :=
  let me := i.user
  let ps := (dedup ts).map i.team.accPos
  let s := ps.foldl (fun s p => if (s.acc i.team.core p).order.contains me then s else s.updAcc i.team.core p fun a => { a with order := a.order ++ [me] }) s
  ps.foldl (fun s p => s.updAcc i.team.core p fun a => { a with order := a.order.filter (· != me) }) s

/-- The tile an accumulator literal names. -/
def Iss.accAt (i : Iss) (s : State) : Acc := s.acc i.team.core (i.team.accPos i.dev.accT)

/-- The free child-operation slots of a core. -/
def State.freeSlots (s : State) (core : Nat) : Nat := ((List.range 256).filter fun k => (s.slot core k).op.isNone).length

/-! ### Commands of the Fold -/

/-- The Fold can serve the command block at `c.blk`: it holds the code, the device is not in fatal error, and the fields that R330 keeps zero
are zero (R330, R331, R433). -/
def cmdServed (c : Cmd) (code : Nat) (noCtx : Bool) (s : State) : Prop :=
  let bs := s.cmdBlock c
  fieldOf bs 0 2 = code ∧ s.stopped = false ∧ fieldOf bs 2 2 = 0 ∧ fieldOf bs 56 4 = 0 ∧ (noCtx = true → fieldOf bs 4 4 = 0)

/-- The state once the Fold has the command: efcmd holds its address (R330). -/
def cmdTaken (c : Cmd) (s : State) : State := s.updHart c.hart fun h => { h with efcmd := BitVec.ofNat 64 (c.blk / 64 * 64 % 2 ^ 56) }

/-- A place of a base core's access of `n` bytes can be reached at target `t`: it translates, and no block it passes is bad (R405). -/
def State.hartReaches (s : State) (h : Nat) (va : Addr) (n : Nat) (k : AccKind) (t : Target) : Prop :=
  s.hartAddr h va k = .ok t ∧ (t.view ≠ .system → ∀ b ∈ blocksOf t.loc n, b ∉ s.bad)

/-- A place of a base core's load or store meets exception `e`: its translation's, or the access fault of a bad block (R405). -/
def State.hartFaults (s : State) (h : Nat) (va : Addr) (n : Nat) (k : AccKind) (e : Nat) : Prop :=
  s.hartAddr h va k = .error e ∨ ∃ t, s.hartAddr h va k = .ok t ∧ t.view ≠ .system ∧ (∃ b ∈ blocksOf t.loc n, b ∈ s.bad) ∧ e = if k = .read then 5 else 7

/-- What a base core's store leaves once it has stood: the core has seen it, and goes on after all that has been done (R118). -/
def State.hartStored (s : State) (h : Nat) (t : Target) (bs : List Byte) : State := ((s.put t.reps bs).seeAll [hartKey h] t.reps bs.length).hartNow h

/-- Served where `p` holds of its block's bytes and the state, a command makes the state `t` and writes RESULT 1 last (R330). -/
def Serves (ins : Cmd → Instr) (code : Nat) (noCtx : Bool) (p : List Byte → State → Prop) (t : Cmd → List Byte → State → State) : Prop :=
  ∀ c s, cmdServed c code noCtx s → p (s.cmdBlock c) s → exec (ins c) s = .next ((t c (s.cmdBlock c) (cmdTaken c s)).reply c 1)

end Sys2Proof.Machine
end

