-- ==== Sys2Proof/Certificates/Slice0/Obligations.lean ====
section
/-! DEFINITION. The statements for the provers. -/

open Sys2Proof Sys2Proof.Machine

/-- R152 to R154: the integer instructions' results, saturating sums and division among them. -/
def Obligations.IntegerResults : Prop := ∀ w : Rrr,
  Writes32 (.iaddI32 w) (fun v t => v.a32 t + v.b32 t) ∧ Writes64 (.iaddI64 w) (fun v t => v.a64 t + v.b64 t) ∧
  Writes32 (.isubI32 w) (fun v t => v.a32 t - v.b32 t) ∧ Writes64 (.isubI64 w) (fun v t => v.a64 t - v.b64 t) ∧
  Writes32 (.imulI32 w) (fun v t => v.a32 t * v.b32 t) ∧ Writes64 (.imulI64 w) (fun v t => v.a64 t * v.b64 t) ∧
  Writes32 (.imulhS32 w) (fun v t => BitVec.ofInt 32 ((v.a32 t).toInt * (v.b32 t).toInt / 2 ^ 32)) ∧
  Writes32 (.imulhN32 w) (fun v t => BitVec.ofNat 32 ((v.a32 t).toNat * (v.b32 t).toNat / 2 ^ 32)) ∧
  Writes64 (.imulhS64 w) (fun v t => BitVec.ofInt 64 ((v.a64 t).toInt * (v.b64 t).toInt / 2 ^ 64)) ∧
  Writes64 (.imulhN64 w) (fun v t => BitVec.ofNat 64 ((v.a64 t).toNat * (v.b64 t).toNat / 2 ^ 64)) ∧
  Writes32 (.imadI32 w) (fun v t => v.a32 t * v.b32 t + v.d32 t) ∧ Writes64 (.imadI64 w) (fun v t => v.a64 t * v.b64 t + v.d64 t) ∧
  Writes32 (.iminS32 w) (fun v t => if (v.a32 t).sle (v.b32 t) then v.a32 t else v.b32 t) ∧
  Writes32 (.iminN32 w) (fun v t => if v.a32 t ≤ v.b32 t then v.a32 t else v.b32 t) ∧
  Writes64 (.iminS64 w) (fun v t => if (v.a64 t).sle (v.b64 t) then v.a64 t else v.b64 t) ∧
  Writes64 (.iminN64 w) (fun v t => if v.a64 t ≤ v.b64 t then v.a64 t else v.b64 t) ∧
  Writes32 (.imaxS32 w) (fun v t => if (v.a32 t).sle (v.b32 t) then v.b32 t else v.a32 t) ∧
  Writes32 (.imaxN32 w) (fun v t => if v.a32 t ≤ v.b32 t then v.b32 t else v.a32 t) ∧
  Writes64 (.imaxS64 w) (fun v t => if (v.a64 t).sle (v.b64 t) then v.b64 t else v.a64 t) ∧
  Writes64 (.imaxN64 w) (fun v t => if v.a64 t ≤ v.b64 t then v.b64 t else v.a64 t) ∧
  Writes32 (.iabsS32 w) (fun v t => if (v.a32 t).slt 0 then -(v.a32 t) else v.a32 t) ∧
  Writes64 (.iabsS64 w) (fun v t => if (v.a64 t).slt 0 then -(v.a64 t) else v.a64 t) ∧
  Writes32 (.inegI32 w) (fun v t => 0 - v.a32 t) ∧ Writes64 (.inegI64 w) (fun v t => 0 - v.a64 t) ∧
  Writes32 (.isadN32 w) (fun v t => v.d32 t + (if v.b32 t ≤ v.a32 t then v.a32 t - v.b32 t else v.b32 t - v.a32 t)) ∧
  Writes32 (.idp4S8 w) (fun v t => v.d32 t + BitVec.ofInt 32 (((List.range 4).map fun k =>
    ((v.a32 t).extractLsb' (8 * k) 8).toInt * ((v.b32 t).extractLsb' (8 * k) 8).toInt).foldl (· + ·) 0)) ∧
  Writes32 (.iaddsS32 w) (fun v t => BitVec.ofInt 32 (min (max ((v.a32 t).toInt + (v.b32 t).toInt) (-(2 ^ 31))) (2 ^ 31 - 1))) ∧
  Writes32 (.isubsS32 w) (fun v t => BitVec.ofInt 32 (min (max ((v.a32 t).toInt - (v.b32 t).toInt) (-(2 ^ 31))) (2 ^ 31 - 1))) ∧
  Writes32 (.idivS32 w) (fun v t => quotS (v.a32 t) (v.b32 t)) ∧ Writes64 (.idivS64 w) (fun v t => quotS (v.a64 t) (v.b64 t)) ∧
  Writes32 (.idivN32 w) (fun v t => quotN (v.a32 t) (v.b32 t)) ∧ Writes64 (.idivN64 w) (fun v t => quotN (v.a64 t) (v.b64 t)) ∧
  Writes32 (.iremS32 w) (fun v t => if v.b32 t = 0 then v.a32 t else v.a32 t - quotS (v.a32 t) (v.b32 t) * v.b32 t) ∧
  Writes64 (.iremS64 w) (fun v t => if v.b64 t = 0 then v.a64 t else v.a64 t - quotS (v.a64 t) (v.b64 t) * v.b64 t) ∧
  Writes32 (.iremN32 w) (fun v t => if v.b32 t = 0 then v.a32 t else v.a32 t - quotN (v.a32 t) (v.b32 t) * v.b32 t) ∧
  Writes64 (.iremN64 w) (fun v t => if v.b64 t = 0 then v.a64 t else v.a64 t - quotN (v.a64 t) (v.b64 t) * v.b64 t)

/-- R23, R24, R26, R27, R107, R130 to R132, R137, R384: how a group comes to a clause and through it. A selection takes the lowest PC of the threads that
may go on, or, after a backward branch or YIELD, the lowest above the clause just run; the WAIT is tested once against the flags; a chain that breaks a
condition traps whole with the first word that breaks one, unless a word of it has a fault of higher rank; threads wait at their rejoin point and pop the
pair together, a meeting. -/
def Obligations.ClauseRules : Prop :=
  (∀ (t : Team) (g : Group) (th : Thread),
    (th.exited = true ∨ th.wait = .rejoin ∨ th.atBrx = true ∨ (g.inHandler = true ∧ th.handler = false) → t.selectable g th = false) ∧
    (th.exited = false → th.wait ≠ .rejoin → th.atBrx = false → th.wait ≠ .returned → th.held = [] → (g.inHandler = true → th.handler = true) →
      t.selectable g th = true)) ∧
  (∀ (t : Team) (g : Group),
    let can := fun (th : Thread) => th ∈ g.threads ∧ t.selectable g th = true
    let above := fun (th : Thread) => can th ∧ g.lastStart.toNat < th.pc.toNat
    (t.select g = none ↔ ∀ th, ¬can th) ∧
    ∀ pc ths, t.select g = some (pc, ths) → ths ≠ [] ∧ ths = g.threads.filter (fun th => t.selectable g th && th.pc == pc) ∧
      (g.lastBack = true → (∃ th, above th) → g.lastStart.toNat < pc.toNat ∧ ∀ th, above th → pc.toNat ≤ th.pc.toNat) ∧
      (g.lastBack = false ∨ (∀ th, ¬above th) → ∀ th, can th → pc.toNat ≤ th.pc.toNat)) ∧
  (∀ (g : Group) (c : Clause) (back : Bool), g.clause = some c → (g.endClause back).lastStart = c.start ∧ (g.endClause back).lastBack = back ∧
    (g.endClause back).threads = g.threads ∧ (g.kept = none → (g.endClause back).clause = none)) ∧
  (∀ (g : Group) (c : Clause) (w : BitVec 12), (g.flagsHold w = true ↔ ∃ f < 12, w.getLsbD f = true ∧ g.flags.getD f 0 ≠ 0) ∧
    (c.resumed = false → ∀ h, c.code.headD 0 = h → c.waitMask.toNat = h.toNat / 2 ^ 20) ∧ (c.resumed = true → c.waitMask = 0)) ∧
  (∀ (s : State) (t : Team) (g : Group) (c : Clause) (ths : List Thread) (pc : Addr),
    (g.flagsHold c.waitMask = true → s.testWait t g c ths pc = s) ∧
    (g.flagsHold c.waitMask = false → (∀ th ∈ ths, th.failedIn c.waitMask = []) →
      s.testWait t g c ths pc = s.updGroup t.uid g.gidx fun g => { g with clause := some { c with tested := true } })) ∧
  (∀ (s : State) (u g f : Nat) (gr : Group), s.group? u g = some gr → f < gr.flags.length →
    (s.flagUp u g f).group? u g = some { gr with flags := gr.flags.set f (gr.flags.getD f 0 + 1) } ∧
    (s.flagDown u g f).group? u g = some { gr with flags := gr.flags.set f (gr.flags.getD f 0 - 1) }) ∧
  (∀ (cl : Clause) (ws : List Dev),
    let breaks := fun (k sub : Nat) => ∃ v, ws[k]? = some v ∧
      let before := ws.take k
      let written := fun (n : Nat) => ∃ u ∈ before, n ∈ (u.items cl).2
      let pipe := v.spec.pipe ≠ .none ∧ ∃ u ∈ before, u.spec.pipe = v.spec.pipe
      let reads := ∃ n ∈ (v.items cl).1, written n
      let writes := ∃ n ∈ (v.items cl).2, written n
      let leaves := controlTransfer v.op.toNat = true ∧ k + 1 < ws.length
      (sub = 1 ∧ pipe) ∨ (sub = 2 ∧ ¬pipe ∧ reads) ∨ (sub = 3 ∧ ¬pipe ∧ ¬reads ∧ writes) ∨ (sub = 4 ∧ ¬pipe ∧ ¬reads ∧ ¬writes ∧ leaves) ∨
        (sub = 5 ∧ ¬pipe ∧ ¬reads ∧ ¬writes ∧ ¬leaves ∧ k + 1 = ws.length ∧ v.pre.c = true ∧ v.op ≠ 0)
    ∀ k sub, chainBreak cl [] 0 ws = some (k, sub) ↔ breaks k sub ∧ ∀ j < k, ∀ n, ¬breaks j n) ∧
  (∀ (s : State) (t : Team) (g : Group) (c : Clause) (th : Thread) (ths : List Thread) (words : List (Nat × Dev)) (n : Nat),
    let ch := chainOf words
    let r := chainTrap s t g c (th :: ths) words n
    (chainBreak c [] 0 (ch.map (·.2)) = none → r = none) ∧
    ∀ k sub, chainBreak c [] 0 (ch.map (·.2)) = some (k, sub) →
      (chainFaults s t g ch = [] → ∃ tr, r = some (packetOf th.pc + BitVec.ofNat 64 (4 * n), tr) ∧ tr.cause = 4 ∧ tr.chn = k ∧
        tr.hits = (th :: ths).map fun x => ⟨x.tidx, sub, ((ch[k]?).map fun x => (putTogether x.2).setWidth 64).getD 0⟩) ∧
      (chainFaults s t g ch ≠ [] → ∃ x ∈ chainFaults s t g ch, r = some (packetOf th.pc + BitVec.ofNat 64 (4 * x.1), x.2) ∧
        ∀ y ∈ chainFaults s t g ch, causeRank x.2.cause ≤ causeRank y.2.cause)) ∧
  (∀ (s : State) (t : Team) (g : Group) (c : Clause) (th : Thread) (ths : List Thread) (k : Nat) (v : Dev) (more : List (Nat × Dev)) (pc : Addr) (tr : Trap),
    g.setOf c = th :: ths → c.tested = true → c.code ≠ [] → wordsFrom c.code (th.pc.toNat % 16 / 4) = (k, v) :: more → chainPos c th.pc k = 0 →
    v.pre.c = true → v.op ≠ 0 → chainTrap s t g c (th :: ths) ((k, v) :: more) (th.pc.toNat % 16 / 4) = some (pc, tr) → chainWaits t g ((k, v) :: more) = false →
    s.inClause t g c = .idle ((s.updThreads t.uid g.gidx (fun x => c.set.contains x.tidx) fun x => { x with pc := pc }).takeSync t.uid g.gidx c.set pc tr)) ∧
  (∀ (g : Group),
    let there := fun (x : Thread) (p : RejoinPair) => x.exited = false ∧ x.wait = .rejoin ∧ ∃ q rest, x.rejoin = q :: rest ∧ q.id = p.id
    let full := fun (p : RejoinPair) => ∀ m ∈ p.mask, ∃ x ∈ g.threads, x.tidx = m ∧ there x p
    ∃ f : Thread → Thread, g.popRejoin = { g with threads := g.threads.map f } ∧
      (∀ th p rest, th.exited = false → th.wait = .rejoin → th.rejoin = p :: rest → full p →
        let up := ({ th with rejoin := rest } : Thread)
        ∃ z, f th = { up with wait := if up.atRejoin = true then .rejoin else .run, pts := z } ∧
          (∀ x ∈ g.threads, x.tidx ∈ p.mask → x.pts ≤ z) ∧ (z ≠ 0 → ∃ x ∈ g.threads, x.tidx ∈ p.mask ∧ x.pts = z)) ∧
      ∀ th, (¬∃ p rest, th.exited = false ∧ th.wait = .rejoin ∧ th.rejoin = p :: rest ∧ full p) → f th = th) ∧
  ∀ (g : Group) (moved : List Nat),
    let g' := g.settle moved
    let there := fun (x : Thread) (p : RejoinPair) => x.exited = false ∧ x.wait = .rejoin ∧ ∃ q rest, x.rejoin = q :: rest ∧ q.id = p.id
    { g' with threads := [] } = { g with threads := [] } ∧ g'.threads.length = g.threads.length ∧
    (∀ (k : Nat) (th : Thread), g.threads[k]? = some th → ∃ th' n, g'.threads[k]? = some th' ∧ th'.rejoin = th.rejoin.drop n ∧
      ({ th' with rejoin := [], wait := .run, pts := 0 } : Thread) = { th with rejoin := [], wait := .run, pts := 0 } ∧
      (n = 0 → th'.pts = th.pts ∧ (th'.wait = th.wait ∨ (th'.wait = .rejoin ∧ th.tidx ∈ moved ∧ th.atRejoin = true))) ∧
      (th.exited = false → th.tidx ∈ moved → th.wait = .run → th.atRejoin = true → n ≠ 0 ∨ th'.wait = .rejoin)) ∧
    ∀ th p rest, th ∈ g'.threads → th.exited = false → th.wait = .rejoin → th.rejoin = p :: rest →
      ∃ m ∈ p.mask, ∀ x ∈ g'.threads, x.tidx = m → ¬there x p

/-- R155 to R159: bitwise instructions, LOP3, shifts, rotates, counting instructions and bit fields. -/
def Obligations.LogicShiftResults : Prop := ∀ w : Rrr,
  Writes32 (.and w) (fun v t => v.a32 t &&& v.b32 t) ∧ Writes32 (.or w) (fun v t => v.a32 t ||| v.b32 t) ∧
  Writes32 (.xor w) (fun v t => v.a32 t ^^^ v.b32 t) ∧ Writes32 (.andn w) (fun v t => v.a32 t &&& ~~~v.b32 t) ∧
  Writes32 (.not w) (fun v t => ~~~v.a32 t) ∧ Writes64 (.andI64 w) (fun v t => v.a64 t &&& v.b64 t) ∧
  Writes64 (.orI64 w) (fun v t => v.a64 t ||| v.b64 t) ∧ Writes64 (.xorI64 w) (fun v t => v.a64 t ^^^ v.b64 t) ∧
  Writes32 (.lop3 w) (fun v t => lop3 (v.a32 t) (v.rb32 t) (v.d32 t) v.lw) ∧
  Writes32 (.shlI32 w) (fun v t => BitVec.ofNat 32 ((v.a32 t).toNat * 2 ^ (v.b32 t).toNat)) ∧
  Writes64 (.shlI64 w) (fun v t => BitVec.ofNat 64 ((v.a64 t).toNat * 2 ^ (v.b64 t).toNat)) ∧
  Writes32 (.shrI32 w) (fun v t => BitVec.ofNat 32 ((v.a32 t).toNat / 2 ^ (v.b32 t).toNat)) ∧
  Writes64 (.shrI64 w) (fun v t => BitVec.ofNat 64 ((v.a64 t).toNat / 2 ^ (v.b64 t).toNat)) ∧
  Writes32 (.sarI32 w) (fun v t => BitVec.ofInt 32 ((v.a32 t).toInt / 2 ^ (v.b32 t).toNat)) ∧
  Writes64 (.sarI64 w) (fun v t => BitVec.ofInt 64 ((v.a64 t).toInt / 2 ^ (v.b64 t).toNat)) ∧
  Writes32 (.rotlI32 w) (fun v t => (v.a32 t).rotateLeft (v.b32 t).toNat) ∧
  Writes64 (.rotlI64 w) (fun v t => (v.a64 t).rotateLeft (v.b64 t).toNat) ∧
  Writes32 (.shf w) (fun v t => BitVec.ofNat 32 ((v.a64 t).toNat / 2 ^ (v.b32 t).toNat)) ∧
  Writes32 (.popcI32 w) (fun v t => BitVec.ofNat 32 ((List.range 32).countP (v.a32 t).getLsbD)) ∧
  Writes32 (.popcI64 w) (fun v t => BitVec.ofNat 32 ((List.range 64).countP (v.a64 t).getLsbD)) ∧
  Writes32 (.clzI32 w) (fun v t => BitVec.ofNat 32 ((List.range 32).findIdx fun k => (v.a32 t).getLsbD (31 - k))) ∧
  Writes32 (.clzI64 w) (fun v t => BitVec.ofNat 32 ((List.range 64).findIdx fun k => (v.a64 t).getLsbD (63 - k))) ∧
  Writes32 (.ctzI32 w) (fun v t => BitVec.ofNat 32 ((List.range 32).findIdx (v.a32 t).getLsbD)) ∧
  Writes32 (.ctzI64 w) (fun v t => BitVec.ofNat 32 ((List.range 64).findIdx (v.a64 t).getLsbD)) ∧
  Writes32 (.brev w) (fun v t => (v.a32 t).reverse) ∧
  Writes32 (.bfe w) (fun v t => bfe (v.a32 t) (v.b32 t)) ∧ Writes32 (.bfi w) (fun v t => bfi (v.d32 t) (v.a32 t) (v.b32 t))

/-- R329, R370 to R372, R433: posting to a context's fault queue. The entry goes to its place in the ring, PIDX rises and EFLT is raised on the hart; with
1,024 entries unread DROP rises instead; the slice keeps its first cause either way, and nothing else changes. After a fatal error, or without its
context, nothing is posted. -/
def Obligations.ContextFaultQueue : Prop :=
  (∀ (e : Entry) (time seq : Nat),
    let b := e.bytes time seq
    let f := fieldOf b
    b.length = 64 ∧ f 0 1 = e.cause % 2 ^ 8 ∧ f 1 1 = e.src % 2 ^ 8 ∧ f 2 1 = e.sub % 2 ^ 8 ∧ f 3 1 = 0 ∧ f 4 4 = e.slice.toNat ∧ f 8 4 = e.token.toNat ∧
    f 12 4 = e.tidx % 2 ^ 32 ∧ f 16 2 = e.core % 2 ^ 16 ∧ f 18 2 = e.gidx % 2 ^ 16 ∧ f 20 4 = e.prog % 2 ^ 32 ∧ f 24 8 = e.pc.toNat ∧ f 32 8 = e.val.toNat ∧
    f 40 8 = time % 2 ^ 64 ∧ f 48 12 = 0 ∧ f 60 4 = seq % 2 ^ 32) ∧
  (∀ (s : State) (ctx hart : Nat) (e : Entry), s.stopped = true ∨ s.ctx? ctx = none → s.post ctx hart e = s) ∧
  (∀ (s : State) (ctx cause sub : Nat) (val : Addr) (who : Option Who) (slice : Option Word) (c : Context), s.ctx? ctx = some c →
    s.postBy ctx cause sub val who slice = s.post ctx c.hart (match who with
      | none => { cause := cause, src := 5, sub := sub, val := val, slice := slice.getD 0, core := 0xFFFF, tidx := 0, gidx := 0, pc := 0 }
      | some w => { cause := cause, src := 5, sub := sub, val := val, slice := slice.getD w.slice, core := w.core, tidx := w.tidx, gidx := w.gidx, pc := w.pc })) ∧
  ∀ (s : State) (ctx hart : Nat) (e : Entry) (c : Context), s.stopped = false → s.ctx? ctx = some c → s.Good → hart < 48 → c.save % 64 = 0 →
    let d := dieOfColumn hart
    (∀ k < 0x11000, (paLoc (c.save + k) d).isSome = true ∧ ∀ l ∈ paLocs (c.save + k), l / 64 ∉ s.bad) →
    let word := fun (s : State) (off : Nat) => leNat (s.peekPa (c.save + off) 8 d)
    let t := s.post ctx hart e
    let full := (word s 0 + 2 ^ 64 - word s 0x40) % 2 ^ 64 = 1024
    (full → word t 0 = word s 0 ∧ word t 8 = (word s 8 + 1) % 2 ^ 64 ∧ (t.hart hart).mip = (s.hart hart).mip ∧
      ∀ k, 16 ≤ k → k < 0x11000 → t.peekPa (c.save + k) 1 d = s.peekPa (c.save + k) 1 d) ∧
    (¬full → word t 0 = (word s 0 + 1) % 2 ^ 64 ∧ word t 8 = word s 8 ∧ (t.hart hart).mip = (s.hart hart).mip ||| 0x20000#64 ∧
      t.peekPa (c.save + 0x1000 + 64 * (word s 0 % 1024)) 64 d = e.bytes s.time (word s 0) ∧
      ∀ k, 16 ≤ k → k < 0x11000 → k / 64 ≠ 64 + word s 0 % 1024 → t.peekPa (c.save + k) 1 d = s.peekPa (c.save + k) 1 d) ∧
    (∀ h, h ≠ hart → t.hart h = s.hart h) ∧ (∀ a, (∀ k < 0x11000, a ∉ paLocs (c.save + k)) → Memory.get t.mem a = Memory.get s.mem a) ∧
    t.slices = s.slices.map (fun x => if x.ctx = ctx ∧ x.id = e.slice ∧ x.cause = 0 then { x with cause := e.cause } else x) ∧
    t.contexts = s.contexts ∧ t.ops = s.ops ∧ t.out = s.out

/-- R156, R159: each bit of LOP3's and BFI's result, and BFE's number. -/
def Obligations.BitRules : Prop := ∀ a b d : Word,
  (∀ l : Word, ∀ k < 32, (lop3 a b d l).getLsbD k = l.getLsbD ((a.getLsbD k).toNat + 2 * (b.getLsbD k).toNat + 4 * (d.getLsbD k).toNat)) ∧
  (∀ k < 32, (bfi d a b).getLsbD k =
    if b.toNat % 256 ≤ k ∧ k < b.toNat % 256 + min (b.toNat / 256 % 256) 32 then a.getLsbD (k - b.toNat % 256) else d.getLsbD k) ∧
  (∀ k < min (b.toNat / 256 % 256) 32, (bfe a b).getLsbD k =
    if b.toNat % 256 + k < 32 then a.getLsbD (b.toNat % 256 + k) else (b.getLsbD 16 && a.msb)) ∧
  (∀ k < 32, 0 < min (b.toNat / 256 % 256) 32 → min (b.toNat / 256 % 256) 32 ≤ k →
    (bfe a b).getLsbD k = (b.getLsbD 16 && (bfe a b).getLsbD (min (b.toNat / 256 % 256) 32 - 1))) ∧
  (b.toNat / 256 % 256 = 0 → bfe a b = 0)

/-- R160 to R163: compares, predicate logic, selection, and the predicate word. -/
def Obligations.PredicateResults : Prop :=
  (∀ w : Pc, SetsPred (.isetpS32 w) (fun v t => condS w.cond (v.a32 t) (v.b32 t)) ∧ SetsPred (.isetpN32 w) (fun v t => condN w.cond (v.a32 t) (v.b32 t)) ∧
    SetsPred (.isetpS64 w) (fun v t => condS w.cond (v.a64 t) (v.b64 t)) ∧ SetsPred (.isetpN64 w) (fun v t => condN w.cond (v.a64 t) (v.b64 t)) ∧
    SetsPred (.fsetp w) (fun v t => fcond w.cond.toNat (fv (v.a32 t)) (fv (v.b32 t)))) ∧
  ∀ w : Rrr,
    SetsPred (.plop w) (fun v t =>
      (match v.d.toNat / 8 % 4 with
        | 0 => predOperand v.a t && predOperand v.b t
        | 1 => predOperand v.a t || predOperand v.b t
        | 2 => predOperand v.a t != predOperand v.b t
        | _ => predOperand v.a t) != v.d.getLsbD 5) ∧
    Writes32 (.sel w) (fun v t => if guardOf v.pre t then v.a32 t else v.b32 t) ∧
    (∀ s i, Issues s (w.dev 0x46) i → i.act = i.co) ∧
    Completes (.pmov w) (fun _ _ _ => True) (fun v i s => i.changed s fun src th =>
      ({ th with preds := (th.preds &&& ~~~(v.b32 src).setWidth 7) ||| ((v.a32 src).setWidth 7 &&& (v.b32 src).setWidth 7) } : Thread).setVs
        [(v.d.toNat, BitVec.ofNat 32 (128 + src.preds.toNat))])

/-- R164 to R167, R192 to R194, R196, R197: votes, matches, elections, shuffles, reductions, scans and exchanges over the active set. Of a pair the
member at the lower position keeps the lesser key where that position has no bit of DIR, else the greater one, and its partner the other; a key ranks at
its base, plus the keys before it in its run, plus those of the other run that are less, in the upper run also those that are equal. -/
def Obligations.GroupResults : Prop :=
  (∀ (n : Nat) (c : Word) (pos : Nat) (mine theirs : BitVec n),
    let least := (pos = min pos (pos ^^^ byteAt c 0) ↔ min pos (pos ^^^ byteAt c 0) &&& byteAt c 1 = 0)
    let r := exchange c pos mine (some theirs)
    exchange c pos mine none = (mine, false) ∧ (r.2 = true ↔ r.1 ≠ mine) ∧ (r.1 = mine ∨ r.1 = theirs) ∧
    (c.getLsbD 16 = true → (least → r.1.toInt = min mine.toInt theirs.toInt) ∧ (¬least → r.1.toInt = max mine.toInt theirs.toInt)) ∧
    (c.getLsbD 16 = false → (least → r.1.toNat = min mine.toNat theirs.toNat) ∧ (¬least → r.1.toNat = max mine.toNat theirs.toNat))) ∧
  (∀ (act : List Thread) (key : Thread → Addr) (c : Word) (t : Thread),
    let h := byteAt c 0
    let run := fun (u : Thread) => u.pos / h
    let less := fun (u v : Thread) => if c.getLsbD 8 then (key u).toInt < (key v).toInt else (key u).toNat < (key v).toNat
    let own := act.countP fun u => decide (run u = run t ∧ u.pos < t.pos)
    (h = 0 → mergeRank act key c t = t.pos) ∧
    (h ≠ 0 → run t % 2 = 0 → mergeRank act key c t = t.pos / (2 * h) * (2 * h) + own + act.countP fun u => decide (run u = run t + 1 ∧ less u t)) ∧
    (h ≠ 0 → run t % 2 = 1 → mergeRank act key c t = t.pos / (2 * h) * (2 * h) + own + act.countP fun u => decide (run u + 1 = run t ∧ ¬less t u))) ∧
  ∀ w : Rrr,
  Completes (.vote w) (fun _ _ _ => True) (fun v i s => i.changed s fun _ th =>
    let ones := i.act.filter (predOperand v.a)
    let ballot := BitVec.ofNat 128 (ones.foldl (fun n t => n + 2 ^ t.pos) 0)
    match v.b.toNat % 4 with
    | 0 => th.setVs [(v.d.toNat, ballot.extractLsb' 0 32), (v.d.toNat + 1, ballot.extractLsb' 32 32), (v.d.toNat + 2, ballot.extractLsb' 64 32),
        (v.d.toNat + 3, ballot.extractLsb' 96 32)]
    | 1 => th.setP (v.d.toNat % 8) (i.act.all (predOperand v.a))
    | 2 => th.setP (v.d.toNat % 8) (i.act.any (predOperand v.a))
    | _ => th.setP (v.d.toNat % 8) (i.act.all (predOperand v.a) || !i.act.any (predOperand v.a))) ∧
  Completes (.findmI32 w) (fun _ _ _ => True) (fun v i s => i.changed s fun _ th => matched v th (i.act.filter fun u => v.a32 u == v.a32 th)) ∧
  Completes (.findmI64 w) (fun _ _ _ => True) (fun v i s => i.changed s fun _ th => matched v th (i.act.filter fun u => v.a64 u == v.a64 th)) ∧
  Completes (.elect w) (fun _ _ _ => True) (fun v i s => i.changed s fun _ th =>
    (th.setVs [(v.d.toNat, BitVec.ofNat 32 i.leadPos)]).setP (v.b.toNat % 8) (th.pos == i.leadPos)) ∧
  Completes (.shfli w) (fun _ _ _ => True) (fun v i s => i.changed s fun _ th =>
    th.setVs [(v.d.toNat, v.a32 ((i.act.find? fun u => u.pos == (v.b32 th).toNat % i.desc.width).getD th))]) ∧
  Completes (.shflu w) (fun _ _ _ => True) (fun v i s => i.changed s fun _ th =>
    th.setVs [(v.d.toNat, v.a32 ((i.act.find? fun u => u.pos + (v.b32 th).toNat == th.pos).getD th))]) ∧
  Completes (.shfld w) (fun _ _ _ => True) (fun v i s => i.changed s fun _ th =>
    th.setVs [(v.d.toNat, v.a32 ((i.act.find? fun u => u.pos == th.pos + (v.b32 th).toNat).getD th))]) ∧
  Completes (.shflx w) (fun _ _ _ => True) (fun v i s => i.changed s fun _ th =>
    th.setVs [(v.d.toNat, v.a32 ((i.act.find? fun u => u.pos == th.pos ^^^ ((v.b32 th).toNat % i.desc.width)).getD th))]) ∧
  Completes (.graddI32 w) (fun _ _ _ => True) (fun v i s => i.changed s fun _ th =>
    th.setVs [(v.d.toNat, BitVec.ofNat 32 (i.act.map fun u => (v.a32 u).toNat).sum)]) ∧
  Completes (.grminS32 w) (fun _ _ _ => True) (fun v i s => i.changed s fun _ th =>
    th.setVs [(v.d.toNat, (i.act.map v.a32).foldl (fun a b => if a.sle b then a else b) 0x7FFFFFFF#32)]) ∧
  Completes (.grmaxS32 w) (fun _ _ _ => True) (fun v i s => i.changed s fun _ th =>
    th.setVs [(v.d.toNat, (i.act.map v.a32).foldl (fun a b => if a.sle b then b else a) 0x80000000#32)]) ∧
  Completes (.gscanI32 w) (fun _ _ _ => True) (fun v i s => i.changed s fun _ th =>
    th.setVs [(v.d.toNat, BitVec.ofNat 32 ((i.act.filter fun u => u.pos < th.pos ∨ (u.pos = th.pos ∧ v.b.getLsbD 0 = false)).map
      fun u => (v.a32 u).toNat).sum)]) ∧
  Completes (.cxchI32 w) (fun _ _ _ => True) (fun v i s => i.changed s fun _ th =>
    let r := exchange (v.b32 th) th.pos (v.a32 th) ((i.act.find? fun u => u.pos == th.pos ^^^ byteAt (v.b32 th) 0).map v.a32)
    (th.setVs [(v.d.toNat, r.1)]).setP ((v.b32 th).toNat / 2 ^ 17 % 8) r.2) ∧
  Completes (.cxchI64 w) (fun _ _ _ => True) (fun v i s => i.changed s fun _ th =>
    let r := exchange (v.b32 th) th.pos (v.a64 th) ((i.act.find? fun u => u.pos == th.pos ^^^ byteAt (v.b32 th) 0).map v.a64)
    (th.setVs [(v.d.toNat, r.1.extractLsb' 0 32), (v.d.toNat + 1, r.1.extractLsb' 32 32)]).setP ((v.b32 th).toNat / 2 ^ 17 % 8) r.2) ∧
  Completes (.mrnkI64 w) (fun _ _ _ => True) (fun v i s => i.changed s fun _ th =>
    th.setVs [(v.d.toNat, BitVec.ofNat 32 (mergeRank i.act v.a64 (v.b32 th) th))])

/-- R142, R168 to R172: NOP, moves, and the special registers. CLOCK counts the cycles of the core's column since reset, at the rate of its class. -/
def Obligations.MoveResults : Prop :=
  (∀ w : Rrr,
    Completes (.nop w) (fun _ _ _ => True) (fun _ i s => i.finish s) ∧
    Writes32 (.mov w) (fun v t => v.b32 t) ∧ Writes64 (.movd w) (fun v t => v.b64 t) ∧
    Completes (.movh w) (fun _ _ _ => True) (fun v i s => i.changed s fun src th => th.setReg v.d.toNat (src.reg v.a.toNat))) ∧
  ∀ w : Ri,
    Writes32 (.movi w) (fun _ _ => w.imm.signExtend 32) ∧
    Writes32 (.movk w) (fun v t => BitVec.ofInt 32 ((v.d32 t).toNat * 2 ^ 12 + w.imm.toInt)) ∧
    Completes (.gsr w) (fun _ _ _ => True) (fun v i s => i.changed s fun src th =>
      let read32 := fun (x : Nat) => th.setVs [(v.d.toNat, BitVec.ofNat 32 x)]
      let read64 := fun (x : Addr) => th.setVs [(v.d.toNat, x.extractLsb' 0 32), (v.d.toNat + 1, x.extractLsb' 32 32)]
      match w.imm.toNat with
      | 0x000 => read32 src.tidx
      | 0x001 => read32 i.grp.gidx
      | 0x002 => read32 src.lane
      | 0x003 => read32 src.slot
      | 0x004 => read32 i.grp.part
      | 0x005 => read32 i.team.core
      | 0x006 => read32 (columnOfCore i.team.core)
      | 0x007 => read32 (i.team.core / 48)
      | 0x008 => read32 (i.team.index % i.desc.nx)
      | 0x009 => read32 (i.team.index / i.desc.nx % i.desc.ny)
      | 0x00A => read32 (i.team.index / i.desc.nx / i.desc.ny)
      | 0x00B => read32 (i.desc.nx * i.desc.ny * i.desc.nz)
      | 0x00C => read32 i.team.rank
      | 0x00D => read32 (i.desc.clh * 16 + i.desc.clw)
      | 0x00E => read32 i.desc.width
      | 0x010 => read64 i.desc.argp
      | 0x011 =>
        let c := s.column (columnOfCore i.team.core)
        let rate := match c.cls with | 0 => 35 | 1 => 28 | 2 => 21 | _ => 42
        read64 (BitVec.ofNat 64 ((c.clockBase + (s.time - c.clockSince) * rate) / 20))
      | 0x012 => read64 (BitVec.ofNat 64 s.time)
      | 0x013 => read32 i.team.windowWord.toNat
      | 0x014 => read32 i.team.tileBase
      | 0x015 => read32 i.team.slice.toNat
      | 0x016 => read32 i.team.ctx
      | 0x017 => read64 (BitVec.ofNat 64 ((List.range 12).map fun f => i.grp.flags.getD f 0 % 8 * 2 ^ (3 * f)).sum)
      | 0x018 => read32 src.trapc.toNat
      | 0x019 => read64 src.trapa
      | _ => read64 src.trapv) ∧
    Completes (.ssr w) (fun _ _ _ => True) (fun v i s => i.changed s fun src th =>
      match w.imm.toNat with
      | 0x018 => { th with trapc := v.d32 src &&& 0x7F73FFFF#32 }
      | 0x019 => { th with trapa := v.d64 src }
      | _ => { th with trapv := v.d64 src })

/-- R174 to R182: the floating-point instructions' results, through values (R55) and one rounding (R52). -/
def Obligations.FloatResults : Prop := ∀ w : Rrr,
  Writes32 (.fadd w) (fun v t => fw ((fv (v.a32 t)).add (fv (v.b32 t)))) ∧ Writes32 (.fsub w) (fun v t => fw ((fv (v.a32 t)).add (fv (v.b32 t)).neg)) ∧
  Writes32 (.fmul w) (fun v t => fw ((fv (v.a32 t)).mul (fv (v.b32 t)))) ∧
  Writes32 (.ffma w) (fun v t => fw (((fv (v.a32 t)).mul (fv (v.b32 t))).add (fv (v.d32 t)))) ∧
  Writes32 (.fmin w) (fun v t => BitVec.ofNat 32 (fp32.pick false (v.a32 t).toNat (v.b32 t).toNat)) ∧
  Writes32 (.fmax w) (fun v t => BitVec.ofNat 32 (fp32.pick true (v.a32 t).toNat (v.b32 t).toNat)) ∧
  Writes32 (.fabs w) (fun v t => 0#1 ++ (v.a32 t).extractLsb' 0 31) ∧
  Writes32 (.fneg w) (fun v t => (~~~(v.a32 t).extractLsb' 31 1) ++ (v.a32 t).extractLsb' 0 31) ∧
  Writes32 (.frnd w) (fun v t => fw (integral (RMode.ofCode (v.b.toNat % 4)) (fv (v.a32 t)))) ∧
  Writes32 (.hadd2 w) (fun v t => perHalf fp16 (fun a b _ => a.add b) (v.a32 t) (v.b32 t) (v.d32 t)) ∧
  Writes32 (.hmul2 w) (fun v t => perHalf fp16 (fun a b _ => a.mul b) (v.a32 t) (v.b32 t) (v.d32 t)) ∧
  Writes32 (.hfma2 w) (fun v t => perHalf fp16 (fun a b c => (a.mul b).add c) (v.a32 t) (v.b32 t) (v.d32 t)) ∧
  Writes32 (.hmin2 w) (fun v t => BitVec.ofNat 16 (fp16.pick false (half (v.a32 t) 1) (half (v.b32 t) 1)) ++
    BitVec.ofNat 16 (fp16.pick false (half (v.a32 t) 0) (half (v.b32 t) 0))) ∧
  Writes32 (.hmax2 w) (fun v t => BitVec.ofNat 16 (fp16.pick true (half (v.a32 t) 1) (half (v.b32 t) 1)) ++
    BitVec.ofNat 16 (fp16.pick true (half (v.a32 t) 0) (half (v.b32 t) 0))) ∧
  Writes32 (.badd2 w) (fun v t => perHalf bf16 (fun a b _ => a.add b) (v.a32 t) (v.b32 t) (v.d32 t)) ∧
  Writes32 (.bmul2 w) (fun v t => perHalf bf16 (fun a b _ => a.mul b) (v.a32 t) (v.b32 t) (v.d32 t)) ∧
  Writes32 (.bfma2 w) (fun v t => perHalf bf16 (fun a b c => (a.mul b).add c) (v.a32 t) (v.b32 t) (v.d32 t)) ∧
  Writes32 (.frcp w) (fun v t => fw ((FV.fin false 1 0).div (fv (v.a32 t)))) ∧ Writes32 (.frsq w) (fun v t => fw (fv (v.a32 t)).rsqrt) ∧
  Writes32 (.fsqrt w) (fun v t => fw (fv (v.a32 t)).sqrt) ∧ Writes32 (.fexp2 w) (fun v t => fw (fv (v.a32 t)).exp2) ∧
  Writes32 (.flog2 w) (fun v t => fw (fv (v.a32 t)).log2) ∧ Writes32 (.fsin w) (fun v t => fw (fv (v.a32 t)).sin) ∧
  Writes32 (.fcos w) (fun v t => fw (fv (v.a32 t)).cos) ∧ Writes32 (.ftanh w) (fun v t => fw (fv (v.a32 t)).tanh) ∧
  Writes32 (.fdiv w) (fun v t => fw ((fv (v.a32 t)).div (fv (v.b32 t))))

/-- R183 to R191, R195: conversions, quantisation, and the tree sum, with the class of a pattern, a block's scale, the codes of quantised values and what a
code stands for. -/
def Obligations.ConvertResults : Prop :=
  (∀ p < 2 ^ 32, let neg := p / 2 ^ 31 = 1
    let ex := p / 2 ^ 23 % 256
    let fr := p % 2 ^ 23
    classOf p =
      if ex = 255 then (if fr = 0 then (if neg then 2 ^ 0 else 2 ^ 7) else if fr < 2 ^ 22 then 2 ^ 8 else 2 ^ 9)
      else if ex ≠ 0 then (if neg then 2 ^ 1 else 2 ^ 6) else if fr ≠ 0 then (if neg then 2 ^ 2 else 2 ^ 5) else if neg then 2 ^ 3 else 2 ^ 4) ∧
  (∀ p fmt : Nat, let a := p % 2 ^ 31
    (0x7F800000 < a → blockScale fmt p = 0xFF) ∧ (a = 0x7F800000 → blockScale fmt p = 0xFE) ∧ (a = 0 → blockScale fmt p = 0x7F) ∧
    ∀ m e, fp32.val a = .fin false m e → ∀ l : Nat, 2 ^ l ≤ m → m < 2 ^ (l + 1) →
      (blockScale fmt p : Int) = min (max ((l : Int) + e - ([2, 8, 15, 6] : List Int).getD fmt 0 + 127) 0) 254) ∧
  (let weight := fun (b : Nat) =>
      let term := fun (h : Nat) => if h % 8 = 7 then (0 : Int) else (if 8 ≤ h then -1 else 1) * 2 ^ (6 - h % 8)
      term (b / 16) + term (b % 16)
    let terms := fun (b : Nat) => (if b / 16 % 8 = 7 then 0 else 1) + (if b % 8 = 7 then 0 else 1)
    let canonical := fun (b : Nat) => b < 256 ∧ b / 16 ≠ 15 ∧ b % 16 ≠ 15;
    (∀ v s fmt, v = .nan ∨ s = 255 → quantise fmt v s = ([0, 0x7F, 0x7E, 0] : List Nat).getD fmt 0x77) ∧
    (∀ v s, v ≠ .nan → s ≠ 255 → let y := v.scale (127 - (s : Nat))
      quantise 0 v s = e2m1.enc y ∧ quantise 1 v s = e4m3.enc y ∧ quantise 2 v s = e5m2.enc y ∧
      BitVec.ofNat 8 (quantise 3 v s) = BitVec.ofInt 8 (toIntSat .rn (-128) 127 y) ∧
      (∀ neg, v = .inf neg → quantise 4 v s = quantise 4 (.fin neg 2 0) 127) ∧
      ∀ neg m e, y = .fin neg m e →
        let k := min e (-6)
        let unit : Int := 2 ^ (-6 - k).toNat
        let two : Int := 2 * 2 ^ (-k).toNat
        let at_ := min (max ((if neg then -1 else 1 : Int) * (m * 2 ^ (e - k).toNat)) (-two)) two
        let b := quantise 4 v s
        let far := fun (c : Nat) => (unit * weight c - at_).natAbs
        canonical b ∧ ∀ c, canonical c → far b < far c ∨ (far b = far c ∧ ((weight b).natAbs < (weight c).natAbs ∨
          ((weight b).natAbs = (weight c).natAbs ∧ (terms b < terms c ∨ (terms b = terms c ∧ b ≤ c)))))) ∧
    ∀ p s : Nat, (∀ fmt, dequantise fmt p 255 = .nan) ∧
      (s ≠ 255 → p < 256 → let x : Int := (s : Int) - 127
        dequantise 0 p s = (e2m1.val p).scale x ∧ dequantise 1 p s = (e4m3.val p).scale x ∧ dequantise 2 p s = (e5m2.val p).scale x ∧
        dequantise 3 p s = (FV.ofInt (BitVec.ofNat 8 p).toInt 0).scale x ∧ dequantise 4 p s = (FV.ofInt (weight p) (-6)).scale x)) ∧
  (∀ (x e : Int), FV.ofInt x e = .fin (decide (x < 0)) x.natAbs e) ∧
  (∀ x : Option FV, treeSum 0 [x] = x) ∧
  (∀ (n : Nat) (l : List (Option FV)), l.length = 2 ^ (n + 1) → treeSum (n + 1) l = treeSum n ((List.range (2 ^ n)).map fun i =>
    match l.getD (2 * i) none, l.getD (2 * i + 1) none with
    | some x, some y => some (fp32.val (fp32.enc (x.add y)))
    | some x, none => some x
    | none, y => y)) ∧
  ∀ w : Rrr,
  Completes (.f2i w) (fun v _ _ => v.b.toNat % 4 ≤ 1) (fun v i s => i.changed s fun src th => th.setVs [(v.d.toNat,
    BitVec.ofInt 32 (if v.b.toNat % 4 = 0 then toIntSat (RMode.ofCode (v.b.toNat / 4 % 4)) (-(2 ^ 31)) (2 ^ 31 - 1) (fv (v.a32 src))
      else toIntSat (RMode.ofCode (v.b.toNat / 4 % 4)) 0 (2 ^ 32 - 1) (fv (v.a32 src))))]) ∧
  Completes (.f2i w) (fun v _ _ => 2 ≤ v.b.toNat % 4) (fun v i s => i.changed s fun src th =>
    let r : Addr := BitVec.ofInt 64 (if v.b.toNat % 4 = 2 then toIntSat (RMode.ofCode (v.b.toNat / 4 % 4)) (-(2 ^ 63)) (2 ^ 63 - 1) (fv (v.a32 src))
      else toIntSat (RMode.ofCode (v.b.toNat / 4 % 4)) 0 (2 ^ 64 - 1) (fv (v.a32 src)))
    th.setVs [(v.d.toNat, r.extractLsb' 0 32), (v.d.toNat + 1, r.extractLsb' 32 32)]) ∧
  Writes32 (.i2f w) (fun v t => BitVec.ofNat 32 (fp32.enc (FV.ofInt (match v.b.toNat % 4 with
      | 0 => (v.a32 t).toInt
      | 1 => (v.a32 t).toNat
      | 2 => (v.a64 t).toInt
      | _ => (v.a64 t).toNat) 0) (RMode.ofCode (v.b.toNat / 4 % 4)))) ∧
  Writes32 (.f2h w) (fun v t =>
    let h := BitVec.ofNat 16 ((if v.b.getLsbD 0 then bf16 else fp16).enc (fv (v.a32 t)))
    if v.b.getLsbD 1 then h ++ (v.d32 t).extractLsb' 0 16 else (v.d32 t).extractLsb' 16 16 ++ h) ∧
  Writes32 (.h2f w) (fun v t => fw ((if v.b.getLsbD 0 then bf16 else fp16).val
    ((v.a32 t).extractLsb' (if v.b.getLsbD 1 then 16 else 0) 16).toNat)) ∧
  Writes32 (.fscl w) (fun v t => fw ((fv (v.a32 t)).scale (v.b32 t).toInt)) ∧
  Writes32 (.fcls w) (fun v t => BitVec.ofNat 32 (classOf (v.a32 t).toNat)) ∧
  Writes32 (.fxcvt w) (fun v t => fw (FV.ofInt (t.v (v.a.toNat + 3) ++ t.v (v.a.toNat + 2) ++ t.v (v.a.toNat + 1) ++ t.v v.a.toNat : BitVec 128).toInt
    (v.b32 t).toInt)) ∧
  Writes32 (.fmxs w) (fun v t => BitVec.ofNat 32 (blockScale (v.b.toNat % 8) (v.a32 t).toNat)) ∧
  Writes32 (.f2q w) (fun v t =>
    let fmt := v.lw.toNat % 8
    let n := if fmt = 0 then 4 else 8
    let pos := n * (v.lw.toNat / 8 % 32)
    BitVec.ofNat 32 ((v.d32 t).toNat / 2 ^ (pos + n) * 2 ^ (pos + n) + quantise fmt (fv (v.a32 t)) ((v.rb32 t).toNat % 256) % 2 ^ n * 2 ^ pos +
      (v.d32 t).toNat % 2 ^ pos)) ∧
  Writes32 (.q2f w) (fun v t =>
    let fmt := v.lw.toNat % 8
    let n := if fmt = 0 then 4 else 8
    fw (dequantise fmt ((v.a32 t).toNat / 2 ^ (n * (v.lw.toNat / 8 % 32)) % 2 ^ n) ((v.rb32 t).toNat % 256))) ∧
  Completes (.graddF32 w) (fun _ _ _ => True) (fun v i s => i.changed s fun _ th => th.setVs [(v.d.toNat,
    fw ((treeSum i.desc.width.log2 ((List.range i.desc.width).map fun j => (i.act.find? fun u => u.pos == j).map fun u => fv (v.a32 u))).getD .nan))])

/-- R52, R53, R55 to R57, R174: a pattern that is no NaN is the encoding of its value, in every format and every rounding mode. A value that is no
pattern's is encoded, in the mode that every vector result and every conversion uses, by the nearest code of its sign, of two as near the even one; at or
above the half-way point past the greatest finite value it is infinity, and in a format without one the greatest finite value. Magnitudes are compared as
multiples of one power of two. -/
def Obligations.FormatRoundTrip : Prop := ∀ f ∈ [fp32, fp16, bf16, e4m3, e5m2, e2m1],
  (∀ p < 2 * f.signBit, ∀ m : RMode, f.val p ≠ .nan → f.enc (f.val p) m = p) ∧
  (∀ neg m e, m ≠ 0 →
    let unit := min e f.emin
    let x := m * 2 ^ (e - unit).toNat
    let mag := fun (c : Nat) => (if c / 2 ^ f.mb = 0 then c else (2 ^ f.mb + c % 2 ^ f.mb) * 2 ^ (c / 2 ^ f.mb - 1)) * 2 ^ (f.emin - unit).toNat
    let far := fun (c : Nat) => max x (mag c) - min x (mag c)
    let c := f.enc (.fin neg m e) % f.signBit
    f.enc (.fin neg m e) / f.signBit = neg.toNat ∧
    (f.inf = false ∨ 2 * x < mag f.top + mag (f.top + 1) → c ≤ f.top ∧ ∀ d ≤ f.top, far c ≤ far d ∧ (far d = far c → d ≠ c → c % 2 = 0)) ∧
    (f.inf = true → mag f.top + mag (f.top + 1) ≤ 2 * x → c = f.top + 1)) ∧
  (∀ neg e, f.enc (.fin neg 0 e) = neg.toNat * f.signBit) ∧
  (∀ neg, f.enc (.inf neg) = neg.toNat * f.signBit + (if f.inf then f.top + 1 else f.top)) ∧
  e4m3.enc .nan = 0x7F ∧ e2m1.enc .nan = 0 ∧ f.enc .nan = f.nan

/-- R54, R160, R174, R175, R177, R180, R182, R183, R186: what sums, products, quotients, comparisons and roundings to an integer of values are, and the special
cases of the functions on infinities, zeros and NaN. A finite value is an integer times a power of two; a quotient that is not exact is cut far below
any format's precision, with its last bit set, so that it rounds as the exact one does (log 11). -/
def Obligations.FloatSpecialCases : Prop :=
  (let scaled := fun (s : Bool) (m : Nat) (e q : Int) => (if s then -1 else 1 : Int) * (m * 2 ^ (e - q).toNat);
    (∀ s m e t n f, (∃ u k g, (FV.fin s m e).add (.fin t n f) = .fin u k g ∧ (k = 0 → u = (s && t)) ∧
        ∀ q, q ≤ e → q ≤ f → q ≤ g ∧ scaled u k g q = scaled s m e q + scaled t n f q) ∧
      (FV.fin s m e).mul (.fin t n f) = .fin (s != t) (m * n) (e + f) ∧
      (n ≠ 0 → ∃ k j : Nat, (FV.fin s m e).div (.fin t n f) = .fin (s != t) k (e - f - j - 1) ∧ k / 2 = m * 2 ^ j / n ∧
        (k % 2 = 0 ↔ m * 2 ^ j % n = 0) ∧ (m ≠ 0 → 2 ^ 63 ≤ k / 2)) ∧
      (m ≠ 0 → (FV.fin s m e).div (.fin t 0 f) = .inf (s != t)) ∧
      ∀ q, q ≤ e → q ≤ f → ((FV.fin s m e).lt (.fin t n f) = true ↔ scaled s m e q < scaled t n f q)) ∧
    (∀ s t m e, (FV.fin s m e).add (.inf t) = .inf t ∧ (FV.inf t).add (.fin s m e) = .inf t ∧ (FV.inf t).add (.inf t) = .inf t ∧
      (m ≠ 0 → (FV.fin s m e).mul (.inf t) = .inf (s != t) ∧ (FV.inf t).mul (.fin s m e) = .inf (t != s)) ∧ (FV.inf s).mul (.inf t) = .inf (s != t) ∧
      (FV.inf t).div (.fin s m e) = .inf (t != s) ∧ (∃ x, (FV.fin s m e).div (.inf t) = .fin (s != t) 0 x) ∧
      (FV.inf s).lt (.fin t m e) = s ∧ (FV.fin s m e).lt (.inf t) = !t ∧ (FV.inf s).lt (.inf t) = (s && !t) ∧
      (FV.fin s m e).neg = .fin (!s) m e ∧ (FV.inf s).neg = .inf !s ∧ (∀ n, (FV.fin s m e).scale n = .fin s m (e + n) ∧ (FV.inf s).scale n = .inf s))) ∧
  (∀ a b : FV, (a = .nan ∨ b = .nan → ∀ c < 8, fcond c a b = decide (c = 1 ∨ c = 7)) ∧
    (a ≠ .nan → b ≠ .nan → let equal := !a.lt b && !b.lt a
      fcond 0 a b = equal ∧ fcond 1 a b = !equal ∧ fcond 2 a b = a.lt b ∧ fcond 3 a b = (a.lt b || equal) ∧ fcond 4 a b = b.lt a ∧
      fcond 5 a b = (b.lt a || equal) ∧ fcond 6 a b = true ∧ fcond 7 a b = false)) ∧
  (∀ (mode : RMode) (s : Bool) (m : Nat), integral mode .nan = .nan ∧ integral mode (.inf s) = .inf s ∧
    (∀ e : Int, 0 ≤ e → integral mode (.fin s m e) = .fin s (m * 2 ^ e.toNat) 0) ∧
    ∀ k : Nat, ∃ n : Nat, integral mode (.fin s m (-k)) = .fin s n 0 ∧
      (mode = .rz ∨ (mode = .rd ∧ s = false) ∨ (mode = .ru ∧ s = true) → n * 2 ^ k ≤ m ∧ m < (n + 1) * 2 ^ k) ∧
      ((mode = .rd ∧ s = true) ∨ (mode = .ru ∧ s = false) → m ≤ n * 2 ^ k ∧ n * 2 ^ k < m + 2 ^ k) ∧
      (mode = .rn → 2 * m ≤ (2 * n + 1) * 2 ^ k ∧ 2 * n * 2 ^ k ≤ 2 * m + 2 ^ k ∧ (2 * m = (2 * n + 1) * 2 ^ k ∨ 2 * n * 2 ^ k = 2 * m + 2 ^ k → n % 2 = 0))) ∧
  (∀ (mode : RMode) (lo hi : Int), lo ≤ hi → toIntSat mode lo hi .nan = 0 ∧ toIntSat mode lo hi (.inf true) = lo ∧ toIntSat mode lo hi (.inf false) = hi ∧
    ∀ s m e n, integral mode (.fin s m e) = .fin s n 0 →
      let x : Int := if s then -(n : Int) else n
      toIntSat mode lo hi (.fin s m e) = if x < lo then lo else if hi < x then hi else x) ∧
  (∀ s : Bool, (FV.fin false 1 0).div (.fin s 0 0) = .inf s ∧ (∃ e, (FV.fin false 1 0).div (.inf s) = .fin s 0 e) ∧
    (FV.fin s 0 0).rsqrt = .inf s ∧ (FV.fin s 0 0).sqrt = .fin s 0 0 ∧ (FV.fin s 0 0).log2 = .inf true ∧ (FV.fin s 0 0).sin = .fin s 0 0 ∧
    (FV.fin s 0 0).cos = .fin false 1 0 ∧ (FV.fin s 0 0).tanh = .fin s 0 0 ∧ (FV.inf s).sin = .nan ∧ (FV.inf s).cos = .nan ∧ (FV.inf s).tanh = .fin s 1 0) ∧
  (∀ m e, m ≠ 0 → (FV.fin true m e).sqrt = .nan ∧ (FV.fin true m e).rsqrt = .nan ∧ (FV.fin true m e).log2 = .nan) ∧
  (FV.inf false).rsqrt = .fin false 0 0 ∧ (FV.inf true).rsqrt = .nan ∧ (FV.inf false).sqrt = .inf false ∧ (FV.inf true).sqrt = .nan ∧
  (FV.inf true).exp2 = .fin false 0 0 ∧ (FV.inf false).exp2 = .inf false ∧ (FV.inf false).log2 = .inf false ∧ (FV.inf true).log2 = .nan ∧
  (∀ f ∈ [FV.rsqrt, FV.sqrt, FV.exp2, FV.log2, FV.sin, FV.cos, FV.tanh, FV.neg], f .nan = .nan) ∧
  (∀ a : FV, a.add .nan = .nan ∧ FV.nan.add a = .nan ∧ a.mul .nan = .nan ∧ FV.nan.mul a = .nan ∧ a.div .nan = .nan ∧ FV.nan.div a = .nan) ∧
  (∀ s m e, (FV.fin s 0 e).div (.fin s 0 e) = .nan ∧ (FV.inf s).div (.inf m) = .nan ∧ (FV.inf s).add (.inf !s) = .nan ∧ (FV.inf s).mul (.fin m 0 e) = .nan)

/-- R199 to R203, R216: loads and MWATCH complete with their data on the way, MWATCH with its watches armed; stores complete with the bytes stored.
What a load delivers is the number that the bytes of its address make, little-endian, zero- or sign-extended to a register, or four bytes to each of
its registers. A plain load whose unit no write unseen by it has changed reads those bytes as they stand; at which place in T another one stands is a
free value (log 3). -/
def Obligations.LoadStoreResults : Prop :=
  (∀ w : Rrr,
  let plain := fun (n : Nat) (sign : Bool) (i : Iss) (s : State) (acc : List Access) => i.readAll s n sign acc
  Loads (.ldB8 w) 1 false .read 1 plainEa (plain 1 false) ∧ Loads (.ldS8 w) 1 true .read 1 plainEa (plain 1 true) ∧
  Loads (.ldB16 w) 2 false .read 1 plainEa (plain 2 false) ∧ Loads (.ldS16 w) 2 true .read 1 plainEa (plain 2 true) ∧
  Loads (.ldB32 w) 4 false .read 1 plainEa (plain 4 false) ∧ Loads (.ldB64 w) 8 false .read 1 plainEa (plain 8 false) ∧
  Loads (.ldB128 w) 16 false .read 1 plainEa (plain 16 false) ∧
  Loads (.mwatch w) 4 false .watch 2 plainEa (fun i s acc =>
    let s' := acc.foldl (fun s a => i.upd (i.standsNow s a) (i.receivers a.thr) fun t => { t with watch := some ⟨a.tgt.loc / 128, false⟩ }) s
    (s', acc.map fun a => s'.due a 4 false)) ∧
  Stores (.stB8 w) 1 plainEa ∧ Stores (.stB16 w) 2 plainEa ∧ Stores (.stB32 w) 4 plainEa ∧ Stores (.stB64 w) 8 plainEa ∧ Stores (.stB128 w) 16 plainEa) ∧
  ∀ (s : State) (a : Access) (i : Iss), a.tgt.view ≠ .system →
    let byte := fun (k : Nat) => (Memory.get s.mem (a.tgt.loc + k)).toNat
    (∀ n sign, (s.due a n sign).thr = a.thr ∧ (s.due a n sign).ea = a.ea ∧
      ((s.due a n sign).bad = true ↔ ∃ b ∈ s.bad, b * 64 < a.tgt.loc + n ∧ a.tgt.loc < b * 64 + 64 ∧ n ≠ 0)) ∧
    (∃ x y : Word, (s.due a 1 false).vals = [x] ∧ (s.due a 2 false).vals = [y] ∧ x.toNat = byte 0 ∧ y.toNat = byte 0 + 256 * byte 1) ∧
    (∃ x y : Word, (s.due a 1 true).vals = [x] ∧ (s.due a 2 true).vals = [y] ∧
      x.toInt = (byte 0 : Int) - (if 128 ≤ byte 0 then 256 else 0) ∧
      y.toInt = (byte 0 : Int) + 256 * byte 1 - (if 128 ≤ byte 1 then 65536 else 0)) ∧
    (∀ n ∈ [4, 8, 16], (s.due a n false).vals.length = n / 4 ∧ ∀ k < n / 4, ((s.due a n false).vals.getD k 0).toNat =
      byte (4 * k) + 256 * byte (4 * k + 1) + 65536 * byte (4 * k + 2) + 16777216 * byte (4 * k + 3)) ∧
    ∀ n sign, (∀ p ∈ s.past, p.unit = a.tgt.loc / 16 → (p.fresh s.time = false ∨ p.stamp ≤ i.floor (i.receivers a.thr) ∨
      ∃ x ∈ i.receivers a.thr, threadKey i.team.uid x ∈ p.seen)) → (i.read s n sign a).2.1 = s.due a n sign

/-- R95, R204, R389: an access to a READY tile at an aligned offset within its region completes as a load or store at BASE plus the offset. -/
def Obligations.TileAccessResults : Prop := ∀ w : Rrr,
  let n := fun (v : Dev) => wdBytes (v.lw.toNat % 8)
  let signed := fun (v : Dev) => v.lw.toNat % 8 == 1 || v.lw.toNat % 8 == 3
  let tile := fun (v : Dev) (i : Iss) (s : State) => s.tile i.team.core (i.team.tileBase + v.a.toNat)
  let off := fun (v : Dev) (t : Thread) => ((v.rb32 t).toNat : Int) + (v.lw.extractLsb' 8 24).toInt
  let ea := fun (v : Dev) (i : Iss) (s : State) (t : Thread) => BitVec.ofInt 64 ((tile v i s).base + off v t)
  let fine := fun (v : Dev) (i : Iss) (s : State) (k : AccKind) => i.act ≠ [] ∧ v.a.toNat < i.desc.tiles ∧ (tile v i s).st = .ready ∧
    (∀ t ∈ i.doers, 0 ≤ off v t ∧ off v t + n v ≤ (tile v i s).size ∧ off v t % n v = 0) ∧ i.allClear s (n v) k 1 (ea v i s)
  Completes (.ldt w) (fun v i s => fine v i s .read ∧ i.hostFree s .read (i.accesses s (n v) .read 1 (ea v i s))) (fun v i s =>
    let acc := i.accesses s (n v) .read 1 (ea v i s)
    let s' := i.translated s .read acc
    i.finish (i.deliver (acc.foldl i.standsNow s') (max 1 (n v / 4)) (n v + if signed v then 32 else 0) 1 (acc.map fun a => s'.due a (n v) (signed v)))) ∧
  Completes (.stt w) (fun v i s => fine v i s .write) (fun v i s =>
    let acc := i.accesses s (n v) .write 1 (ea v i s)
    i.finish (i.storeAll (i.translated s .write acc) acc fun t => (wordsLe (t.vs v.d.toNat (max 1 (n v / 4)))).take (n v)))

/-- R205 to R209: each thread in lane order reads the old value, writes the new one in the same step, and is sent the old one; a reduction is sent
nothing; the operations by code. -/
def Obligations.AtomicResults : Prop :=
  (let atomic := fun (ins : Instr) (n : Nat) (new : Dev → Thread → Nat → Option Nat) =>
    Completes ins (fun v i s => i.allClear s n .atomic 1 (atomicEa v)) fun v i s =>
      let acc := i.accesses s n .atomic 1 (atomicEa v)
      let r := acc.foldl (fun (p : State × List Due) a =>
        let id := p.1.seq
        let x := ({ p.1 with seq := id + 1 } : State).atomStep a.tgt n (p.1.foretold true id) (new v a.thr)
        (i.standsNow x.1 a, p.2 ++ [{ thr := a.thr, ea := a.ea, vals := leWords (n / 4) (toLe n x.2.1), blocks := blocksOf a.tgt.loc n, bad := x.2.2,
                                      wrote := !x.2.2 && (new v a.thr x.2.1).isSome, id := some id, via := a.tgt.leaf }]))
        (i.translated s .atomic acc, [])
      i.finish (i.deliver r.1 (n / 4) n 2 r.2)
  let reduction := fun (ins : Instr) (n : Nat) (operand : Dev → Thread → Nat) =>
    Completes ins (fun v i s => i.allClear s n .atomic 1 (atomicEa v)) fun v i s =>
      let acc := i.accesses s n .atomic 1 (atomicEa v)
      let s' := i.translated s .atomic acc
      i.finish (acc.foldl (fun y a =>
        let x := ({ y with seq := y.seq + 1 } : State).atomStep a.tgt n (y.foretold false y.seq) fun old => some (atomNat n (v.lw.toNat % 16) old (operand v a.thr))
        let z := i.standsNow x.1 a
        { z with stores := z.stores ++ [{ id := y.seq, issue := s'.seq, team := i.team.uid, gidx := i.grp.gidx, tidxs := [a.thr.tidx],
                                          orders := i.receivers a.thr, blocks := blocksOf a.tgt.loc n, ea := a.ea, pc := i.pc,
                                          ctx := i.team.ctx, slice := i.team.slice, core := i.team.core, bad := x.2.2, via := a.tgt.leaf }] })
        { s' with seq := s'.seq + 1 })
  ∀ w : Rrr,
    atomic (.atom w) 4 (fun v t old => some (atomNat 4 (v.lw.toNat % 16) old (v.rb32 t).toNat)) ∧
    atomic (.atom64 w) 8 (fun v t old => some (atomNat 8 (v.lw.toNat % 16) old (v.rb64 t).toNat)) ∧
    atomic (.acas w) 4 (fun v t old => if old = (v.d32 t).toNat then some (v.rb32 t).toNat else none) ∧
    atomic (.acas64 w) 8 (fun v t old => if old = (v.d64 t).toNat then some (v.rb64 t).toNat else none) ∧
    atomic (.afadd w) 4 (fun v t old => some (fp32.enc ((fp32.val old).add (fp32.val (v.rb32 t).toNat)))) ∧
    reduction (.red w) 4 (fun v t => (v.rb32 t).toNat) ∧ reduction (.red64 w) 8 (fun v t => (v.rb64 t).toNat)) ∧
  (∀ old x : Word, atomNat 4 0 old.toNat x.toNat = (old + x).toNat ∧ atomNat 4 1 old.toNat x.toNat = (old &&& x).toNat ∧
    atomNat 4 2 old.toNat x.toNat = (old ||| x).toNat ∧ atomNat 4 3 old.toNat x.toNat = (old ^^^ x).toNat ∧
    atomNat 4 4 old.toNat x.toNat = (if old.sle x then old else x).toNat ∧ atomNat 4 5 old.toNat x.toNat = min old.toNat x.toNat ∧
    atomNat 4 6 old.toNat x.toNat = (if old.sle x then x else old).toNat ∧ atomNat 4 7 old.toNat x.toNat = max old.toNat x.toNat ∧
    atomNat 4 8 old.toNat x.toNat = x.toNat) ∧
  (∀ old x : Addr, atomNat 8 0 old.toNat x.toNat = (old + x).toNat ∧ atomNat 8 1 old.toNat x.toNat = (old &&& x).toNat ∧
    atomNat 8 2 old.toNat x.toNat = (old ||| x).toNat ∧ atomNat 8 3 old.toNat x.toNat = (old ^^^ x).toNat ∧
    atomNat 8 4 old.toNat x.toNat = (if old.sle x then old else x).toNat ∧ atomNat 8 5 old.toNat x.toNat = min old.toNat x.toNat ∧
    atomNat 8 6 old.toNat x.toNat = (if old.sle x then x else old).toNat ∧ atomNat 8 7 old.toNat x.toNat = max old.toNat x.toNat ∧
    atomNat 8 8 old.toNat x.toNat = x.toNat)

/-- R116, R211 to R214, R217: prefetch and ordering change no register and no memory; MWAIT ends with its status, which no watch, a seen one and an
expired bound decide. Where the thread's accesses have come to in T (`sync`, `pts`) is the model's bookkeeping (log 3). Besides, cache maintenance that covers no line of device memory, or whose write-backs are complete, lets its threads go on. -/
def Obligations.OrderingResults : Prop :=
  (∀ w : Rrr,
  Completes (.pref w) (fun _ _ _ => True) (fun _ i s => i.finish s) ∧
  Completes (.sync w) (fun v i s => v.b.toNat % 4 = 3 → (∀ l ∈ s.loads, l.sysview.isSome → l.team = i.team.uid → ∀ x ∈ l.tidxs, x ∉ i.acts) ∧
      ∀ x ∈ s.stores, x.sysview.isSome → x.op = none → x.team = i.team.uid → ∀ y ∈ x.orders, y ∉ i.acts)
    (fun _ i s => i.changed s fun _ t => { t with sync := s.tick }) ∧
  Completes (.mwait w) (fun v i s => ∀ t ∈ i.doers, ∃ st, mwaitTest s.time (v.b32 t) t = .mwaitDone st) (fun v i s =>
    i.changed s fun src th =>
      ({ th with wait := .run, watch := none, pts := if (mwaitTest s.time (v.b32 src) src).status = some 1 then s.tick else th.pts } : Thread).setVs
        [(v.d.toNat, match mwaitTest s.time (v.b32 src) src with | .mwaitDone st => BitVec.ofNat 32 st | _ => 0)]) ∧
  (∀ ins, ins = .cwb w ∨ ins = .cinv w → Completes ins (fun v i s => (∀ t ∈ i.act, t.wait = .run) ∧ ∀ t ∈ i.doers, ∀ p ∈ cachePages (v.a64 t) (v.b32 t),
      inWindows p = true ∨ (s.needsWalk (.thread i.team.uid t.tidx) (BitVec.ofNat 64 p) = false ∧
        ∃ g, resolve s (.thread i.team.uid t.tidx) (BitVec.ofNat 64 p) 1 .read = ([], some g) ∧ g.view = .system)) (fun _ i s => i.finish s)) ∧
  (∀ ins v s i, ins = .cwb w ∨ ins = .cinv w → ins.dev = some v → Issues s v i → (∃ t ∈ i.act, t.wait = .cacheDone) →
    exec ins s = .next (i.changed s fun _ t => { t with wait := .run }))) ∧
  (∀ (ea : Addr) (b : Word) (p : Nat), p ∈ cachePages ea b ↔ ∃ k < min b.toNat (2 ^ 20), p = (ea.toNat + k) % 2 ^ 64 / 4096 * 4096) ∧
  ∀ (now : Nat) (bound : Word) (t : Thread), t.wait = .run →
  (t.watch = none → mwaitTest now bound t = .mwaitDone 2) ∧
  (∀ l, t.watch = some ⟨l, true⟩ → mwaitTest now bound t = .mwaitDone 1) ∧
  (∀ l, t.watch = some ⟨l, false⟩ → bound = 0 → mwaitTest now bound t = .mwaitDone 0) ∧
  (∀ l, t.watch = some ⟨l, false⟩ → bound = 0xFFFFFFFF#32 → mwaitTest now bound t = .mwait none) ∧
  (∀ l, t.watch = some ⟨l, false⟩ → bound ≠ 0 → bound ≠ 0xFFFFFFFF#32 → mwaitTest now bound t = .mwait (some (now + bound.toNat)))

/-- R200, R361, R379, R394 to R396: an issue of which some thread meets a memory cause traps with the first cause in R361's order, whatever the word; an
address that is no multiple of the size meets ALIGN unless it misuses a window, one from 2^56 up meets PERM. -/
def Obligations.MemoryTraps : Prop :=
  (∀ (w : Rrr) (ins : Instr) (n : Nat) (kind : AccKind) (sub : Nat) (ea : Dev → Thread → Addr) (v : Dev) (s : State) (i : Iss) (tr : Trap),
  (ins, n, kind, sub, ea) ∈ [(Instr.ldB8 w, 1, AccKind.read, 1, plainEa), (.ldS8 w, 1, .read, 1, plainEa), (.ldB16 w, 2, .read, 1, plainEa),
    (.ldS16 w, 2, .read, 1, plainEa), (.ldB32 w, 4, .read, 1, plainEa), (.ldB64 w, 8, .read, 1, plainEa), (.ldB128 w, 16, .read, 1, plainEa),
    (.stB8 w, 1, .write, 1, plainEa), (.stB16 w, 2, .write, 1, plainEa), (.stB32 w, 4, .write, 1, plainEa), (.stB64 w, 8, .write, 1, plainEa),
    (.stB128 w, 16, .write, 1, plainEa), (.atom w, 4, .atomic, 1, atomicEa), (.atom64 w, 8, .atomic, 1, atomicEa), (.acas w, 4, .atomic, 1, atomicEa),
    (.acas64 w, 8, .atomic, 1, atomicEa), (.afadd w, 4, .atomic, 1, atomicEa), (.red w, 4, .atomic, 1, atomicEa), (.red64 w, 8, .atomic, 1, atomicEa),
    (.mwatch w, 4, .watch, 2, plainEa)] →
  ins.dev = some v → Issues s v i →
  memTrap (i.doers.map fun t => (t, ea v t, (resolve s (.thread i.team.uid t.tidx) (ea v t) n kind sub).1)) = some tr →
  exec ins s = .next (i.take s tr)) ∧
  ∀ (s : State) (a : Agent) (ea : Addr) (n : Nat) (k : AccKind) (sub : Nat),
  (ea.toNat % n ≠ 0 → (∃ m ∈ (resolve s a ea n k sub).1, m.cause = 8) ∨ ⟨7, sub⟩ ∈ (resolve s a ea n k sub).1) ∧
  (ea.toNat % n = 0 → ∀ m ∈ (resolve s a ea n k sub).1, m.cause ≠ 7) ∧
  (2 ^ 56 ≤ ea.toNat → (a.ctx s).isSome → ⟨0xA, 1⟩ ∈ (resolve s a ea n k sub).1) ∧
  ((resolve s a ea n k sub).1 ≠ [] → (resolve s a ea n k sub).2 = none)

/-- R218 to R221, R25, R29: branches send the co-located threads to their next PCs with the rejoin pairs of R25; BRX stands its threads at the
word until the meeting of their team's partition completes. -/
def Obligations.BranchResults : Prop :=
  (∀ w : Br, Completes (.bra w) (fun _ _ _ => True) (fun _ i s =>
      let target := packetOf i.pc + w.off.signExtend 64 * 16 + 4
      i.depart (i.leave s fun t => if t.tidx ∈ i.acts then some target else none) (decide (i.act ≠ [] ∧ target.toNat ≤ i.pc.toNat))) ∧
    Completes (.brx w) (fun _ _ _ => True) (fun v i s =>
      let target := packetOf i.pc + w.off.signExtend 64 * 16 + 4
      i.bill (((i.upd s i.cos fun t => { t with wait := .brx (guardOf v.pre t) target }).updGroup i.team.uid i.grp.gidx fun g =>
        g.endClause (decide (i.act ≠ [] ∧ target.toNat ≤ i.pc.toNat))).meet i.team.uid))) ∧
  ∀ w : Rrr, Completes (.bri w) (fun _ _ _ => True) (fun v i s =>
      i.depart (i.leave s fun t => if t.tidx ∈ i.acts then some (v.a64 (i.src t) + 4) else none)
        (i.act.any fun t => (v.a64 (i.src t) + 4).toNat ≤ i.pc.toNat))

/-- R25, R30, R31, R219: where a branch sends each co-located thread, and what it pushes. A repack permutes the threads of each lane over that lane's
slots of its groups: each goes to its destination with its registers, marks and home lane, an empty rejoin stack and a place of its own, the threads
of a destination that has received groups into those where they have room. -/
def Obligations.BranchTargets : Prop :=
  (∀ (d : Desc) (gs : List Nat) (ths : List (Addr × Nat × Thread)), gs.Nodup → (∀ x ∈ ths, x.2.2.lane < 16) →
    (∀ l < 16, (ths.filter fun x => x.2.2.lane == l).length ≤ (slotsOf d gs l).length) →
    let new := repack d gs ths
    (new.map fun y => (y.2.lane, y.2.tidx)).Perm (ths.map fun x => (x.2.2.lane, x.2.2.tidx)) ∧
    (new.map fun y => (y.1, y.2.slot, y.2.lane)).Nodup ∧
    (∀ y ∈ new, y.1 ∈ gs ∧ (y.1, y.2.slot) ∈ slotsOf d gs y.2.lane) ∧
    (∀ y ∈ new, ∃ x ∈ ths, y.2.pc = x.1 ∧ y.2.rejoin = [] ∧ y.2.wait = .run ∧
      y.2 = { x.2.2 with slot := y.2.slot, pc := y.2.pc, wait := .run, held := [], rejoin := [], came := y.2.came }) ∧
    ∀ y ∈ new, ∀ p, p ≠ [] →
      (y.2.pc, p) ∈ assignGroups (d.width / 16) (sortBy (fun x => repackRank x.2) ths)
        (sortBy (·.toNat) ((sortBy (fun x => repackRank x.2) ths).foldl (fun acc x => if acc.contains x.1 then acc else x.1 :: acc) [])) gs →
      (ths.filter fun x => x.2.2.lane == y.2.lane && x.1 == y.2.pc).length ≤ (slotsOf d p y.2.lane).length → y.1 ∈ p) ∧
  (∀ (w : Nat) (ths : List (Nat × Thread)), w ≠ 0 → ∀ c, groupsFor w ths ≤ c ↔ ∀ l < 16, (ths.filter fun x => x.2.lane == l).length ≤ c * w) ∧
  ∀ (i : Iss) (s : State) (taken : Thread → Option Addr),
  ∃ pair : Thread → List RejoinPair, i.leave s taken = i.upd { s with seq := s.seq + 1 } i.cos (fun t =>
    { t with pc := (taken t).getD (packetOf i.pc + 20), came := if (taken t).isSome then .landed else .fell, rejoin := pair t ++ t.rejoin }) ∧
    (i.dev.lit = none → ∀ t, pair t = []) ∧ (∀ t, 8 ≤ t.rejoin.length → t ∈ i.co → (∀ u ∈ i.co, u.tidx = t.tidx → u = t) → pair t = []) ∧
    ((∃ d, ∀ t ∈ i.co, (taken t).getD (packetOf i.pc + 20) = d) → ∀ t, pair t = []) ∧
    (∀ l t u, i.dev.lit = some l → t ∈ i.co → u ∈ i.co → t.rejoin.length < 8 → (taken t).getD (packetOf i.pc + 20) ≠ (taken u).getD (packetOf i.pc + 20) →
      pair t = [⟨packetOf i.pc + l.signExtend 64 * 16 + 4, (i.co.filter fun x => x.rejoin.length < 8).map (·.tidx), t.depth, s.seq⟩])

/-- R34 to R36, R39, R222 to R225: calls, returns and changes of frame, when the frames asked for can be had, those that the same FRSZ gives up
counted as free; a frame returned into is brought back where it is away. That a taken call, to a lower address too, is no backward branch to R24 is the
model's choice (log 83). -/
def Obligations.FrameResults : Prop :=
  let room := fun (i : Iss) (s : State) (need : List (Nat × Nat × Nat)) =>
    (∀ r ∈ s.frameReqs, ¬(r.team = i.team.uid ∧ r.gidx = i.grp.gidx)) ∧ s.canGrant i.team.core i.grp.part s.seq need = true
  let resized := fun (v : Dev) (i : Iss) (s : State) => i.finish (i.upd (s.refill i.team.uid i.grp.gidx i.team.core
      ((i.act.filter fun t => t.size < (v.b32 (i.src t)).toNat).map (·.tidx))) i.acts fun t =>
    let n := (v.b32 (i.src t)).toNat
    (t.keepFailed (t.frame.regs.drop n)).updFrame fun f => { f with regs := f.regs.take n ++ List.replicate (n - f.regs.length) {} })
  let grows := fun (v : Dev) (i : Iss) =>
    laneNeeds ((i.act.filter fun t => t.size < (v.b32 (i.src t)).toNat).map fun t => (t.lane, ((v.b32 (i.src t)).toNat - t.size) / 8, 0))
  let gives := fun (v : Dev) (i : Iss) =>
    laneNeeds ((i.act.filter fun t => (v.b32 (i.src t)).toNat < t.size).map fun t => (t.lane, (t.size - (v.b32 (i.src t)).toNat) / 8, 0))
  let calls := fun (ins : Instr) (p : Dev → Iss → State → Prop) (target : Dev → Iss → Thread → Addr) =>
    Completes ins (fun v i s => p v i s ∧ (∀ t ∈ i.act, t.depth ≠ 255) ∧ room i s (laneNeeds (i.act.map fun t => (t.lane, v.d.toNat / 8 + 1, 1)))) fun v i s =>
      i.depart (i.upd s i.cos fun t =>
        if t.tidx ∈ i.acts then
          { t with frames := { regs := ((List.range 8).map fun k => t.reg (v.d.toNat % 8 * 8 + k)) ++ List.replicate (v.d.toNat / 8 * 8) {},
                               ret := packetOf i.pc + 20, link := v.d.toNat % 8 * 8 } :: t.frames,
                   pc := target v i t, came := .landed }
        else { t with pc := packetOf i.pc + 20, came := .fell }) false
  (∀ w : Cf, calls (.call w) (fun _ _ _ => True) (fun v i _ => packetOf i.pc + v.lw.signExtend 64 * 16 + 4) ∧
    calls (.calli w) (fun _ _ _ => True) (fun v i t => v.a64 (i.src t) + 4)) ∧
  ∀ w : Rrr,
    (∀ (i : Iss) (s : State), (∀ gr, s.group? i.team.uid i.grp.gidx = some gr → ∀ t ∈ gr.threads, t.tidx ∈ i.acts → t.frame.place = .bank) →
      i.bringBack s = s) ∧
    Completes (.ret w) (fun _ i _ => ∀ t ∈ i.act, t.depth ≠ 0) (fun _ i s =>
      i.depart (i.bringBack <| (i.upd s i.cos fun t => if t.tidx ∈ i.acts then { (t.popTo (t.depth - 1) true) with pc := t.retTo (t.depth - 1), came := .landed }
        else { t with pc := packetOf i.pc + 20, came := .fell }).updGroup i.team.uid i.grp.gidx fun g => g.dropPairs (i.act.map fun t => (t.tidx, t.depth - 1)))
        false) ∧
    Completes (.unwind w) (fun v i _ => ∀ t ∈ i.act, (v.b32 (i.src t)).toNat < t.depth) (fun v i s =>
      i.depart (i.bringBack <| (i.upd s i.cos fun t => if t.tidx ∈ i.acts then
          { (t.popTo (v.b32 (i.src t)).toNat true) with pc := t.retTo (v.b32 (i.src t)).toNat, came := .landed }
        else { t with pc := packetOf i.pc + 20, came := .fell }).updGroup i.team.uid i.grp.gidx fun g =>
          g.dropPairs (i.act.map fun t => (t.tidx, (v.b32 (i.src t)).toNat))) false) ∧
    Completes (.frsz w) (fun v i s => (∀ t ∈ i.act, (v.b32 (i.src t)).toNat % 8 = 0 ∧ 8 ≤ (v.b32 (i.src t)).toNat ∧ (v.b32 (i.src t)).toNat ≤ 64) ∧
        room i s (grows v i)) (fun v i s => resized v i s) ∧
    Completes (.frsz w) (fun v i s => (∀ t ∈ i.act, (v.b32 (i.src t)).toNat % 8 = 0 ∧ 8 ≤ (v.b32 (i.src t)).toNat ∧ (v.b32 (i.src t)).toNat ≤ 64) ∧
        grows v i ≠ [] ∧ (∀ r ∈ s.frameReqs, ¬(r.team = i.team.uid ∧ r.gidx = i.grp.gidx)) ∧
        (s.askFrames i.team.uid i.grp.gidx i.team.core i.grp.part .frsz [] (grows v i) (gives v i)).canGrant i.team.core i.grp.part s.seq (grows v i) = true)
      (fun v i s => resized v i s)

/-- R35, R222, R223: a frame that CALL makes and RET gives back: the link granule takes v0 to v7 with their marks, and nothing else of the
caller's frame changes. -/
def Obligations.CallReturn : Prop := ∀ (t : Thread) (n g k : Nat) (ret target : Addr), t.frames ≠ [] → g + 8 ≤ t.size →
  let c := t.call n g ret target
  c.depth = t.depth + 1 ∧ c.retTo t.depth = ret ∧ (∀ k < 8, c.reg k = t.reg (g + k)) ∧ (8 ≤ k → k < n → c.reg k = {}) ∧
  (c.popTo t.depth true).frames = t.frames ∧
  ∀ (f : Frame) (rest : List Frame), c.frames = f :: rest → ∀ regs : List Reg, regs.length = f.regs.length → 8 ≤ regs.length →
    let d := ({ c with frames := { f with regs := regs } :: rest } : Thread).popTo t.depth true
    d.depth = t.depth ∧ d.size = t.size ∧ (∀ j < 8, d.reg (g + j) = regs.getD j {}) ∧ (∀ j, (j < g ∨ g + 8 ≤ j) → d.reg j = t.reg j)

/-- R226 to R228: leaving and pausing. -/
def Obligations.PauseResults : Prop := ∀ w : Rrr,
  Completes (.exit w) (fun _ _ _ => True) (fun _ i s =>
    i.depart (((i.upd s i.cos fun t => { t with pc := packetOf i.pc + 20, came := .fell }).updGroup i.team.uid i.grp.gidx fun g => g.endClause false).exitThreads
      i.team.uid i.grp.gidx i.acts) false) ∧
  Completes (.yield w) (fun _ _ _ => True) (fun _ i s => i.depart (i.upd s i.cos fun t => { t with pc := packetOf i.pc + 20, came := .fell }) true) ∧
  Completes (.sleep w) (fun v i s => (∀ t ∈ i.act, (match t.wait with
      | .slept => True
      | .sleep u => u ≤ s.time
      | _ => v.b32 (i.src t) = 0))) (fun _ i s => i.changed s fun _ t => { t with wait := .run }) ∧
  (∀ s v i, Instr.dev (.sleep w) = some v → Issues s v i → i.act ≠ [] → (∀ t ∈ i.act, t.wait = .run ∧ v.b32 (i.src t) ≠ 0) →
    exec (.sleep w) s = .next (i.await (i.upd s i.acts fun t =>
      { t with wait := .sleep (s.time + (i.act.map fun t => (v.b32 (i.src t)).toNat).foldl max 0) })))

/-- R229 to R231: barriers. An arrival is made in lane order; BARW and BAR go on once the phase awaited is over; GSYNC once every thread
stands there. One arrival counts, and the phase completes with the arrival that makes the count the expected one, or, where none is expected, that leaves
no thread of the team out. -/
def Obligations.BarrierResults : Prop :=
  (∀ (t : Team) (g x i c : Nat),
    let b := t.bar i
    let expected := if b.arr = 0 then c else b.exp
    let over_ := (0 < expected ∧ b.arr + 1 = expected) ∨ (expected = 0 ∧ ∀ gr ∈ t.groups, ∀ th ∈ gr.threads, th.exited = false →
      (gr.gidx = g ∧ th.tidx = x) ∨ tget th.arrivals i = some b.ph)
    let t' := t.arrive g x i c
    (over_ → (t'.bar i).ph = (b.ph + 1) % 2 ^ 32 ∧ (t'.bar i).arr = 0) ∧
    (¬over_ → (t'.bar i).ph = b.ph ∧ (t'.bar i).arr = b.arr + 1 ∧ (t'.bar i).exp = expected) ∧
    (∀ j, j ≠ i → t'.bar j = t.bar j) ∧
    (∀ gr, t.group? g = some gr → ∀ th ∈ gr.threads, th.tidx = x → ∃ gr', t'.group? g = some gr' ∧ ∃ th' ∈ gr'.threads, th'.tidx = x ∧ tget th'.arrivals i = some b.ph)) ∧
  ∀ w : Rrr,
  let counts := fun (v : Dev) (i : Iss) (ts : List Thread) => ts.map fun t => (t.tidx, (v.b32 (i.src t)).toNat)
  let fine := fun (v : Dev) (i : Iss) (ts : List Thread) => (∀ t ∈ ts, (v.b32 (i.src t)).toNat ≤ 2048) ∧
    arriveConflict i.grp.gidx (v.d.toNat % 16) i.team (counts v i ts) = false
  let arrive := fun (v : Dev) (i : Iss) (ts : List Thread) (s : State) =>
    (s.updTeam i.team.uid fun t => (counts v i ts).foldl (fun t p => t.arrive i.grp.gidx p.1 (v.d.toNat % 16) p.2) t).meet i.team.uid
  let passed := fun (v : Dev) (i : Iss) (s : State) => ∃ t, s.team? i.team.uid = some t ∧ ∀ th ∈ t.threads, th.tidx ∈ i.acts →
    ∃ ph, ph ≠ (t.bar (v.d.toNat % 16)).ph ∧
      (th.wait = .bar (v.d.toNat % 16) ph ∨ ((∀ b p, th.wait ≠ .bar b p) ∧ tget th.arrivals (v.d.toNat % 16) = some ph))
  let heard := fun (v : Dev) (i : Iss) (s : State) => ((s.team? i.team.uid).map fun t => (t.bar (v.d.toNat % 16)).heard).getD 0
  let goOn := fun (v : Dev) (i : Iss) (s : State) => i.finish (i.upd s i.acts fun th =>
    { th with wait := .run, arrivals := tdel th.arrivals (v.d.toNat % 16), pts := max th.pts (heard v i s) })
  let fresh := fun (i : Iss) => i.act.filter fun t => match t.wait with | .bar _ _ => false | _ => true
  Completes (.bara w) (fun v i _ => fine v i i.act) (fun v i s => i.finish (arrive v i i.act s)) ∧
  Completes (.barw w) passed goOn ∧
  Completes (.bar w) (fun v i s => fine v i (fresh i) ∧ passed v i (arrive v i (fresh i) s)) (fun v i s => goOn v i (arrive v i (fresh i) s)) ∧
  Completes (.gsync w) (fun v i s => ∀ t ∈ i.nowActs (i.standAt s (.gsync (v.b.getLsbD 0))), t.wait = .passed)
    (fun v i s => i.finish (i.upd (i.standAt s (.gsync (v.b.getLsbD 0))) i.acts fun t => { t with wait := .run }))

/-- R28, R39, R360, R361, R379: what holds a device word up, in order, whatever the word: PACKET, then another word-level cause traps and nothing
else is done; a frame that is out of the bank waits for its refill; a pending register or a full flag waits; a UCHK difference traps, and then a
failed destination, unless the word's own effect meets a cause that ranks before it. What waits for what is the model's choice (log 17): a branch that
reads its target, and a word whose operand is tested for ILLEG, wait for the register first. That the trap of a failed destination clears the failed
marks of its cause, so that a retry reads the old value, is the model's reading (log 8). -/
def Obligations.IssueOrder : Prop := ∀ (ins : Instr) (v : Dev) (s : State) (i : Iss), ins.dev = some v → issueOf s v = some i →
  let early := (v.op = 0xB2 ∨ v.op = 0xB4 ∨ testsOperand v.op.toNat = true) ∧ i.mustWait = true
  let outranked := fun (tr : Trap) => ∃ (s' : State) (tr' : Trap), causeRank tr'.cause < causeRank tr.cause ∧ exec ins s = .next (i.take s' tr')
  (early → exec ins s = .next (i.stall s)) ∧
  (¬early → (∀ tr, i.packetTrap s = some tr → exec ins s = .next (i.take s tr)) ∧
    (i.packetTrap s = none → (∀ tr, i.wordTrap s = some tr → exec ins s = .next (i.take s tr)) ∧
      (i.wordTrap s = none → (i.away s ≠ [] → exec ins s = .next (i.stall (i.fetchFrames s (i.away s)))) ∧
        (i.away s = [] → (i.mustWait = true ∨ i.flagFull = true → exec ins s = .next (i.stall s)) ∧
          (i.mustWait = false → i.flagFull = false →
            (∀ tr, i.uniformHits = some tr → exec ins s = .next (i.take s tr) ∨ outranked tr) ∧
            (i.uniformHits = none → ∀ tr, i.failed = some tr →
              let forget := fun (s : State) => (i.failedRegs.filter fun x => (x.2.failure.map (·.2.1)) == some tr.cause).foldl
                (fun s x => i.upd s [x.1.tidx] fun th => th.forgive x.2.failedOf.toList) s
              exec ins s = .next (i.take (forget s) tr) ∨ outranked tr ∨
              (∃ (s' : State) (tr' : Trap), tr'.cause = tr.cause ∧ exec ins s = .next (i.take (forget s')
                { tr with hits := tr.hits ++ tr'.hits.filter fun h => !tr.hits.any (·.tidx == h.tidx) })) ∨
              (causeRank 9 ≤ causeRank tr.cause ∧ ∃ s', s'.walking i.team.uid i.grp.gidx = true ∧ exec ins s = .next (i.await s'))))))))

/-- R361, R379 to R385: the word-level causes in their order, each with its SELF and TRAPV: ILLEG by the word, LITMISS, ILLEG by an operand, BADREG.
That a header which cannot be read raises no PACKET at a branch or an RTE is the model's choice (log 69), and so is BADREG for a word whose operand
lies past the frame (log 6). -/
def Obligations.WordCauses : Prop := ∀ (i : Iss) (s : State),
  (∀ sub, i.illeg = some sub → i.wordTrap s = some { cause := 1, sub := sub, hits :=
    (if sub = 0xB then (i.co.filter fun t => t.rejoin ≠ []).map (·.tidx) else i.cos).map fun x => ⟨x, sub, i.word.setWidth 64⟩ }) ∧
  (i.illeg = none → i.dev.spec.litMissing = true → i.wordTrap s = some { cause := 2, sub := 0, hits := i.cos.map fun x => ⟨x, 0, i.word.setWidth 64⟩ }) ∧
  (i.illeg = none → i.dev.spec.litMissing = false →
    (i.readable = true ∨ i.dev.op = 0xFA → ∀ sub who, i.operIlleg s = some (sub, who) →
      i.wordTrap s = some { cause := 1, sub := sub, hits := who.map fun x => ⟨x, sub, i.word.setWidth 64⟩ }) ∧
    ((i.readable = false ∧ i.dev.op ≠ 0xFA) ∨ i.operIlleg s = none →
      (∀ tr, i.wordTrap s = some tr → tr.cause = 3 ∧ (∀ h ∈ tr.hits, h.val = i.word.setWidth 64 ∧
        ∃ t ∈ i.co, t.tidx = h.tidx ∧ i.dev.badReg t.size = some h.sub) ∧ ∀ t ∈ i.co, ∀ sub, i.dev.badReg t.size = some sub → ⟨t.tidx, sub, i.word.setWidth 64⟩ ∈ tr.hits) ∧
      (i.wordTrap s = none ↔ ∀ t ∈ i.co, i.dev.badReg t.size = none))) ∧
  (∀ l, i.lead = some l → let b := i.dev.b32 l
    (i.dev.op = 0xC0 → i.operIlleg s = if bits b 11 0 < 1 ∨ 2048 < bits b 11 0 ∨ bits b 15 12 ≠ 0 ∨ i.team.groups.length ≤ bits b 31 16 then some (8, [l.tidx]) else none) ∧
    (∀ c, i.dev.op = 0xF1 → s.ctx? i.team.ctx = some c → i.operIlleg s = if c.cn ≤ bits b 11 0 then some (8, [l.tidx]) else none) ∧
    (i.dev.op = 0xFA → i.operIlleg s = if (s.column (columnOfCore i.team.core)).ring = none then some (0xA, i.cos) else none) ∧
    (i.dev.op = 0xBC → (∃ t ∈ i.act, 2048 < (i.dev.b32 (i.src t)).toNat) → i.operIlleg s = some (8, i.cos)) ∧
    (i.dev.op = 0xF5 → (i.operIlleg s = none ↔ bits b 23 16 = 0 ∧ bits b 15 0 ∈ [0, 1, 0x10, 0x11, 0x12, 0x13, 0x20, 0x21, 0x22, 0x23, 0x30, 0x31, 0x32, 0x40, 0x41, 0x42] ∨
      bits b 23 16 = 1 ∧ bits b 15 0 ∈ [0x10, 0x11, 0x12, 0x13]))) ∧
  (i.act = [] → i.operIlleg s = none) ∧
  (unassigned i.dev.op.toNat = true → i.illeg = some 1) ∧
  (i.dev.op = 0x00 → i.wordTrap s = none) ∧
  (i.dev.op.toNat ∉ [0xB0, 0xB2, 0xB4, 0xF7] → i.packetTrap s = none) ∧
  (i.dev.op = 0xB0 → (i.packetTrap s = none ↔ ∀ l h, i.dev.lit = some l → i.headerAt s (i.offPc l) = some h → h.getLsbD 11 = true)) ∧
  (i.dev.op = 0xB4 → (i.packetTrap s = none ↔ ∀ t ∈ i.co, (i.dev.a64 (i.src t)).toNat % 16 = 0)) ∧
  (i.dev.op = 0xB2 → (i.packetTrap s = none ↔ (∀ l h, i.dev.lit = some l → i.headerAt s (i.offPc l) = some h → h.getLsbD 11 = true) ∧
    ∀ t ∈ i.co, (i.dev.a64 (i.src t)).toNat % 16 = 0)) ∧
  (i.dev.op = 0xB0 ∨ i.dev.op = 0xB2 → ∀ l h, i.dev.lit = some l → i.headerAt s (i.offPc l) = some h → h.getLsbD 11 = false →
    i.packetTrap s = some { cause := 5, sub := 9, hits := i.cos.map fun x => ⟨x, 9, h.setWidth 64⟩ }) ∧
  (i.dev.op = 0xF7 → (∀ t ∈ i.co, t.handler = true) → (i.packetTrap s = none ↔ ∀ t ∈ i.co, i.badResume s (i.resumeAt s t) = false))

/-- R376 to R378, R381: TRAP, BKPT, RTE and GTR, and the unassigned opcodes, which raise ILLEG with SUB 0x01 in every thread of the set. That a BKPT
with HANDLER 0 ends its clause, and that its threads go on after it, is the model's choice (log 56). -/
def Obligations.TrapResults : Prop :=
  ((∀ w : Ri, Completes (.trap w) (fun _ i _ => i.act ≠ []) (fun v i s => i.take s { cause := 0x12, sub := 0, hits := i.act.map fun t =>
      ⟨t.tidx, 0, (v.d32 (i.src t)).setWidth 64 * 0x100000000#64 + BitVec.ofNat 64 w.imm.toNat⟩ }) ∧
    Completes (.trap w) (fun _ i _ => i.act = []) (fun _ i s => i.finish s)) ∧
  ∀ w : Rrr,
    Completes (.bkpt w) (fun _ i _ => i.desc.handler ≠ 0 ∨ ∃ t ∈ i.co, t.handler = true) (fun _ i s => i.take s (trapOf 0x13 0 i.cos 0)) ∧
    Completes (.bkpt w) (fun _ i _ => i.desc.handler = 0 ∧ ∀ t ∈ i.co, t.handler = false) (fun _ i s =>
      i.depart (i.upd (s.takeSync i.team.uid i.grp.gidx i.cos i.pc (trapOf 0x13 0 i.cos 0)) i.cos fun th =>
        { th with pc := i.afterWord s i.pc, came := .resumed }) false) ∧
    Completes (.rte w) (fun v _ _ => v.b.toNat % 4 ≤ 1)
      (fun v i s => i.depart (i.upd s i.cos fun t =>
        if t.tidx ∈ i.acts then t.rte (if v.b.toNat % 4 = 1 then i.afterWord s t.trapa else t.trapa) else { t with pc := packetOf i.pc + 20, came := .fell }) false) ∧
    Completes (.rte w) (fun v i _ => v.b.toNat % 4 = 2 ∧ ∀ t ∈ i.act, (v.a32 (i.src t)).toNat < t.depth)
      (fun v i s => i.depart (i.bringBack <| (i.upd s i.cos fun t =>
        if t.tidx ∈ i.acts then (t.popTo (v.a32 (i.src t)).toNat false).rte t.trapa else { t with pc := packetOf i.pc + 20, came := .fell }).updGroup
          i.team.uid i.grp.gidx fun g => g.dropPairs (i.act.map fun t => (t.tidx, (v.a32 (i.src t)).toNat))) false) ∧
    Completes (.gtr w) (fun _ i _ => i.act = []) (fun _ i s => i.finish s) ∧
    (∀ l : Thread, Completes (.gtr w) (fun v i _ => i.lead = some l ∧ v.d.toNat % 4 = 0) (fun v i s =>
      i.finish (s.raise i.team.uid 0x12 fun a => { a with user := some ((v.b32 l).setWidth 64), since := s.tick }))) ∧
    ∀ l : Thread, Completes (.gtr w) (fun v i _ => i.lead = some l ∧ v.d.toNat % 4 = 1) (fun v i s =>
      i.finish ((s.teams.filter (·.cluster == i.team.cluster)).foldl (fun s u => s.raise u.uid 0x12 fun a =>
        { a with user := some ((v.b32 l).setWidth 64), since := s.tick }) s))) ∧
  ∀ (op : BitVec 8) (w : Rrr) (s : State) (i : Iss), unassigned op.toNat = true →
  issueOf s (w.dev op) = some i → exec (.unassignedOpcode op w) s = .next (i.take s { cause := 1, sub := 1, hits := i.cos.map fun x => ⟨x, 1, i.word.setWidth 64⟩ })

/-- R360, R364, R365, R377: entering the handler, and leaving it by RTE, which restores p0 to p6 from PSAV and keeps frames and the trap record. The set's threads receive their records and stand at slot 1 of the packet at HANDLER; frames, predicates,
rejoin stacks and every other thread stay as they were; what the set does from then on stands after the accesses that its group has made (R360); the clause of a set that waits in place while another is trapped is kept (R363), and the
clause in hand goes on where it is that kept set which is trapped. -/
def Obligations.TrapEntry : Prop :=
  (∀ (s : State) (u g : Nat) (set : List Nat) (pc : Addr) (tr : Trap) (t : Team) (gr : Group),
  s.team? u = some t → t.group? g = some gr → t.killed = false → t.desc.handler ≠ 0 → (∀ th ∈ gr.threads, th.tidx ∈ set → th.handler = false) →
  tr.chn < 8 → tr.cause < 256 → tr.sub < 256 → (∀ h ∈ tr.hits, h.sub < 256) →
  ∃ f : Group → Thread → Thread,
    s.takeSync u g set pc tr = s.updGroup u g (fun gr => if ∃ c, gr.kept = some c ∧ ∃ x ∈ c.set, x ∈ set then { gr with threads := gr.threads.map (f gr), kept := none }
      else { gr with clause := none, stalled := false, threads := gr.threads.map (f gr), kept := match gr.clause with
        | some c => if ∃ x ∈ c.set, x ∈ set then gr.kept else some c
        | none => gr.kept }) ∧
    ∀ (gr : Group) (th : Thread), (th.tidx ∉ set → f gr th = th) ∧
      (th.tidx ∈ set →
        (f gr th).pc = t.desc.handler + 4 ∧ (f gr th).handler = true ∧ (f gr th).trapa = pc ∧ (f gr th).frames = th.frames ∧ (f gr th).preds = th.preds ∧
        (f gr th).rejoin = th.rejoin ∧ (∀ x ∈ gr.threads, x.pts ≤ (f gr th).pts) ∧
        (∀ h, tr.hits.find? (·.tidx == th.tidx) = some h →
          (f gr th).trapc.toNat = th.preds.toNat * 2 ^ 24 + tr.chn * 2 ^ 20 + 2 ^ 16 + h.sub * 2 ^ 8 + tr.cause ∧ (f gr th).trapv = h.val) ∧
        (tr.hits.find? (·.tidx == th.tidx) = none → (f gr th).trapc.toNat = th.preds.toNat * 2 ^ 24 + tr.chn * 2 ^ 20 + tr.sub * 2 ^ 8 + tr.cause))) ∧
  ∀ (th : Thread) (pc : Addr),
  (th.rte pc).preds = th.trapc.extractLsb' 24 7 ∧ (th.rte pc).handler = false ∧ (th.rte pc).pc = pc ∧ (th.rte pc).frames = th.frames ∧
  (th.rte pc).trapc = th.trapc ∧ (th.rte pc).trapa = th.trapa ∧ (th.rte pc).trapv = th.trapv ∧
  ∀ (tc : Word) (h : Addr) (tr : Addr) (preds : BitVec 7) (chn sub cause : Nat) (a b : Bool), chn < 8 → sub < 256 → cause < 256 →
    tc = trapcWord preds chn a b sub cause → ((th.enter tc pc tr h).rte pc).preds = preds

/-- R366, R367, R420: a synchronous trap in handler state, or with HANDLER 0, posts one entry and kills the team; BKPT with HANDLER 0 stops the
context; in a team that was killed it posts nothing, and the group ends. -/
def Obligations.TrapKills : Prop := ∀ (s : State) (u g : Nat) (set : List Nat) (pc : Addr) (tr : Trap) (t : Team) (gr : Group),
  s.team? u = some t → t.group? g = some gr →
  (t.killed = true → s.takeSync u g set pc tr = s.endGroup u g) ∧
  (t.killed = false → ((∃ th ∈ gr.threads, th.tidx ∈ set ∧ th.handler = true) → ∃ e : Entry, e.cause = tr.cause ∧ e.src = 1 ∧ e.pc = pc ∧ e.slice = t.slice ∧ e.core = t.core ∧
    s.takeSync u g set pc tr = (s.post t.ctx (columnOfCore t.core) e).kill u [g]) ∧
  ((∀ th ∈ gr.threads, th.tidx ∈ set → th.handler = false) → t.desc.handler = 0 →
    (tr.cause ≠ 0x13 → ∃ e : Entry, e.cause = tr.cause ∧ e.src = 0 ∧ e.pc = pc ∧ e.slice = t.slice ∧ e.core = t.core ∧
      s.takeSync u g set pc tr = (s.post t.ctx (columnOfCore t.core) e).kill u [g]) ∧
    (tr.cause = 0x13 → ∃ e : Entry, e.cause = 0x13 ∧ e.src = 3 ∧ e.pc = pc ∧ s.takeSync u g set pc tr = (s.post t.ctx (columnOfCore t.core) e).bkptStop t.ctx)))

/-- R18, R33, R48, R51, R79, R92, R115, R226, R276, R281, R312, R313, R368, R420: what an exit, a retirement, a kill, an admission and a swap do. Threads that
leave give up their frames, pairs, watch and waits, pass their operations to their team and drop their loads; a killed team's groups end at once where
they wait; a new team stands as R18 and R33 say, its units zero and its tiles EMPTY; a team that leaves its core takes its units, tiles, accumulators and
threads to its save area and brings them back. Where a save area lies is the model's own (log 20). -/
def Obligations.LeaveResults : Prop :=
  (∀ (s : State) (u g : Nat) (ts : List Nat) (t : Team) (gr : Group), s.team? u = some t → t.group? g = some gr →
    (t.groups.map (·.gidx)).Nodup → (gr.threads.map (·.tidx)).Nodup →
    let r := s.exitThreads u g ts
    (∀ t', r.team? u = some t' → ∃ gr', t'.group? g = some gr' ∧
      (∀ th ∈ gr.threads, th.tidx ∈ ts → ∃ th' ∈ gr'.threads, th'.tidx = th.tidx ∧ th'.exited = true ∧ th'.frames = [] ∧ th'.rejoin = [] ∧ th'.watch = none ∧
        th'.wait = .run ∧ th'.held = [] ∧ th'.handler = false ∧ th'.resume = none ∧ th'.failedMerge = [] ∧ th'.lost = []) ∧
      ∀ th' ∈ gr'.threads, ∀ p ∈ th'.rejoin, ∀ m ∈ p.mask, m ∉ ts) ∧
    (∀ o ∈ r.ops, o.oteam = u → o.own = .thread → o.otid ∉ ts) ∧ ∀ l ∈ r.loads, l.team = u → ∀ x ∈ l.tidxs, x ∉ ts) ∧
  (∀ (s : State) (u : Nat) (ts : List Nat) (l : Load) (f : Nat), s.loads = [l] → l.team = u → l.reader = none → l.tidxs ≠ [] → (∀ x ∈ l.tidxs, x ∈ ts) →
    l.flag = some f → s.dropLoads u ts = ({ s with loads := [] } : State).flagDown u l.gidx f) ∧
  (∀ (s : State) (cl : Nat),
    let members := s.teams.filter (·.cluster == cl)
    let r := s.retire cl
    (members = [] ∨ (∃ t ∈ members, t.retired = true ∨ ∃ g ∈ t.groups, ∃ th ∈ g.threads, th.exited = false) → r = s) ∧
    (members ≠ [] → (∀ t ∈ members, t.retired = false ∧ ∀ g ∈ t.groups, ∀ th ∈ g.threads, th.exited = true) → (s.ops.map (·.uid)).Nodup → (s.teams.map (·.uid)).Nodup →
      let theirs := fun (o : Op) => o.own = .team ∧ o.kind ≠ .queue ∧ ∃ t ∈ members, t.uid = o.oteam
      (∀ t ∈ r.teams, t.cluster = cl → t.retired = true ∧ t.mres = none ∧ t.given = []) ∧
      (∀ o ∈ s.ops, theirs o → (o.st.final = true → r.op? o.uid = none) ∧
        (o.st.final = false → r.op? o.uid = some { o with own := .orphan })) ∧
      (∀ o ∈ s.ops, ¬theirs o → r.op? o.uid = some o) ∧
      ∀ t ∈ members, ∀ x, (∀ m ∈ members, m.ctx = t.ctx ∧ m.slice = t.slice) → s.slice? t.ctx t.slice = some x →
        ∀ y, r.slice? t.ctx t.slice = some y → y.left = x.left - members.length)) ∧
  (∀ (s : State) (u : Nat) (now : List Nat) (t : Team), s.team? u = some t → (s.teams.map (·.uid)).Nodup →
    (∀ m ∈ s.teams, m.cluster = t.cluster → (m.groups.map (·.gidx)).Nodup ∧ ∀ g ∈ m.groups, ∀ th ∈ g.threads, th.atBrx = false) →
    let r := s.kill u now
    (∀ m ∈ r.teams, m.cluster = t.cluster → m.killed = true ∧ m.mres = none ∧ m.given = []) ∧
    ∀ m ∈ s.teams, m.cluster = t.cluster → ∀ m', r.team? m.uid = some m' → ∀ g ∈ m.groups, ∃ g', m'.group? g.gidx = some g' ∧
      g'.threads.map (·.tidx) = g.threads.map (·.tidx) ∧
      (g.atRest = true ∨ (m.uid = u ∧ g.gidx ∈ now) → (∀ th ∈ g'.threads, th.exited = true) ∧ g'.clause = none ∧ g'.kept = none) ∧
      (g.atRest = false → ¬(m.uid = u ∧ g.gidx ∈ now) → g'.clause = g.clause ∧ g'.threads.map (·.exited) = g.threads.map (·.exited))) ∧
  (∀ (s : State) (x : Slice) (index core cluster rank : Nat) (p : Place4), (∀ t ∈ s.teams, t.uid ≠ s.seq) → 0 < x.desc.width →
    s.roomFor core (newTeam x s.seq index core cluster rank) x.desc = some p →
    let r := s.admitOne x index core cluster rank
    (∃ t, r.team? s.seq = some t ∧ t.core = core ∧ t.cluster = cluster ∧ t.rank = rank ∧ t.index = index ∧ t.ctx = x.ctx ∧ t.slice = x.id ∧ t.desc = x.desc ∧
      t.slot = p.slot ∧ t.units = p.units ∧ t.tileBase = p.tileBase ∧ t.swapped = false ∧ t.retired = false ∧ t.killed = false ∧ t.resv = none ∧
      ∀ g ∈ t.groups, g.flags = List.replicate 12 0 ∧ g.clause = none ∧ g.part = p.parts.getD (g.gidx % x.desc.spread) 0) ∧
    (∀ k < x.desc.tsize, r.thread? s.seq (k / x.desc.width) k = some {
      tidx := k, lane := k % x.desc.width % 16, slot := k % x.desc.width / 16, pc := x.desc.entry + 4, frames := [{ regs := List.replicate x.desc.frame {} }],
      pts := s.tick, sync := s.tick }) ∧
    (∀ k < x.desc.tiles, r.tile core (p.tileBase + k) = {}) ∧ (∀ k, ¬(p.tileBase ≤ k ∧ k < p.tileBase + x.desc.tiles) → k < 64 → r.tile core k = s.tile core k) ∧
    ∀ a, Memory.get r.mem a = if ∃ n ∈ p.units, locSram core (n * 65536) ≤ a ∧ a < locSram core (n * 65536) + 65536 then 0 else Memory.get s.mem a) ∧
  (∀ (s : State) (t : Team) (evict : Bool), s.team? t.uid = some t → s.Good → t.core < 192 → t.uid < 2 ^ 38 → t.units.Nodup → t.units.length ≤ 24 → (∀ n ∈ t.units, n < 24) →
    (∀ k < 24 * 65536, Memory.get s.mem (savedLoc t.uid k) = 0) → t.desc.tiles ≤ 64 → (s.tiles.map (·.1)).Nodup → (s.accs.map (·.1)).Nodup →
    (∀ k < 64, tget s.tiles (savedCore t.uid * 64 + k) = none) → (∀ k < 512, tget s.accs (savedCore t.uid * 512 + k) = none) →
    (t.groups.map (·.gidx)).Nodup → (∀ g ∈ t.groups, (g.threads.map (·.tidx)).Nodup) → (∀ g ∈ t.groups, ∀ th ∈ g.threads, th.standsAt (.slyldDone false) = false) →
    let r := s.moveOut t evict
    (∀ k off, ∀ n, t.units[k]? = some n → off < 65536 → Memory.get r.mem (savedLoc t.uid (k * 65536 + off)) = Memory.get s.mem (locSram t.core (n * 65536 + off)) ∧
      Memory.get r.mem (locSram t.core (n * 65536 + off)) = 0) ∧
    (∀ a < 2 ^ 61, (∀ n ∈ t.units, ¬(locSram t.core (n * 65536) ≤ a ∧ a < locSram t.core (n * 65536) + 65536)) → Memory.get r.mem a = Memory.get s.mem a) ∧
    (∀ k < t.desc.tiles, r.tile (savedCore t.uid) k = s.tile t.core (t.tileBase + k)) ∧
    (∀ v, t.resv = some v → v.count ≤ 512 → ∀ k < v.count, r.acc (savedCore t.uid) k = s.acc t.core (v.base + k)) ∧
    ∃ t', r.team? t.uid = some t' ∧ t'.swapped = true ∧ t'.evicted = evict ∧ t'.groups.map (fun g => { g with threads := [] }) = t.groups.map (fun g => { g with threads := [] }) ∧
      ∀ g x th, s.thread? t.uid g x = some th → ∃ th', r.thread? t.uid g x = some th' ∧ ({ th' with watch := th.watch } : Thread) = th ∧
        (th'.watch = none ↔ th.watch = none)) ∧
  (∀ (s : State) (t : Team) (core : Nat) (p : Place4), s.team? t.uid = some t → s.Good → core < 192 → t.uid < 2 ^ 38 → s.roomFor core t t.desc = some p →
    t.throttleMask = 0 → t.async.first = none → (s.tiles.map (·.1)).Nodup → (s.accs.map (·.1)).Nodup → (t.groups.map (·.gidx)).Nodup →
    (∀ g ∈ t.groups, (g.threads.map (·.tidx)).Nodup) →
    let r := s.moveIn t core
    (∀ k off, ∀ n, p.units[k]? = some n → off < 65536 → Memory.get r.mem (locSram core (n * 65536 + off)) = Memory.get s.mem (savedLoc t.uid (k * 65536 + off))) ∧
    (∀ a < 2 ^ 61, (∀ n ∈ p.units, ¬(locSram core (n * 65536) ≤ a ∧ a < locSram core (n * 65536) + 65536)) → Memory.get r.mem a = Memory.get s.mem a) ∧
    (∀ k < t.desc.tiles, r.tile core (p.tileBase + k) = s.tile (savedCore t.uid) k) ∧
    (∀ v, t.resv = some v → v.count ≤ 512 → ∀ k < v.count, r.acc core (p.base + k) = s.acc (savedCore t.uid) k) ∧
    ∃ t', r.team? t.uid = some t' ∧ t'.swapped = false ∧ t'.core = core ∧ t'.slot = p.slot ∧ t'.units = p.units ∧ t'.tileBase = p.tileBase ∧
      t'.resv = t.resv.map (fun v => { v with base := p.base }) ∧ t'.bars = t.bars ∧ t'.kregs = t.kregs ∧
      ∀ g x th, s.thread? t.uid g x = some th → ∃ th', r.thread? t.uid g x = some th' ∧ ({ th' with watch := th.watch } : Thread) = th ∧
        (th'.watch = none ↔ th.watch = none)) ∧
  ∀ (i : Iss) (s : State) (w : Wait), i.standAt s w = (i.upd s i.acts fun t => if t.wait = .passed then t else { t with wait := w }).meet i.team.uid

/-- R378, R362: asynchronous traps are taken in the order USER, BUDGET, ENERGY, THROTTLE, one at a time; a later one of a cause replaces TRAPV. -/
def Obligations.AsyncOrder : Prop := ∀ (a : Async),
  (∀ v, a.user = some v → a.first = some (0x12, v) ∧ a.rest = { a with user := none }) ∧
  (∀ v, a.user = none → a.budget = some v → a.first = some (0x10, v) ∧ a.rest = { a with budget := none }) ∧
  (∀ v, a.user = none → a.budget = none → a.energy = some v → a.first = some (0x15, v) ∧ a.rest = { a with energy := none }) ∧
  (∀ v, a.user = none → a.budget = none → a.energy = none → a.throttle = some v → a.first = some (0x11, v) ∧ a.rest = { a with throttle := none }) ∧
  (a.first = none → a = { since := a.since }) ∧
  ∀ (s : State) (u cause : Nat) (f : Async → Async) (t : Team), s.team? u = some t → t.live ≠ [] → t.killed = false → t.desc.handler ≠ 0 →
    ∃ t', (s.raise u cause f).team? u = some t' ∧ t' = { t with async := f t.async } ∧
      (∀ v w, t.async.user = some v → f t.async = { t.async with user := some w, since := s.tick } → t'.async.first = some (0x12, w)) ∧
      (∀ v w, t.async.user = none → t.async.budget = some v → f t.async = { t.async with budget := some w } → t'.async.first = some (0x10, w)) ∧
      (∀ v w, t.async.user = none → t.async.budget = none → t.async.energy = some v → f t.async = { t.async with energy := some w } →
        t'.async.first = some (0x15, w)) ∧
      ∀ v w, t.async.user = none → t.async.budget = none → t.async.energy = none → t.async.throttle = some v → f t.async = { t.async with throttle := some w } →
        t'.async.first = some (0x11, w)

/-- R150, R175, R24, R26, R124, R127, R310: an instruction of 0x00 to 0x8B that answers a next state writes only the destination registers its encoding
names, for active threads only, and the predicates and the trap record only where it says so. The slice of its team is charged its cycles and energy,
unless it issues in a handler, and no other slice changes; every other group stays as it was. The co-located set goes past the word in its clause, or
the clause ends there, and only then, and only in this group, are rejoin pairs popped. That the model counts the issue, and notes where its accesses have
come to in T, is its own (logs 3, 17). -/
def Obligations.RegisterFrame : Prop := ∀ (ins : Instr) (v : Dev) (s t : State) (i : Iss), ins.dev = some v → v.op.toNat ≤ 0x8B →
  unassigned v.op.toNat = false → Issues s v i → i.unlimited s → exec ins s = .next t →
  let charged := if i.grp.inHandler then s else s.charge i.team.ctx i.team.slice i.cycles i.cycles
  let next := nextPc i.pc i.dev.lit.isSome
  let goesOn := fun (c : Clause) => next.toNat % 16 ≠ 4 ∨ (c.packets < 8 ∧ ∀ th ∈ i.grp.threads, th.tidx ∈ i.cos → th.exited = false →
    ({ th with pc := next } : Thread).atRejoin = false)
  (∃ teams, t = { s with slices := charged.slices, owing := charged.owing, teams := teams, seq := s.seq + 1, stirred := s.seq }) ∧
  (∀ x, s.charged? i.team.ctx i.team.slice = some x →
    let mine := fun (y : Slice) => y.ctx = x.ctx ∧ y.id = x.id
    let paid := { x with cycles := x.cycles + i.cycles, energy := x.energy + i.cycles }
    s.charge i.team.ctx i.team.slice i.cycles i.cycles =
      { s with slices := s.slices.map fun y => if mine y then paid else y, owing := s.owing.map fun y => if mine y then paid else y }) ∧
  (∀ u, (t.team? u).map (fun x => { x with groups := [] }) = (s.team? u).map fun x => { x with groups := [] }) ∧
  (∀ u g, ¬(u = i.team.uid ∧ g = i.grp.gidx) → t.group? u g = s.group? u g) ∧
  ∃ g', t.group? i.team.uid i.grp.gidx = some g' ∧
    { g' with threads := [], clause := none, stalled := false, kept := none, lastStart := 0, lastBack := false } =
      { i.grp with threads := [], clause := none, stalled := false, kept := none, lastStart := 0, lastBack := false, issuedAt := s.seq } ∧
    (∀ c, i.grp.clause = some c →
      (goesOn c → g'.stalled = false ∧ g'.kept = i.grp.kept ∧ g'.lastStart = i.grp.lastStart ∧ g'.lastBack = i.grp.lastBack ∧
        g'.clause = some (if next.toNat % 16 = 4 then { c with words := c.words + 1, packets := c.packets + 1, code := [] } else { c with words := c.words + 1 })) ∧
      (¬goesOn c → g'.lastStart = c.start ∧ g'.lastBack = false ∧ (g'.clause, g'.stalled, g'.kept) = match i.grp.kept with
        | some k => if i.grp.inHandler then (none, false, some k) else (some k, true, none)
        | none => (none, false, none))) ∧
    ∀ x th, s.thread? i.team.uid i.grp.gidx x = some th → ∃ th', t.thread? i.team.uid i.grp.gidx x = some th' ∧
      (x ∉ i.acts → Thread.KeepsBut [] th th' ∧ Thread.KeepsRecord th th') ∧ (x ∈ i.acts → Thread.KeepsBut (writtenRegs v.spec.regs) th th') ∧
      ((v.op.toNat < 0x40 ∨ 0x4C ≤ v.op.toNat ∨ v.op = 0x46) → v.op ≠ 0x89 → v.op ≠ 0x8A → th'.preds = th.preds) ∧
      (v.op ≠ 0x55 → th'.trapc = th.trapc ∧ th'.trapa = th.trapa ∧ th'.trapv = th.trapv) ∧
      th'.held = th.held ∧ th'.resume = th.resume ∧ th'.lost = th.lost ∧ th'.sync = th.sync ∧
      (x ∉ i.cos → th'.pc = th.pc ∧ th'.came = th.came) ∧ (x ∈ i.cos → th.exited = false → th'.pc = next ∧ th'.came = .fell) ∧
      (∀ c, i.grp.clause = some c → goesOn c → th'.rejoin = th.rejoin ∧ th'.wait = th.wait) ∧
      ∃ n, th'.rejoin = th.rejoin.drop n ∧ (n ≠ 0 → th.wait = .rejoin ∨ x ∈ i.cos)

/-- R235 to R239, R390, R391: the convergence registers. KDECL opens a generation; plain signatures are added one at a time, each makes S one more, and
the last one completes the generation; KWAIT goes on when its register is not OPEN, and with it complete is a meeting with its signers (R107, log 3); KRST makes it IDLE, ends the waits at it, and cancels an open MMA. -/
def Obligations.ConvergenceResults : Prop :=
  (∀ w : Rrr,
  (∀ l, Completes (.kdecl w) (fun v i _ => i.lead = some l ∧ 1 ≤ bits (v.b32 l) 11 0 ∧ bits (v.b32 l) 11 0 ≤ 2048 ∧ bits (v.b32 l) 15 12 = 0 ∧
      bits (v.b32 l) 31 16 < i.team.groups.length ∧ (i.team.kreg (v.d.toNat % 8)).st ≠ .open) (fun v i s =>
    i.finish (s.updK i.team.uid (v.d.toNat % 8) fun r => { st := .open, n := bits (v.b32 l) 11 0, sg := bits (v.b32 l) 31 16, gen := r.gen + 1 }))) ∧
  Completes (.ksign w) (fun v i _ =>
      let r := i.team.kreg (v.d.toNat % 8)
      i.acts.Nodup ∧ (i.acts ≠ [] → r.st = .open ∧ r.mma ≠ some true ∧ (∀ x ∈ i.acts, x ∉ r.signers) ∧ r.signers.length + i.acts.length ≤ r.n))
    (fun v i s => i.finish (i.acts.foldl (fun s x => s.sign i.team.uid (v.d.toNat % 8) x false) s)) ∧
  Completes (.kwait w) (fun v i _ => (i.team.kreg (v.d.toNat % 8)).st ≠ .open ∨ ∀ t ∈ i.act, t.wait = .passed)
    (fun v i s => i.finish ((i.upd s i.acts fun t => { t with wait := .run }).updTeam i.team.uid fun t =>
      if (t.kreg (v.d.toNat % 8)).st = .complete then t.join fun th => (t.kreg (v.d.toNat % 8)).signers.contains th.tidx || i.acts.contains th.tidx
      else t)) ∧
  Completes (.krst w) (fun _ i _ => i.act ≠ []) (fun v i s =>
    let s' := (s.updK i.team.uid (v.d.toNat % 8) fun r => { gen := r.gen, sg := r.sg }).updTeam i.team.uid (·.release (.kwait (v.d.toNat % 8)) .passed)
    i.finish (match (i.team.kreg (v.d.toNat % 8)).st, (i.team.kreg (v.d.toNat % 8)).op with
      | .open, some o => s'.endOp o .cancelled
      | _, _ => s'))) ∧
  ∀ (s : State) (t : Team) (u k x : Nat) (mma : Bool), s.team? u = some t → ∃ t',
  (s.sign u k x mma).team? u = some t' ∧ (t'.kreg k).signers = (t.kreg k).signers ++ [x] ∧ (t'.kreg k).mma = some mma ∧
  ((t'.kreg k).st = .complete ↔ (t.kreg k).signers.length + 1 = (t.kreg k).n) ∧ (t'.kreg k).n = (t.kreg k).n ∧ (t'.kreg k).gen = (t.kreg k).gen ∧
  ∀ j, j ≠ k → t'.kreg j = t.kreg j

/-- R242 to R247: reservations. A request that can be granted is granted at once; a bad one, and one of a team that has a reservation or a
request, returns p = 0; MREL releases, and has no effect without a reservation. -/
def Obligations.ReservationResults : Prop := ∀ w : Rrr,
  let bad := fun (b : Word) => bits b 31 26 ≠ 0 ∨ bits b 15 2 ≠ 0 ∨ 512 < bits b 25 16 ∨ (bits b 1 0 = 0 ∧ bits b 25 16 = 0)
  let gives := fun (v : Dev) (i : Iss) (s : State) (word : Word) (p : Bool) =>
    i.finish (i.upd s i.acts fun t => (t.setVs [(v.d.toNat, word)]).setP (v.a.toNat % 8) p)
  (∀ l, Completes (.mres w) (fun v i _ => i.lead = some l ∧ bad (v.b32 l)) (fun v i s => gives v i s 0 false) ∧
    Completes (.mres w) (fun v i _ => i.lead = some l ∧ ¬bad (v.b32 l) ∧ (∀ m, i.team.mres = some m ∨ m ∈ i.team.given → ¬(m.gidx = i.grp.gidx ∧ m.who = l.tidx)) ∧
      (i.team.resv.isSome ∨ i.team.mres.isSome)) (fun v i s => gives v i s i.team.windowWord false) ∧
    (∀ m, Completes (.mres w) (fun v i _ => i.lead = some l ∧ ¬bad (v.b32 l) ∧ i.team.mres = none ∧ i.team.given = [m] ∧ m.gidx = i.grp.gidx ∧ m.who = l.tidx)
      (fun v i s => gives v i (s.updTeam i.team.uid fun t => { t with given := t.given.filter fun y => !(y.gidx == i.grp.gidx && y.who == l.tidx) }) m.word true)) ∧
    (∀ base, Completes (.mres w) (fun v i s => i.lead = some l ∧ ¬bad (v.b32 l) ∧ i.team.resv = none ∧ i.team.mres = none ∧
        (∀ m ∈ i.team.given, ¬(m.gidx = i.grp.gidx ∧ m.who = l.tidx)) ∧ s.canReserve i.team.core (BitVec.ofNat 2 (bits (v.b32 l) 1 0)) (bits (v.b32 l) 25 16) s.seq = some base)
      (fun v i s => gives v i (s.reserve i.team (BitVec.ofNat 2 (bits (v.b32 l) 1 0)) base (bits (v.b32 l) 25 16))
        (BitVec.ofNat 32 (bits (v.b32 l) 1 0 * 2 ^ 30 + bits (v.b32 l) 25 16 * 2 ^ 10 + base)) true)) ∧
    ∀ m, Completes (.mres w) (fun v i _ => i.lead = some l ∧ ¬bad (v.b32 l) ∧ i.team.mres = some m ∧ m.gidx = i.grp.gidx ∧ m.who = l.tidx ∧ m.granted = true)
      (fun v i s => gives v i (s.updTeam i.team.uid fun t => { t with mres := none }) m.word true)) ∧
  (∀ ins ∈ [Instr.mres w, .mrel w], Completes ins (fun _ i _ => i.act = []) (fun _ i s => i.finish s)) ∧
  Completes (.mrel w) (fun _ i _ => ∃ t ∈ i.act, t.wait = .passed) (fun _ i s => i.changed s fun _ t => { t with wait := .run }) ∧
  Completes (.mrel w) (fun _ i _ => i.act ≠ [] ∧ (∀ t ∈ i.act, t.wait ≠ .passed) ∧ i.team.resv = none) (fun _ i s => i.changed s fun _ t => { t with wait := .run }) ∧
  Completes (.mrel w) (fun _ i s => i.act ≠ [] ∧ (∀ t ∈ i.act, t.wait ≠ .passed) ∧ i.team.resv ≠ none ∧ ∀ o ∈ s.ops, o.holdsResv i.team.uid = false)
    (fun _ i s => i.changed (s.freeResv i.team.uid) fun _ t => { t with wait := .run })

/-- R242, R244, R245: what can be reserved is free: its engines are held by no team of the core, and no position of its run lies in a window;
the run is the lowest one that is free, which is the model's choice (log 13). In a granted window every element of every tile is zero and its exponent
is 0; every other tile is as before. -/
def Obligations.ReservationRule : Prop :=
  (∀ (s : State) (t : Team) (eng : BitVec 2) (base count : Nat), base + count ≤ 512 →
    (∀ p, base ≤ p → p < base + count → let a := (s.reserve t eng base count).acc t.core p
      (∀ k, a.elem k = 0) ∧ a.e = 0 ∧ a.bad = false ∧ a.order = []) ∧
    (∀ c p, p < 512 → ¬(c = t.core ∧ base ≤ p ∧ p < base + count) → (s.reserve t eng base count).acc c p = s.acc c p) ∧
    ∀ u, (s.reserve t eng base count).team? u = (s.team? u).map fun x => if x.uid = t.uid then { x with resv := some ⟨eng, base, count⟩ } else x) ∧
  ∀ (s : State) (core : Nat) (eng : BitVec 2) (count order base : Nat), s.canReserve core eng count order = some base → count ≤ 512 →
  base + count ≤ 512 ∧ (∀ e < 2, eng.getLsbD e = true → s.heldBy core e = none) ∧ (∀ p, base ≤ p → p < base + count → s.posHeld core p = false) ∧
  (∀ b < base, ∃ p, b ≤ p ∧ p < b + count ∧ s.posHeld core p = true)

/-- R63, R66 to R68, R250 to R252, R388 to R391: an MMA whose active threads each sign without a fault signs once for each, in lane order; the flag of
its clause rises once; the last signature issues the operation. An element of a row is the sum of its groups in order, the running sum in front of each,
every term cut to 62 places below the group's anchor; a NaN or infinite element, a scale of 0xFF or a NaN marker that is added to makes it NaN. -/
def Obligations.MmaResults : Prop :=
  (∀ (terms : List Dyad) (anchor : Int), (∀ x ∈ terms, x.m ≠ 0 → (x.m.natAbs.log2 : Int) + x.x + 1 ≤ anchor) →
    (∃ x ∈ terms, x.m ≠ 0 ∧ (x.m.natAbs.log2 : Int) + x.x + 1 = anchor) →
    groupSum terms = ⟨(terms.map fun x => x.trunc (anchor - 62)).sum, anchor - 62⟩) ∧
  (∀ terms : List Dyad, (∀ x ∈ terms, x.m = 0) → (groupSum terms).m = 0) ∧
  (∀ (x : Dyad) (q : Int), (q ≤ x.x → x.trunc q = x.m * 2 ^ (x.x - q).toNat) ∧ (x.x ≤ q → x.trunc q = x.m.tdiv (2 ^ (q - x.x).toNat))) ∧
  (∀ (f : MmaFmt) (neg accum : Bool) (c e : Int) (a b : List Dyad), a.length = f.k → b.length = f.k → f.w ≠ 0 → f.k % f.w = 0 →
    (accum = true → c = nanMark → dotElem f neg accum c e (some a) (some b) = none) ∧
    (accum = false ∨ c ≠ nanMark → dotElem f neg accum c e (some a) (some b) = some (((List.range (f.k / f.w)).foldl (fun s g =>
      groupSum (s :: (List.range f.w).map fun k =>
        let x := a.getD (g * f.w + k) ⟨0, 0⟩
        let y := b.getD (g * f.w + k) ⟨0, 0⟩
        ⟨(if neg then -1 else 1) * x.m * y.m, x.x + y.x⟩)) (if accum then ⟨c, e⟩ else ⟨0, 0⟩)).trunc e)) ∧
    dotElem f neg accum c e none (some b) = none ∧ dotElem f neg accum c e (some a) none = none) ∧
  (∀ (code : Nat) (bs : List Byte) (sc : List Byte),
    (scaledRow code bs none = none ↔ ∃ v ∈ rowElems code bs, v.dyad = none) ∧
    (scaledRow code bs (some sc) = none ↔ (∃ v ∈ rowElems code bs, v.dyad = none) ∨ (0xFF : Byte) ∈ sc) ∧
    ∀ l, scaledRow code bs (some sc) = some l → ∀ k < (rowElems code bs).length, ∀ d, ((rowElems code bs).getD k .nan).dyad = some d →
      l[k]? = some { d with x := d.x + (sc.getD (k / 32) 0).toNat - 127 }) ∧
  (∀ (o : Op) (i : Nat) (a : Acc), ∃ r : List (Option Int), r.length = 32 ∧ o.computeRow i a = a.writeRow i r ∧ ∀ j < 32,
    let f := mmaFmt (dword o.words 8).toNat ((dword o.words 6).getLsbD 20) ((dword o.words 6).getLsbD 21)
    let sc := fun (p : Nat) => tgetD o.scales p []
    r.getD j none = dotElem f (decide (dword o.words 9 ≠ 0)) (decide (dword o.words 10 ≠ 0)) (a.elem (32 * i + j)) a.e
      (scaledRow f.a (o.rowBytes (o.rowBase false i)) (if f.sa then some ((sc i).take (f.k / 32)) else none))
      (scaledRow f.b (o.rowBytes (o.rowBase true j)) (if f.sb then some (if f.sa then (sc j).drop (f.k / 32) else sc j) else none))) ∧
  ∀ (w : Rrr) (ins : Instr),
  ins ∈ [Instr.mmaMxf4 w, .mmaMxf8 w, .mmaFp8 w, .mmaI8 w, .mmaTs8i w, .mmaTs8e w, .mmaBf16 w, .mmaF16 w] →
  Completes ins (fun _ i _ => i.act = []) (fun _ i s => i.finish s) ∧
  Completes ins (fun v i s => i.act ≠ [] ∧ (i.signAll s i.act 0).2.1 = none ∧
      ((i.team.kreg (bits v.lw 2 0)).op ≠ none ∨ s.freeSlot i.team.core ≠ none)) (fun v i s =>
    let s' := (i.signAll s i.act 0).1
    i.finish (match i.flag, (((s'.team? i.team.uid).map fun (t : Team) => t.kreg (bits v.lw 2 0)).getD {}).op with
      | some f, some o => (s'.flagUp i.team.uid i.grp.gidx f).updOp o fun o => { o with flags := o.flags ++ [(i.team.uid, i.grp.gidx, f)] }
      | _, _ => s'))

/-- R64, R68, R70, R248, R262 to R268, R427: the accumulator instructions, when their tiles' turn has come, and what they read, write and add. That an
AMOV with ADD = 0 makes a tile whose code had failed good again is the model's choice (log 38): R427 names AZERO and an MMA with ACC clear. -/
def Obligations.AccumulatorResults : Prop :=
  (∀ (a : Acc) (x : Word),
    let v := fun (j : Nat) => a.elem (32 * bits x 9 5 + j)
    (v (bits x 4 0) = nanMark → a.readWords 0 x = [0x7FC00000#32]) ∧ (v (bits x 4 0) = 0 → a.readWords 0 x = [0]) ∧
    (v (bits x 4 0) ≠ nanMark → v (bits x 4 0) ≠ 0 → a.readWords 0 x = [fw (FV.ofInt (v (bits x 4 0)) a.e)]) ∧
    (∃ y : Word, a.readWords 1 x = [y] ∧ y.toNat = bf16.enc (readElem (v (2 * bits x 4 1)) a.e) + 2 ^ 16 * bf16.enc (readElem (v (2 * bits x 4 1 + 1)) a.e)) ∧
    (-2 ^ 47 ≤ v (bits x 4 0) → v (bits x 4 0) < 2 ^ 47 → ∃ y z : Word, a.readWords 2 x = [y, z] ∧ (z ++ y : BitVec 64).toInt = v (bits x 4 0))) ∧
  (∀ (a : Acc) (x : Word) (data : Addr), (a.mant.map (·.1)).Nodup → (∀ k, -2 ^ 47 ≤ a.elem k ∧ a.elem k < 2 ^ 47) →
    let k := 32 * bits x 9 5 + bits x 4 0
    let kept := fun (b : Acc) => b.e = a.e ∧ ∀ j, j ≠ k → b.elem j = a.elem j
    let q := fun (d : Dyad) => d.trunc a.e
    let val := (fp32.val (data.toNat % 2 ^ 32)).dyad
    (a.writeWords 2 x data).elem k = (data.extractLsb' 0 48).toInt ∧ kept (a.writeWords 2 x data) ∧
    (val = none → (a.writeWords 0 x data).elem k = nanMark ∧ kept (a.writeWords 0 x data)) ∧
    (∀ d, val = some d → (q d).natAbs ≤ mantMax → (a.writeWords 0 x data).elem k = q d ∧ kept (a.writeWords 0 x data)) ∧
    ∀ (d : Dyad) (n : Nat), val = some d → 1 ≤ n → (q d).natAbs / 2 ^ n ≤ mantMax → mantMax < (q d).natAbs / 2 ^ (n - 1) →
      (2047 < a.e + n → (a.writeWords 0 x data).e = 2047 ∧ ∀ j < 1024, (a.writeWords 0 x data).elem j = nanMark) ∧
      (a.e + n ≤ 2047 → (a.writeWords 0 x data).e = a.e + n ∧ (a.writeWords 0 x data).elem k = (q d).tdiv (2 ^ n) ∧
        ∀ j, j ≠ k → (a.writeWords 0 x data).elem j = if a.elem j = nanMark then nanMark else (a.elem j).tdiv (2 ^ n))) ∧
  (∀ t s e es : Int, (t = nanMark ∨ s = nanMark → addElem t s e es = none) ∧
    (t ≠ nanMark → s ≠ nanMark → addElem t s e es = some (if e ≤ es then t + s * 2 ^ (es - e).toNat else (t * 2 ^ (e - es).toNat + s).tdiv (2 ^ (e - es).toNat)))) ∧
  (∀ src a : Acc, addRows src a = (List.range 32).foldl (fun b i => b.writeRow i ((List.range 32).map fun j =>
    addElem (b.elem (32 * i + j)) (src.elem (32 * i + j)) b.e src.e)) a) ∧
  ∀ w : Rrr,
  let p := fun (i : Iss) => i.team.accPos i.dev.accT
  let own := fun (v : Dev) (i : Iss) (s : State) => i.mayUse s [v.accT] ∧ (i.accAt s).bad = false
  (∀ ins ∈ [Instr.azero w, .anorm w, .ascl w, .aread w, .awrite w, .aexp w, .amov w], Completes ins (fun _ i _ => i.act = []) (fun _ i s => i.finish s)) ∧
  Completes (.azero w) (fun v i s => i.mayUse s [v.accT]) (fun v i s =>
    i.finish ((i.used s [v.accT]).updAcc i.team.core (p i) fun a => { a with mant := [], e := (v.lw.extractLsb' 9 12).toInt, bad := false })) ∧
  Completes (.anorm w) own (fun v i s => i.finish (i.upd ((i.used s [v.accT]).updAcc i.team.core (p i) (·.lower (i.accAt s).normBy)) i.acts fun t =>
    t.setVs [(v.d.toNat, BitVec.ofNat 32 (i.accAt s).normBy)])) ∧
  (∀ l, Completes (.ascl w) (fun v i s => i.lead = some l ∧ own v i s) (fun v i s =>
    i.finish ((i.used s [v.accT]).updAcc i.team.core (p i) (·.scale (v.rb32 l).toInt)))) ∧
  Completes (.aread w) own (fun v i s => i.finish (i.deliver (i.used s [v.accT]) (if bits v.lw 10 9 = 2 then 2 else 1) 4 0x11
    (i.doers.map fun t => { thr := t, ea := 0, vals := (i.accAt s).readWords (bits v.lw 10 9) (v.a32 t), blocks := [], key := i.team.core * 512 + p i }))) ∧
  Completes (.awrite w) own (fun v i s => i.finish (i.doers.foldl (fun s t => s.updAcc i.team.core (p i) fun a =>
    a.writeWords (bits v.lw 10 9) (v.a32 t) (if bits v.lw 10 9 = 2 then v.d64 t else (v.d32 t).setWidth 64)) (i.used s [v.accT]))) ∧
  Completes (.aexp w) own (fun v i s => i.finish (i.upd (i.used s [v.accT]) i.acts fun t => t.setVs [(v.d.toNat, BitVec.ofInt 32 (i.accAt s).e)])) ∧
  Completes (.amov w) (fun v i s => i.mayUse s [v.accT, bits v.lw 17 9] ∧ (s.acc i.team.core (i.team.accPos (bits v.lw 17 9))).bad = false ∧
      (v.lw.getLsbD 18 = true → (i.accAt s).bad = false)) (fun v i s =>
    let src := s.acc i.team.core (i.team.accPos (bits v.lw 17 9))
    i.finish ((i.used s [v.accT, bits v.lw 17 9]).updAcc i.team.core (p i) fun a =>
      if v.lw.getLsbD 18 then addRows src a else { a with mant := src.mant, e := src.e, bad := false }))

/-- R65, R68, R263, R264: ANORM lowers e as far as it can and changes no element's value. A row that is written raises e by as little as makes it fit,
and every other element with it; past the greatest exponent the tile is NaN. ASCL adds to e, and cuts or extends the elements only at its ends. -/
def Obligations.NormalizeRule : Prop := ∀ a : Acc, -2048 ≤ a.e → a.e ≤ 2047 → (a.mant.map (·.1)).Nodup → (∀ k, -2 ^ 47 ≤ a.elem k ∧ a.elem k < 2 ^ 47) →
  let raised := fun (n k : Nat) => if a.elem k = nanMark then nanMark else (a.elem k).tdiv (2 ^ n)
  (∀ (i : Nat) (r : List (Option Int)), i < 32 → r.length = 32 →
    let b := a.writeRow i r
    let fits := fun (n : Nat) => ∀ x ∈ r, ∀ v, x = some v → v.natAbs / 2 ^ n ≤ mantMax
    (fits 0 → b.e = a.e ∧ (∀ j < 32, b.elem (32 * i + j) = (r.getD j none).getD nanMark) ∧ ∀ k, (k < 32 * i ∨ 32 * i + 32 ≤ k) → b.elem k = a.elem k) ∧
    ∀ n, 1 ≤ n → fits n → ¬fits (n - 1) →
      (a.e + n ≤ 2047 → b.e = a.e + n ∧ (∀ j < 32, b.elem (32 * i + j) = ((r.getD j none).map fun v => v.tdiv (2 ^ n)).getD nanMark) ∧
        ∀ k, (k < 32 * i ∨ 32 * i + 32 ≤ k) → b.elem k = raised n k) ∧
      (2047 < a.e + n → b.e = 2047 ∧ ∀ k < 1024, b.elem k = nanMark)) ∧
  (∀ s : Int,
    let b := a.scale s
    let x := a.e + s
    let up := fun (k : Nat) => if a.elem k = nanMark then nanMark else a.elem k * 2 ^ (x - 2047).toNat
    (-2048 ≤ x → x ≤ 2047 → b.e = x ∧ ∀ k, b.elem k = a.elem k) ∧
    (x < -2048 → b.e = -2048 ∧ ∀ k, b.elem k = raised (-2048 - x).toNat k) ∧
    (2047 < x → b.e = 2047 ∧ ((∀ k, a.elem k = nanMark ∨ (up k).natAbs ≤ mantMax) → ∀ k, b.elem k = up k) ∧
      ((∃ k, a.elem k ≠ nanMark ∧ mantMax < (up k).natAbs) → ∀ k < 1024, b.elem k = nanMark))) ∧
  let b := a.lower a.normBy
  b.e ≥ -2048 ∧ b.e = a.e - a.normBy ∧ (∀ k, a.elem k = nanMark → b.elem k = nanMark) ∧
  (∀ k, a.elem k ≠ nanMark → b.elem k = a.elem k * 2 ^ a.normBy ∧ (b.elem k).natAbs ≤ 2 ^ 47 - 1) ∧
  (b.e = -2048 ∨ ∃ k, a.elem k ≠ nanMark ∧ 2 ^ 47 - 1 < (2 * b.elem k).natAbs)

/-- R269, R272: ASTR takes a slot and a place in the tile's order, and writes its handle with a pending mark. XCOPY and XCOLL read their packets
one access at a time, thread after thread; each thread's operation is made with its last access, once a slot is free, and they complete when every thread
has made its own (R102, R293). XQPOST's threads post one after another: an index is claimed, a free slot awaited, and the ticket stored last; it completes
once all have posted, with the index each claimed (R290, R294). That a series under way is one access a turn, and what becomes of one that meets a cause
after its checks, is the model's choice (log 72). -/
def Obligations.OperationResults : Prop := ∀ w : Rrr,
  Completes (.astr w) (fun _ i _ => i.act = []) (fun _ i s => i.finish s) ∧
  (∀ l, Completes (.astr w) (fun v i s => i.lead = some l ∧ (∃ r, i.team.resv = some r ∧ v.accT < r.count) ∧ (v.a64 l).toNat % 16 = 0 ∧
      (bits v.lw 10 9 = 0 ∨ (v.rb32 l).toNat % 16 = 0) ∧ s.freeSlot i.team.core ≠ none) (fun v i s =>
    let n := s.newOp ((s.freeSlot i.team.core).getD 0) {
      uid := 0, token := 0, kind := .astr, core := i.team.core, slot := 0, ctx := i.team.ctx, slice := i.team.slice, team := i.team.uid,
      issuer := l.tidx, start := 0, own := if v.lw.getLsbD 21 then .team else .thread, otid := if v.lw.getLsbD 21 then 0 else l.tidx,
      det := v.lw.getLsbD 21, ord := v.lw.getLsbD 20, pri := bits v.lw 23 22,
      words := [v.lw, (v.a64 l).extractLsb' 0 32, (v.a64 l).extractLsb' 32 32, if bits v.lw 10 9 = 0 then 0 else v.rb32 l],
      flags := (i.flag.map fun f => (i.team.uid, i.grp.gidx, f)).toList }
    let s' := n.1.updAcc i.team.core (i.team.accPos v.accT) fun a => { a with order := a.order ++ [.op n.2.uid] }
    i.finish (i.markHandle (match i.flag with | some f => s'.flagUp i.team.uid i.grp.gidx f | none => s') i.acts n.2))) ∧
  (∀ k ins, (ins, k) ∈ [(Instr.xcopy w, OpKind.xcopy), (.xcoll w, .xcoll)] →
    let left := fun (i : Iss) => i.doers.filter fun t => t.madeBy.isNone
    let issue := fun (i : Iss) (s : State) => (i.doers.findSome? Thread.madeBy).getD (s.seq + 1)
    let done := fun (i : Iss) (s : State) (n : Nat) => i.finish (i.flagOps (i.hear (i.upd s i.acts fun t => { t with wait := .run }) i.acts s.tick) n)
    Completes ins (fun _ i _ => left i = []) (fun _ i s => done i s (issue i s)) ∧
    ∀ t rest g, let next := fun (v : Dev) (i : Iss) (s : State) => left i = t :: rest ∧
        ((∃ u ∈ i.doers, u.wait.begun = true) ∨ ∀ u ∈ t :: rest, (s.packetMiss i.team.uid u.tidx (v.a64 u)).1 = [])
      Completes ins (fun v i s => next v i s ∧ s.slotWait i.team.core t = true) (fun _ i s => i.await s) ∧
      Completes ins (fun v i s => next v i s ∧ s.slotWait i.team.core t = false ∧ (s.packetMiss i.team.uid t.tidx (v.a64 t)).2 = some g) (fun _ i s =>
        { ((i.packetStep { s with seq := s.seq + 1 } k (issue i s) t g).updGroup i.team.uid i.grp.gidx fun x => { x with stalled := true }).goesOn with fence := none })) ∧
  Completes (.xqpost w) (fun _ i _ => ∀ t ∈ i.doers, ∃ idx, t.wait = .queueDone idx) (fun v i s =>
    let idx := fun (t : Thread) => t.claimed.getD 0
    let s' := i.doers.foldl (fun s t => i.upd s (i.receivers t) fun th =>
      th.setVs [(v.d.toNat, (idx t).extractLsb' 0 32), (v.d.toNat + 1, (idx t).extractLsb' 32 32)]) s
    i.finish (i.hear (i.upd s' i.acts fun t => { t with wait := .run }) i.acts s.tick)) ∧
  Completes (.xqpost w) (fun _ i _ => ∀ t ∈ i.doers, t.posted = true) (fun _ i s =>
    i.finish (i.hear (i.upd (i.doers.foldl i.postWrites s) i.acts fun t => { t with wait := .run }) i.acts s.tick)) ∧
  ∀ t ts,
    let next := fun (i : Iss) (s : State) => (i.doers.filter fun u => !u.posted) = t :: ts ∧ i.postTrap s (t :: ts) = none ∧
      ∀ x ∈ i.postPlans s (t :: ts), ∀ y ∈ x.2.all, s.needsWalk (.thread i.team.uid x.1.tidx) y.1 = false
    let at_ := fun (i : Iss) (s : State) => i.postReach s (t :: ts)
    let plan := fun (i : Iss) (s : State) => i.postPlan (at_ i s) t 0
    let set := fun (i : Iss) (s : State) (w : Wait) => i.upd s [t.tidx] fun th => { th with wait := w }
    let goes := fun (i : Iss) (s : State) (w : Wait) => { ((set i s w).updGroup i.team.uid i.grp.gidx fun x => { x with stalled := true }).goesOn with fence := none }
    (∀ g, Completes (.xqpost w) (fun _ i s => next i s ∧ t.claimed = none ∧ (plan i s).head.2.2 = some g) (fun _ i s =>
      let idx := BitVec.ofNat 64 (leNat ((at_ i s).bytesAt g 8))
      goes i (i.standsNow (((at_ i s).setAD g true).put g.reps (toLe 8 ((idx.toNat + 1) % 2 ^ 64))) ⟨t, (plan i s).head.1, g⟩) (.posting idx 9 none))) ∧
    (∀ g idx, Completes (.xqpost w) (fun _ i s => next i s ∧ (t.wait = .queue idx ∨ t.wait = .posting idx 9 none) ∧ (plan i s).tail.2.2 = some g ∧
        g.view ≠ .system) (fun _ i s =>
      let read := i.standsNow ((at_ i s).setAD g false) ⟨t, (plan i s).tail.1, g⟩
      if (plan i s).room ≤ (idx - BitVec.ofNat 64 (leNat ((at_ i s).bytesAt g 8))).toNat then i.await (set i read (.queue idx))
      else goes i read (.posting idx 0 none))) ∧
    ∀ idx got ea ms d, Completes (.xqpost w) (fun _ i s => next i s ∧ t.wait = .posting idx 5 got ∧ (plan i s).dst = [(5, ea, ms, some d)]) (fun _ i s =>
      goes i (((at_ i s).setAD d true).threadStore i t d ea (toLe 4 (idx.toNat % 2 ^ 32))) (.queueDone idx))

/-- R71 to R73, R94, R283 to R286, R310, R403, R410: what a copy, a fill, a gather, a multicast, a reduction or an ASTR moves. Its chunks are the bytes of
its rows in order, cut at units; a unit takes its bytes from where R283 says and writes them at its targets; a chunk changes the bytes of its units and
the A and D bits of the translations it uses, and no others; a reduction adds as R72 and R210 say; the last chunk makes the completion actions. That
a chunk is one step, its units written in ascending order, is the model's choice (log 3). -/
def Obligations.CopyEffects : Prop :=
  (∀ o : Op, o.kind ≠ .astr →
    let p := copyPk o.bytes
    let row := if p.op = 2 then p.len / p.z * 16 else p.len
    o.plan.len = row ∧ o.plan.total = p.rows * row ∧ (∀ r, o.plan.row r = p.dst + BitVec.ofNat 64 (r * p.dstr)) ∧
    o.plan.unit = (if p.op = 3 ∨ p.op = 4 then p.z else 16) ∧
    ∀ x : Piece, o.targetsOf x = if p.op = 6 then ((List.range 12).filter fun q => p.mask.testBit q).map fun q => ⟨x.dst.ea + BitVec.ofNat 64 (q * 2 ^ 20), x.dst.n⟩
      else [x.dst]) ∧
  (∀ (o : Op) (c : Nat),
    let lo := 2048 * c
    let hi := min (lo + 2048) o.plan.total
    ((o.piecesAt c).flatMap fun x => (List.range x.dst.n).map (x.row * o.plan.len + x.col + ·)) = (List.range (hi - lo)).map (lo + ·) ∧
    ∀ x ∈ o.piecesAt c, 0 < x.dst.n ∧ x.dst.ea = o.plan.row x.row + BitVec.ofNat 64 x.col ∧ x.col + x.dst.n ≤ o.plan.len ∧
      x.dst.ea.toNat % o.plan.unit + x.dst.n ≤ o.plan.unit) ∧
  (∀ (o : Op) (entry : Nat → Option Addr) (x : Piece), o.kind ≠ .astr →
    let p := copyPk o.bytes
    let bytes := (o.sourceOf entry x).flatMap fun y => (List.range y.n).map fun k => y.ea + BitVec.ofNat 64 k
    let row := p.src + BitVec.ofNat 64 (x.row * p.sstr)
    (p.op = 0 ∨ p.op = 6 → bytes = (List.range x.dst.n).map fun k => row + BitVec.ofNat 64 (x.col + k)) ∧
    (p.op = 1 → o.sourceOf entry x = [] ∧ o.ownBytes x = (List.range x.dst.n).map fun k => BitVec.ofNat 8 (p.src.toNat / 2 ^ (8 * ((x.col + k) % p.z)))) ∧
    (p.op = 2 → bytes = (List.range p.z).map fun k => row + BitVec.ofNat 64 (x.col / 16 * p.z + k)) ∧
    (p.op = 3 ∨ p.op = 4 → bytes = (List.range p.z).map fun k => row + BitVec.ofNat 64 (x.col + k)) ∧
    (p.op = 5 → ∀ a, entry x.row = some a → bytes = (List.range x.dst.n).map fun k => a + BitVec.ofNat 64 (x.col + k))) ∧
  (∀ (cell m : Nat) (neg : Bool) (e w : Int),
    let wrap := fun (v : Nat) => (((cell : Int) + if neg then -(v : Int) else v) % 2 ^ 128).toNat
    let v := if w ≤ e then m * 2 ^ (e - w).toNat else m / 2 ^ (w - e).toNat
    reduceCell cell .nan w = (cell, false, true) ∧ reduceCell cell (.inf neg) w = (wrap (2 ^ 100 - 1), true, false) ∧
    reduceCell cell (.fin neg m e) w = (wrap (min v (2 ^ 100 - 1)), decide (2 ^ 100 - 1 < v), false)) ∧
  (∀ (s : State) (o : Op) (t : Target) (ea : Addr) (bs : List Byte), s.Good →
    let p := copyPk o.bytes
    let r := writeUnit s o t ea bs
    let keeps := fun (n : Nat) => ∀ a, (∀ l ∈ t.reps, ¬(l ≤ a ∧ a < l + n)) → Memory.get r.1.mem a = Memory.get s.mem a
    let apart := fun (n : Nat) => t.reps.Pairwise fun a b => a + n ≤ b ∨ b + n ≤ a
    let cell := reduceCell (Memory.nat s.mem t.loc 16) (p.element bs) p.lsbw
    (o.kind ≠ .astr → p.op = 2 → keeps 16 ∧ r.2.nan = (o.nan || cell.2.2) ∧ r.2.clamp = (o.clamp || cell.2.1) ∧
      (apart 16 → ∀ l ∈ t.reps, Memory.nat r.1.mem l 16 = cell.1)) ∧
    (o.kind ≠ .astr → p.op = 3 ∨ p.op = 4 → keeps p.z ∧ r.2.nan = o.nan ∧ r.2.clamp = o.clamp ∧
      (apart p.z → ∀ l ∈ t.reps, Memory.nat r.1.mem l p.z = atomNat p.z p.rop (Memory.nat s.mem t.loc p.z) (leNat bs))) ∧
    (o.kind = .astr ∨ p.reduces = false → r.2.nan = o.nan ∧ r.2.clamp = o.clamp ∧
      (t.view = .system → r.1.mem = s.mem ∧ r.1.out = s.out ++ [.hostStore s.seq (t.pa / 2 ^ 44 % 4) (t.pa % 2 ^ 44) bs]) ∧
      (t.view ≠ .system → keeps bs.length ∧ r.1.out = s.out ∧ (apart bs.length → ∀ l ∈ t.reps, Memory.gets r.1.mem l bs.length = bs)))) ∧
  (∀ (s : State) (o : Op) (c : Nat) (ea : Addr) (bs : List Byte),
    let p := copyPk o.bytes
    let cell := reduceCell 0 (p.element bs) p.lsbw
    let r := sendUnit s o c ea bs
    r.1.mem = s.mem ∧ (p.op = 2 → r.1.out = s.out ++ [.peer o.uid c ea (toLe 16 cell.1) (some (0, p.lsbw))] ∧ r.2.nan = (o.nan || cell.2.2) ∧
      r.2.clamp = (o.clamp || cell.2.1)) ∧
    (p.op = 3 ∨ p.op = 4 → r.1.out = s.out ++ [.peer o.uid c ea bs (some (p.z, p.rop))]) ∧
    (p.reduces = false → r.1.out = s.out ++ [.peer o.uid c ea bs none])) ∧
  (∀ (s s' : State) (o o' : Op) (c : Nat), s.Good → o.kind ≠ .xcoll → s.makeChunk o c = .made s' o' →
    let p := copyPk o.bytes
    let ps := o.piecesAt c
    let adds : Bool := o.kind != .astr && p.reduces
    let width := fun (x : Piece) => if adds = false then x.dst.n else if p.op = 2 then 16 else p.z
    let aim := fun (y : Span) => (resolve s o.agent y.ea 1 (if adds = true then .atomic else .write)).2
    let spots := ps.flatMap fun x => (o.targetsOf x).flatMap fun y => match aim y with
      | some t => t.reps.map fun l => (l, width x)
      | none => []
    let sources := ps.flatMap (o.sourceOf (o.entryOf s c (s.entries o ps)))
    let used := sources.map (·.ea) ++ (ps.flatMap o.targetsOf).map (·.ea) ++ ps.map (fun x => p.src + BitVec.ofNat 64 (8 * x.row)) ++ [p.caddr]
    let content := fun (x : Piece) => if o.kind = .astr ∨ p.op = 1 then o.ownBytes x else (o.sourceOf (o.entryOf s c (s.entries o ps)) x).flatMap fun y =>
      match (resolve s o.agent y.ea 1 .read).2 with
      | some g => Memory.gets s.mem g.loc y.n
      | none => []
    (∀ a, (∀ z ∈ spots, ¬(z.1 ≤ a ∧ a < z.1 + z.2)) →
      (∀ ea ∈ used, ∀ n k g e, (resolve s o.agent ea n k).2 = some g → g.leaf = some e → ∀ l ∈ e.at_.reps, ¬(l ≤ a ∧ a < l + 8)) →
      Memory.get s'.mem a = Memory.get s.mem a) ∧
    (s.past = [] → o.lines = [] → (∀ y ∈ sources, ∀ g, (resolve s o.agent y.ea 1 .read).2 = some g → g.view ≠ .system) →
      (∀ ea ∈ used, ∀ n k g e, (resolve s o.agent ea n k).2 = some g → g.leaf = some e → e.pte &&& 0xC0 = 0xC0) →
      spots.Pairwise (fun a b => a.1 + a.2 ≤ b.1 ∨ b.1 + b.2 ≤ a.1) →
      ∀ x ∈ ps, ∀ y ∈ o.targetsOf x, ∀ t, aim y = some t → t.view ≠ .system → ∀ l ∈ t.reps,
        (adds = false → Memory.gets s'.mem l x.dst.n = content x) ∧
        (t.loc ∈ t.reps → adds = true → p.op = 2 → Memory.nat s'.mem l 16 = (reduceCell (Memory.nat s.mem t.loc 16) (p.element (content x)) p.lsbw).1) ∧
        (t.loc ∈ t.reps → adds = true → p.op ≠ 2 → Memory.nat s'.mem l p.z = atomNat p.z p.rop (Memory.nat s.mem t.loc p.z) (leNat (content x))))) ∧
  (∀ (s : State) (o : Op), let p := copyPk o.bytes
    let n := (min (2048 * o.prog + 2048) o.plan.total - 2048 * o.prog) * if o.kind ≠ .astr ∧ p.op = 6 then p.ranks.length else 1
    let s' := s.updOp o.uid fun x => { x with prog := o.prog + 1 }
    s.countChunk o = if o.kind = .queue then s' else s'.charge o.ctx o.slice 0 (4 * ((n + 127) / 128))) ∧
  (∀ (s : State) (u : Nat) (o : Op), s.op? u = some o →
    (o.prog * 2048 < o.plan.total → s.tryComplete u = s) ∧
    (o.plan.total ≤ o.prog * 2048 → (o.acqHost = true ∧ ∃ x ∈ s.stores, x.op = some u) → s.tryComplete u = s) ∧
    (o.plan.total ≤ o.prog * 2048 → ¬(o.acqHost = true ∧ ∃ x ∈ s.stores, x.op = some u) →
      s.tryComplete u = if o.kind = .astr then s.endOp u .done else s.completeCopy o (copyPk o.bytes))) ∧
  ∀ (s : State) (o : Op) (p : CopyPk) (t : Team), s.team? o.team = some t →
    let n := t.tileBase + p.cid
    let e := s.tile o.core n
    let cw := s.cwTarget o p
    let fits := (e.st = .filling ∨ e.st = .draining) ∧ p.counted ≤ e.pend
    let broken := ∃ g, cw = some g ∧ g.view ≠ .system ∧ s.partialBad g.loc 4 = true
    let stored := match cw with
      | some g => s.opStore o g p.caddr (toLe 4 p.cval)
      | none => s
    (p.ck = 1 → ¬fits → s.completeCopy o p = s.failOp o 0xC 7 0) ∧
    (p.ck ≠ 1 ∨ fits → broken → s.completeCopy o p = s.failOp o 0xB 4 p.caddr) ∧
    (p.ck = 0 → ¬broken → s.completeCopy o p = stored.endOp o.uid .done) ∧
    (p.ck = 1 → fits → ¬broken → s.completeCopy o p = (stored.updTile o.core n fun e => if p.counted < e.pend then { e with pend := e.pend - p.counted }
      else if e.st = .filling then { e with pend := 0, st := .ready } else { e with pend := e.size, st := .filling }).endOp o.uid .done) ∧
    (p.ck = 2 → ¬broken → s.completeCopy o p = (stored.decCounter o.ctx p.cid none).endOp o.uid .done) ∧
    (p.ck = 3 → ¬broken → ∀ q g, stored.queues.find? (·.id == o.queue) = some q → stored.look o.agent ⟨q.header + 136, 4⟩ .write = ([], some g) →
      s.completeCopy o p = ((stored.setAD g true).opStore o g (q.header + 136) (toLe 4 p.ticket)).endOp o.uid .done) ∧
    (p.cw = false → tget o.lines cwKey = none → cw = none)

/-- R271 to R273, R275 to R277, R295, R296: the handle instructions, when every value given is null or has a handle's shape; what they name, and the
record they read. A new handle names its slot, core, generation and kind, and its generation tells it from the slot's last one. A handle names the
operation of its context that holds its slot with its generation (R272); whatever kind it carries, that is the model's choice (log 28). A thread's
accesses after its HWAIT stand after the operation's writes (R110, log 3). -/
def Obligations.HandleResults : Prop :=
  (∀ (s : State) (k : Nat) (o : Op), k < 256 → o.core < 192 →
    (s.newOp k o).2.token = (s.slot o.core k).gen + 1 ++ BitVec.ofNat 8 o.core ++ BitVec.ofNat 8 k ++ BitVec.ofNat 4 o.kind.code ++ 0#4 ∧
    (o.kind ≠ .queue → badHandle (s.newOp k o).2.token = false) ∧ (s.newOp k o).1.slot o.core k = ⟨(s.slot o.core k).gen + 1, some s.seq⟩ ∧
    ∀ c j, j < 256 → (c, j) ≠ (o.core, k) → (s.newOp k o).1.slot c j = s.slot c j) ∧
  (∀ (s : State) (ctx : Nat) (x : Word), s.named? ctx 0 = none ∧
    (∀ o, s.named? ctx x = some o → o ∈ s.ops ∧ o.ctx = ctx ∧ o.kind ≠ .queue ∧ o.token.extractLsb' 8 24 = x.extractLsb' 8 24 ∧ s.recordOf ctx x = o.record) ∧
    (s.named? ctx x = none → x = 0 ∨ ∀ o ∈ s.ops, ¬(o.ctx = ctx ∧ o.kind ≠ .queue ∧ o.token.extractLsb' 8 24 = x.extractLsb' 8 24)) ∧
    (s.named? ctx x = none → ∃ y, s.recordOf ctx x = [y, 0, 0, x] ∧ bits y 1 0 = 2 ∧ bits y 12 11 = 3 ∧ bits y 10 2 = 0 ∧ bits y 31 13 = 0)) ∧
  (∀ o : Op, o.cause < 256 → o.otid < 2048 → o.pri < 4 → o.prog < 2 ^ 32 → ∃ y z : Word, o.record = [y, o.pred, z, o.token] ∧ z.toNat = o.prog ∧
    bits y 31 24 = o.cause ∧ bits y 23 13 = (if o.own = .thread then o.otid else 0) ∧
    bits y 12 11 = (match o.own with | .thread => 0 | .team => 1 | .orphan => 2 | .retired => 3) ∧ y.getLsbD 10 = o.det ∧ y.getLsbD 9 = o.ord ∧
    y.getLsbD 8 = o.clamp ∧ y.getLsbD 7 = o.nan ∧ y.getLsbD 6 = false ∧ bits y 5 4 = o.pri ∧ bits y 3 2 = 0 ∧
    bits y 1 0 = (match o.st with | .opening | .queued => 0 | .running => 1 | .done => 2 | .cancelled => 3)) ∧
  ∀ w : Rrr,
  let fine := fun (v : Dev) (i : Iss) => ∀ t ∈ i.doers, badHandle (v.a32 t) = false
  let named := fun (v : Dev) (i : Iss) (s : State) (t : Thread) => s.named? i.team.ctx (v.a32 t)
  Completes (.hwait w) (fun v i s => fine v i ∧ ∀ t ∈ i.doers, ∀ o, named v i s t = some o → o.st.final = true) (fun v i s =>
    i.finish ((i.doers.filterMap fun t => (named v i s t).filter fun o => o.ownedBy i.team.uid t.tidx).foldl (fun s o => s.releaseOp o.uid)
      (i.upd s i.acts fun t => ({ t with wait := .run, pts := s.tick } : Thread).setVs [(v.d.toNat, (s.recordOf i.team.ctx (v.a32 (i.src t))).headD 0)]))) ∧
  Completes (.htest w) (fun v i _ => fine v i) (fun v i s => i.changed s fun src t => t.setP (v.d.toNat % 8) (match named v i s src with
    | none => true
    | some o => o.st.final)) ∧
  Completes (.hstat w) (fun v i _ => fine v i) (fun v i s => i.changed s fun src t => t.setVs (v.wds (s.recordOf i.team.ctx (v.a32 src)))) ∧
  Completes (.hcan w) (fun v i _ => fine v i) (fun v i s => i.finish (i.doers.foldl (fun s t => match s.named? i.team.ctx (v.a32 t) with
    | none => i.upd s (i.receivers t) fun th => th.setP (v.d.toNat % 8) false
    | some o => if o.st.final = true ∨ o.cancel = true then i.upd s (i.receivers t) fun th => th.setP (v.d.toNat % 8) false
      else i.upd (s.cancelOp o) (i.receivers t) fun th => th.setP (v.d.toNat % 8) true) s)) ∧
  Completes (.hdet w) (fun v i _ => fine v i) (fun v i s => i.finish (i.doers.foldl (fun s t => match s.named? i.team.ctx (v.a32 t) with
    | none => s
    | some o => if o.own = .thread ∧ o.oteam = i.team.uid ∧ o.otid = t.tidx then
        (if o.st.final then s.releaseOp o.uid else s.updOp o.uid fun o => { o with own := .team, otid := 0, det := true }) else s) s)) ∧
  Completes (.hpri w) (fun v i _ => fine v i) (fun v i s => i.finish (i.doers.foldl (fun s t => match s.named? i.team.ctx (v.a32 t) with
    | none => s
    | some o => if o.st.final then s else s.updOp o.uid fun o => { o with pri := bits (v.b32 t) 1 0 }) s)) ∧
  Completes (.hadopt w) (fun v i _ => fine v i) (fun v i s => i.finish (i.doers.foldl (fun s t => match s.adoptable i.team.ctx i.team.uid (v.a32 t) with
    | none => i.upd s (i.receivers t) fun th => th.setVs [(v.d.toNat, 0)]
    | some o => i.upd ((s.updOp o.uid fun o => { o with own := .thread, oteam := i.team.uid, otid := t.tidx, det := false }).updCtx i.team.ctx fun c =>
        { c with orphans := c.orphans.filter (· != o.uid) }) (i.receivers t) fun th =>
          th.setReg v.d.toNat { val := o.token, tag := if o.st.final then .ready else .mark }) s))

/-- R92 to R94, R297, R389: the tile instructions. -/
def Obligations.TileResults : Prop := ∀ (w : Rrr) (l : Thread),
  let entry := fun (k : Nat) (i : Iss) (s : State) => s.tile i.team.core (i.team.tileBase + k)
  (∀ ins ∈ [Instr.tdef w, .tset w, .tqry w], Completes ins (fun _ i _ => i.act = []) (fun _ i s => i.finish s)) ∧
  Completes (.tdef w) (fun v i s => i.lead = some l ∧ v.d.toNat < i.desc.tiles ∧ (entry v.d.toNat i s).st = .empty ∧
      (v.a64 l).toNat % 128 = 0 ∧ (v.b32 l).toNat % 128 = 0 ∧ 128 ≤ (v.b32 l).toNat ∧ (v.b32 l).toNat ≤ 2 ^ 24 ∧
      s.oneWindow (.thread i.team.uid l.tidx) ((v.a64 l).toNat % 2 ^ 56) (v.b32 l).toNat = true) (fun v i s =>
    i.finish (s.updTile i.team.core (i.team.tileBase + v.d.toNat) fun _ =>
      { base := (v.a64 l).toNat % 2 ^ 56, size := (v.b32 l).toNat, pend := (v.b32 l).toNat, st := .filling, team := i.team.slot })) ∧
  Completes (.tset w) (fun v i s => i.lead = some l ∧ v.d.toNat < i.desc.tiles ∧ v.b.toNat % 4 ≤ 1 ∧ (entry v.d.toNat i s).st = .ready) (fun v i s =>
    i.finish (s.updTile i.team.core (i.team.tileBase + v.d.toNat) fun e => { e with st := if v.b.toNat % 4 = 0 then .filling else .draining, pend := e.size })) ∧
  Completes (.tset w) (fun v i s => i.lead = some l ∧ v.d.toNat < i.desc.tiles ∧ v.b.toNat % 4 = 2 ∧ (entry v.d.toNat i s).st ≠ .empty) (fun v i s =>
    i.finish ((s.updTile i.team.core (i.team.tileBase + v.d.toNat) fun e => { team := e.team }).releaseFaults i.team.core (i.team.tileBase + v.d.toNat))) ∧
  Completes (.tqry w) (fun v i _ => i.lead = some l ∧ v.a.toNat < i.desc.tiles) (fun v i s =>
    i.finish (i.deliver (i.hear s i.acts s.tick) 4 4 3 [{ thr := l, ea := 0, vals := (entry v.a.toNat i s).words i.team.slot, blocks := [] }])) ∧
  ∀ (e : Tile) (slot : Nat), e.base < 2 ^ 56 → e.size < 2 ^ 25 → e.pend < 2 ^ 25 → slot < 256 → ∃ a b c d : Word, e.words slot = [a, b, c, d] ∧
    (d ++ c ++ b ++ a : BitVec 128).toNat =
      e.base * 2 ^ 72 + e.size * 2 ^ 39 + e.pend * 2 ^ 14 + (match e.st with | .empty => 0 | .filling => 1 | .ready => 2 | .draining => 3) * 2 ^ 12 + slot

/-- R305, R318 to R324, R337 to R339, R416: the launch-group instructions and SYSC; the table of PSTAT, and what a decrement of a counter does. How much
a prefetch counter has risen is a free value (log 2); where a thread's accesses have come to in T is the model's bookkeeping (log 3). -/
def Obligations.LaunchGroupResults : Prop :=
  (∀ (s : State) (core : Nat), let k := s.core core
    let c := s.column (columnOfCore core)
    s.pstat core 0x0000 = some k.homeLoc ∧ s.pstat core 0x0001 = some k.homeRem ∧ s.pstat core 0x0030 = some k.tdSpill ∧
    s.pstat core 0x0031 = some k.tdRefill ∧ s.pstat core 0x0032 = some k.tdHbm ∧ s.pstat core 0x0040 = some c.level ∧
    s.pstat core 0x0041 = some c.cls ∧ s.pstat core 0x0042 = some c.events ∧
    ∀ n, n ∉ [0x0000, 0x0001, 0x0030, 0x0031, 0x0032, 0x0040, 0x0041, 0x0042] → s.pstat core n = none) ∧
  (∀ (s : State) (ctx n : Nat) (c : Context) (who : Option Who), s.ctx? ctx = some c →
    (c.counter n = 0 → s.decCounter ctx n who = s.postBy ctx 1 0x21 (BitVec.ofNat 64 n) who) ∧
    ∀ k, c.counter n = k + 1 → (∃ c', (s.decCounter ctx n who).ctx? ctx = some c' ∧ c'.counter n = k ∧ ∀ m, m ≠ n → c'.counter m = c.counter m) ∧
      (k ≠ 0 → (s.decCounter ctx n who).slices = s.slices) ∧
      (k = 0 → ∀ x ∈ (s.decCounter ctx n who).slices, x.ctx = ctx → x.desc.wctr = n → x.complete = false → x.ready ≠ none)) ∧
  (∀ w : Rrr,
  (∀ ins ∈ [Instr.launch w, .depdec w, .ptrap w, .pstat w], Completes ins (fun _ i _ => i.act = []) (fun _ i s => i.finish s)) ∧
  (∀ l, Completes (.launch w) (fun v i s => i.lead = some l ∧ s.canLaunch i.team.ctx = true ∧
        ((v.a64 l).toNat % 256 = 0 → s.needsWalk (.queue i.team.ctx (dieOfCore i.team.core)) (v.a64 l) = false)) (fun v i s =>
      let r := (s.takeWalks i.team.uid i.grp.gidx).launch i.team.ctx (columnOfCore i.team.core) (v.a64 l) none false (some (i.who l))
      i.finish (i.upd r.1 i.acts fun t => t.setVs [(v.d.toNat, r.2)])) ∧
    (∀ c, Completes (.depdec w) (fun v i s => i.lead = some l ∧ s.ctx? i.team.ctx = some c ∧ (v.b32 l).toNat % 4096 < c.cn) (fun v i s =>
      i.finish (i.upd (s.decCounter i.team.ctx ((v.b32 l).toNat % 4096) (some (i.who l))) i.acts fun t =>
        t.setVs [(v.d.toNat, BitVec.ofNat 32 (c.counter ((v.b32 l).toNat % 4096) - 1))]))) ∧
    Completes (.ptrap w) (fun _ i _ => i.lead = some l) (fun v i s =>
      i.finish (i.upd (s.updTeam i.team.uid fun t => { t with throttleMask := (v.b32 l).extractLsb' 0 2 }) i.acts fun t =>
        t.setVs [(v.d.toNat, i.team.throttleMask.setWidth 32)])) ∧
    ∀ n, Completes (.pstat w) (fun v i s => i.lead = some l ∧ bits (v.b32 l) 23 16 = 0 ∧ s.pstat i.team.core (bits (v.b32 l) 15 0) = some n) (fun _ i s =>
      i.finish (i.deliver s 2 8 1 [{ thr := l, ea := 0, vals := leWords 2 (toLe 8 n), blocks := [] }]))) ∧
  Completes (.slyld w) (fun _ i s => ∀ t ∈ i.nowActs ((i.upd s i.acts fun t => match t.wait with
      | .slyldDone _ => t
      | _ => { t with wait := .slyld }).meet i.team.uid), ∃ r, t.wait = .slyldDone r) (fun v i s =>
    i.finish (i.upd ((i.upd s i.acts fun t => match t.wait with
      | .slyldDone _ => t
      | _ => { t with wait := .slyld }).meet i.team.uid) i.acts fun t =>
        ({ t with wait := .run } : Thread).setVs [(v.d.toNat, if t.wait = .slyldDone true then 1 else 0)])) ∧
  ∀ x, Completes (.budgt w) (fun _ i s => s.slice? i.team.ctx i.team.slice = some x) (fun v i s =>
    let val : Addr := match v.b.toNat % 4 with
      | 0 => if x.desc.budget = 0 then 0xFFFFFFFFFFFFFFFF#64 else BitVec.ofNat 64 (x.desc.budget - x.cycles)
      | 1 => BitVec.ofNat 64 x.cycles
      | 2 => if x.desc.equota = 0 then 0xFFFFFFFFFFFFFFFF#64 else BitVec.ofNat 64 (x.desc.equota - x.energy)
      | _ => BitVec.ofNat 64 x.desc.deadline
    i.changed s fun _ t => t.setVs [(v.d.toNat, val.extractLsb' 0 32), (v.d.toNat + 1, val.extractLsb' 32 32)])) ∧
  (∀ (i : Iss) (s : State) (t th : Thread) (ring : Nat), s.Good → ring % 64 = 0 → columnOfCore i.team.core < 48 →
    let col := columnOfCore i.team.core
    let k := (s.column col).post
    let y := i.postRequest s t ring
    let f := fun (n len : Nat) => leNat (y.peekPa (ring + 64 * k + n) len (col / 12))
    (∀ n < 64, (paLoc (ring + 64 * k + n) (col / 12)).isSome = true ∧ ∀ l ∈ paLocs (ring + 64 * k + n), l / 64 ∉ s.bad) →
    f 0 4 = i.team.ctx % 2 ^ 32 ∧ f 4 4 = i.team.slice.toNat ∧ f 8 4 = t.tidx % 2 ^ 32 ∧ f 12 2 = i.dev.imm % 4096 ∧ f 14 1 = i.team.core % 256 ∧ f 15 1 = 0 ∧
    (∀ n < 8, f (16 + 4 * n) 4 = (t.v (i.dev.d.toNat + n)).toNat) ∧ f 48 4 = 0 ∧ f 52 12 = 0 ∧
    (∀ a, (∀ n < 64, a ∉ paLocs (ring + 64 * k + n)) → Memory.get y.mem a = Memory.get s.mem a) ∧
    (y.column col).post = (k + 1) % 64 ∧ (y.column col).posted = (s.column col).posted + 1 ∧ (y.column col).served = (s.column col).served ∧
    (y.hart col).mip = (s.hart col).mip ||| 0x10000#64 ∧
    (s.thread? i.team.uid i.grp.gidx t.tidx = some th → th.watch = none → y.thread? i.team.uid i.grp.gidx t.tidx = some { th with wait := .sysc k })) ∧
  ∀ w : Ri, Completes (.sysc w) (fun _ i _ => i.act = []) (fun _ i s => i.finish s) ∧
  (∀ v s i t ring, Instr.dev (.sysc w) = some v → Issues s v i → i.act ≠ [] → (s.column (columnOfCore i.team.core)).ring = some ring →
    i.doers.find? (fun t => match t.wait with | .syscDone _ => false | _ => true) = some t →
    let k := (s.column (columnOfCore i.team.core)).post
    let status := leNat (s.peekPa (ring + 64 * k + 48) 4 (columnOfCore i.team.core / 12))
    ((∃ n, t.wait = .sysc n) → exec (.sysc w) s = .next (i.await s)) ∧
    ((∀ n, t.wait ≠ .sysc n) → hostPa (ring + 64 * k + 48) = false →
      (status = 2 → exec (.sysc w) s = .next (i.await (i.postRequest s t ring))) ∧ (status ≠ 2 → exec (.sysc w) s = .next (i.await s)))) ∧
  Completes (.sysc w) (fun _ i s => i.act ≠ [] ∧ (s.column (columnOfCore i.team.core)).ring.isSome ∧
      ∀ t ∈ i.act, ∃ args, t.wait = .syscDone args) (fun v i s =>
    i.changed s fun src t => ({ t with wait := .run, pts := s.tick } : Thread).setVs (v.wds (match src.wait with | .syscDone args => args | _ => [])))

/-- R302 to R306, R319, R328, R415: a descriptor's fields and its validity; a launch of a valid descriptor that can be read makes one slice with the least
free id (log 13), ready at once where its counter stands at 0 or it names none; SETW sets that counter first, and so may make the slices ready that it
holds; a misplaced or invalid one, and one whose read meets a cause, makes nothing but its entry and answers 0. That SETW without a counter sets none is
the model's choice (log 69). -/
def Obligations.LaunchRule : Prop :=
  (∀ (bs : List Byte) (va : Addr) (argp : Option Addr) (cn : Nat),
    let f := fieldOf bs
    let d := parseDesc bs va argp
    let groups := (d.tsize + d.width - 1) / d.width
    d.entry = BitVec.ofNat 64 (f 0 8) ∧ d.argp = (match argp with | some p => p | none => if f 8 8 = 0 then va + 192 else BitVec.ofNat 64 (f 8 8)) ∧
    d.nx = f 16 4 ∧ d.ny = f 20 4 ∧ d.nz = f 24 4 ∧ d.tsize = f 28 2 ∧ (f 30 1 < 4 → d.width = 32 * 2 ^ f 30 1) ∧ (f 31 1 < 8 → d.spread = 2 ^ f 31 1) ∧
    d.clw = f 32 1 % 16 ∧ d.clh = f 32 1 / 16 ∧ (f 33 1 < 8 → d.frame = 8 * (f 33 1 + 1)) ∧ d.priv = f 34 2 ∧ d.scr = f 36 1 ∧ d.csh = f 37 1 ∧ d.tiles = f 38 1 ∧
    d.keep = (f 39 1).testBit 3 ∧ d.home = (f 39 1).testBit 2 ∧ d.setw = (f 39 1).testBit 1 ∧ d.uchk = (f 39 1).testBit 0 ∧
    d.deadline = f 40 8 ∧ d.budget = f 48 8 ∧ d.equota = f 56 8 ∧ d.handler = BitVec.ofNat 64 (f 64 8) ∧ d.wctr = f 72 2 ∧ d.winit = f 74 2 ∧ d.dctr = f 76 2 ∧
    (f 78 1 < 4 → d.cls = f 78 1) ∧
    (validDesc bs d cn = true ↔
      f 0 8 % 16 = 0 ∧ f 64 8 % 16 = 0 ∧ 1 ≤ f 16 4 * f 20 4 * f 24 4 ∧ f 16 4 * f 20 4 * f 24 4 ≤ 2 ^ 32 ∧ 1 ≤ d.tsize ∧ d.tsize ≤ 2048 ∧ f 30 1 ≤ 2 ∧ f 31 1 ≤ 4 ∧
      d.clw + 1 ≤ 8 ∧ d.clh + 1 ≤ 6 ∧ (d.clw + 1) * (d.clh + 1) ≤ 12 ∧ (f 16 4 * f 20 4 * f 24 4) % ((d.clw + 1) * (d.clh + 1)) = 0 ∧ f 33 1 < 8 ∧
      d.priv % 16 = 0 ∧ d.priv ≤ 4096 ∧ d.scr ≤ 24 ∧ d.csh ≤ 16 ∧ d.scr + d.csh ≤ 24 ∧ d.tiles ≤ 64 ∧ f 39 1 < 16 ∧
      (d.wctr = 0xFFFF ∨ d.wctr < cn) ∧ (d.dctr = 0xFFFF ∨ d.dctr < cn) ∧ f 78 1 < 4 ∧ (∀ k, 79 ≤ k → k < 192 → bs.getD k 0 = 0) ∧
      (d.home = true → d.clw + 1 ≤ 2 ∧ d.clh + 1 ≤ 2) ∧ d.tsize ≤ 1024 * d.spread ∧
      ∀ p < d.spread, (List.range groups).countP (fun g => g % d.spread == p) ≤ 32 ∧ ∀ lane < 16,
        let held := (List.range d.tsize).countP fun t => t / d.width % d.spread == p && t % d.width % 16 == lane
        held ≤ 64 ∧ held * (d.frame / 8) ≤ 384 ∧ held * d.priv ≤ 4096)) ∧
  (∀ (s : State) (ctx die : Nat) (va : Addr) (g : Nat → Target), va.toNat % 256 = 0 →
    (∀ k < 16, inWindows (va + BitVec.ofNat 64 (16 * k)).toNat = false ∧ (g k).view ≠ .system ∧
      s.look (.queue ctx die) ⟨va + BitVec.ofNat 64 (16 * k), 16⟩ .read = ([], some (g k))) →
    s.readDesc ctx die va = .ok ((List.range 16).foldl (fun s k => s.setAD (g k) false) s, (List.range 16).flatMap fun k =>
      ((List.range 16).foldl (fun s k => s.setAD (g k) false) s).bytesAt (g k) 16)) ∧
  (∀ (s s' : State) (ctx col : Nat) (va : Addr) (argp : Option Addr) (join : Bool) (c d : Context) (bs : List Byte) (who : Option Who),
    s.ctx? ctx = some c → s.stopped = false → va.toNat % 256 = 0 → s.readDesc ctx (col / 12) va = .ok (s', bs) → s'.ctx? ctx = some d →
    let x := parseDesc bs va argp
    validDesc bs x c.cn = true →
    let sets := x.setw = true ∧ x.wctr ≠ 0xFFFF
    let count := if sets then x.winit else d.counter x.wctr
    let r := s.launch ctx col va argp join who
    r.2 = s'.freeId ctx ∧
    (∃ y ∈ r.1.slices, y.ctx = ctx ∧ y.id = s'.freeId ctx ∧ y.desc = x ∧ y.column = col ∧ y.joined = (join || x.keep) ∧ y.left = x.nx * x.ny * x.nz ∧ y.next = 0 ∧
      y.complete = false ∧ y.cycles = 0 ∧ y.energy = 0 ∧ (y.ready.isSome = true ↔ x.wctr = 0xFFFF ∨ count = 0)) ∧
    r.1.slices.length = s'.slices.length + 1 ∧
    (∃ d', r.1.ctx? ctx = some d' ∧ ∀ n, d'.counter n = if sets ∧ n = x.wctr then x.winit else d.counter n) ∧
    (sets → x.winit = 0 → ∀ y ∈ r.1.slices, y.ctx = ctx → y.desc.wctr = x.wctr → y.complete = false → y.ready ≠ none) ∧
    (¬(sets ∧ x.winit = 0) → ∀ y ∈ s'.slices, ∃ y' ∈ r.1.slices, y'.ctx = y.ctx ∧ y'.id = y.id ∧ y'.ready = y.ready)) ∧
  (∀ (s : State) (ctx col : Nat) (va : Addr) (argp : Option Addr) (join : Bool) (c : Context) (m : OpMiss) (who : Option Who),
    s.ctx? ctx = some c → s.stopped = false → va.toNat % 256 = 0 → s.readDesc ctx (col / 12) va = .error m →
    s.launch ctx col va argp join who = (s.postBy ctx m.miss.cause m.miss.sub va who (some 0), 0)) ∧
  ∀ (s s' : State) (ctx col : Nat) (va : Addr) (c : Context) (bs : List Byte) (who : Option Who),
  s.ctx? ctx = some c → s.stopped = false →
  (va.toNat % 256 ≠ 0 → s.launch ctx col va none false who = (s.postBy ctx 1 0x20 va who (some 0), 0)) ∧
  (va.toNat % 256 = 0 → s.readDesc ctx (col / 12) va = .ok (s', bs) → (parseDesc bs va none).wctr = 0xFFFF → validDesc bs (parseDesc bs va none) c.cn = true →
    (s.launch ctx col va none false who).2 = s'.freeId ctx ∧
    (∃ x ∈ (s.launch ctx col va none false who).1.slices, x.id = s'.freeId ctx ∧ x.ctx = ctx ∧ x.desc = parseDesc bs va none ∧ x.column = col ∧
        x.ready = some s'.seq ∧ x.left = x.desc.total ∧ x.next = 0) ∧
      (s.launch ctx col va none false who).1.slices.length = s'.slices.length + 1) ∧
  (va.toNat % 256 = 0 → s.readDesc ctx (col / 12) va = .ok (s', bs) → validDesc bs (parseDesc bs va none) c.cn = false →
    s.launch ctx col va none false who = (s'.postBy ctx 1 0x20 va who (some 0), 0))

/-- R326 to R329, R334: the base cores' instructions. edisp launches with its arguments stored; ejoin answers a complete or unknown slice; eginv and
eginvw need a mode above U; what is no instruction raises an illegal-instruction exception, whose entry is the model's (log 12). Of contexts alike in
ASID and root the first is current by the model's choice (log 86). -/
def Obligations.BaseCoreResults : Prop := ∀ s : State,
  let h := s.curHart
  let x := s.hart h
  let joined := fun (s : State) (rd : BitVec 5) (v : Addr) => ((s.updHart h fun y => { y with joinId := none, joinVal := none }).hartNow h).retireHart h rd v
  (∀ rd rs1 rs2, (rs2 = 0 → (x.r rs1).toNat % 256 ≠ 0 → exec (.edisp rd rs1 rs2) s = .next (s.hartTrap h 6 (x.r rs1))) ∧
    (rs2 ≠ 0 → (x.r rs2).toNat % 64 ≠ 0 → exec (.edisp rd rs1 rs2) s = .next (s.hartTrap h 6 (x.r rs2))) ∧
    ∀ s', s.argStores h (if rs2 = 0 then x.r rs1 + 192 else x.r rs2) 8 0 = (s', false) → (rs2 = 0 → (x.r rs1).toNat % 256 = 0) →
      (rs2 ≠ 0 → (x.r rs2).toNat % 64 = 0) → exec (.edisp rd rs1 rs2) s = .next s') ∧
  (∀ (z : State) (base : Addr) (n i : Nat), let ea := base + BitVec.ofNat 64 (8 * i)
    (∀ e, ea.toNat % 8 = 0 → z.hartFaults h ea 8 .write e → z.argStores h base (n + 1) i = (z.hartTrap h e ea, false)) ∧
    (∀ t, ea.toNat % 8 = 0 → z.hartReaches h ea 8 .write t → t.view ≠ .system → z.argStores h base (n + 1) i =
      (z.hartStored h t (toLe 8 ((z.hart h).r (BitVec.ofNat 5 (10 + i))).toNat)).argStores h base n (i + 1)) ∧
    z.argStores h base 0 i = (z, true)) ∧
  (∀ rd rs1 rs2 s', s.argStores h (if rs2 = 0 then x.r rs1 + 192 else x.r rs2) 8 0 = (s', true) → (x.r rs1).toNat % 256 = 0 → (rs2 ≠ 0 → (x.r rs2).toNat % 64 = 0) →
    (s'.currentCtx h = none → exec (.edisp rd rs1 rs2) s = .next (s'.retireHart h rd 0)) ∧
    ∀ c, s'.currentCtx h = some c → s'.stopped = false → s'.canLaunch c.num = true →
      let r := s'.launch c.num h (x.r rs1) (if rs2 = 0 then none else some (x.r rs2)) true none
      exec (.edisp rd rs1 rs2) s = .next ((r.1.hartNow h).retireHart h rd (r.2.setWidth 64))) ∧
  (∀ rd rs1,
    (∀ v, x.joinVal = some v → exec (.ejoin rd rs1) s = .next (joined s rd v)) ∧
    (x.joinVal = none → (∀ c, s.currentCtx h = some c → s.slice? c.num ((x.r rs1).setWidth 32) = none) → exec (.ejoin rd rs1) s = .next (joined s rd (BitVec.allOnes 64))) ∧
    ∀ c y, x.joinVal = none → s.currentCtx h = some c → s.slice? c.num ((x.r rs1).setWidth 32) = some y → y.complete = true →
      exec (.ejoin rd rs1) s = .next (joined (s.dropSlice y) rd (BitVec.ofNat 64 y.cause))) ∧
  (∀ rs1 rs2, x.mode ≠ .user → ∃ i : Inval, i.hart = h ∧ i.va = (x.r rs1).toNat / 4096 * 4096 ∧ i.pages = (x.r rs2).toNat / 2 ^ 20 ∧
      i.asid = (if (x.r rs2).getLsbD 19 then none else some ((x.r rs2).toNat % 2 ^ 16)) ∧ i.toAck = i.toReceive ∧
      (∀ p, p ∈ i.toReceive ↔ (∃ k < 48, p = .hart k) ∨ ∃ k < 4, p = .unit k) ∧
      exec (.eginv rs1 rs2) s = .next (({ s with seq := s.seq + 1, invals := s.invals ++ [i] } : State).retireHart h 0 0)) ∧
  (x.mode ≠ .user → (∀ i ∈ s.invals, i.hart ≠ h) → exec .eginvw s = .next (s.retireHart h 0 0)) ∧
  (x.mode = .user → exec .eginvw s = .next (s.hartTrap h 2 (wordVal .eginvw)) ∧ ∀ rs1 rs2, exec (.eginv rs1 rs2) s = .next (s.hartTrap h 2 (wordVal (.eginv rs1 rs2)))) ∧
  (∀ w : Word, exec (.illegalInstructionException w) s = .next (s.hartTrap h 2 (w.setWidth 64))) ∧
  ∀ (cause : Nat) (tval : Addr), x.mode = .machine → cause < 64 → let y := (s.hartTrap h cause tval).hart h
    y.mcause = BitVec.ofNat 64 cause ∧ y.mepc = x.pc ∧ y.mtval = tval ∧ y.mode = .machine ∧ y.pc = x.mtvec &&& ~~~3#64 ∧ y.x = x.x ∧
    y.mstatus.getLsbD 7 = x.mstatus.getLsbD 3 ∧ y.mstatus.getLsbD 3 = false ∧ y.mstatus.extractLsb' 11 2 = 3#2

/-- R326, R330, R338, R339, R117, R118: a base core's reads and writes of its registers, and its loads and stores, while no read of the host is
under way. A csrw to efcmd by a mode that may make it hands the Fold the command block it names, which a block of the host's is read for first; a
mode that may not takes an illegal-instruction exception. That csrs and csrc on efcmd only change the register, and give no command, is the
model's choice (log 52), and so are the registers' masks and traps (log 12). -/
def Obligations.BaseCoreAccess : Prop := ∀ (s : State) (k : Nat) (v : Addr) (rd : BitVec 5), (s.hart k).hostRead = none →
  (∀ csr op, (csrNeeds csr).code ≤ (s.hart k).mode.code → csr ≠ .efcmd ∨ op ≠ .write →
    let t := s.updHart k fun y => (y.csrSet csr op v).setR rd (y.csr csr)
    exec (.registerWrite k csr op ⟨v, rd⟩) s = .next (if csr = .mip ∨ csr = .sip then t.hartNow k else t)) ∧
  (∀ csr op, (s.hart k).mode.code < (csrNeeds csr).code → ∃ tval, exec (.registerWrite k csr op ⟨v, rd⟩) s =
    .next (({ s with draws := s.draws + 1 } : State).hartTrap k 2 tval)) ∧
  ((s.hart k).mode ≠ .user →
    let t := s.updHart k fun y => (y.csrSet .efcmd .write v).setR rd y.efcmd
    let blk := (csrNew .write (s.hart k).efcmd v 0x00FFFFFFFFFFFFC0).toNat
    (hostPa blk = false → exec (.registerWrite k .efcmd .write ⟨v, rd⟩) s = t.command ⟨k, blk⟩) ∧
    (hostPa blk = true → exec (.registerWrite k .efcmd .write ⟨v, rd⟩) s =
      .next ((t.updHart k fun y => { y with hostRead := some { rd := none, va := 0, size := 64 } }).askHost (.hart k) (2 ^ 64) 0 [] 0 blk 64 0))) ∧
  (∀ (y : Hart) (op : CsrOp), (y.csrSet .mip op v).mip &&& ~~~y.mip = 0 ∧ (y.csrSet .sip op v).mip &&& ~~~y.mip = 0 ∧
    ((y.csrSet .satp .write v).satp = if (v >>> 60).toNat ∈ [0, 8, 9, 10] then v else y.satp)) ∧
  (∀ n ∈ [1, 2, 4, 8], ∀ (va : Addr) (t : Target), va.toNat % n = 0 →
    (s.hartReaches k va n .read t →
      (t.view ≠ .system → let r := s.hartRead k t.loc n
        exec (.baseCoreAccess ⟨k, va, n, none, rd⟩) s = .next (r.1.updHart k fun x => x.setR rd (BitVec.ofNat 64 (leNat r.2))) ∧
        r.1.mem = s.mem ∧ (s.unseen [hartKey k] (s.hart k).pts (t.loc / 16) = [] → r.2 = Memory.gets s.mem t.loc n)) ∧
      (t.view = .system → exec (.baseCoreAccess ⟨k, va, n, none, rd⟩) s =
        .next ((s.updHart k fun y => { y with hostRead := some { rd := some rd, va := va, size := n } }).askHost (.hart k) (2 ^ 64) 0 [] va t.pa n 0 t.leaf))) ∧
    (s.hartReaches k va n .write t →
      (t.view ≠ .system → exec (.baseCoreAccess ⟨k, va, n, some v, rd⟩) s = .next (s.hartStored k t (toLe n v.toNat))) ∧
      (t.view = .system → ∃ s', exec (.baseCoreAccess ⟨k, va, n, some v, rd⟩) s = .next s' ∧
        s'.out = s.out ++ [.hostStore s.seq (t.pa / 2 ^ 44 % 4) (t.pa % 2 ^ 44) (toLe n v.toNat)] ∧
        ∃ x, s'.stores = s.stores ++ [x] ∧ x.sysview = some t.pa ∧ x.ea = va ∧ x.data = toLe n v.toNat)) ∧
    ∀ e, (s.hartFaults k va n .read e → exec (.baseCoreAccess ⟨k, va, n, none, rd⟩) s = .next (s.hartTrap k e va)) ∧
      (s.hartFaults k va n .write e → exec (.baseCoreAccess ⟨k, va, n, some v, rd⟩) s = .next (s.hartTrap k e va))) ∧
  ∀ n ∈ [2, 4, 8], ∀ va : Addr, va.toNat % n ≠ 0 →
    let ea := fun (i : Nat) => va + BitVec.ofNat 64 i
    (∀ tg : Nat → Target, (∀ i < n, s.hartReaches k (ea i) 1 .read (tg i) ∧ (tg i).view ≠ .system) → (∀ p ∈ s.past, p.fresh s.time = false) →
      ∃ s', exec (.baseCoreAccess ⟨k, va, n, none, rd⟩) s = .next s' ∧ s'.mem = s.mem ∧
        (rd ≠ 0 → (s'.hart k).r rd = BitVec.ofNat 64 (leNat ((List.range n).map fun i => Memory.get s.mem (tg i).loc)))) ∧
    (∀ tg : Nat → Target, (∀ i < n, s.hartReaches k (ea i) 1 .write (tg i) ∧ (tg i).view ≠ .system) →
      exec (.baseCoreAccess ⟨k, va, n, some v, rd⟩) s =
        .next ((List.range n).foldl (fun s i => s.hartStored k (tg i) [BitVec.ofNat 8 (v.toNat / 2 ^ (8 * i))]) s)) ∧
    ∀ i < n, ∀ e, ((∀ j < i, ∃ t, s.hartReaches k (ea j) 1 .read t) → s.hartFaults k (ea i) 1 .read e →
        exec (.baseCoreAccess ⟨k, va, n, none, rd⟩) s = .next (s.hartTrap k e (ea i))) ∧
      ((∀ j < i, ∃ t, s.hartReaches k (ea j) 1 .write t) → s.hartFaults k (ea i) 1 .write e →
        exec (.baseCoreAccess ⟨k, va, n, some v, rd⟩) s = .next (s.hartTrap k e (ea i)))

/-- R300, R301, R314, R330, R331, R339, R341, R370, R413, R422, R432, R434, R435, R440: the Fold's commands whose block asks for what can be had. The
places of the arguments in ARG are the model's (log 15), and so are the numbers a context and a registration take (log 13), that STILE keeps the
line's location as it is at registration (log 53), that POOL sets goals and moves no column by itself (log 55), that QUEUE binds no Gleaners
(log 69), the states that PREEMPT and RESTORE accept (log 87), and the alias key's layout and what a certificate holds (log 5). -/
def Obligations.FoldResults : Prop :=
  let ctx := fun (bs : List Byte) => fieldOf bs 4 4
  let running := fun (x : Context) (bs : List Byte) (s : State) => s.ctx? (ctx bs) = some x ∧ x.phase ≠ .wiped
  (∀ drain swap b0 b1 b2 b3, Serves .create 0x01 true (fun bs s =>
      let save := fieldOf bs 32 8
      timerOf (fieldOf bs 12 4) 1000 100000000 200000 = some drain ∧ timerOf (fieldOf bs 40 8) 100000 100000000 2000000 = some swap ∧
      fieldOf bs 10 2 + (s.contexts.map (·.cn)).sum ≤ 4096 ∧ (∀ k < 4, fieldOf bs (48 + 2 * k) 2 ≤ 448) ∧ fieldOf bs 16 8 < 2 ^ 44 ∧
      inHbm (fieldOf bs 24 8) = true ∧ inHbm save = true ∧
      s.freeSward 0 (fieldOf bs 48 2) = some b0 ∧ s.freeSward 1 (fieldOf bs 50 2) = some b1 ∧ s.freeSward 2 (fieldOf bs 52 2) = some b2 ∧
      s.freeSward 3 (fieldOf bs 54 2) = some b3) fun c bs s =>
    let x : Context := { num := s.freeCtx, asid := fieldOf bs 8 2, root := fieldOf bs 16 8, hart := c.hart,
                         sward := [fieldOf bs 48 2, fieldOf bs 50 2, fieldOf bs 52 2, fieldOf bs 54 2], swardBase := [b0, b1, b2, b3],
                         spill := fieldOf bs 24 8, save := fieldOf bs 32 8, cn := fieldOf bs 10 2, drain := drain, swap := swap }
    (((({ s with contexts := s.contexts ++ [x] } : State).pokePa x.save (List.replicate 16 0)).pokePa (x.save + 0x40) (List.replicate 8 0)).cmdPut
      c 4 (toLe 4 x.num))) ∧
  (∀ x, Serves .destroy 0x02 false (fun bs s => s.ctx? (ctx bs) = some x) (fun _ _ s => (s.resetContext x.num (some 0x10)).dropContext x.num) ∧
    Serves .preempt 0x03 false (fun bs s => s.ctx? (ctx bs) = some x ∧ x.phase = .running) (fun _ _ s =>
      s.updCtx x.num fun x => { x with phase := .draining (s.time + x.drain) }) ∧
    Serves .restore 0x04 false (fun bs s => s.ctx? (ctx bs) = some x ∧ (x.phase = .out ∨ x.phase = .wiped ∨ ∃ u, x.phase = .draining u)) (fun _ _ s =>
      { s.updCtx x.num (fun x => { x with phase := .running }) with bkpt := s.bkpt.filter (· != x.num) }) ∧
    (∀ l t, Serves .stile 0x05 false (fun bs s => running x bs s ∧ argOf bs 0 < 48 ∧ argOf bs 1 % 128 = 0 ∧ argOf bs 1 < 2 ^ 56 ∧ inWindows (argOf bs 1) = false ∧
        (s.stiles.filter (·.column == argOf bs 0)).length < 16 ∧
        leafOf s (argOf bs 0 / 12) x.asid x.root (argOf bs 1) false = .ok l ∧ physical (leafPa l (argOf bs 1)) (argOf bs 0 / 12) = .ok t ∧ t.view ≠ .system) (fun _ bs s =>
      { s with seq := s.seq + 1, stiles := s.stiles ++ [{ id := s.seq, ctx := x.num, column := argOf bs 0, loc := t.loc, reps := t.reps }] })) ∧
    (∀ a b, Serves .queue 0x06 false (fun bs s => running x bs s ∧ argOf bs 1 ≤ 3 ∧ argOf bs 0 % 128 = 0 ∧ argOf bs 0 + 128 < 2 ^ 64 ∧
        (resolve s (.queue x.num (argOf bs 1)) (BitVec.ofNat 64 (argOf bs 0)) 128 .read).2 = some a ∧
        (resolve s (.queue x.num (argOf bs 1)) (BitVec.ofNat 64 (argOf bs 0 + 128)) 128 .read).2 = some b ∧
        a.view ≠ .system ∧ b.view ≠ .system ∧ (∀ k ∈ blocksOf a.loc 128 ++ blocksOf b.loc 128, k ∉ s.bad) ∧
        let h := s.bytesAt a 128 ++ s.bytesAt b 128
        fieldOf h 8 8 % 64 = 0 ∧ fieldOf h 16 4 ≤ 24 ∧ fieldOf h 20 108 = 0 ∧ fieldOf h 140 116 = 0) (fun _ bs s =>
      let h := s.bytesAt a 128 ++ s.bytesAt b 128
      { (s.setAD a false).setAD b false with
        seq := ((s.setAD a false).setAD b false).seq + 1,
        queues := ((s.setAD a false).setAD b false).queues ++ [{ id := ((s.setAD a false).setAD b false).seq, ctx := x.num, die := argOf bs 1, header := BitVec.ofNat 64 (argOf bs 0), ring := BitVec.ofNat 64 (fieldOf h 8 8), capl := fieldOf h 16 4,
                                                                          index := (a.loc :: a.reps).map (· / 128) }] })) ∧
    Serves .pwin 0x07 false (fun bs s => running x bs s ∧ argOf bs 0 ≤ 63 ∧ argOf bs 2 % 4096 = 0 ∧ argOf bs 3 ≤ 3 ∧
        ∀ y ∈ s.contexts, y.num ≠ x.num → tget y.windows (argOf bs 0) = none) (fun _ bs s =>
      ({ s with lastWindow := tset s.lastWindow (argOf bs 0) x.num } : State).updCtx x.num fun x => { x with windows := tset x.windows (argOf bs 0) { base := BitVec.ofNat 64 (argOf bs 1), size := argOf bs 2, write := argOf bs 3 % 2 == 1, reduce := argOf bs 3 / 2 == 1 } }) ∧
    Serves .pgrant 0x08 false (fun bs s => running x bs s ∧ argOf bs 0 ≤ 1023 ∧ argOf bs 1 ≤ 63) (fun _ bs s =>
      s.updCtx x.num fun x => { x with grants := if x.grants.contains (argOf bs 0, argOf bs 1) then x.grants else x.grants ++ [(argOf bs 0, argOf bs 1)] })) ∧
  Serves .route 0x09 false (fun bs _ => argOf bs 0 ≤ 3 ∧ argOf bs 1 ≤ 1023 ∧ argOf bs 2 ≤ 7) (fun _ bs s =>
    { s with routes := (s.routes.filter fun r => !(r.1 == argOf bs 0 && r.2.1 == argOf bs 1)) ++ [(argOf bs 0, argOf bs 1, argOf bs 2)] }) ∧
  Serves .pool 0x0A false (fun bs _ => argOf bs 0 + argOf bs 1 + argOf bs 2 + argOf bs 3 = 48) (fun _ bs s =>
    s.slices.foldl (fun s x => s.poolCheck x) { s with poolGoal := [argOf bs 0, argOf bs 1, argOf bs 2, argOf bs 3] }) ∧
  Serves .svcring 0x0B false (fun bs _ => argOf bs 0 < 48 ∧ argOf bs 1 % 4096 = 0 ∧ pageOk (argOf bs 1) = true) (fun _ bs s =>
    ({ s with loads := s.loads.filter (·.reader != some (Reader.ring (argOf bs 0))) } : State).updColumn (argOf bs 0) fun x =>
      { x with ring := some (argOf bs 1), post := 0, served := 0, posted := 0, fromHost := [] }) ∧
  (∀ c s, cmdServed c 0x0C true s → let pa := argOf (s.cmdBlock c) 0
    bufferOk pa = true →
    (hostPa pa = true → (s.hart c.hart).nonce = none → exec (.attest c) s = .next (s.askNonce c)) ∧
    ∀ nonce, (hostPa pa = true ∧ (s.hart c.hart).nonce = some nonce ∨ hostPa pa = false ∧ nonce = s.peekPa pa 64 (c.hart / 12)) → nonce.length = 64 →
      let s1 := cmdTaken c s
      exec (.attest c) s = .next (((({ s1 with draws := s1.draws + 8 } : State).bufPut c (pa + 64) (s.reportBody ++
        Mldsa.hashSign (aliasKey s.measurement) (nonce ++ s.reportBody) s.signRnd)).reply c 1).updHart c.hart fun h => { h with nonce := none })) ∧
  (∀ (s : State) (c : Cmd) (pa : Nat) (bs : List Byte), hostPa pa = false → s.bufPut c pa bs = s.putPa pa bs) ∧
  Serves .cert 0x0D true (fun bs _ => bufferOk (argOf bs 0) = true ∧ fieldOf bs 24 1 ≤ 1) (fun c bs s =>
    let key := if fieldOf bs 24 1 = 1 then (aliasKey s.measurement).pub else deviceKey.pub
    s.bufPut c (argOf bs 0) (toLe 8 (Config.certLength (fieldOf bs 24 1 == 1) key) ++
      bytesOf (min (Config.certLength (fieldOf bs 24 1 == 1) key) 8184) (Config.certByte (fieldOf bs 24 1 == 1) key))) ∧
  (∀ s : State, s.reportBody = sha3 s.image.bytes ++ toLe 8 s.image.svn ++ toLe 8 Config.serial.toNat ++ List.replicate 112 0 ++
    (Mldsa.keyGen ((sha3 ((sha3 (bytesOf 32 Config.secret)).take 32 ++ sha3 s.image.bytes)).take 32)).pub) ∧
  Serves .errstat 0x0E true (fun _ _ => True) (fun c _ s => s.cmdPut c 8 (s.errs.flatMap (toLe 8))) ∧
  Serves .dumpclr 0x0F true (fun _ _ => True) (fun _ _ s => (s.dumpPut 6 [0]).dumpPut 20 [0, 0, 0, 0]) ∧
  Serves .reset 0x10 true (fun _ _ => True) (fun _ _ s => s.computeReset)

/-- R330, R331, R433: in fatal error every command answers 0x103, and a field that R330 keeps zero answers 0x101, with nothing else done. -/
def Obligations.FoldRefusals : Prop :=
  (∀ (c : Cmd) (s : State), fieldOf (s.cmdBlock c) 0 2 = 0x0C →
    let refused := fun (r : Nat) => exec (.attest c) s = .next (((cmdTaken c s).reply c r).updHart c.hart fun h => { h with nonce := none })
    (s.stopped = true → refused 0x103) ∧
    (s.stopped = false → (fieldOf (s.cmdBlock c) 2 2 ≠ 0 ∨ fieldOf (s.cmdBlock c) 56 4 ≠ 0 ∨ fieldOf (s.cmdBlock c) 4 4 ≠ 0) → refused 0x101)) ∧
  ∀ (c : Cmd) (s : State) (ins : Instr) (code : Nat) (noCtx : Bool),
  (ins, code, noCtx) ∈ [(Instr.create c, 1, true), (.destroy c, 2, false), (.preempt c, 3, false), (.restore c, 4, false), (.stile c, 5, false), (.queue c, 6, false),
    (.pwin c, 7, false), (.pgrant c, 8, false), (.route c, 9, false), (.pool c, 10, false), (.svcring c, 11, false), (.cert c, 13, true),
    (.errstat c, 14, true), (.dumpclr c, 15, true), (.reset c, 16, true)] →
  fieldOf (s.cmdBlock c) 0 2 = code →
  (s.stopped = true → exec ins s = .next ((cmdTaken c s).reply c 0x103)) ∧
  (s.stopped = false → (fieldOf (s.cmdBlock c) 2 2 ≠ 0 ∨ fieldOf (s.cmdBlock c) 56 4 ≠ 0 ∨ (noCtx = true ∧ fieldOf (s.cmdBlock c) 4 4 ≠ 0)) →
    exec ins s = .next ((cmdTaken c s).reply c 0x101))

/-- R116, R117, R131, R213 to R217, R228, R332 to R335, R339, R401, R402, R405, R430: what comes back to the cores. Over a PCIe link that is down a
load of the host's fails and a posted store adds its entry; after a fatal error it adds none. That what has begun on a die ends before its unit
receives an invalidation is the model's choice (log 72). -/
def Obligations.ReturnResults : Prop := ∀ s : State,
  let up := fun (v : Option Nat) => ∀ pa, v = some pa → (s.link (.pcie (pa / 2 ^ 44 % 4))).up = true
  (∀ id l, s.loads.find? (·.id == id) = some l → l.sysview = none →
    (l.bad = false → exec (.loadDataReturn id .clean) s = .next (s.returnLoad l (some l.vals) 0 0)) ∧
    (l.bad = true → exec (.loadDataReturn id .clean) s = .next (s.returnLoad l none 0xB l.sub))) ∧
  (∀ id x, s.stores.find? (·.id == id) = some x → x.sysview = none →
    (x.bad = false → exec (.storeMerge id .clean) s = .next (s.finishStore x)) ∧
    (x.bad = true → exec (.storeMerge id .clean) s = .next ((s.failMerge x).finishStore x))) ∧
  (∀ id l, (s.loads.find? fun l => l.id == id && l.sysview.isSome) = some l →
    (l.reader = none → (up l.sysview → ∀ bs, exec (.sysviewLoadCompletion id (some bs)) s =
        .next (s.returnLoad l (some (extend (l.ext % 32) (decide (32 ≤ l.ext)) bs)) 0 0)) ∧
      ∀ d, d = none ∨ ¬up l.sysview → exec (.sysviewLoadCompletion id d) s = .next (s.returnLoad l none 9 5)) ∧
    ∀ r, l.reader = some r → (up l.sysview → ∀ d, exec (.sysviewLoadCompletion id d) s = .next (s.hostData l r d)) ∧
      (¬up l.sysview → ∀ d, exec (.sysviewLoadCompletion id d) s = .next (s.hostData l r none))) ∧
  (∀ id l, (s.loads.find? fun l => l.id == id && l.sysview.isSome && decide (l.since + 50000000 ≤ s.time)) = some l → l.reader = none →
    exec (.sysviewLoadTimeout id) s = .next (s.returnLoad l none 9 5)) ∧
  (∀ id x, (s.stores.find? fun x => x.id == id && x.sysview.isSome) = some x →
    let lost := .next ((s.postEvent x.ctx 9 6 x.ea).finishStore x)
    (up x.sysview → exec (.sysviewStoreAccepted id) s = .next (s.finishStore x)) ∧ (¬up x.sysview → exec (.sysviewStoreAccepted id) s = lost) ∧
    exec (.pcieStoreRefused id) s = lost) ∧
  (∀ id c, s.cacheOps.find? (·.id == id) = some c → exec (.writeBackComplete id) s =
    .next (({ s.writeBack c.runs c.inv with cacheOps := s.cacheOps.filter (·.id != id) } : State).updThreads c.team c.gidx (fun t => t.wait == .cache id)
      fun t => { t with wait := .cacheDone, pts := (s.writeBack c.runs c.inv).tick })) ∧
  (∀ u x, exec (.mwaitBoundExpiry u x) s = .next (s.updTeamThreads u (·.tidx == x) fun t => match t.wait, t.watch with
    | .mwait (some d), some w => if d ≤ s.time ∧ w.seen = false then { t with wait := .mwaitDone 0 } else t
    | _, _ => t)) ∧
  (∀ u g, exec (.sleepExpiry u g) s = .next (s.updThreads u g (fun _ => true) fun t => match t.wait with
    | .sleep d => if d ≤ s.time then { t with wait := .slept } else t
    | _ => t)) ∧
  (∀ die id w c, (s.walks.find? fun w => w.id == id && w.die == die && !w.returned) = some w → s.ctx? w.ctx = some c →
    (∀ l, walkFrom s w.va die 5 c.root = .ok l → s.kept? die c.asid w.va = none → ∃ t, exec (.walkReturn die id) s = .next t ∧
      t.walks = s.walks.filter (·.id != id) ∧ t.mem = s.mem ∧ t.teams = s.teams ∧
      ⟨die, c.asid, w.va / leafSize l.level (pteBit l.pte 63), l.level, pteBit l.pte 63, l.pte, l.at_⟩ ∈ t.tlb) ∧
    ∀ m, walkFrom s w.va die 5 c.root = .error m → exec (.walkReturn die id) s =
      .next { s with walks := mapWhere (·.id == id) (fun w => { w with returned := true }) s.walks }) ∧
  (∀ h id i, (s.invals.find? fun i => i.id == id && i.toReceive.contains (.hart h)) = some i → exec (.invalidationReceive (.hart h) id) s =
    .next { s with invals := mapWhere (·.id == id) (fun i => { i with toReceive := i.toReceive.filter (· != .hart h) }) s.invals }) ∧
  (∀ d id i, (s.invals.find? fun i => i.id == id && i.toReceive.contains (.unit d)) = some i →
    (s.begunOn d i = true → exec (.invalidationReceive (.unit d) id) s = .next s) ∧
    (s.begunOn d i = false → ∃ tlb walks queues, exec (.invalidationReceive (.unit d) id) s = .next { s with
        invals := mapWhere (·.id == id) (fun i => { i with toReceive := i.toReceive.filter (· != .unit d), gotAt := tset i.gotAt d s.seq }) s.invals,
        tlb := tlb, walks := walks, queues := queues } ∧
      (∀ e, e ∈ tlb ↔ e ∈ s.tlb ∧ ¬(e.die = d ∧ (i.asid = none ∨ i.asid = some e.asid ∨ pteBit e.pte 5 = true) ∧
        i.covers (e.vpn * leafSize e.level e.napot) (leafSize e.level e.napot) = true)) ∧
      (∀ w ∈ walks, w ∈ s.walks) ∧ (∀ w ∈ s.walks, w.die ≠ d → w ∈ walks) ∧ queues.map (·.id) = s.queues.map (·.id))) ∧
  (∀ who id i, (s.invals.find? fun i => i.id == id && !i.toReceive.contains who && i.toAck.contains who) = some i →
    let out := fun (unit : Nat) (before : Nat) => (∃ l ∈ s.loads, l.id < before ∧ ∃ e, l.via = some e ∧ e.die = unit ∧ i.removes e = true) ∨
      ∃ x ∈ s.stores, x.id < before ∧ ∃ e, x.via = some e ∧ e.die = unit ∧ i.removes e = true
    let waits := (∃ d, who = .unit d ∧ s.stopped = false ∧ ((∃ o ∈ s.ops, s.holdsTarget d i o = true) ∨ out d (tgetD i.gotAt d 0))) ∨
      ∃ h, who = .hart h ∧ out (hartUnit h) i.id
    (¬waits → exec (.invalidationAck who id) s = .next
      { s with invals := (mapWhere (·.id == id) (fun i => { i with toAck := i.toAck.filter (· != who) }) s.invals).filter fun i => !i.toAck.isEmpty }) ∧
    (waits → exec (.invalidationAck who id) s = .next s)) ∧
  ∀ col ring, (s.column col).ring = some ring → (s.column col).posted ≠ 0 → tget (s.column col).fromHost 2 = none →
    (∀ l ∈ s.loads, l.reader ≠ some (.ring col)) →
    let k := (s.column col).served
    let args := leWords 8 (s.peekPa (ring + 64 * k + 16) 32 (col / 12))
    hostPa (ring + 64 * k + 16) = false → hostPa (ring + 64 * k + 48) = false → leNat (s.peekPa (ring + 64 * k + 48) 4 (col / 12)) = 1 → ∃ t, exec (.syscReply col) s = .next t ∧
    t = (((s.giveReply col k args).pokePa (ring + 64 * k + 48) (toLe 4 2)).updColumn col fun x => { x with served := (k + 1) % 64, posted := (s.column col).posted - 1 }) ∧
    (∀ d, s.Good → physical (ring + 64 * k + 48) 0 = .ok d → ring % 64 = 0 → (∀ l ∈ d.reps, l / 64 ∉ s.bad) → ∀ l ∈ d.reps, Memory.nat t.mem l 4 = 2) ∧
    (t.column col).served = ((s.column col).served + 1) % 64 ∧ (t.column col).posted = (s.column col).posted - 1 ∧
    ∀ u g x th, columnOfCore ((s.team? u).map (·.core) |>.getD 0) = col → s.thread? u g x = some th → th.wait = .sysc (s.column col).served →
      th.watch = none → ∃ th', t.thread? u g x = some th' ∧ th'.wait = .syscDone args

/-- R242 to R248, R256, R269, R285, R286, R291, R293, R403, R408, R411: what the engines, the Gleaners and the reservations' grants do when they can. That an MMA takes its tiles' BASE
at each start or restart is the model's choice (log 77), and so are when a tile that had failed is good again (log 38) and that a queue packet's
multicast is not tested against a cluster's size (log 85). -/
def Obligations.EngineEvents : Prop := ∀ s : State,
  (∀ core e o t, (∀ p ∈ s.ops, ¬(p.core = core ∧ p.kind = .mma ∧ p.st = .running ∧ p.engine = some e)) → leastBy Op.rank (s.ops.filter (s.canStartMma core e)) = some o →
    s.team? o.team = some t → (∀ x ∈ s.mmaTiles t o, x ≠ .empty) →
      let cyc := (mmaFmt (dword o.words 8).toNat false false).cycles
      let s1 : State := { (s.updOp o.uid fun p => { p with
        st := .running, engine := some e, bytes := toLe 8 (s.operandBase t o.words false).toNat ++ toLe 8 (s.operandBase t o.words true).toNat,
        lines := [], counted := true }) with loads := s.loads.filter (·.reader != some (.op o.uid)) }
      exec (.mmaStart core e) s = .next (if o.counted = true then s1 else s1.charge o.ctx o.slice cyc (32 * cyc))) ∧
  (∀ core e o t need s' data, (s.ops.find? fun o => o.core == core && o.kind == .mma && o.st == .running && o.engine == some e) = some o → s.team? o.team = some t →
    o.cancel = false →
    let pos := t.accPos (bits (dword o.words 6) 8 0)
    let accum := dword o.words 10 != 0
    let old := if o.prog = 0 then (s.acc core pos).bad else (s.acc core pos).old
    ((s.acc core pos).bad = true → accum = false ∧ old = true) →
    need = (rowSpans (o.rowBase false o.prog) ++ (List.range 32).flatMap fun j => rowSpans (o.rowBase true j)).foldl (fun l x =>
      if (tget o.lines (lineKey x.ea)).isSome || l.any (fun y => lineKey y.ea == lineKey x.ea) then l else l ++ [x]) [] →
    s.gather o (.oper o.team) need [] = .got s' data →
    let p : Op := { o with lines := keepLines (dropHost 0 o.lines) need data, prog := o.prog + 1 }
    let s'' := (s'.updAcc core pos fun a => p.computeRow o.prog { a with old := old && !accum, bad := a.bad && o.prog != 31 }).updOp o.uid fun x =>
      { x with lines := p.lines, prog := o.prog + 1 }
    exec (.mmaRow core e) s = .next (if o.prog = 31 then s''.endOp o.uid .done else s'')) ∧
  (∀ core t m b, t ∈ s.teams → t.core = core → t.swapped = false → t.retired = false → t.mres = some m → m.granted = false →
    s.canReserve core m.eng m.count m.order = some b → (∀ u ∈ s.teams, u ≠ t → u.core ≠ core ∨ u.mres = none) →
    exec (.mresGrant core) s = .next ((s.reserve t m.eng b m.count).updTeam t.uid fun t => { t with mres := some { m with granted := true, word := t.windowWord } })) ∧
  (∀ u t g, s.team? u = some t → t.mrel = some g → (∀ o ∈ s.ops, o.holdsResv u = false) →
    exec (.mrelRelease u) s = .next ((s.freeResv u).updThreads u g (fun th => !th.exited && th.wait == .mrel) fun th => { th with wait := .passed })) ∧
  (∀ gl o, leastBy Op.rank (s.ops.filter (s.canStartCopy gl)) = some o →
    (o.kind = .astr → exec (.copyStart gl) s = .next (s.startAstr o)) ∧
    (o.kind ≠ .astr → (copyPk o.bytes).bytes ≠ 0 → (∀ a b c d, gl = .ualink a b c d → s.startMisses o (copyPk o.bytes) c d = []) →
      ((∀ a b c d, gl ≠ .ualink a b c d) → s.startMisses o (copyPk o.bytes) 0 0 = []) →
      let down := ∃ d p a b, gl = .ualink d p a b ∧ (s.link (.ualink d p)).up = false
      (down → exec (.copyStart gl) s = .next (s.failOp o 0xB 0x20 0)) ∧
      (¬down → exec (.copyStart gl) s = .next (s.updOp o.uid fun o => { o with st := .running, port := portOf gl })))) ∧
  (∀ n o s' o', s.op? n = some o → o.st = .running → s.opHeld o = false → o.cancel = false →
    (o.kind ≠ .mma → o.chunks ≤ o.prog → exec (.copyChunk n) s = .next (s.tryComplete o.uid)) ∧
    (o.kind ≠ .mma → o.kind ≠ .xcoll → o.prog < o.chunks → s.makeChunk o o.prog = .made s' o' →
      exec (.copyChunk n) s = .next ((s'.updOp o'.uid fun _ => o').finishChunk o')) ∧
    (o.kind = .xcoll → o.prog < o.chunks → o.sent < o.chunks → s.makeChunk o o.sent = .made s' o' → exec (.copyChunk n) s = .next (s'.updOp o'.uid fun _ => { o' with sent := o'.sent + 1 }))) ∧
  (∀ n o o', s.op? n = some o → o.kind = .xcoll → o.st = .running → o.sent = o.prog + 1 → (s.countChunk o).op? n = some o' →
    (o'.cancel = false → exec (.xcollAck n o.sent none) s = .next ((s.countChunk o).tryComplete n)) ∧
    (o'.cancel = true → o'.sent ≤ o'.prog → exec (.xcollAck n o.sent none) s = .next ((s.countChunk o).endOp n .cancelled))) ∧
  ∀ q gw gt gr, s.queues.find? (·.id == q.id) = some q → q.blocked = false → (∃ c, s.ctx? q.ctx = some c ∧ c.phase = .running) →
    let a : Agent := .queue q.ctx q.die
    let slot := q.ring + BitVec.ofNat 64 (64 * (q.ridx.toNat % 2 ^ q.capl))
    let fine := fun (g : Target) (w : Bool) => g.view ≠ .system ∧ ∀ e, g.leaf = some e → e.pte &&& (if w then 0xC0 else 0x40) = if w then 0xC0 else 0x40
    s.reach a q.header 8 .read 5 = ([], some gw) → fine gw false → q.ridx.toNat < Memory.nat s.mem gw.loc 8 →
    s.reach a (slot + 60) 4 .read 5 = ([], some gt) → fine gt false → Memory.nat s.mem gt.loc 4 = q.ridx.toNat % 2 ^ 32 →
    (∀ u ∈ packetUnits, ∃ g, s.reach a (slot + BitVec.ofNat 64 u.1) u.2 .read 5 = ([], some g) ∧ fine g false) →
    s.reach a (q.header + 128) 8 .write 5 = ([], some gr) → fine gr true →
    ∃ t o, exec (.queueTake q.id) s = .next t ∧ t.ops = s.ops ++ [o] ∧ o.kind = .queue ∧ o.queue = q.id ∧ o.ctx = q.ctx ∧ o.st = .queued ∧
      o.bytes = (packetUnits.flatMap fun u => match (s.reach a (slot + BitVec.ofNat 64 u.1) u.2 .read 5).2 with
        | some g => Memory.gets s.mem g.loc u.2
        | none => []) ++ Memory.gets s.mem gt.loc 4 ∧
      (∀ x ∈ t.queues, x.id = q.id → x.ridx = q.ridx + 1) ∧ (gr.reps = [gr.loc] → s.Good → Memory.nat t.mem gr.loc 8 = (q.ridx + 1).toNat)

/-- R34, R37, R43, R115, R301, R307, R308, R312 to R317, R362, R418, R420, R422: what moves teams and groups, and what a timer ends, when it can. That
DEADLOCK has SUB 0x02 where team and cluster are both stuck (log 45), that columns move towards goals (log 55), that a column's clock counts on at its
new class (log 73), and the group that comes to a free place (log 78) are the model's choices. -/
def Obligations.ScheduleEvents : Prop := ∀ s : State,
  (∀ core x cs, (s.competing.findSome? fun x => (s.canHost x core).map fun cs => (x, cs)) = some (x, cs) →
    (s.returnsFirst (s.classOf x) cs = true → exec (.teamAdmit core) s = .next s) ∧
    (s.returnsFirst (s.classOf x) cs = false →
      let t := ((List.range cs.length).zip cs).foldl (fun (t : State) c => t.admitOne x (x.next + c.1) c.2 s.seq c.1) { s with seq := s.seq + 1 }
      exec (.teamAdmit core) s = .next { t.updSlice x.ctx x.id (fun y => { y with next := y.next + cs.length, topAt := none }) with
        reserves := t.reserves.filter fun r => !(r.ctx == x.ctx && r.slice == x.id) })) ∧
  (∀ core part r, leastBy FrameReq.order (s.frameReqs.filter fun r => r.core == core && r.part == part && !r.granted && s.canGrant core part r.order r.need) = some r →
    exec (.frameGrant core part) s = .next (if r.use = .refill then (s.dropReq r.team r.gidx (r.who.map (·.1))).refill r.team r.gidx core (r.who.map (·.1))
      else { s with frameReqs := s.frameReqs.map fun x => if x = r then { x with granted := true } else x })) ∧
  (∀ core part x, ((s.groupsAt core part).filter fun x => !x.2.active && !s.blocked x.1 x.2) = [x] →
    let act := (s.groupsAt core part).filter (·.2.active)
    (act.length < 8 → exec (.groupPromote core part) s =
      .next { s.updGroup x.1.uid x.2.gidx (fun g => { g with active := true, demoted := false, promotedAt := s.seq }) with seq := s.seq + 1 }) ∧
    let trapping := fun (z : Team × Group) => z.1.trapDue z.2 = true ∨ z.2.inHandler = true
    ∀ y, 8 ≤ act.length → trapping x → (∀ z ∈ act, trapping z ∨ z.2.demoted = false) → y ∈ act → ¬trapping y →
      (∀ z ∈ act, y.2.promotedAt < 2 ^ 80 ∧ (z = y ∨ trapping z ∨ z.2.promotedAt < y.2.promotedAt)) →
      exec (.groupPromote core part) s = .next (s.updGroup y.1.uid y.2.gidx fun g => { g with demoted := true })) ∧
  (∀ l va k rest, l ∈ s.stiles → l.reqs = (va, k) :: rest → (∀ y ∈ s.stiles, y.reqs ≠ [] → y = l) → s.canLaunch l.ctx = true →
    let r := ({ s with stiles := mapWhere (·.id == l.id) (fun l => { l with reqs := l.reqs.drop 1, taken := (l.taken + 1) % 2 ^ 32 }) s.stiles } : State).launch
      l.ctx l.column va none false none
    exec (.stileLaunch l.id) s = .next (r.1.pokeAll (l.reps.map (· + 8)) (toLe 4 r.2.toNat ++ toLe 4 ((l.taken + 1) % 2 ^ 32)))) ∧
  (∀ u t g s', s.team? u = some t → t.elected = some g → s.boundaryTrap t g = some s' → exec (.asyncTrapTake u) s = .next s') ∧
  (∀ id core x t cs, x ∈ s.competing → x.id = id → 1 < x.desc.csize → x.topAt = some t → t + 100000 ≤ s.time →
    (∀ y ∈ s.competing, y.id = id → y = x ∨ y.desc.csize ≤ 1 ∨ ∀ u, y.topAt = some u → s.time < u + 100000) → (∀ r ∈ s.reserves, r.ctx = x.ctx → r.slice ≠ id) → rectangle core x.desc = some cs → (∀ c ∈ cs, s.coreServes x c = true) →
    exec (.clusterPlaceTimeout id core) s = .next { s with reserves := s.reserves ++ [⟨x.ctx, id, cs⟩] }) ∧
  (∀ core part lane r, leastBy FrameReq.order (s.frameReqs.filter fun r => r.core == core && r.part == part && !r.granted && r.need.any (·.1 == lane)) = some r →
    65536 * 20 ≤ (s.time - r.since) * cyclesIn20 (s.column (columnOfCore core)).cls →
    exec (.tedderWaitTimeout core part lane) s = .next (s.tedderLoop core part lane 2048)) ∧
  (∀ u t c d, s.team? u = some t → s.ctx? t.ctx = some c → c.phase = .swapping d →
    (∀ m ∈ s.teams, m.cluster = t.cluster → m.swapped = false ∧ s.quiet m.uid = true ∧ ∀ g ∈ m.groups, g.mayLeave m = true) →
    exec (.teamSwapOut u) s = .next (((s.teams.filter (·.cluster == t.cluster)).foldl (fun s m => s.moveOut m true) s).settlePhase t.ctx)) ∧
  (∀ u core t c cs, s.team? u = some t → s.ctx? t.ctx = some c → c.phase = .running → t.swapped = true → let x := s.sliceOf t
    (∃ m ∈ s.teams, m.cluster = t.cluster ∧ s.eligible m = true) →
    rectangle core x.desc = some cs → (∀ m ∈ s.teams, m.cluster = t.cluster → s.coreServes x (cs.getD m.rank 0) = true ∧ (s.roomFor (cs.getD m.rank 0) m x.desc).isSome) →
    exec (.teamSwapIn u core) s = .next ((s.teams.filter (·.cluster == t.cluster)).foldl (fun s m => s.moveIn m (cs.getD m.rank 0)) s)) ∧
  (∀ n c d, s.ctx? n = some c → d ≤ s.time →
    (c.phase = .draining d → exec (.drainTimeout n) s = .next ((s.updCtx n fun c => { c with phase := .swapping (s.time + c.swap) }).settlePhase n)) ∧
    (c.phase = .swapping d → exec (.swapTimeout n) s = .next (s.resetContext n (some 0x10)))) ∧
  (∀ col cls, (∀ t ∈ s.teams, t.swapped = false → columnOfCore t.core ≠ col) → (s.column col).changing = false → (s.column col).cls ≠ cls →
    s.poolGoal.getD (s.column col).cls 0 < ((List.range 48).filter fun x => (s.column x).cls == (s.column col).cls).length →
    ((List.range 48).filter fun x => (s.column x).cls == cls).length < s.poolGoal.getD cls 0 →
    exec (.columnClassMove col cls) s = .next (s.updColumn col fun c => { c with cls := cls, changing := true, clockBase := c.ticks s.time, clockSince := s.time })) ∧
  (∀ col, exec (.clockChangeDone col) s = .next (s.updColumn col fun c => { c with changing := false })) ∧
  (∀ u t x, s.team? u = some t → x + 1000000 ≤ s.time →
    let ends := fun (sub : Nat) => exec (.deadlockTimeout u) s =
      .next ((s.post t.ctx (columnOfCore t.core) { cause := 0x14, src := 4, sub := sub, slice := t.slice, core := t.core }).kill t.uid)
    (t.stuckAt = some x → s.stuck t = true → s.clusterStuck t.cluster = false ∨ t.clusterStuckAt = none → ends 1) ∧
    (t.clusterStuckAt = some x → s.clusterStuck t.cluster = true → ends 2)) ∧
  ∀ col, let c := s.column col
    let target := if c.heldZero = true ∨ c.dieDrawn = true then 0 else c.target
    let new := if target < c.level then c.level - 1 else c.level + 1
    c.level ≠ target → (c.steppedAt = 0 ∨ c.steppedAt + 1000 ≤ s.time + 1) → ∃ t, exec (.grantLevelStep col) s = .next t ∧ (t.column col).level = new ∧
      (t.column col).steppedAt = s.time + 1 ∧ (t.column col).events = c.events + (if c.level = 3 ∨ new = 3 then 1 else 0) ∧ (t.column col).cls = c.cls

/-- R119, R341 to R343, R405, R411, R427 to R438: the links, the host's and the peers' traffic, heat and power, storage errors, images and resets.
The model's choices: that a column's level holds between 92 and 95 °C (log 46); that a successful retrain clears the counts of a flit's replays (log 51);
that an HBM whose power is taken reads 0 afterwards, that DUMP stays 0 and the signal goes at once where an older dump stands, and what a second error
leaves (log 49); what an image's rejection compares, and what its signature covers (log 76); that PHASE stays as it stands at a second error (log 50). -/
def Obligations.DeviceEvents : Prop := ∀ s : State,
  (∀ w c x t, (s.contexts.find? fun c => (tget c.windows w.win).isSome) = some c → tget c.windows w.win = some x →
    let ea := x.base + BitVec.ofNat 64 w.off
    ((s.link (.ualink w.die w.port)).up = false → exec (.ualinkInboundWrite w) s = .next s) ∧
    ((s.link (.ualink w.die w.port)).up = true → w.more = [] → w.granted = false →
      exec (.ualinkInboundWrite w) s = .next ((s.peerFault c.num w.die 8 8 ea).peerAnswer w (some (8, 8)))) ∧
    ((s.link (.ualink w.die w.port)).up = true → w.more = [] → w.granted = true → x.write = true → w.aop = none → w.off + w.data.length ≤ x.size →
      ((∃ f ∈ s.peerFails, f.1 = w.peer ∧ f.2.1 = w.op ∧ f.2.2 ≤ w.chunk) → exec (.ualinkInboundWrite w) s = .next s) ∧
      ((∀ f ∈ s.peerFails, ¬(f.1 = w.peer ∧ f.2.1 = w.op ∧ f.2.2 ≤ w.chunk)) → w.data ≠ [] → ea.toNat % 16 + w.data.length ≤ 16 →
        s.mended (t.written w.data.length) = [] → s.look (.queue c.num w.die) ⟨ea, w.data.length⟩ .write = ([], some t) → t.view ≠ .system →
        exec (.ualinkInboundWrite w) s = .next (((s.setAD t true).gleanerPut t.reps w.data).peerAnswer w none)))) ∧
  (∀ d p q w o n, (s.link (.ualink d p)).up = true → exec (.ualinkInboundRead d p q w o n) s = .next { s with out := s.out ++ [.refusedRead d p q] }) ∧
  (∀ die off data loc, die ≤ 3 → s.cap.dump ≠ 2 → (s.link (.pcie die)).up = true → off % 8 = 0 → off < 2 ^ 40 → data.length = 8 → paLoc (0x800000000000 + off) = some loc →
    ∃ t, exec (.pcieInboundWrite die off data false) s = .next t ∧ (s.Good → Memory.gets t.mem loc 8 = data) ∧
      ∀ a, ¬(loc ≤ a ∧ a < loc + 8) → Memory.get t.mem a = Memory.get s.mem a) ∧
  (∀ die off n loc, s.cap.dump ≠ 2 → (s.link (.pcie die)).up = true → n ≠ 0 → off < 2 ^ 40 → off % 64 + n ≤ 64 → paLoc (0x800000000000 + off) = some loc → exec (.pcieInboundRead die 0 off n false) s =
    let u := (s.standHbm ((List.range n).map (loc + ·))).flushed ((List.range n).map (loc + ·))
    .next (if loc / 64 ∈ s.bad then { s with out := s.out ++ [.completion die none] }
      else { u with out := u.out ++ [.completion die (some (Memory.gets u.mem loc n))] })) ∧
  (∀ die stack temp, temp < 840 → exec (.sensorSample (.stack die stack temp)) s = .next { s with sensors := tset s.sensors (48 + 4 * die + stack) [temp] }) ∧
  (∀ die drawn, ∃ t, exec (.sensorSample (.die die drawn)) s = .next t ∧ ∀ k < 12, (t.column (12 * die + k)).dieDrawn = drawn) ∧
  (∀ col temps drawn, (∀ t ∈ temps, t < 920) → exec (.sensorSample (.column col temps drawn)) s = .next
    (({ s with sensors := tset s.sensors col temps } : State).updColumn col fun c => { c with
      heldZero := decide (∃ t ∈ temps, 840 ≤ t) || (c.heldZero && decide (∃ t ∈ temps, 800 ≤ t)),
      target := if (∃ t ∈ temps, 760 ≤ t) ∨ drawn = true then 0 else if ∃ t ∈ temps, 736 ≤ t then c.level else 3 })) ∧
  (∀ die stack temp, 840 ≤ temp → exec (.sensorSample (.stack die stack temp)) s =
    .next (({ s with sensors := tset s.sensors (48 + 4 * die + stack) [temp] } : State).fatal 1 die stack)) ∧
  (∀ col temps drawn, (∃ t ∈ temps, 920 ≤ t) → exec (.sensorSample (.column col temps drawn)) s =
    .next (({ s with sensors := tset s.sensors col temps } : State).fatal 1 (col / 12) col)) ∧
  (∀ die rail, exec (.supplyFaultTimeout die rail) s = .next (s.fatal 6 die rail)) ∧
  (∀ die unit, exec (.watchdogExpiry die unit) s = .next (s.fatal 5 die unit)) ∧
  (∀ cause die unit, s.stopped = false → let t := s.fatal cause die unit
    t.stopped = true ∧ t.cap.phase = 3 ∧ t.cap.fcause = cause ∧ t.cap.fcause2 = 0 ∧ t.cap.fdie = die ∧ t.cap.funit = unit ∧ t.cap.ftime = s.time ∧
    (∀ d < 4, (s.link (.pcie d)).up = true → tget t.caps d = some t.cap) ∧
    (cause = 1 ∨ cause = 6 → t.cap.dump = 2 ∧ t.dumping = none ∧ t.out = s.out ++ [.msix 0 0] ∧ ∀ a < 2 ^ 40, Memory.get t.mem a = 0) ∧
    (cause ≠ 1 → cause ≠ 6 → s.dumpGet 6 1 ≠ 0 → t.cap.dump = 0 ∧ t.out = s.out ++ [.msix 0 0]) ∧
    (cause ≠ 1 → cause ≠ 6 → s.dumpGet 6 1 = 0 → t.cap.dump = 0 ∧ t.out = s.out ∧ t.dumping ≠ none ∧
      (s.Good → t.dumpGet 0 4 = 0x45344450 ∧ t.dumpGet 6 1 = 1 ∧ t.dumpGet 7 1 = cause % 256))) ∧
  (∀ cause die unit, s.stopped = true → let t := s.fatal cause die unit
    t.stopped = true ∧ t.cap.phase = s.cap.phase ∧ t.cap.fcause = s.cap.fcause ∧ t.cap.ftime = s.cap.ftime ∧
    (t.cap.fcause2 = if s.cap.fcause2 = 0 then cause else s.cap.fcause2) ∧
    (cause = 1 ∨ cause = 6 → t.cap.dump = 2 ∧ t.dumping = none ∧ (∀ a < 2 ^ 40, Memory.get t.mem a = 0) ∧
      t.out = if s.dumping = none then s.out else s.out ++ [.msix 0 0]) ∧
    (cause ≠ 1 → cause ≠ 6 → s.cap.dump ≠ 2 → s.Good → t.out = s.out ∧ t.dumping = s.dumping ∧ t.dumpGet 20 4 = (s.dumpGet 20 4 + 1) % 2 ^ 32 ∧
      (s.dumping ≠ none → s.cap.fcause2 = 0 → t.dumpGet 17 1 = cause % 256))) ∧
  (∀ k off, s.powered = true → s.dumping = some (k, off) → s.dumpSections[k]? = none → let t := s.firmware
    t.cap.dump = 1 ∧ t.dumping = none ∧ t.out = s.out ++ [.msix 0 0] ∧ (s.Good → t.dumpGet 6 1 = 2 ∧ t.dumpGet 24 4 = s.dumpSections.length % 2 ^ 32)) ∧
  (∀ b, b < 2 ^ 34 → s.cap.dump ≠ 2 →
    (b ∉ s.bad → exec (.hbmScrub b .clean) s = .next s ∧ exec (.hbmScrub b .corrected) s = .next (s.countError (b * 64) false) ∧
      exec (.hbmScrub b .bad) s = .next { s.countError (b * 64) true with bad := s.bad ++ [b] }) ∧
    (b ∈ s.bad → ∀ e, exec (.hbmScrub b e) s = .next (s.countError (b * 64) true))) ∧
  (∀ l again, (s.link l).up = true → exec (.linkReplay ⟨l, again⟩) s =
    .next ((s.updLink l fun r => { r with replays := r.replays + 1, flit := if again = true then r.flit + 1 else 1 }).tally 4 (dieOfLink l))) ∧
  (∀ l, (s.link l).up = true → 16 ≤ (s.link l).flit → exec (.linkRetrainExpiry l true) s =
    .next (s.updLink l fun r => { r with retrains := r.retrains + 1, flit := 0, tries := 0 })) ∧
  (∀ die, (∀ l ∈ s.loads, l.sysview = none) → (∀ x ∈ s.stores, x.sysview = none) → exec (.pcieLinkDown die) s =
    .next (s.updLink (.pcie die) fun r => { r with up := false })) ∧
  exec .hotReset s = .next s.computeReset ∧
  (∀ p, ∃ t, exec (.powerOnReset p) s = .next t ∧ t.cap = { phase := 0, step := 1 } ∧ t.boot = some p ∧ t.powered = true ∧ t.fuses = s.fuses ∧ t.time = 0 ∧
    t.contexts = [] ∧ t.teams = [] ∧ (∀ a, Memory.get t.mem a = 0) ∧ ∀ d < 4, (t.link (.pcie d)).up = decide (d ∈ p.endpoints)) ∧
  (∀ p, s.powered = true → s.dumping = none → s.boot = some p → let t := s.firmware
    (s.cap.phase = 0 → s.cap.step = 1 →
      (∀ i, p.image = some i → Image.rejected i s.fuses = none → t.cap = { phase := 0, step := 2 } ∧ t.image = i ∧
        t.fuses = if i.raiseFlag = true then max s.fuses (min i.svn 64) else s.fuses) ∧
      (∀ r, (p.image = none ∧ r = 4) ∨ (∃ i, p.image = some i ∧ Image.rejected i s.fuses = some r) →
        t.cap = { phase := 2, step := 1, reason := r, unit := 0, die := 0 } ∧ t.boot = none ∧ t.fuses = s.fuses)) ∧
    (s.cap.phase = 0 → 2 ≤ s.cap.step → s.cap.step ≤ 5 →
      (∀ f, p.fail = some f → f.step = s.cap.step →
        t.cap = { phase := 2, step := f.step, reason := f.reason, unit := f.unit, die := f.die } ∧ t.boot = none) ∧
      ((∀ f, p.fail = some f → f.step ≠ s.cap.step) → t.cap = if s.cap.step < 5 then { phase := 0, step := s.cap.step + 1 } else { phase := 1 })) ∧
    (s.cap.phase = 1 → t.cap = s.cap ∧ t.boot = none ∧ ∀ d < 4, ∀ k < 8, (t.link (.ualink d k)).up = decide ((d, k) ∉ p.lost))) ∧
  (∀ i fuses, (Image.rejected i fuses = none ↔ sha3 i.key = bytesOf 64 Config.keyDigest ∧ Mldsa.hashVerify i.key i.bytes i.sig = true ∧ fuses ≤ i.svn) ∧
    ∀ r, Image.rejected i fuses = some r → r = 1 ∨ r = 2 ∨ r = 3) ∧
  exec .powerLoss s = .next { State.reset with powered := false, fuses := s.fuses, seq := s.seq, draws := s.draws, agenda := s.agenda, out := s.out } ∧
  ∀ die, let c := tgetD s.caps die {}
    bits (s.capDword die 0x08) 31 28 = c.phase % 16 ∧ bits (s.capDword die 0x08) 27 24 = c.step % 16 ∧ bits (s.capDword die 0x08) 23 16 = c.reason % 256 ∧
    bits (s.capDword die 0x08) 15 8 = c.unit % 256 ∧ bits (s.capDword die 0x08) 7 0 = c.die % 256 ∧
    bits (s.capDword die 0x10) 31 24 = c.fcause % 256 ∧ bits (s.capDword die 0x10) 23 16 = c.fcause2 % 256 ∧ bits (s.capDword die 0x10) 7 0 = c.dump % 256 ∧
    (s.capDword die 0x20 = if (tget s.caps die).isSome then BitVec.ofNat 32 s.image.svn else 0) ∧ s.capDword die 0x0C = 0 ∧
    (∀ off, 0x24 ≤ off → s.capDword die off = 0) ∧ (tget s.caps die = none → ∀ off, s.capDword die off = 0) ∧
    ((tget s.caps die).isSome = true → bits (s.capDword die 0) 15 0 = 0x000B ∧ bits (s.capDword die 4) 15 0 = 0x0E54 ∧ bits (s.capDword die 4) 31 20 = 0x030)

/-- R134, R139, R141, R144, R160, R244, R262, R326: words written out from the encodings and from the worked encodings of the spec, and what they decode to. -/
def Obligations.DecodeWords : Prop :=
  decodeDevice 0x01012100#32 (some 0x00000064#32) = .isetpS32 ⟨⟨false, false, 0, false⟩, 2, 2, 4, 0, some 0x64⟩ ∧
  decodeDevice 0x032060C0#32 (some 0x00010003#32) = .mres ⟨⟨false, false, 0, false⟩, 6, 3, 0, some 0x10003⟩ ∧
  decodeDevice 0x03480000#32 (some 0x001FD800#32) = .azero ⟨⟨false, false, 0, false⟩, 0, 0, 0, some 0x1FD800⟩ ∧
  decodeDevice 0x03001000#32 (some 0x00000020#32) = .kdecl ⟨⟨false, false, 0, false⟩, 1, 0, 0, some 0x20⟩ ∧
  decodeDevice 0x032A8418#32 (some 0x00000051#32) = .mmaMxf4 ⟨⟨false, false, 0, false⟩, 40, 16, 24, some 0x51⟩ ∧
  decodeDevice 0x0362B387#32 (some 0x00003200#32) = .astr ⟨⟨false, false, 0, false⟩, 43, 14, 7, some 0x3200⟩ ∧
  decodeDevice 0x03E88005#32 none = .sysc ⟨⟨false, false, 0, false⟩, 8, 5⟩ ∧
  decodeDevice (0b1#1 ++ 0b1#1 ++ 0b011#3 ++ 0b1#1 ++ 0x01#8 ++ 5#6 ++ 6#6 ++ 7#6) none = .iaddI32 ⟨⟨true, true, 3, true⟩, 5, 6, 7, none⟩ ∧
  decodeDevice (0b0#1 ++ 0b0#1 ++ 0b000#3 ++ 0b0#1 ++ 0xB0#8 ++ (-2 : BitVec 18)) none = .bra ⟨⟨false, false, 0, false⟩, -2, none⟩ ∧
  decodeDevice (0b0#1 ++ 0b0#1 ++ 0b000#3 ++ 0b0#1 ++ 0xB3#8 ++ 7#3 ++ 2#3 ++ 0#6 ++ 0#6) (some 0x10#32) = .call ⟨⟨false, false, 0, false⟩, 7, 2, 0, 0, some 0x10⟩ ∧
  decodeDevice (0b0#1 ++ 0b0#1 ++ 0b000#3 ++ 0b0#1 ++ 0x97#8 ++ 1#6 ++ 2#6 ++ 4#6) none = .stB8 ⟨⟨false, false, 0, false⟩, 1, 2, 4, none⟩ ∧
  decodeHart (0b0000000#7 ++ 3#5 ++ 2#5 ++ 0b000#3 ++ 1#5 ++ 0b0001011#7) = some (.edisp 1 2 3) ∧
  decodeHart (0b000000000000#12 ++ 2#5 ++ 0b001#3 ++ 1#5 ++ 0b0001011#7) = some (.ejoin 1 2) ∧
  decodeHart (0b0000000#7 ++ 3#5 ++ 2#5 ++ 0b010#3 ++ 0#5 ++ 0b0001011#7) = some (.eginv 2 3) ∧
  decodeHart (0b000000000000#12 ++ 0#5 ++ 0b011#3 ++ 0#5 ++ 0b0001011#7) = some .eginvw ∧
  decodeHart 0x0000400B#32 = some (.illegalInstructionException 0x400B)

/-- R134, R139, R326: every encoded instruction decodes to itself, with every operand at every value its encoding admits. -/
def Obligations.RoundTrip : Prop := ∀ i : Instr, i.wf = true →
  (∀ w lit, encode i = some (w, lit) → decodeDevice w lit = i) ∧ ∀ w, encodeHart i = some w → decodeHart w = some i

/-- R134, R139, R144, R326: every device word with its literal is one instruction, and its encoding is that word; every custom-0 word is one base-core
step, and no other word is. -/
def Obligations.WordsKept : Prop :=
  (∀ (w : Word) (lit : Option Word), ∃ l, encode (decodeDevice w lit) = some (w, l) ∧
    (l = lit ∨ (l = none ∧ bits w 25 18 ∈ [0x51, 0x52, 0x54, 0x55, 0xF6, 0xFA]))) ∧
  (∀ w : Word, decodeHart w = none ↔ w.toNat % 128 ≠ 0x0B) ∧ ∀ (w : Word) (i : Instr), decodeHart w = some i → encodeHart i = some w

/-- R125, R126, R128, R129, R380: a packet is taken exactly when its header and its literals keep the rules, and then holds the instructions its words
decode to; of the conditions that do not hold, the first in R380's order gives the sub-cause of PACKET, with the header in TRAPV. -/
def Obligations.PacketRejects : Prop := ∀ b : List Byte, 16 ≤ b.length →
  let w := leWord b
  let op := fun (n : Nat) => bits (leWord (b.drop (4 * n))) 25 18
  let lit := fun (n : Nat) => w.getLsbD (3 + n)
  let seta := w.toNat / 2 ^ 16 % 16
  let setb := w.toNat / 2 ^ 12 % 16
  let sig := w.toNat % 16 = 10
  let rsv := w.toNat / 2 ^ 7 % 8 = 0
  let codes := (seta < 12 ∨ seta = 15) ∧ (setb < 12 ∨ setb = 15)
  let cont := w.getLsbD 11 = false → w.toNat / 2 ^ 20 = 0 ∧ seta = 15 ∧ setb = 15 ∧ w.getLsbD 10 = false
  let lits := lit 1 = false ∧ ∀ n, 2 ≤ n → n ≤ 3 → lit n = true → lit (n - 1) = false ∧
    takesLiteral (op (n - 1)) ((leWord (b.drop (4 * (n - 1)))).extractLsb' 0 6) = true
  let ctl := ∀ n m, 1 ≤ n → n < m → m ≤ 3 → lit n = false → lit m = false → controlTransfer (op n) = true → op m = 0
  let fails := fun (k : Nat) => ∃ e : PacketError, decodePacket b = .error e ∧ e.sub = k
  (¬sig → fails 1) ∧ (sig → ¬rsv → fails 2) ∧ (sig → rsv → ¬codes → fails 3) ∧ (sig → rsv → codes → ¬cont → fails 4) ∧
  (sig → rsv → codes → cont → ¬lits → fails 5) ∧ (sig → rsv → codes → cont → lits → ¬ctl → fails 6) ∧
  (sig → rsv → codes → cont → lits → ctl → ∃ p, decodePacket b = .ok p ∧
    p.hdr = header w ∧ p.hdr.wait.toNat = w.toNat / 2 ^ 20 ∧ p.hdr.seta = seta ∧ p.hdr.setb = setb ∧ p.hdr.cls = w.getLsbD 11 ∧ p.hdr.yld = w.getLsbD 10 ∧
    p.slots = [leWord (b.drop 4), leWord (b.drop 8), leWord (b.drop 12)] ∧
    ∀ n, 1 ≤ n → n ≤ 3 → lit n = false → p.instrAt n =
      some (decodeDevice (leWord (b.drop (4 * n))) (if n < 3 ∧ lit (n + 1) = true then some (leWord (b.drop (4 * n + 4))) else none))) ∧
  ∀ (s : State) (t : Team) (pc : Addr) (tg : Target) (e : PacketError), s.fetch t (packetOf pc) = .ok (tg, b) → decodePacket b = .error e →
    s.packetAt t pc = .error (5, e.sub, w.setWidth 64)

/-- R41 to R45, R124, R127, R144, R326, R330: a step runs the word, event or command that its turn comes to. An issue turn whose group stands, in a
tested clause and with no trap to take, at an instruction word of the packet in hand runs what that word decodes to; a base core's turn runs the word at
its pc, or has the Fold carry out the command whose block has come from the host; an event's turn the event. Turns are the model's agenda (log 1), and
a clause whose packet's page has to be walked first begins once the walk is back (log 22). -/
def Obligations.StepRunsDecoded : Prop := ∀ (s : State) (rest : List Turn),
  (∀ core part u gx t g c th ths k v more, s.agenda = .issue core part :: rest → goodCore core = true → part < 16 → s.ready = true → s.stopped = false →
    let s1 := ({ s.marked with agenda := rest } : State).park core part
    s1.pick core part = some (u, gx) →
    let s2 : State := { s1.updGroup u gx (fun x => { x with triedAt := s1.seq }) with seq := s1.seq + 1 }
    s2.team? u = some t → s2.group? u gx = some g → (t.killed = false ∨ g.atRest = false) → s2.boundaryTrap t g = none → g.clause = some c →
    c.tested = true → c.code ≠ [] →
    (g.threads.filter fun th => c.set.contains th.tidx && !th.exited) = th :: ths → wordsFrom c.code (th.pc.toNat % 16 / 4) = (k, v) :: more →
    (chainPos c th.pc k = 0 → v.chains = true → chainTrap s2 t g c (th :: ths) ((k, v) :: more) (th.pc.toNat % 16 / 4) = none) →
    step s = exec v.instr { s2.updGroup u gx (fun g => { g with clause := some { c with chain := chainPos c th.pc k } }) with cur := some ⟨u, gx⟩ }) ∧
  (∀ (bs : List Byte) (p : Packet) (n : Nat), decodePacket bs = .ok p → 1 ≤ n → n ≤ 3 → p.hdr.isLit n = false →
    ∃ v more, wordsFrom (leWords 4 bs) n = (n, v) :: more ∧ p.instrAt n = some v.instr) ∧
  (∀ (t : Team) (g : Group) (pc : Addr) (ths : List Thread) (tg : Target) (code : List Word) (h : Header), s.needsWalk (.oper t.uid) (packetOf pc) = false → s.team? t.uid = some t → t.group? g.gidx = some g →
    t.select g = some (pc, ths) → (∀ th ∈ ths, th.came ≠ .resumed) → ths ≠ [] → s.packetAt t pc = .ok (tg, code, h) → h.cls = true →
    ∃ g', (s.beginClause t g).group? t.uid g.gidx = some g' ∧
      g'.clause = some { start := pc, set := ths.map (·.tidx), seta := h.seta, setb := h.setb, packets := 1, resumed := false, code := code }) ∧
  (∀ (t : Team) (pc : Addr) (tg : Target) (bs : List Byte) (p : Packet), s.fetch t (packetOf pc) = .ok (tg, bs) → decodePacket bs = .ok p →
    bs = Memory.gets s.mem tg.loc 16 ∧ s.packetAt t pc = .ok (tg, leWords 4 bs, p.hdr)) ∧
  (∀ k, s.agenda = .hart k :: rest → goodColumn k = true → s.ready = true →
    let s1 : State := { ({ s.marked with agenda := rest } : State).goesOn with fence := none, curHart := k }
    (∀ w i, (s.hart k).hostRead = none → ((s.hart k).joinVal = none → (s.hart k).interrupt = none) → s.hartWord k = .ok (some w) → decodeHart w = some i →
      step s = exec i s1) ∧
    ∀ r s' c, (s.hart k).hostRead = some r → (∀ n < r.parts, (tget r.got n).isSome = true) → s1.hostReadDone k r = (s', some c) → step s = s'.command c) ∧
  (∀ i, s.agenda = .event i :: rest → isEvent i = true → i.wf = true → s.allows i = true → step s = exec i { ({ s.marked with agenda := rest } : State).goesOn with fence := none })

/-- R422, R435 to R437: what the resets leave. A power-on reset: the bring-up capability at its reset value, TIME and every counter 0, HBM and SRAM zero
with sound check values, no context; the general registers of the base cores are zero by the model's choice (log 12). A compute reset: HBM and its
check values kept, all SRAM zero, TIME 0, no context, and the capability as it stands; a dump that was being written stays incomplete (log 80), and the
cores run again where HBM has power (log 50). A context's reset: its teams, operations, slices and requests gone, its joins answered, its stile lines,
queues, grants and counters kept, and one entry, none in a compute reset. -/
def Obligations.ResetState : Prop :=
  State.reset.cap.phase = 0 ∧ State.reset.cap.step = 0 ∧ (∀ d off, State.reset.capDword d off = 0) ∧ State.reset.stopped = false ∧ State.reset.cap.fcause = 0 ∧ State.reset.time = 0 ∧ State.reset.errs = [0, 0, 0, 0, 0, 0] ∧
  (∀ a, Memory.get State.reset.mem a = 0) ∧ State.reset.bad = [] ∧ State.reset.contexts = [] ∧ State.reset.teams = [] ∧ State.reset.ops = [] ∧
  State.reset.slices = [] ∧ State.reset.queues = [] ∧ State.reset.stiles = [] ∧ (∀ h n, (State.reset.hart h).r n = 0) ∧
  (∀ c, (State.reset.core c).homeLoc = 0 ∧ (State.reset.core c).tdSpill = 0) ∧ State.reset.Good ∧
  (∀ s : State,
    let t := s.computeReset
    let joined := fun (h : Hart) (id : Word) (k : Nat) =>
      { h with joinId := none, joinVal := some (if ((s.slice? k id).bind (·.ready)).isSome then 0x14 else 0xFFFFFFFFFFFFFFFF#64) }
    (∀ a, 2 ^ 40 ≤ a → Memory.get t.mem a = 0) ∧
    (∀ a < 2 ^ 40, s.dumping = none ∨ (a ≠ dumpLoc 6 ∧ s.Good) → Memory.get t.mem a = Memory.get s.mem a) ∧
    (s.dumping ≠ none → s.Good → t.dumpGet 6 1 = 3) ∧ (∀ b, b ∈ t.bad ↔ b ∈ s.bad ∧ b < 2 ^ 34) ∧ t.hbm = s.hbm ∧
    t.time = 0 ∧ t.contexts = [] ∧ t.teams = [] ∧ t.ops = [] ∧ t.slices = [] ∧ t.owing = [] ∧ t.queues = [] ∧ t.stiles = [] ∧ t.routes = [] ∧ t.slots = [] ∧
    t.tiles = [] ∧ t.accs = [] ∧ t.tlb = [] ∧ t.walks = [] ∧ t.columns = [] ∧ t.cores = [] ∧ t.dumping = none ∧ t.out = s.out ∧
    t.errs = s.errs ∧ t.caps = s.caps ∧ t.cap = s.cap ∧ t.links = s.links ∧ t.fuses = s.fuses ∧ t.image = s.image ∧
    t.stopped = (s.stopped && decide (s.cap.dump = 2)) ∧
    t.harts = s.harts.map fun h => match h.2.joinId with
      | some (k, id) => if (s.ctx? k).isSome = true then (h.1, joined h.2 id k) else h
      | none => h) ∧
  ∀ (s : State) (n : Nat) (c : Context), s.ctx? n = some c →
    let mine := fun (u : Nat) => ∃ t ∈ s.teams, t.ctx = n ∧ t.uid = u
    let left := fun (y : State) =>
      y.teams.map (·.uid) = (s.teams.filter (·.ctx != n)).map (·.uid) ∧ y.ops.map (·.uid) = (s.ops.filter (·.ctx != n)).map (·.uid) ∧
      y.slices.map (fun x => (x.ctx, x.id)) = (s.slices.filter (·.ctx != n)).map (fun x => (x.ctx, x.id)) ∧
      y.owing.map (fun x => (x.ctx, x.id)) = (s.owing.filter (·.ctx != n)).map (fun x => (x.ctx, x.id)) ∧ y.reserves = s.reserves.filter (·.ctx != n) ∧
      y.ctx? n = some { c with phase := .wiped, orphans := [] } ∧ (∀ k, k ≠ n → y.ctx? k = s.ctx? k) ∧
      y.stiles.map (fun l => (l.id, l.ctx, l.loc)) = s.stiles.map (fun l => (l.id, l.ctx, l.loc)) ∧ (∀ l ∈ y.stiles, l.ctx = n → l.reqs = []) ∧
      y.queues.map (fun q => (q.id, q.ctx, q.ridx)) = s.queues.map (fun q => (q.id, q.ctx, q.ridx)) ∧ y.routes = s.routes ∧
      (∀ l ∈ y.loads, ¬mine l.team) ∧ (∀ r ∈ y.frameReqs, ¬mine r.team) ∧
      (∀ t ∈ s.teams, t.ctx = n → t.swapped = false → ∀ k < t.desc.tiles, y.tile t.core (t.tileBase + k) = {}) ∧
      (∀ core k, ((y.slot core k).gen = (s.slot core k).gen) ∧ ((∃ o ∈ s.ops, o.ctx = n ∧ (s.slot core k).op = some o.uid) → (y.slot core k).op = none)) ∧
      ∀ h x, tget s.harts h = some x → ∀ id, x.joinId = some (n, id) → (y.hart h).joinId = none ∧
        (y.hart h).joinVal = some (if ((s.slice? n id).bind (·.ready)).isSome then 0x14 else 0xFFFFFFFFFFFFFFFF#64)
    left (s.resetContext n none) ∧ (s.resetContext n none).mem = s.mem ∧ (s.resetContext n none).out = s.out ∧
    ∀ sub, left (s.resetContext n (some sub)) ∧ ∃ z, left z ∧ s.resetContext n (some sub) = z.post n c.hart { cause := 0x14, src := 5, sub := sub }

/-- Every step keeps memory in its canonical form: addresses strictly rising, and no listed byte 0. The list is the model's own representation of the
bytes of R85 and R436 (log 63). -/
def Obligations.StepKeepsMemory : Prop := ∀ s t : State, s.Good → step s = .next t → t.Good

/-- R102, R199 to R209, R333: what loads, stores and atomics leave unchanged, those of a tile among them. Every byte outside the stored ones and the
page-table entries whose A and D bits they set reads as before; registers other than a load's destinations, predicates and trap records stay. The slice
has no limits. -/
def Obligations.AccessFrame : Prop :=
  let keeps := fun (v : Dev) (s t : State) (i : Iss) (n : Nat) (kind : AccKind) (acc : List Access) =>
    (∀ a, a ∉ leafBytes acc → (kind.writes = true → a ∉ storedBytes n acc) → Memory.get t.mem a = Memory.get s.mem a) ∧
    ∀ u g x th, s.thread? u g x = some th → ∃ th', t.thread? u g x = some th' ∧ Thread.KeepsRecord th th' ∧ th'.frames.length = th.frames.length ∧
      th'.frames.tail = th.frames.tail ∧ (∀ k, (k ∉ writtenRegs v.spec.regs ∨ u ≠ i.team.uid ∨ g ≠ i.grp.gidx ∨ x ∉ i.acts) → th'.reg k = th.reg k)
  (∀ (w : Rrr) (ins : Instr) (n : Nat) (kind : AccKind) (sub : Nat) (ea : Dev → Thread → Addr) (v : Dev) (s t : State) (i : Iss),
    (ins, n, kind, sub, ea) ∈ [(Instr.ldB8 w, 1, AccKind.read, 1, plainEa), (.ldS8 w, 1, .read, 1, plainEa), (.ldB16 w, 2, .read, 1, plainEa),
      (.ldS16 w, 2, .read, 1, plainEa), (.ldB32 w, 4, .read, 1, plainEa), (.ldB64 w, 8, .read, 1, plainEa), (.ldB128 w, 16, .read, 1, plainEa),
      (.stB8 w, 1, .write, 1, plainEa), (.stB16 w, 2, .write, 1, plainEa), (.stB32 w, 4, .write, 1, plainEa), (.stB64 w, 8, .write, 1, plainEa),
      (.stB128 w, 16, .write, 1, plainEa), (.atom w, 4, .atomic, 1, atomicEa), (.atom64 w, 8, .atomic, 1, atomicEa), (.acas w, 4, .atomic, 1, atomicEa),
      (.acas64 w, 8, .atomic, 1, atomicEa), (.afadd w, 4, .atomic, 1, atomicEa), (.red w, 4, .atomic, 1, atomicEa), (.red64 w, 8, .atomic, 1, atomicEa),
      (.mwatch w, 4, .watch, 2, plainEa)] →
    ins.dev = some v → Issues s v i → i.allClear s n kind sub (ea v) → i.unlimited s → exec ins s = .next t → keeps v s t i n kind (i.accesses s n kind sub (ea v))) ∧
  ∀ (w : Rrr) (ins : Instr) (kind : AccKind) (v : Dev) (s t : State) (i : Iss),
    let n := wdBytes (v.lw.toNat % 8)
    let tile := s.tile i.team.core (i.team.tileBase + v.a.toNat)
    let off := fun (th : Thread) => ((v.rb32 th).toNat : Int) + (v.lw.extractLsb' 8 24).toInt
    let ea := fun (th : Thread) => BitVec.ofInt 64 (tile.base + off th)
    (ins, kind) ∈ [(Instr.ldt w, AccKind.read), (.stt w, .write)] → ins.dev = some v → Issues s v i → v.a.toNat < i.desc.tiles → tile.st ≠ .empty →
    (∀ th ∈ i.doers, 0 ≤ off th ∧ off th + n ≤ tile.size ∧ off th % n = 0) → i.allClear s n kind 1 ea → i.unlimited s → exec ins s = .next t →
    keeps v s t i n kind (i.accesses s n kind 1 ea)

/-- R3, R102, R203: a store by one thread that checks out and covers no bad block leaves the low bytes of its data registers, little-endian, at its
target. -/
def Obligations.StoreWrites : Prop := ∀ (w : Rrr) (ins : Instr) (n : Nat) (v : Dev) (s t : State) (i : Iss) (a : Access),
  (ins, n) ∈ [(Instr.stB8 w, 1), (.stB16 w, 2), (.stB32 w, 4), (.stB64 w, 8), (.stB128 w, 16)] →
  ins.dev = some v → Issues s v i → i.allClear s n .write 1 (plainEa v) → i.unlimited s → i.accesses s n .write 1 (plainEa v) = [a] →
  a.tgt.view ≠ .system → s.partialBad a.tgt.loc n = false → (∀ id e, Turn.event (.storeMerge id e) ∈ s.agenda → e.failed = false) → s.Good →
  exec ins s = .next t →
  ∀ l ∈ a.tgt.reps, (∀ m ∈ a.tgt.reps, m = l ∨ l + n ≤ m ∨ m + n ≤ l) → ∀ k < n, Memory.get t.mem (l + k) =
    BitVec.ofNat 8 ((a.thr.v (v.d.toNat + k / 4)).toNat / 2 ^ (8 * (k % 4)))
end

