-- ==== Sys2Proof/Laws/Issue.lean ====
section
/-! SUPPORT. What a word that issues comes to: one lemma per way a word runs. -/

namespace Sys2Proof.Machine

variable {s : State} {v : Dev} {i : Iss}

/-- A word that nothing holds back has its effect. -/
theorem runWord_issues (h : Issues s v i) (eff : Iss → State → Done) : runWord v eff s = i.conclude (eff i s) := by
  have e : i.away s = [] := List.filter_eq_nil_iff.mpr fun t ht => by simp [h.here t ht]
  simp only [runWord, h.found, h.packet, h.word, e, Bool.and_false, Bool.false_eq_true, if_false, h.ready, h.room, Bool.or_self, Iss.outcome,
    Iss.withFailed, h.fresh, h.alike, Option.orElse_none]

/-- A word that meets a word-level cause traps, whatever its effect, unless the test of its target has to wait for a register. -/
theorem runWord_trap {t : Trap} (h : issueOf s v = some i) (hw : ((v.op == 0xB2 || v.op == 0xB4 || testsOperand v.op.toNat) && i.mustWait) = false)
    (ht : ((i.packetTrap s).orElse fun _ => i.wordTrap s) = some t) (eff : Iss → State → Done) : runWord v eff s = i.take s t := by
  simp only [runWord, h, hw, Bool.false_eq_true, if_false, ht]

/-- A word of lanes that nothing holds back writes its registers. -/
theorem runLanes_issues (h : Issues s v i) (f : Thread → List (Nat × Word)) :
    runLanes v f s = i.finish (i.upd s i.acts fun th => th.setVs (f (i.src th))) := runWord_issues h _

/-- An issue holds the word it was made for. -/
theorem issFor_dev {t : Team} {g : Group} (h : issFor t g v = some i) : i.dev = v := by
  unfold issFor at h
  split at h
  · cases h
  · split at h <;> cases h
    rfl

/-- The issue in hand holds the word it was made for. -/
theorem issueOf_dev (h : issueOf s v = some i) : i.dev = v := by
  unfold issueOf at h
  repeat' split at h
  all_goals first | exact issFor_dev h | cases h

/-- Every device word runs as a word does, with some effect. -/
theorem exec_runs (ins : Instr) (v : Dev) (s : State) (h : ins.dev = some v) : ∃ eff, exec ins s = .next (runWord v eff s) := by
  cases ins <;> cases h <;> exact ⟨_, rfl⟩

end Sys2Proof.Machine
end

