-- ==== Sys2Proof/Laws/Memory.lean ====
section
/-! SUPPORT. Byte memory: its canonical form is kept, what is written reads back, equal reads mean equal lists; little-endian numbers. -/

namespace Sys2Proof.Machine

theorem Memory.above_le {l l' : Nat} (h : l' ≤ l) : ∀ {m : List Host.Cell}, Memory.above l m = true → Memory.above l' m = true
  | [], _ => rfl
  | (a, b) :: m, hm => by
    simp only [Memory.above, Bool.and_eq_true, decide_eq_true_eq] at hm ⊢
    exact ⟨⟨by omega, hm.1.2⟩, hm.2⟩

theorem Memory.above_wf {l : Nat} : ∀ {m : List Host.Cell}, Memory.above l m = true → Memory.wf m = true
  | [], _ => rfl
  | (a, b) :: m, h => by
    simp only [Memory.above, Memory.wf, Bool.and_eq_true] at h ⊢
    exact ⟨h.1.2, h.2⟩

theorem Memory.wf_tail {c : Host.Cell} {m : List Host.Cell} (h : Memory.wf (c :: m) = true) : Memory.above c.1 m = true := by
  obtain ⟨a, b⟩ := c
  simp only [Memory.wf, Bool.and_eq_true] at h
  exact h.2

theorem Memory.wf_head {c : Host.Cell} {m : List Host.Cell} (h : Memory.wf (c :: m) = true) : c.2 ≠ 0 := by
  obtain ⟨a, b⟩ := c
  simp only [Memory.wf, Bool.and_eq_true, bne_iff_ne] at h
  exact h.1

/-- A list above `l` lists nothing at or below `l`. -/
theorem Memory.get_above {l a : Nat} (ha : a ≤ l) : ∀ {m : List Host.Cell}, Memory.above l m = true → Memory.get m a = 0
  | [], _ => rfl
  | (c, d) :: m, h => by
    simp only [Memory.above, Bool.and_eq_true, decide_eq_true_eq] at h
    have hc : (a == c) = false := by simp; omega
    have := Memory.get_above (show a ≤ c by omega) h.2
    simpa only [Memory.get, List.lookup_cons, hc] using this

theorem Memory.get_cons (c : Nat) (d : Byte) (m : List Host.Cell) (a : Nat) :
    Memory.get ((c, d) :: m) a = if a = c then d else Memory.get m a := by
  by_cases h : a = c
  · simp [Memory.get, h]
  · have : (a == c) = false := by simpa using h
    simp [Memory.get, List.lookup_cons, this, h]

/-! ### Writing a byte -/

theorem Memory.put_above {l a : Nat} (b : Byte) (ha : l < a) : ∀ {m : List Host.Cell}, Memory.above l m = true →
    Memory.above l (Memory.put m a b) = true
  | [], _ => by
    by_cases hb : b = 0#8 <;> simp [Memory.put, hb, Memory.above, ha]
  | (c, d) :: m, h => by
    have h' := h
    simp only [Memory.above, Bool.and_eq_true, decide_eq_true_eq, bne_iff_ne] at h'
    obtain ⟨⟨hl, hd⟩, hm⟩ := h'
    unfold Memory.put
    split
    · split
      · exact h
      · next hb => simp_all [Memory.above]
    · split
      · split
        · exact Memory.above_le (by omega) hm
        · next e hb => simp_all [Memory.above]
      · simp only [Memory.above, Bool.and_eq_true, decide_eq_true_eq, bne_iff_ne]
        exact ⟨⟨hl, hd⟩, Memory.put_above b (by omega) hm⟩

/-- Writing a byte keeps the canonical form. -/
theorem Memory.put_wf (a : Nat) (b : Byte) {m : List Host.Cell} (h : Memory.wf m = true) : Memory.wf (Memory.put m a b) = true := by
  cases m with
  | nil => by_cases hb : b = 0#8 <;> simp [Memory.put, hb, Memory.wf, Memory.above]
  | cons c m =>
    obtain ⟨c, d⟩ := c
    have hm := Memory.wf_tail h
    have hd := Memory.wf_head h
    unfold Memory.put
    split
    · split
      · exact h
      · next hb => simp_all [Memory.wf, Memory.above]
    · split
      · split
        · exact Memory.above_wf hm
        · next e hb => simp_all [Memory.wf]
      · simp only [Memory.wf, Bool.and_eq_true, bne_iff_ne]
        exact ⟨hd, Memory.put_above b (by omega) hm⟩

/-- Writing bytes keeps the canonical form. -/
theorem Memory.puts_wf (cells : List (Nat × Byte)) : ∀ {m : List Host.Cell}, Memory.wf m = true → Memory.wf (Memory.puts m cells) = true := by
  induction cells with
  | nil => exact id
  | cons c cs ih => exact fun h => ih (Memory.put_wf c.1 c.2 h)

theorem Memory.filter_above (p : Host.Cell → Bool) {l : Nat} : ∀ {m : List Host.Cell}, Memory.above l m = true →
    Memory.above l (m.filter p) = true
  | [], _ => rfl
  | (c, d) :: m, h => by
    simp only [Memory.above, Bool.and_eq_true, decide_eq_true_eq] at h
    have ih := Memory.filter_above p h.2
    by_cases hp : p (c, d)
    · simp only [List.filter_cons, hp, if_true, Memory.above, Bool.and_eq_true, decide_eq_true_eq]
      exact ⟨h.1, ih⟩
    · simp only [List.filter_cons, hp]
      exact Memory.above_le (by omega) ih

/-- Dropping cells keeps the canonical form. -/
theorem Memory.filter_wf (p : Host.Cell → Bool) {m : List Host.Cell} (h : Memory.wf m = true) : Memory.wf (m.filter p) = true := by
  cases m with
  | nil => rfl
  | cons c m =>
    have hm := Memory.filter_above p (Memory.wf_tail h)
    have hd := Memory.wf_head h
    by_cases hp : p c
    · obtain ⟨c, d⟩ := c
      simp only [List.filter_cons, hp, if_true, Memory.wf, Bool.and_eq_true, bne_iff_ne]
      exact ⟨hd, hm⟩
    · simp only [List.filter_cons, hp]
      exact Memory.above_wf hm

/-- Zeroing a run of locations keeps the canonical form. -/
theorem Memory.clear_wf (lo hi : Nat) {m : List Host.Cell} (h : Memory.wf m = true) : Memory.wf (Memory.clear m lo hi) = true :=
  Memory.filter_wf _ h

/-! ### Reading after writing -/

theorem Memory.get_put_above (b : Byte) {a : Nat} (x : Nat) : ∀ {m : List Host.Cell} {l : Nat}, Memory.above l m = true →
    Memory.get (Memory.put m a b) x = if x = a then b else Memory.get m x
  | [], _, _ => by
    by_cases hb : b = 0#8
    · by_cases hx : x = a <;> simp [Memory.put, hb, Memory.get]
    · simp [Memory.put, hb, Memory.get_cons]
  | (c, d) :: m, l, h => by
    simp only [Memory.above, Bool.and_eq_true, decide_eq_true_eq] at h
    have hz : ∀ y, y ≤ c → Memory.get m y = 0 := fun y hy => Memory.get_above hy h.2
    unfold Memory.put
    split
    · split
      · next hb =>
        by_cases hx : x = a
        · rw [if_pos hx, Memory.get_cons, if_neg (by omega), hz x (by omega), hb]
        · simp [hx]
      · simp [Memory.get_cons]
    · split
      · next e =>
        subst e
        split
        · next hb =>
          by_cases hx : x = a
          · simp only [hx, if_true, hb]; exact hz a (Nat.le_refl a)
          · simp [hx, Memory.get_cons]
        · by_cases hx : x = a <;> simp [hx, Memory.get_cons]
      · next hne =>
        have ih := Memory.get_put_above b (a := a) x h.2
        rw [Memory.get_cons, Memory.get_cons, ih]
        by_cases hx : x = a
        · have : x ≠ c := by omega
          simp only [hx, if_true]; simp [show a ≠ c by omega]
        · simp [hx]

/-- What a written byte reads as, and every other. -/
theorem Memory.get_put {m : List Host.Cell} (h : Memory.wf m = true) (a : Nat) (b : Byte) (x : Nat) :
    Memory.get (Memory.put m a b) x = if x = a then b else Memory.get m x := by
  cases m with
  | nil =>
    by_cases hb : b = 0#8
    · by_cases hx : x = a <;> simp [Memory.put, hb, Memory.get]
    · simp [Memory.put, hb, Memory.get_cons]
  | cons c m =>
    obtain ⟨c, d⟩ := c
    have hm := Memory.wf_tail h
    cases c with
    | succ c =>
      refine Memory.get_put_above b x (l := 0) ?_
      simp only [Memory.above, Bool.and_eq_true, decide_eq_true_eq, bne_iff_ne]
      exact ⟨⟨by omega, Memory.wf_head h⟩, hm⟩
    | zero =>
      unfold Memory.put
      split
      · omega
      · split
        · next e =>
          subst e
          split
          · next hb =>
            by_cases hx : x = 0
            · simp only [hx, if_true, hb]; exact Memory.get_above (Nat.le_refl 0) hm
            · simp [hx, Memory.get_cons]
          · by_cases hx : x = 0 <;> simp [hx, Memory.get_cons]
        · next hne =>
          rw [Memory.get_cons, Memory.get_cons, Memory.get_put_above b x hm]
          by_cases hx : x = a
          · simp only [hx, if_true]; simp [hne]
          · simp [hx]

/-- A location that none of the cells names reads as before. -/
theorem Memory.get_puts_other {x : Nat} (cells : List (Nat × Byte)) : ∀ {m : List Host.Cell}, Memory.wf m = true →
    (∀ c ∈ cells, c.1 ≠ x) → Memory.get (Memory.puts m cells) x = Memory.get m x := by
  induction cells with
  | nil => exact fun _ _ => rfl
  | cons c cs ih =>
    intro m h hx
    refine (ih (Memory.put_wf c.1 c.2 h) fun d hd => hx d (.tail _ hd)).trans ?_
    rw [Memory.get_put h, if_neg (hx c (.head _)).symm]

/-- The last of the cells that name a location is what it reads as. -/
theorem Memory.get_puts_append {m : List Host.Cell} (h : Memory.wf m = true) (cs ds : List (Nat × Byte)) (x : Nat) (b : Byte)
    (hd : ∀ c ∈ ds, c.1 ≠ x) : Memory.get (Memory.puts m (cs ++ (x, b) :: ds)) x = b := by
  have e : Memory.puts m (cs ++ (x, b) :: ds) = Memory.puts (Memory.put (Memory.puts m cs) x b) ds := by
    simp only [Memory.puts, List.foldl_append, List.foldl_cons]
  rw [e, Memory.get_puts_other ds (Memory.put_wf _ _ (Memory.puts_wf cs h)) hd, Memory.get_put (Memory.puts_wf cs h), if_pos rfl]

/-- A zeroed run reads 0, every other location as before. -/
theorem Memory.get_clear (m : List Host.Cell) (lo hi x : Nat) :
    Memory.get (Memory.clear m lo hi) x = if lo ≤ x ∧ x < hi then 0 else Memory.get m x := by
  induction m with
  | nil => simp [Memory.clear, Memory.get]
  | cons c m ih =>
    obtain ⟨c, d⟩ := c
    unfold Memory.clear at ih ⊢
    by_cases hc : c < lo ∨ hi ≤ c
    · have : (decide (c < lo) || decide (hi ≤ c)) = true := by simpa using hc
      rw [List.filter_cons_of_pos (p := fun c : Host.Cell => decide (c.1 < lo) || decide (hi ≤ c.1)) this, Memory.get_cons, Memory.get_cons, ih]
      by_cases hx : x = c
      · subst hx
        have : ¬(lo ≤ x ∧ x < hi) := by omega
        simp [this]
      · simp [hx]
    · have : ¬(decide (c < lo) || decide (hi ≤ c)) = true := by simpa using hc
      rw [List.filter_cons_of_neg (p := fun c : Host.Cell => decide (c.1 < lo) || decide (hi ≤ c.1)) this, Memory.get_cons, ih]
      by_cases hx : x = c
      · subst hx
        have : lo ≤ x ∧ x < hi := by omega
        simp [this]
      · simp [hx]

/-! ### Equal reads mean equal memories -/

theorem Memory.ext_above : ∀ {m n : List Host.Cell} {l : Nat}, Memory.above l m = true → Memory.above l n = true →
    (∀ a, Memory.get m a = Memory.get n a) → m = n
  | [], [], _, _, _, _ => rfl
  | [], (c, d) :: n, _, _, hn, h => by
    have := h c
    simp only [Memory.above, Bool.and_eq_true, bne_iff_ne] at hn
    rw [Memory.get_cons, if_pos rfl] at this
    exact absurd this.symm hn.1.2
  | (c, d) :: m, [], _, hm, _, h => by
    have := h c
    simp only [Memory.above, Bool.and_eq_true, bne_iff_ne] at hm
    rw [Memory.get_cons, if_pos rfl] at this
    exact absurd this hm.1.2
  | (c, d) :: m, (c', d') :: n, l, hm, hn, h => by
    have hm' := hm
    have hn' := hn
    simp only [Memory.above, Bool.and_eq_true, bne_iff_ne, decide_eq_true_eq] at hm' hn'
    obtain ⟨⟨hl, hd⟩, ha⟩ := hm'
    obtain ⟨⟨hl', hd'⟩, ha'⟩ := hn'
    have e : c = c' := by
      rcases Nat.lt_trichotomy c c' with hlt | rfl | hgt
      · have := h c
        rw [Memory.get_cons, if_pos rfl, Memory.get_cons, if_neg (by omega), Memory.get_above (by omega) ha'] at this
        exact absurd this hd
      · rfl
      · have := h c'
        rw [Memory.get_cons, if_neg (by omega), Memory.get_cons, if_pos rfl, Memory.get_above (by omega) ha] at this
        exact absurd this.symm hd'
    subst e
    have ed : d = d' := by
      have := h c
      rwa [Memory.get_cons, if_pos rfl, Memory.get_cons, if_pos rfl] at this
    subst ed
    refine congrArg _ (Memory.ext_above ha ha' fun a => ?_)
    have := h a
    rw [Memory.get_cons, Memory.get_cons] at this
    by_cases hx : a = c
    · subst hx; rw [Memory.get_above (Nat.le_refl a) ha, Memory.get_above (Nat.le_refl a) ha']
    · simpa only [if_neg hx] using this

/-- Two canonical memories that read alike everywhere are the same list. -/
theorem Memory.wf_ext {m n : List Host.Cell} (hm : Memory.wf m = true) (hn : Memory.wf n = true)
    (h : ∀ a, Memory.get m a = Memory.get n a) : m = n := by
  have up : ∀ k : List Host.Cell, Memory.wf k = true → Memory.above 0 (k.map fun c => (c.1 + 1, c.2)) = true := by
    have go : ∀ (k : List Host.Cell) (l : Nat), Memory.above l k = true → Memory.above (l + 1) (k.map fun c => (c.1 + 1, c.2)) = true := by
      intro k
      induction k with
      | nil => exact fun _ _ => rfl
      | cons c k ih =>
        intro l hk
        simp only [Memory.above, Bool.and_eq_true, decide_eq_true_eq, List.map_cons] at hk ⊢
        exact ⟨⟨by omega, hk.1.2⟩, ih _ hk.2⟩
    intro k hk
    cases k with
    | nil => rfl
    | cons c k =>
      simp only [Memory.above, Bool.and_eq_true, decide_eq_true_eq, List.map_cons, bne_iff_ne]
      exact ⟨⟨by omega, Memory.wf_head hk⟩, go k c.1 (Memory.wf_tail hk)⟩
  have rd : ∀ (k : List Host.Cell) (a : Nat), Memory.get (k.map fun c => (c.1 + 1, c.2)) (a + 1) = Memory.get k a := by
    intro k a
    induction k with
    | nil => rfl
    | cons c k ih =>
      obtain ⟨c, d⟩ := c
      simp only [List.map_cons, Memory.get_cons, ih, Nat.add_right_cancel_iff]
  have rz : ∀ k : List Host.Cell, Memory.wf k = true → Memory.get (k.map fun c => (c.1 + 1, c.2)) 0 = 0 := fun k hk =>
    Memory.get_above (Nat.le_refl 0) (up k hk)
  have e : m.map (fun c => (c.1 + 1, c.2)) = n.map fun c => (c.1 + 1, c.2) := by
    refine Memory.ext_above (up m hm) (up n hn) fun a => ?_
    cases a with
    | zero => rw [rz m hm, rz n hn]
    | succ a => rw [rd, rd, h]
  have inj : Function.Injective fun c : Host.Cell => (c.1 + 1, c.2) := fun a b hab => by
    obtain ⟨a, x⟩ := a; obtain ⟨b, y⟩ := b
    simp only [Prod.mk.injEq, Nat.add_right_cancel_iff] at hab
    simp [hab.1, hab.2]
  exact (List.map_inj_right fun _ _ => @inj _ _).mp e

/-! ### Runs of bytes and little-endian numbers (R3) -/

@[simp] theorem toLe_length : ∀ n v : Nat, (toLe n v).length = n
  | 0, _ => rfl
  | n + 1, v => congrArg (· + 1) (toLe_length n (v / 256))

/-- The number whose bytes `toLe` lists is the value modulo 256^n. -/
theorem leNat_toLe : ∀ n v : Nat, leNat (toLe n v) = v % 256 ^ n
  | 0, v => by simp [toLe, leNat, Nat.mod_one]
  | n + 1, v => by
    have := leNat_toLe n (v / 256)
    simp only [toLe, leNat, this, BitVec.toNat_ofNat]
    exact (by rw [show 256 ^ (n + 1) = 256 * 256 ^ n from Nat.pow_succ', Nat.mod_mul] : v % 256 ^ (n + 1) = v % 256 + 256 * (v / 256 % 256 ^ n)).symm

theorem leNat_lt : ∀ bs : List Byte, leNat bs < 256 ^ bs.length
  | [] => by simp [leNat]
  | b :: bs => by
    have := leNat_lt bs
    have hb := b.isLt
    simp only [leNat, List.length_cons, Nat.pow_succ]
    omega

/-- A list of bytes is given back by its number. -/
theorem toLe_leNat : ∀ bs : List Byte, toLe bs.length (leNat bs) = bs
  | [] => rfl
  | b :: bs => by
    have hb := b.isLt
    have e : (b.toNat + 256 * leNat bs) / 256 = leNat bs := by omega
    simp only [leNat, List.length_cons, toLe, e, toLe_leNat bs, List.cons.injEq, and_true]
    apply BitVec.eq_of_toNat_eq
    simp only [BitVec.toNat_ofNat]
    omega

/-- The cells of a run are its locations in order. -/
theorem cellsAt_fst (loc : Nat) (bs : List Byte) : (cellsAt loc bs).map (·.1) = (List.range bs.length).map (loc + ·) := by
  simp only [cellsAt, List.map_map]
  apply List.ext_getElem
  · simp
  · intro k h1 h2; simp

/-- Cells of a run stand within it. -/
theorem cellsAt_mem {loc : Nat} {bs : List Byte} {c : Nat × Byte} (h : c ∈ cellsAt loc bs) : loc ≤ c.1 ∧ c.1 < loc + bs.length := by
  have : c.1 ∈ (cellsAt loc bs).map (·.1) := List.mem_map_of_mem h
  rw [cellsAt_fst] at this
  simp only [List.mem_map, List.mem_range] at this
  obtain ⟨k, hk, e⟩ := this
  omega

end Sys2Proof.Machine
end

