-- ==== Sys2Proof/Laws/State.lean ====
section
/-! SUPPORT. What each update of the state, a team, a group or a thread leaves as it was: one law a field. -/

namespace Sys2Proof.Machine

/-! `State.updTeam` -/
@[simp] theorem State.updTeam_time (s : State) (u : Nat) (g : Team → Team) : (s.updTeam u g).time = s.time := rfl
@[simp] theorem State.updTeam_powered (s : State) (u : Nat) (g : Team → Team) : (s.updTeam u g).powered = s.powered := rfl
@[simp] theorem State.updTeam_cap (s : State) (u : Nat) (g : Team → Team) : (s.updTeam u g).cap = s.cap := rfl
@[simp] theorem State.updTeam_fuses (s : State) (u : Nat) (g : Team → Team) : (s.updTeam u g).fuses = s.fuses := rfl
@[simp] theorem State.updTeam_image (s : State) (u : Nat) (g : Team → Team) : (s.updTeam u g).image = s.image := rfl
@[simp] theorem State.updTeam_errs (s : State) (u : Nat) (g : Team → Team) : (s.updTeam u g).errs = s.errs := rfl
@[simp] theorem State.updTeam_dieErrs (s : State) (u : Nat) (g : Team → Team) : (s.updTeam u g).dieErrs = s.dieErrs := rfl
@[simp] theorem State.updTeam_sensors (s : State) (u : Nat) (g : Team → Team) : (s.updTeam u g).sensors = s.sensors := rfl
@[simp] theorem State.updTeam_links (s : State) (u : Nat) (g : Team → Team) : (s.updTeam u g).links = s.links := rfl
@[simp] theorem State.updTeam_uncorrectable (s : State) (u : Nat) (g : Team → Team) : (s.updTeam u g).uncorrectable = s.uncorrectable := rfl
@[simp] theorem State.updTeam_routes (s : State) (u : Nat) (g : Team → Team) : (s.updTeam u g).routes = s.routes := rfl
@[simp] theorem State.updTeam_mem (s : State) (u : Nat) (g : Team → Team) : (s.updTeam u g).mem = s.mem := rfl
@[simp] theorem State.updTeam_hbm (s : State) (u : Nat) (g : Team → Team) : (s.updTeam u g).hbm = s.hbm := rfl
@[simp] theorem State.updTeam_bad (s : State) (u : Nat) (g : Team → Team) : (s.updTeam u g).bad = s.bad := rfl
@[simp] theorem State.updTeam_teams (s : State) (u : Nat) (g : Team → Team) : (s.updTeam u g).teams = mapWhere (·.uid == u) g s.teams := rfl
@[simp] theorem State.updTeam_slots (s : State) (u : Nat) (g : Team → Team) : (s.updTeam u g).slots = s.slots := rfl
@[simp] theorem State.updTeam_ops (s : State) (u : Nat) (g : Team → Team) : (s.updTeam u g).ops = s.ops := rfl
@[simp] theorem State.updTeam_tiles (s : State) (u : Nat) (g : Team → Team) : (s.updTeam u g).tiles = s.tiles := rfl
@[simp] theorem State.updTeam_accs (s : State) (u : Nat) (g : Team → Team) : (s.updTeam u g).accs = s.accs := rfl
@[simp] theorem State.updTeam_loads (s : State) (u : Nat) (g : Team → Team) : (s.updTeam u g).loads = s.loads := rfl
@[simp] theorem State.updTeam_stores (s : State) (u : Nat) (g : Team → Team) : (s.updTeam u g).stores = s.stores := rfl
@[simp] theorem State.updTeam_frameReqs (s : State) (u : Nat) (g : Team → Team) : (s.updTeam u g).frameReqs = s.frameReqs := rfl
@[simp] theorem State.updTeam_cacheOps (s : State) (u : Nat) (g : Team → Team) : (s.updTeam u g).cacheOps = s.cacheOps := rfl
@[simp] theorem State.updTeam_tlb (s : State) (u : Nat) (g : Team → Team) : (s.updTeam u g).tlb = s.tlb := rfl
@[simp] theorem State.updTeam_walks (s : State) (u : Nat) (g : Team → Team) : (s.updTeam u g).walks = s.walks := rfl
@[simp] theorem State.updTeam_invals (s : State) (u : Nat) (g : Team → Team) : (s.updTeam u g).invals = s.invals := rfl
@[simp] theorem State.updTeam_contexts (s : State) (u : Nat) (g : Team → Team) : (s.updTeam u g).contexts = s.contexts := rfl
@[simp] theorem State.updTeam_slices (s : State) (u : Nat) (g : Team → Team) : (s.updTeam u g).slices = s.slices := rfl
@[simp] theorem State.updTeam_reserves (s : State) (u : Nat) (g : Team → Team) : (s.updTeam u g).reserves = s.reserves := rfl
@[simp] theorem State.updTeam_stiles (s : State) (u : Nat) (g : Team → Team) : (s.updTeam u g).stiles = s.stiles := rfl
@[simp] theorem State.updTeam_queues (s : State) (u : Nat) (g : Team → Team) : (s.updTeam u g).queues = s.queues := rfl
@[simp] theorem State.updTeam_lastWindow (s : State) (u : Nat) (g : Team → Team) : (s.updTeam u g).lastWindow = s.lastWindow := rfl
@[simp] theorem State.updTeam_peerFails (s : State) (u : Nat) (g : Team → Team) : (s.updTeam u g).peerFails = s.peerFails := rfl
@[simp] theorem State.updTeam_columns (s : State) (u : Nat) (g : Team → Team) : (s.updTeam u g).columns = s.columns := rfl
@[simp] theorem State.updTeam_poolGoal (s : State) (u : Nat) (g : Team → Team) : (s.updTeam u g).poolGoal = s.poolGoal := rfl
@[simp] theorem State.updTeam_cores (s : State) (u : Nat) (g : Team → Team) : (s.updTeam u g).cores = s.cores := rfl
@[simp] theorem State.updTeam_pf (s : State) (u : Nat) (g : Team → Team) : (s.updTeam u g).pf = s.pf := rfl
@[simp] theorem State.updTeam_harts (s : State) (u : Nat) (g : Team → Team) : (s.updTeam u g).harts = s.harts := rfl
@[simp] theorem State.updTeam_out (s : State) (u : Nat) (g : Team → Team) : (s.updTeam u g).out = s.out := rfl
@[simp] theorem State.updTeam_bkpt (s : State) (u : Nat) (g : Team → Team) : (s.updTeam u g).bkpt = s.bkpt := rfl
@[simp] theorem State.updTeam_agenda (s : State) (u : Nat) (g : Team → Team) : (s.updTeam u g).agenda = s.agenda := rfl
@[simp] theorem State.updTeam_seq (s : State) (u : Nat) (g : Team → Team) : (s.updTeam u g).seq = s.seq := rfl
@[simp] theorem State.updTeam_draws (s : State) (u : Nat) (g : Team → Team) : (s.updTeam u g).draws = s.draws := rfl
@[simp] theorem State.updTeam_cur (s : State) (u : Nat) (g : Team → Team) : (s.updTeam u g).cur = s.cur := rfl
@[simp] theorem State.updTeam_curHart (s : State) (u : Nat) (g : Team → Team) : (s.updTeam u g).curHart = s.curHart := rfl
@[simp] theorem State.updTeam_caps (s : State) (u : Nat) (g : Team → Team) : (s.updTeam u g).caps = s.caps := rfl
@[simp] theorem State.updTeam_boot (s : State) (u : Nat) (g : Team → Team) : (s.updTeam u g).boot = s.boot := rfl
@[simp] theorem State.updTeam_dumping (s : State) (u : Nat) (g : Team → Team) : (s.updTeam u g).dumping = s.dumping := rfl
@[simp] theorem State.updTeam_past (s : State) (u : Nat) (g : Team → Team) : (s.updTeam u g).past = s.past := rfl
@[simp] theorem State.updTeam_tick (s : State) (u : Nat) (g : Team → Team) : (s.updTeam u g).tick = s.tick := rfl
@[simp] theorem State.updTeam_stirred (s : State) (u : Nat) (g : Team → Team) : (s.updTeam u g).stirred = s.stirred := rfl
@[simp] theorem State.updTeam_stopped (s : State) (u : Nat) (g : Team → Team) : (s.updTeam u g).stopped = s.stopped := rfl
@[simp] theorem State.updTeam_fence (s : State) (u : Nat) (g : Team → Team) : (s.updTeam u g).fence = s.fence := rfl
@[simp] theorem State.updTeam_reads (s : State) (u : Nat) (g : Team → Team) : (s.updTeam u g).reads = s.reads := rfl
@[simp] theorem State.updTeam_owing (s : State) (u : Nat) (g : Team → Team) : (s.updTeam u g).owing = s.owing := rfl
/-! `State.updGroup` -/
@[simp] theorem State.updGroup_time (s : State) (u n : Nat) (g : Group → Group) : (s.updGroup u n g).time = s.time := rfl
@[simp] theorem State.updGroup_powered (s : State) (u n : Nat) (g : Group → Group) : (s.updGroup u n g).powered = s.powered := rfl
@[simp] theorem State.updGroup_cap (s : State) (u n : Nat) (g : Group → Group) : (s.updGroup u n g).cap = s.cap := rfl
@[simp] theorem State.updGroup_fuses (s : State) (u n : Nat) (g : Group → Group) : (s.updGroup u n g).fuses = s.fuses := rfl
@[simp] theorem State.updGroup_image (s : State) (u n : Nat) (g : Group → Group) : (s.updGroup u n g).image = s.image := rfl
@[simp] theorem State.updGroup_errs (s : State) (u n : Nat) (g : Group → Group) : (s.updGroup u n g).errs = s.errs := rfl
@[simp] theorem State.updGroup_dieErrs (s : State) (u n : Nat) (g : Group → Group) : (s.updGroup u n g).dieErrs = s.dieErrs := rfl
@[simp] theorem State.updGroup_sensors (s : State) (u n : Nat) (g : Group → Group) : (s.updGroup u n g).sensors = s.sensors := rfl
@[simp] theorem State.updGroup_links (s : State) (u n : Nat) (g : Group → Group) : (s.updGroup u n g).links = s.links := rfl
@[simp] theorem State.updGroup_uncorrectable (s : State) (u n : Nat) (g : Group → Group) : (s.updGroup u n g).uncorrectable = s.uncorrectable := rfl
@[simp] theorem State.updGroup_routes (s : State) (u n : Nat) (g : Group → Group) : (s.updGroup u n g).routes = s.routes := rfl
@[simp] theorem State.updGroup_mem (s : State) (u n : Nat) (g : Group → Group) : (s.updGroup u n g).mem = s.mem := rfl
@[simp] theorem State.updGroup_hbm (s : State) (u n : Nat) (g : Group → Group) : (s.updGroup u n g).hbm = s.hbm := rfl
@[simp] theorem State.updGroup_bad (s : State) (u n : Nat) (g : Group → Group) : (s.updGroup u n g).bad = s.bad := rfl
@[simp] theorem State.updGroup_teams (s : State) (u n : Nat) (g : Group → Group) : (s.updGroup u n g).teams = mapWhere (·.uid == u) (·.updGroup n g) s.teams := rfl
@[simp] theorem State.updGroup_slots (s : State) (u n : Nat) (g : Group → Group) : (s.updGroup u n g).slots = s.slots := rfl
@[simp] theorem State.updGroup_ops (s : State) (u n : Nat) (g : Group → Group) : (s.updGroup u n g).ops = s.ops := rfl
@[simp] theorem State.updGroup_tiles (s : State) (u n : Nat) (g : Group → Group) : (s.updGroup u n g).tiles = s.tiles := rfl
@[simp] theorem State.updGroup_accs (s : State) (u n : Nat) (g : Group → Group) : (s.updGroup u n g).accs = s.accs := rfl
@[simp] theorem State.updGroup_loads (s : State) (u n : Nat) (g : Group → Group) : (s.updGroup u n g).loads = s.loads := rfl
@[simp] theorem State.updGroup_stores (s : State) (u n : Nat) (g : Group → Group) : (s.updGroup u n g).stores = s.stores := rfl
@[simp] theorem State.updGroup_frameReqs (s : State) (u n : Nat) (g : Group → Group) : (s.updGroup u n g).frameReqs = s.frameReqs := rfl
@[simp] theorem State.updGroup_cacheOps (s : State) (u n : Nat) (g : Group → Group) : (s.updGroup u n g).cacheOps = s.cacheOps := rfl
@[simp] theorem State.updGroup_tlb (s : State) (u n : Nat) (g : Group → Group) : (s.updGroup u n g).tlb = s.tlb := rfl
@[simp] theorem State.updGroup_walks (s : State) (u n : Nat) (g : Group → Group) : (s.updGroup u n g).walks = s.walks := rfl
@[simp] theorem State.updGroup_invals (s : State) (u n : Nat) (g : Group → Group) : (s.updGroup u n g).invals = s.invals := rfl
@[simp] theorem State.updGroup_contexts (s : State) (u n : Nat) (g : Group → Group) : (s.updGroup u n g).contexts = s.contexts := rfl
@[simp] theorem State.updGroup_slices (s : State) (u n : Nat) (g : Group → Group) : (s.updGroup u n g).slices = s.slices := rfl
@[simp] theorem State.updGroup_reserves (s : State) (u n : Nat) (g : Group → Group) : (s.updGroup u n g).reserves = s.reserves := rfl
@[simp] theorem State.updGroup_stiles (s : State) (u n : Nat) (g : Group → Group) : (s.updGroup u n g).stiles = s.stiles := rfl
@[simp] theorem State.updGroup_queues (s : State) (u n : Nat) (g : Group → Group) : (s.updGroup u n g).queues = s.queues := rfl
@[simp] theorem State.updGroup_lastWindow (s : State) (u n : Nat) (g : Group → Group) : (s.updGroup u n g).lastWindow = s.lastWindow := rfl
@[simp] theorem State.updGroup_peerFails (s : State) (u n : Nat) (g : Group → Group) : (s.updGroup u n g).peerFails = s.peerFails := rfl
@[simp] theorem State.updGroup_columns (s : State) (u n : Nat) (g : Group → Group) : (s.updGroup u n g).columns = s.columns := rfl
@[simp] theorem State.updGroup_poolGoal (s : State) (u n : Nat) (g : Group → Group) : (s.updGroup u n g).poolGoal = s.poolGoal := rfl
@[simp] theorem State.updGroup_cores (s : State) (u n : Nat) (g : Group → Group) : (s.updGroup u n g).cores = s.cores := rfl
@[simp] theorem State.updGroup_pf (s : State) (u n : Nat) (g : Group → Group) : (s.updGroup u n g).pf = s.pf := rfl
@[simp] theorem State.updGroup_harts (s : State) (u n : Nat) (g : Group → Group) : (s.updGroup u n g).harts = s.harts := rfl
@[simp] theorem State.updGroup_out (s : State) (u n : Nat) (g : Group → Group) : (s.updGroup u n g).out = s.out := rfl
@[simp] theorem State.updGroup_bkpt (s : State) (u n : Nat) (g : Group → Group) : (s.updGroup u n g).bkpt = s.bkpt := rfl
@[simp] theorem State.updGroup_agenda (s : State) (u n : Nat) (g : Group → Group) : (s.updGroup u n g).agenda = s.agenda := rfl
@[simp] theorem State.updGroup_seq (s : State) (u n : Nat) (g : Group → Group) : (s.updGroup u n g).seq = s.seq := rfl
@[simp] theorem State.updGroup_draws (s : State) (u n : Nat) (g : Group → Group) : (s.updGroup u n g).draws = s.draws := rfl
@[simp] theorem State.updGroup_cur (s : State) (u n : Nat) (g : Group → Group) : (s.updGroup u n g).cur = s.cur := rfl
@[simp] theorem State.updGroup_curHart (s : State) (u n : Nat) (g : Group → Group) : (s.updGroup u n g).curHart = s.curHart := rfl
@[simp] theorem State.updGroup_caps (s : State) (u n : Nat) (g : Group → Group) : (s.updGroup u n g).caps = s.caps := rfl
@[simp] theorem State.updGroup_boot (s : State) (u n : Nat) (g : Group → Group) : (s.updGroup u n g).boot = s.boot := rfl
@[simp] theorem State.updGroup_dumping (s : State) (u n : Nat) (g : Group → Group) : (s.updGroup u n g).dumping = s.dumping := rfl
@[simp] theorem State.updGroup_past (s : State) (u n : Nat) (g : Group → Group) : (s.updGroup u n g).past = s.past := rfl
@[simp] theorem State.updGroup_tick (s : State) (u n : Nat) (g : Group → Group) : (s.updGroup u n g).tick = s.tick := rfl
@[simp] theorem State.updGroup_stirred (s : State) (u n : Nat) (g : Group → Group) : (s.updGroup u n g).stirred = s.stirred := rfl
@[simp] theorem State.updGroup_stopped (s : State) (u n : Nat) (g : Group → Group) : (s.updGroup u n g).stopped = s.stopped := rfl
@[simp] theorem State.updGroup_fence (s : State) (u n : Nat) (g : Group → Group) : (s.updGroup u n g).fence = s.fence := rfl
@[simp] theorem State.updGroup_reads (s : State) (u n : Nat) (g : Group → Group) : (s.updGroup u n g).reads = s.reads := rfl
@[simp] theorem State.updGroup_owing (s : State) (u n : Nat) (g : Group → Group) : (s.updGroup u n g).owing = s.owing := rfl
/-! `State.updThreads` -/
@[simp] theorem State.updThreads_time (s : State) (u n : Nat) (p : Thread → Bool) (g : Thread → Thread) : (s.updThreads u n p g).time = s.time := rfl
@[simp] theorem State.updThreads_powered (s : State) (u n : Nat) (p : Thread → Bool) (g : Thread → Thread) : (s.updThreads u n p g).powered = s.powered := rfl
@[simp] theorem State.updThreads_cap (s : State) (u n : Nat) (p : Thread → Bool) (g : Thread → Thread) : (s.updThreads u n p g).cap = s.cap := rfl
@[simp] theorem State.updThreads_fuses (s : State) (u n : Nat) (p : Thread → Bool) (g : Thread → Thread) : (s.updThreads u n p g).fuses = s.fuses := rfl
@[simp] theorem State.updThreads_image (s : State) (u n : Nat) (p : Thread → Bool) (g : Thread → Thread) : (s.updThreads u n p g).image = s.image := rfl
@[simp] theorem State.updThreads_errs (s : State) (u n : Nat) (p : Thread → Bool) (g : Thread → Thread) : (s.updThreads u n p g).errs = s.errs := rfl
@[simp] theorem State.updThreads_dieErrs (s : State) (u n : Nat) (p : Thread → Bool) (g : Thread → Thread) : (s.updThreads u n p g).dieErrs = s.dieErrs := rfl
@[simp] theorem State.updThreads_sensors (s : State) (u n : Nat) (p : Thread → Bool) (g : Thread → Thread) : (s.updThreads u n p g).sensors = s.sensors := rfl
@[simp] theorem State.updThreads_links (s : State) (u n : Nat) (p : Thread → Bool) (g : Thread → Thread) : (s.updThreads u n p g).links = s.links := rfl
@[simp] theorem State.updThreads_uncorrectable (s : State) (u n : Nat) (p : Thread → Bool) (g : Thread → Thread) : (s.updThreads u n p g).uncorrectable = s.uncorrectable := rfl
@[simp] theorem State.updThreads_routes (s : State) (u n : Nat) (p : Thread → Bool) (g : Thread → Thread) : (s.updThreads u n p g).routes = s.routes := rfl
@[simp] theorem State.updThreads_mem (s : State) (u n : Nat) (p : Thread → Bool) (g : Thread → Thread) : (s.updThreads u n p g).mem = s.mem := rfl
@[simp] theorem State.updThreads_hbm (s : State) (u n : Nat) (p : Thread → Bool) (g : Thread → Thread) : (s.updThreads u n p g).hbm = s.hbm := rfl
@[simp] theorem State.updThreads_bad (s : State) (u n : Nat) (p : Thread → Bool) (g : Thread → Thread) : (s.updThreads u n p g).bad = s.bad := rfl
@[simp] theorem State.updThreads_teams (s : State) (u n : Nat) (p : Thread → Bool) (g : Thread → Thread) : (s.updThreads u n p g).teams = mapWhere (·.uid == u) (·.updGroup n fun gr => { gr with threads := mapWhere p g gr.threads }) s.teams := rfl
@[simp] theorem State.updThreads_slots (s : State) (u n : Nat) (p : Thread → Bool) (g : Thread → Thread) : (s.updThreads u n p g).slots = s.slots := rfl
@[simp] theorem State.updThreads_ops (s : State) (u n : Nat) (p : Thread → Bool) (g : Thread → Thread) : (s.updThreads u n p g).ops = s.ops := rfl
@[simp] theorem State.updThreads_tiles (s : State) (u n : Nat) (p : Thread → Bool) (g : Thread → Thread) : (s.updThreads u n p g).tiles = s.tiles := rfl
@[simp] theorem State.updThreads_accs (s : State) (u n : Nat) (p : Thread → Bool) (g : Thread → Thread) : (s.updThreads u n p g).accs = s.accs := rfl
@[simp] theorem State.updThreads_loads (s : State) (u n : Nat) (p : Thread → Bool) (g : Thread → Thread) : (s.updThreads u n p g).loads = s.loads := rfl
@[simp] theorem State.updThreads_stores (s : State) (u n : Nat) (p : Thread → Bool) (g : Thread → Thread) : (s.updThreads u n p g).stores = s.stores := rfl
@[simp] theorem State.updThreads_frameReqs (s : State) (u n : Nat) (p : Thread → Bool) (g : Thread → Thread) : (s.updThreads u n p g).frameReqs = s.frameReqs := rfl
@[simp] theorem State.updThreads_cacheOps (s : State) (u n : Nat) (p : Thread → Bool) (g : Thread → Thread) : (s.updThreads u n p g).cacheOps = s.cacheOps := rfl
@[simp] theorem State.updThreads_tlb (s : State) (u n : Nat) (p : Thread → Bool) (g : Thread → Thread) : (s.updThreads u n p g).tlb = s.tlb := rfl
@[simp] theorem State.updThreads_walks (s : State) (u n : Nat) (p : Thread → Bool) (g : Thread → Thread) : (s.updThreads u n p g).walks = s.walks := rfl
@[simp] theorem State.updThreads_invals (s : State) (u n : Nat) (p : Thread → Bool) (g : Thread → Thread) : (s.updThreads u n p g).invals = s.invals := rfl
@[simp] theorem State.updThreads_contexts (s : State) (u n : Nat) (p : Thread → Bool) (g : Thread → Thread) : (s.updThreads u n p g).contexts = s.contexts := rfl
@[simp] theorem State.updThreads_slices (s : State) (u n : Nat) (p : Thread → Bool) (g : Thread → Thread) : (s.updThreads u n p g).slices = s.slices := rfl
@[simp] theorem State.updThreads_reserves (s : State) (u n : Nat) (p : Thread → Bool) (g : Thread → Thread) : (s.updThreads u n p g).reserves = s.reserves := rfl
@[simp] theorem State.updThreads_stiles (s : State) (u n : Nat) (p : Thread → Bool) (g : Thread → Thread) : (s.updThreads u n p g).stiles = s.stiles := rfl
@[simp] theorem State.updThreads_queues (s : State) (u n : Nat) (p : Thread → Bool) (g : Thread → Thread) : (s.updThreads u n p g).queues = s.queues := rfl
@[simp] theorem State.updThreads_lastWindow (s : State) (u n : Nat) (p : Thread → Bool) (g : Thread → Thread) : (s.updThreads u n p g).lastWindow = s.lastWindow := rfl
@[simp] theorem State.updThreads_peerFails (s : State) (u n : Nat) (p : Thread → Bool) (g : Thread → Thread) : (s.updThreads u n p g).peerFails = s.peerFails := rfl
@[simp] theorem State.updThreads_columns (s : State) (u n : Nat) (p : Thread → Bool) (g : Thread → Thread) : (s.updThreads u n p g).columns = s.columns := rfl
@[simp] theorem State.updThreads_poolGoal (s : State) (u n : Nat) (p : Thread → Bool) (g : Thread → Thread) : (s.updThreads u n p g).poolGoal = s.poolGoal := rfl
@[simp] theorem State.updThreads_cores (s : State) (u n : Nat) (p : Thread → Bool) (g : Thread → Thread) : (s.updThreads u n p g).cores = s.cores := rfl
@[simp] theorem State.updThreads_pf (s : State) (u n : Nat) (p : Thread → Bool) (g : Thread → Thread) : (s.updThreads u n p g).pf = s.pf := rfl
@[simp] theorem State.updThreads_harts (s : State) (u n : Nat) (p : Thread → Bool) (g : Thread → Thread) : (s.updThreads u n p g).harts = s.harts := rfl
@[simp] theorem State.updThreads_out (s : State) (u n : Nat) (p : Thread → Bool) (g : Thread → Thread) : (s.updThreads u n p g).out = s.out := rfl
@[simp] theorem State.updThreads_bkpt (s : State) (u n : Nat) (p : Thread → Bool) (g : Thread → Thread) : (s.updThreads u n p g).bkpt = s.bkpt := rfl
@[simp] theorem State.updThreads_agenda (s : State) (u n : Nat) (p : Thread → Bool) (g : Thread → Thread) : (s.updThreads u n p g).agenda = s.agenda := rfl
@[simp] theorem State.updThreads_seq (s : State) (u n : Nat) (p : Thread → Bool) (g : Thread → Thread) : (s.updThreads u n p g).seq = s.seq := rfl
@[simp] theorem State.updThreads_draws (s : State) (u n : Nat) (p : Thread → Bool) (g : Thread → Thread) : (s.updThreads u n p g).draws = s.draws := rfl
@[simp] theorem State.updThreads_cur (s : State) (u n : Nat) (p : Thread → Bool) (g : Thread → Thread) : (s.updThreads u n p g).cur = s.cur := rfl
@[simp] theorem State.updThreads_curHart (s : State) (u n : Nat) (p : Thread → Bool) (g : Thread → Thread) : (s.updThreads u n p g).curHart = s.curHart := rfl
@[simp] theorem State.updThreads_caps (s : State) (u n : Nat) (p : Thread → Bool) (g : Thread → Thread) : (s.updThreads u n p g).caps = s.caps := rfl
@[simp] theorem State.updThreads_boot (s : State) (u n : Nat) (p : Thread → Bool) (g : Thread → Thread) : (s.updThreads u n p g).boot = s.boot := rfl
@[simp] theorem State.updThreads_dumping (s : State) (u n : Nat) (p : Thread → Bool) (g : Thread → Thread) : (s.updThreads u n p g).dumping = s.dumping := rfl
@[simp] theorem State.updThreads_past (s : State) (u n : Nat) (p : Thread → Bool) (g : Thread → Thread) : (s.updThreads u n p g).past = s.past := rfl
@[simp] theorem State.updThreads_tick (s : State) (u n : Nat) (p : Thread → Bool) (g : Thread → Thread) : (s.updThreads u n p g).tick = s.tick := rfl
@[simp] theorem State.updThreads_stirred (s : State) (u n : Nat) (p : Thread → Bool) (g : Thread → Thread) : (s.updThreads u n p g).stirred = s.stirred := rfl
@[simp] theorem State.updThreads_stopped (s : State) (u n : Nat) (p : Thread → Bool) (g : Thread → Thread) : (s.updThreads u n p g).stopped = s.stopped := rfl
@[simp] theorem State.updThreads_fence (s : State) (u n : Nat) (p : Thread → Bool) (g : Thread → Thread) : (s.updThreads u n p g).fence = s.fence := rfl
@[simp] theorem State.updThreads_reads (s : State) (u n : Nat) (p : Thread → Bool) (g : Thread → Thread) : (s.updThreads u n p g).reads = s.reads := rfl
@[simp] theorem State.updThreads_owing (s : State) (u n : Nat) (p : Thread → Bool) (g : Thread → Thread) : (s.updThreads u n p g).owing = s.owing := rfl
/-! `State.updTeamThreads` -/
@[simp] theorem State.updTeamThreads_time (s : State) (u : Nat) (p : Thread → Bool) (g : Thread → Thread) : (s.updTeamThreads u p g).time = s.time := rfl
@[simp] theorem State.updTeamThreads_powered (s : State) (u : Nat) (p : Thread → Bool) (g : Thread → Thread) : (s.updTeamThreads u p g).powered = s.powered := rfl
@[simp] theorem State.updTeamThreads_cap (s : State) (u : Nat) (p : Thread → Bool) (g : Thread → Thread) : (s.updTeamThreads u p g).cap = s.cap := rfl
@[simp] theorem State.updTeamThreads_fuses (s : State) (u : Nat) (p : Thread → Bool) (g : Thread → Thread) : (s.updTeamThreads u p g).fuses = s.fuses := rfl
@[simp] theorem State.updTeamThreads_image (s : State) (u : Nat) (p : Thread → Bool) (g : Thread → Thread) : (s.updTeamThreads u p g).image = s.image := rfl
@[simp] theorem State.updTeamThreads_errs (s : State) (u : Nat) (p : Thread → Bool) (g : Thread → Thread) : (s.updTeamThreads u p g).errs = s.errs := rfl
@[simp] theorem State.updTeamThreads_dieErrs (s : State) (u : Nat) (p : Thread → Bool) (g : Thread → Thread) : (s.updTeamThreads u p g).dieErrs = s.dieErrs := rfl
@[simp] theorem State.updTeamThreads_sensors (s : State) (u : Nat) (p : Thread → Bool) (g : Thread → Thread) : (s.updTeamThreads u p g).sensors = s.sensors := rfl
@[simp] theorem State.updTeamThreads_links (s : State) (u : Nat) (p : Thread → Bool) (g : Thread → Thread) : (s.updTeamThreads u p g).links = s.links := rfl
@[simp] theorem State.updTeamThreads_uncorrectable (s : State) (u : Nat) (p : Thread → Bool) (g : Thread → Thread) : (s.updTeamThreads u p g).uncorrectable = s.uncorrectable := rfl
@[simp] theorem State.updTeamThreads_routes (s : State) (u : Nat) (p : Thread → Bool) (g : Thread → Thread) : (s.updTeamThreads u p g).routes = s.routes := rfl
@[simp] theorem State.updTeamThreads_mem (s : State) (u : Nat) (p : Thread → Bool) (g : Thread → Thread) : (s.updTeamThreads u p g).mem = s.mem := rfl
@[simp] theorem State.updTeamThreads_hbm (s : State) (u : Nat) (p : Thread → Bool) (g : Thread → Thread) : (s.updTeamThreads u p g).hbm = s.hbm := rfl
@[simp] theorem State.updTeamThreads_bad (s : State) (u : Nat) (p : Thread → Bool) (g : Thread → Thread) : (s.updTeamThreads u p g).bad = s.bad := rfl
@[simp] theorem State.updTeamThreads_teams (s : State) (u : Nat) (p : Thread → Bool) (g : Thread → Thread) : (s.updTeamThreads u p g).teams = mapWhere (·.uid == u) (fun t => { t with groups := t.groups.map fun gr => { gr with threads := mapWhere p g gr.threads } }) s.teams := rfl
@[simp] theorem State.updTeamThreads_slots (s : State) (u : Nat) (p : Thread → Bool) (g : Thread → Thread) : (s.updTeamThreads u p g).slots = s.slots := rfl
@[simp] theorem State.updTeamThreads_ops (s : State) (u : Nat) (p : Thread → Bool) (g : Thread → Thread) : (s.updTeamThreads u p g).ops = s.ops := rfl
@[simp] theorem State.updTeamThreads_tiles (s : State) (u : Nat) (p : Thread → Bool) (g : Thread → Thread) : (s.updTeamThreads u p g).tiles = s.tiles := rfl
@[simp] theorem State.updTeamThreads_accs (s : State) (u : Nat) (p : Thread → Bool) (g : Thread → Thread) : (s.updTeamThreads u p g).accs = s.accs := rfl
@[simp] theorem State.updTeamThreads_loads (s : State) (u : Nat) (p : Thread → Bool) (g : Thread → Thread) : (s.updTeamThreads u p g).loads = s.loads := rfl
@[simp] theorem State.updTeamThreads_stores (s : State) (u : Nat) (p : Thread → Bool) (g : Thread → Thread) : (s.updTeamThreads u p g).stores = s.stores := rfl
@[simp] theorem State.updTeamThreads_frameReqs (s : State) (u : Nat) (p : Thread → Bool) (g : Thread → Thread) : (s.updTeamThreads u p g).frameReqs = s.frameReqs := rfl
@[simp] theorem State.updTeamThreads_cacheOps (s : State) (u : Nat) (p : Thread → Bool) (g : Thread → Thread) : (s.updTeamThreads u p g).cacheOps = s.cacheOps := rfl
@[simp] theorem State.updTeamThreads_tlb (s : State) (u : Nat) (p : Thread → Bool) (g : Thread → Thread) : (s.updTeamThreads u p g).tlb = s.tlb := rfl
@[simp] theorem State.updTeamThreads_walks (s : State) (u : Nat) (p : Thread → Bool) (g : Thread → Thread) : (s.updTeamThreads u p g).walks = s.walks := rfl
@[simp] theorem State.updTeamThreads_invals (s : State) (u : Nat) (p : Thread → Bool) (g : Thread → Thread) : (s.updTeamThreads u p g).invals = s.invals := rfl
@[simp] theorem State.updTeamThreads_contexts (s : State) (u : Nat) (p : Thread → Bool) (g : Thread → Thread) : (s.updTeamThreads u p g).contexts = s.contexts := rfl
@[simp] theorem State.updTeamThreads_slices (s : State) (u : Nat) (p : Thread → Bool) (g : Thread → Thread) : (s.updTeamThreads u p g).slices = s.slices := rfl
@[simp] theorem State.updTeamThreads_reserves (s : State) (u : Nat) (p : Thread → Bool) (g : Thread → Thread) : (s.updTeamThreads u p g).reserves = s.reserves := rfl
@[simp] theorem State.updTeamThreads_stiles (s : State) (u : Nat) (p : Thread → Bool) (g : Thread → Thread) : (s.updTeamThreads u p g).stiles = s.stiles := rfl
@[simp] theorem State.updTeamThreads_queues (s : State) (u : Nat) (p : Thread → Bool) (g : Thread → Thread) : (s.updTeamThreads u p g).queues = s.queues := rfl
@[simp] theorem State.updTeamThreads_lastWindow (s : State) (u : Nat) (p : Thread → Bool) (g : Thread → Thread) : (s.updTeamThreads u p g).lastWindow = s.lastWindow := rfl
@[simp] theorem State.updTeamThreads_peerFails (s : State) (u : Nat) (p : Thread → Bool) (g : Thread → Thread) : (s.updTeamThreads u p g).peerFails = s.peerFails := rfl
@[simp] theorem State.updTeamThreads_columns (s : State) (u : Nat) (p : Thread → Bool) (g : Thread → Thread) : (s.updTeamThreads u p g).columns = s.columns := rfl
@[simp] theorem State.updTeamThreads_poolGoal (s : State) (u : Nat) (p : Thread → Bool) (g : Thread → Thread) : (s.updTeamThreads u p g).poolGoal = s.poolGoal := rfl
@[simp] theorem State.updTeamThreads_cores (s : State) (u : Nat) (p : Thread → Bool) (g : Thread → Thread) : (s.updTeamThreads u p g).cores = s.cores := rfl
@[simp] theorem State.updTeamThreads_pf (s : State) (u : Nat) (p : Thread → Bool) (g : Thread → Thread) : (s.updTeamThreads u p g).pf = s.pf := rfl
@[simp] theorem State.updTeamThreads_harts (s : State) (u : Nat) (p : Thread → Bool) (g : Thread → Thread) : (s.updTeamThreads u p g).harts = s.harts := rfl
@[simp] theorem State.updTeamThreads_out (s : State) (u : Nat) (p : Thread → Bool) (g : Thread → Thread) : (s.updTeamThreads u p g).out = s.out := rfl
@[simp] theorem State.updTeamThreads_bkpt (s : State) (u : Nat) (p : Thread → Bool) (g : Thread → Thread) : (s.updTeamThreads u p g).bkpt = s.bkpt := rfl
@[simp] theorem State.updTeamThreads_agenda (s : State) (u : Nat) (p : Thread → Bool) (g : Thread → Thread) : (s.updTeamThreads u p g).agenda = s.agenda := rfl
@[simp] theorem State.updTeamThreads_seq (s : State) (u : Nat) (p : Thread → Bool) (g : Thread → Thread) : (s.updTeamThreads u p g).seq = s.seq := rfl
@[simp] theorem State.updTeamThreads_draws (s : State) (u : Nat) (p : Thread → Bool) (g : Thread → Thread) : (s.updTeamThreads u p g).draws = s.draws := rfl
@[simp] theorem State.updTeamThreads_cur (s : State) (u : Nat) (p : Thread → Bool) (g : Thread → Thread) : (s.updTeamThreads u p g).cur = s.cur := rfl
@[simp] theorem State.updTeamThreads_curHart (s : State) (u : Nat) (p : Thread → Bool) (g : Thread → Thread) : (s.updTeamThreads u p g).curHart = s.curHart := rfl
@[simp] theorem State.updTeamThreads_caps (s : State) (u : Nat) (p : Thread → Bool) (g : Thread → Thread) : (s.updTeamThreads u p g).caps = s.caps := rfl
@[simp] theorem State.updTeamThreads_boot (s : State) (u : Nat) (p : Thread → Bool) (g : Thread → Thread) : (s.updTeamThreads u p g).boot = s.boot := rfl
@[simp] theorem State.updTeamThreads_dumping (s : State) (u : Nat) (p : Thread → Bool) (g : Thread → Thread) : (s.updTeamThreads u p g).dumping = s.dumping := rfl
@[simp] theorem State.updTeamThreads_past (s : State) (u : Nat) (p : Thread → Bool) (g : Thread → Thread) : (s.updTeamThreads u p g).past = s.past := rfl
@[simp] theorem State.updTeamThreads_tick (s : State) (u : Nat) (p : Thread → Bool) (g : Thread → Thread) : (s.updTeamThreads u p g).tick = s.tick := rfl
@[simp] theorem State.updTeamThreads_stirred (s : State) (u : Nat) (p : Thread → Bool) (g : Thread → Thread) : (s.updTeamThreads u p g).stirred = s.stirred := rfl
@[simp] theorem State.updTeamThreads_stopped (s : State) (u : Nat) (p : Thread → Bool) (g : Thread → Thread) : (s.updTeamThreads u p g).stopped = s.stopped := rfl
@[simp] theorem State.updTeamThreads_fence (s : State) (u : Nat) (p : Thread → Bool) (g : Thread → Thread) : (s.updTeamThreads u p g).fence = s.fence := rfl
@[simp] theorem State.updTeamThreads_reads (s : State) (u : Nat) (p : Thread → Bool) (g : Thread → Thread) : (s.updTeamThreads u p g).reads = s.reads := rfl
@[simp] theorem State.updTeamThreads_owing (s : State) (u : Nat) (p : Thread → Bool) (g : Thread → Thread) : (s.updTeamThreads u p g).owing = s.owing := rfl
/-! `State.updSlice` -/
@[simp] theorem State.updSlice_time (s : State) (c : Nat) (x : Word) (g : Slice → Slice) : (s.updSlice c x g).time = s.time := rfl
@[simp] theorem State.updSlice_powered (s : State) (c : Nat) (x : Word) (g : Slice → Slice) : (s.updSlice c x g).powered = s.powered := rfl
@[simp] theorem State.updSlice_cap (s : State) (c : Nat) (x : Word) (g : Slice → Slice) : (s.updSlice c x g).cap = s.cap := rfl
@[simp] theorem State.updSlice_fuses (s : State) (c : Nat) (x : Word) (g : Slice → Slice) : (s.updSlice c x g).fuses = s.fuses := rfl
@[simp] theorem State.updSlice_image (s : State) (c : Nat) (x : Word) (g : Slice → Slice) : (s.updSlice c x g).image = s.image := rfl
@[simp] theorem State.updSlice_errs (s : State) (c : Nat) (x : Word) (g : Slice → Slice) : (s.updSlice c x g).errs = s.errs := rfl
@[simp] theorem State.updSlice_dieErrs (s : State) (c : Nat) (x : Word) (g : Slice → Slice) : (s.updSlice c x g).dieErrs = s.dieErrs := rfl
@[simp] theorem State.updSlice_sensors (s : State) (c : Nat) (x : Word) (g : Slice → Slice) : (s.updSlice c x g).sensors = s.sensors := rfl
@[simp] theorem State.updSlice_links (s : State) (c : Nat) (x : Word) (g : Slice → Slice) : (s.updSlice c x g).links = s.links := rfl
@[simp] theorem State.updSlice_uncorrectable (s : State) (c : Nat) (x : Word) (g : Slice → Slice) : (s.updSlice c x g).uncorrectable = s.uncorrectable := rfl
@[simp] theorem State.updSlice_routes (s : State) (c : Nat) (x : Word) (g : Slice → Slice) : (s.updSlice c x g).routes = s.routes := rfl
@[simp] theorem State.updSlice_mem (s : State) (c : Nat) (x : Word) (g : Slice → Slice) : (s.updSlice c x g).mem = s.mem := rfl
@[simp] theorem State.updSlice_hbm (s : State) (c : Nat) (x : Word) (g : Slice → Slice) : (s.updSlice c x g).hbm = s.hbm := rfl
@[simp] theorem State.updSlice_bad (s : State) (c : Nat) (x : Word) (g : Slice → Slice) : (s.updSlice c x g).bad = s.bad := rfl
@[simp] theorem State.updSlice_teams (s : State) (c : Nat) (x : Word) (g : Slice → Slice) : (s.updSlice c x g).teams = s.teams := rfl
@[simp] theorem State.updSlice_slots (s : State) (c : Nat) (x : Word) (g : Slice → Slice) : (s.updSlice c x g).slots = s.slots := rfl
@[simp] theorem State.updSlice_ops (s : State) (c : Nat) (x : Word) (g : Slice → Slice) : (s.updSlice c x g).ops = s.ops := rfl
@[simp] theorem State.updSlice_tiles (s : State) (c : Nat) (x : Word) (g : Slice → Slice) : (s.updSlice c x g).tiles = s.tiles := rfl
@[simp] theorem State.updSlice_accs (s : State) (c : Nat) (x : Word) (g : Slice → Slice) : (s.updSlice c x g).accs = s.accs := rfl
@[simp] theorem State.updSlice_loads (s : State) (c : Nat) (x : Word) (g : Slice → Slice) : (s.updSlice c x g).loads = s.loads := rfl
@[simp] theorem State.updSlice_stores (s : State) (c : Nat) (x : Word) (g : Slice → Slice) : (s.updSlice c x g).stores = s.stores := rfl
@[simp] theorem State.updSlice_frameReqs (s : State) (c : Nat) (x : Word) (g : Slice → Slice) : (s.updSlice c x g).frameReqs = s.frameReqs := rfl
@[simp] theorem State.updSlice_cacheOps (s : State) (c : Nat) (x : Word) (g : Slice → Slice) : (s.updSlice c x g).cacheOps = s.cacheOps := rfl
@[simp] theorem State.updSlice_tlb (s : State) (c : Nat) (x : Word) (g : Slice → Slice) : (s.updSlice c x g).tlb = s.tlb := rfl
@[simp] theorem State.updSlice_walks (s : State) (c : Nat) (x : Word) (g : Slice → Slice) : (s.updSlice c x g).walks = s.walks := rfl
@[simp] theorem State.updSlice_invals (s : State) (c : Nat) (x : Word) (g : Slice → Slice) : (s.updSlice c x g).invals = s.invals := rfl
@[simp] theorem State.updSlice_contexts (s : State) (c : Nat) (x : Word) (g : Slice → Slice) : (s.updSlice c x g).contexts = s.contexts := rfl
@[simp] theorem State.updSlice_slices (s : State) (c : Nat) (x : Word) (g : Slice → Slice) : (s.updSlice c x g).slices = mapWhere (fun y => y.ctx == c && y.id == x) g s.slices := rfl
@[simp] theorem State.updSlice_reserves (s : State) (c : Nat) (x : Word) (g : Slice → Slice) : (s.updSlice c x g).reserves = s.reserves := rfl
@[simp] theorem State.updSlice_stiles (s : State) (c : Nat) (x : Word) (g : Slice → Slice) : (s.updSlice c x g).stiles = s.stiles := rfl
@[simp] theorem State.updSlice_queues (s : State) (c : Nat) (x : Word) (g : Slice → Slice) : (s.updSlice c x g).queues = s.queues := rfl
@[simp] theorem State.updSlice_lastWindow (s : State) (c : Nat) (x : Word) (g : Slice → Slice) : (s.updSlice c x g).lastWindow = s.lastWindow := rfl
@[simp] theorem State.updSlice_peerFails (s : State) (c : Nat) (x : Word) (g : Slice → Slice) : (s.updSlice c x g).peerFails = s.peerFails := rfl
@[simp] theorem State.updSlice_columns (s : State) (c : Nat) (x : Word) (g : Slice → Slice) : (s.updSlice c x g).columns = s.columns := rfl
@[simp] theorem State.updSlice_poolGoal (s : State) (c : Nat) (x : Word) (g : Slice → Slice) : (s.updSlice c x g).poolGoal = s.poolGoal := rfl
@[simp] theorem State.updSlice_cores (s : State) (c : Nat) (x : Word) (g : Slice → Slice) : (s.updSlice c x g).cores = s.cores := rfl
@[simp] theorem State.updSlice_pf (s : State) (c : Nat) (x : Word) (g : Slice → Slice) : (s.updSlice c x g).pf = s.pf := rfl
@[simp] theorem State.updSlice_harts (s : State) (c : Nat) (x : Word) (g : Slice → Slice) : (s.updSlice c x g).harts = s.harts := rfl
@[simp] theorem State.updSlice_out (s : State) (c : Nat) (x : Word) (g : Slice → Slice) : (s.updSlice c x g).out = s.out := rfl
@[simp] theorem State.updSlice_bkpt (s : State) (c : Nat) (x : Word) (g : Slice → Slice) : (s.updSlice c x g).bkpt = s.bkpt := rfl
@[simp] theorem State.updSlice_agenda (s : State) (c : Nat) (x : Word) (g : Slice → Slice) : (s.updSlice c x g).agenda = s.agenda := rfl
@[simp] theorem State.updSlice_seq (s : State) (c : Nat) (x : Word) (g : Slice → Slice) : (s.updSlice c x g).seq = s.seq := rfl
@[simp] theorem State.updSlice_draws (s : State) (c : Nat) (x : Word) (g : Slice → Slice) : (s.updSlice c x g).draws = s.draws := rfl
@[simp] theorem State.updSlice_cur (s : State) (c : Nat) (x : Word) (g : Slice → Slice) : (s.updSlice c x g).cur = s.cur := rfl
@[simp] theorem State.updSlice_curHart (s : State) (c : Nat) (x : Word) (g : Slice → Slice) : (s.updSlice c x g).curHart = s.curHart := rfl
@[simp] theorem State.updSlice_caps (s : State) (c : Nat) (x : Word) (g : Slice → Slice) : (s.updSlice c x g).caps = s.caps := rfl
@[simp] theorem State.updSlice_boot (s : State) (c : Nat) (x : Word) (g : Slice → Slice) : (s.updSlice c x g).boot = s.boot := rfl
@[simp] theorem State.updSlice_dumping (s : State) (c : Nat) (x : Word) (g : Slice → Slice) : (s.updSlice c x g).dumping = s.dumping := rfl
@[simp] theorem State.updSlice_past (s : State) (c : Nat) (x : Word) (g : Slice → Slice) : (s.updSlice c x g).past = s.past := rfl
@[simp] theorem State.updSlice_tick (s : State) (c : Nat) (x : Word) (g : Slice → Slice) : (s.updSlice c x g).tick = s.tick := rfl
@[simp] theorem State.updSlice_stirred (s : State) (c : Nat) (x : Word) (g : Slice → Slice) : (s.updSlice c x g).stirred = s.stirred := rfl
@[simp] theorem State.updSlice_stopped (s : State) (c : Nat) (x : Word) (g : Slice → Slice) : (s.updSlice c x g).stopped = s.stopped := rfl
@[simp] theorem State.updSlice_fence (s : State) (c : Nat) (x : Word) (g : Slice → Slice) : (s.updSlice c x g).fence = s.fence := rfl
@[simp] theorem State.updSlice_reads (s : State) (c : Nat) (x : Word) (g : Slice → Slice) : (s.updSlice c x g).reads = s.reads := rfl
@[simp] theorem State.updSlice_owing (s : State) (c : Nat) (x : Word) (g : Slice → Slice) : (s.updSlice c x g).owing = s.owing := rfl
/-! `State.updCtx` -/
@[simp] theorem State.updCtx_time (s : State) (n : Nat) (g : Context → Context) : (s.updCtx n g).time = s.time := rfl
@[simp] theorem State.updCtx_powered (s : State) (n : Nat) (g : Context → Context) : (s.updCtx n g).powered = s.powered := rfl
@[simp] theorem State.updCtx_cap (s : State) (n : Nat) (g : Context → Context) : (s.updCtx n g).cap = s.cap := rfl
@[simp] theorem State.updCtx_fuses (s : State) (n : Nat) (g : Context → Context) : (s.updCtx n g).fuses = s.fuses := rfl
@[simp] theorem State.updCtx_image (s : State) (n : Nat) (g : Context → Context) : (s.updCtx n g).image = s.image := rfl
@[simp] theorem State.updCtx_errs (s : State) (n : Nat) (g : Context → Context) : (s.updCtx n g).errs = s.errs := rfl
@[simp] theorem State.updCtx_dieErrs (s : State) (n : Nat) (g : Context → Context) : (s.updCtx n g).dieErrs = s.dieErrs := rfl
@[simp] theorem State.updCtx_sensors (s : State) (n : Nat) (g : Context → Context) : (s.updCtx n g).sensors = s.sensors := rfl
@[simp] theorem State.updCtx_links (s : State) (n : Nat) (g : Context → Context) : (s.updCtx n g).links = s.links := rfl
@[simp] theorem State.updCtx_uncorrectable (s : State) (n : Nat) (g : Context → Context) : (s.updCtx n g).uncorrectable = s.uncorrectable := rfl
@[simp] theorem State.updCtx_routes (s : State) (n : Nat) (g : Context → Context) : (s.updCtx n g).routes = s.routes := rfl
@[simp] theorem State.updCtx_mem (s : State) (n : Nat) (g : Context → Context) : (s.updCtx n g).mem = s.mem := rfl
@[simp] theorem State.updCtx_hbm (s : State) (n : Nat) (g : Context → Context) : (s.updCtx n g).hbm = s.hbm := rfl
@[simp] theorem State.updCtx_bad (s : State) (n : Nat) (g : Context → Context) : (s.updCtx n g).bad = s.bad := rfl
@[simp] theorem State.updCtx_teams (s : State) (n : Nat) (g : Context → Context) : (s.updCtx n g).teams = s.teams := rfl
@[simp] theorem State.updCtx_slots (s : State) (n : Nat) (g : Context → Context) : (s.updCtx n g).slots = s.slots := rfl
@[simp] theorem State.updCtx_ops (s : State) (n : Nat) (g : Context → Context) : (s.updCtx n g).ops = s.ops := rfl
@[simp] theorem State.updCtx_tiles (s : State) (n : Nat) (g : Context → Context) : (s.updCtx n g).tiles = s.tiles := rfl
@[simp] theorem State.updCtx_accs (s : State) (n : Nat) (g : Context → Context) : (s.updCtx n g).accs = s.accs := rfl
@[simp] theorem State.updCtx_loads (s : State) (n : Nat) (g : Context → Context) : (s.updCtx n g).loads = s.loads := rfl
@[simp] theorem State.updCtx_stores (s : State) (n : Nat) (g : Context → Context) : (s.updCtx n g).stores = s.stores := rfl
@[simp] theorem State.updCtx_frameReqs (s : State) (n : Nat) (g : Context → Context) : (s.updCtx n g).frameReqs = s.frameReqs := rfl
@[simp] theorem State.updCtx_cacheOps (s : State) (n : Nat) (g : Context → Context) : (s.updCtx n g).cacheOps = s.cacheOps := rfl
@[simp] theorem State.updCtx_tlb (s : State) (n : Nat) (g : Context → Context) : (s.updCtx n g).tlb = s.tlb := rfl
@[simp] theorem State.updCtx_walks (s : State) (n : Nat) (g : Context → Context) : (s.updCtx n g).walks = s.walks := rfl
@[simp] theorem State.updCtx_invals (s : State) (n : Nat) (g : Context → Context) : (s.updCtx n g).invals = s.invals := rfl
@[simp] theorem State.updCtx_contexts (s : State) (n : Nat) (g : Context → Context) : (s.updCtx n g).contexts = mapWhere (·.num == n) g s.contexts := rfl
@[simp] theorem State.updCtx_slices (s : State) (n : Nat) (g : Context → Context) : (s.updCtx n g).slices = s.slices := rfl
@[simp] theorem State.updCtx_reserves (s : State) (n : Nat) (g : Context → Context) : (s.updCtx n g).reserves = s.reserves := rfl
@[simp] theorem State.updCtx_stiles (s : State) (n : Nat) (g : Context → Context) : (s.updCtx n g).stiles = s.stiles := rfl
@[simp] theorem State.updCtx_queues (s : State) (n : Nat) (g : Context → Context) : (s.updCtx n g).queues = s.queues := rfl
@[simp] theorem State.updCtx_lastWindow (s : State) (n : Nat) (g : Context → Context) : (s.updCtx n g).lastWindow = s.lastWindow := rfl
@[simp] theorem State.updCtx_peerFails (s : State) (n : Nat) (g : Context → Context) : (s.updCtx n g).peerFails = s.peerFails := rfl
@[simp] theorem State.updCtx_columns (s : State) (n : Nat) (g : Context → Context) : (s.updCtx n g).columns = s.columns := rfl
@[simp] theorem State.updCtx_poolGoal (s : State) (n : Nat) (g : Context → Context) : (s.updCtx n g).poolGoal = s.poolGoal := rfl
@[simp] theorem State.updCtx_cores (s : State) (n : Nat) (g : Context → Context) : (s.updCtx n g).cores = s.cores := rfl
@[simp] theorem State.updCtx_pf (s : State) (n : Nat) (g : Context → Context) : (s.updCtx n g).pf = s.pf := rfl
@[simp] theorem State.updCtx_harts (s : State) (n : Nat) (g : Context → Context) : (s.updCtx n g).harts = s.harts := rfl
@[simp] theorem State.updCtx_out (s : State) (n : Nat) (g : Context → Context) : (s.updCtx n g).out = s.out := rfl
@[simp] theorem State.updCtx_bkpt (s : State) (n : Nat) (g : Context → Context) : (s.updCtx n g).bkpt = s.bkpt := rfl
@[simp] theorem State.updCtx_agenda (s : State) (n : Nat) (g : Context → Context) : (s.updCtx n g).agenda = s.agenda := rfl
@[simp] theorem State.updCtx_seq (s : State) (n : Nat) (g : Context → Context) : (s.updCtx n g).seq = s.seq := rfl
@[simp] theorem State.updCtx_draws (s : State) (n : Nat) (g : Context → Context) : (s.updCtx n g).draws = s.draws := rfl
@[simp] theorem State.updCtx_cur (s : State) (n : Nat) (g : Context → Context) : (s.updCtx n g).cur = s.cur := rfl
@[simp] theorem State.updCtx_curHart (s : State) (n : Nat) (g : Context → Context) : (s.updCtx n g).curHart = s.curHart := rfl
@[simp] theorem State.updCtx_caps (s : State) (n : Nat) (g : Context → Context) : (s.updCtx n g).caps = s.caps := rfl
@[simp] theorem State.updCtx_boot (s : State) (n : Nat) (g : Context → Context) : (s.updCtx n g).boot = s.boot := rfl
@[simp] theorem State.updCtx_dumping (s : State) (n : Nat) (g : Context → Context) : (s.updCtx n g).dumping = s.dumping := rfl
@[simp] theorem State.updCtx_past (s : State) (n : Nat) (g : Context → Context) : (s.updCtx n g).past = s.past := rfl
@[simp] theorem State.updCtx_tick (s : State) (n : Nat) (g : Context → Context) : (s.updCtx n g).tick = s.tick := rfl
@[simp] theorem State.updCtx_stirred (s : State) (n : Nat) (g : Context → Context) : (s.updCtx n g).stirred = s.stirred := rfl
@[simp] theorem State.updCtx_stopped (s : State) (n : Nat) (g : Context → Context) : (s.updCtx n g).stopped = s.stopped := rfl
@[simp] theorem State.updCtx_fence (s : State) (n : Nat) (g : Context → Context) : (s.updCtx n g).fence = s.fence := rfl
@[simp] theorem State.updCtx_reads (s : State) (n : Nat) (g : Context → Context) : (s.updCtx n g).reads = s.reads := rfl
@[simp] theorem State.updCtx_owing (s : State) (n : Nat) (g : Context → Context) : (s.updCtx n g).owing = s.owing := rfl
/-! `State.updOp` -/
@[simp] theorem State.updOp_time (s : State) (u : Nat) (g : Op → Op) : (s.updOp u g).time = s.time := rfl
@[simp] theorem State.updOp_powered (s : State) (u : Nat) (g : Op → Op) : (s.updOp u g).powered = s.powered := rfl
@[simp] theorem State.updOp_cap (s : State) (u : Nat) (g : Op → Op) : (s.updOp u g).cap = s.cap := rfl
@[simp] theorem State.updOp_fuses (s : State) (u : Nat) (g : Op → Op) : (s.updOp u g).fuses = s.fuses := rfl
@[simp] theorem State.updOp_image (s : State) (u : Nat) (g : Op → Op) : (s.updOp u g).image = s.image := rfl
@[simp] theorem State.updOp_errs (s : State) (u : Nat) (g : Op → Op) : (s.updOp u g).errs = s.errs := rfl
@[simp] theorem State.updOp_dieErrs (s : State) (u : Nat) (g : Op → Op) : (s.updOp u g).dieErrs = s.dieErrs := rfl
@[simp] theorem State.updOp_sensors (s : State) (u : Nat) (g : Op → Op) : (s.updOp u g).sensors = s.sensors := rfl
@[simp] theorem State.updOp_links (s : State) (u : Nat) (g : Op → Op) : (s.updOp u g).links = s.links := rfl
@[simp] theorem State.updOp_uncorrectable (s : State) (u : Nat) (g : Op → Op) : (s.updOp u g).uncorrectable = s.uncorrectable := rfl
@[simp] theorem State.updOp_routes (s : State) (u : Nat) (g : Op → Op) : (s.updOp u g).routes = s.routes := rfl
@[simp] theorem State.updOp_mem (s : State) (u : Nat) (g : Op → Op) : (s.updOp u g).mem = s.mem := rfl
@[simp] theorem State.updOp_hbm (s : State) (u : Nat) (g : Op → Op) : (s.updOp u g).hbm = s.hbm := rfl
@[simp] theorem State.updOp_bad (s : State) (u : Nat) (g : Op → Op) : (s.updOp u g).bad = s.bad := rfl
@[simp] theorem State.updOp_teams (s : State) (u : Nat) (g : Op → Op) : (s.updOp u g).teams = s.teams := rfl
@[simp] theorem State.updOp_slots (s : State) (u : Nat) (g : Op → Op) : (s.updOp u g).slots = s.slots := rfl
@[simp] theorem State.updOp_ops (s : State) (u : Nat) (g : Op → Op) : (s.updOp u g).ops = mapWhere (·.uid == u) g s.ops := rfl
@[simp] theorem State.updOp_tiles (s : State) (u : Nat) (g : Op → Op) : (s.updOp u g).tiles = s.tiles := rfl
@[simp] theorem State.updOp_accs (s : State) (u : Nat) (g : Op → Op) : (s.updOp u g).accs = s.accs := rfl
@[simp] theorem State.updOp_loads (s : State) (u : Nat) (g : Op → Op) : (s.updOp u g).loads = s.loads := rfl
@[simp] theorem State.updOp_stores (s : State) (u : Nat) (g : Op → Op) : (s.updOp u g).stores = s.stores := rfl
@[simp] theorem State.updOp_frameReqs (s : State) (u : Nat) (g : Op → Op) : (s.updOp u g).frameReqs = s.frameReqs := rfl
@[simp] theorem State.updOp_cacheOps (s : State) (u : Nat) (g : Op → Op) : (s.updOp u g).cacheOps = s.cacheOps := rfl
@[simp] theorem State.updOp_tlb (s : State) (u : Nat) (g : Op → Op) : (s.updOp u g).tlb = s.tlb := rfl
@[simp] theorem State.updOp_walks (s : State) (u : Nat) (g : Op → Op) : (s.updOp u g).walks = s.walks := rfl
@[simp] theorem State.updOp_invals (s : State) (u : Nat) (g : Op → Op) : (s.updOp u g).invals = s.invals := rfl
@[simp] theorem State.updOp_contexts (s : State) (u : Nat) (g : Op → Op) : (s.updOp u g).contexts = s.contexts := rfl
@[simp] theorem State.updOp_slices (s : State) (u : Nat) (g : Op → Op) : (s.updOp u g).slices = s.slices := rfl
@[simp] theorem State.updOp_reserves (s : State) (u : Nat) (g : Op → Op) : (s.updOp u g).reserves = s.reserves := rfl
@[simp] theorem State.updOp_stiles (s : State) (u : Nat) (g : Op → Op) : (s.updOp u g).stiles = s.stiles := rfl
@[simp] theorem State.updOp_queues (s : State) (u : Nat) (g : Op → Op) : (s.updOp u g).queues = s.queues := rfl
@[simp] theorem State.updOp_lastWindow (s : State) (u : Nat) (g : Op → Op) : (s.updOp u g).lastWindow = s.lastWindow := rfl
@[simp] theorem State.updOp_peerFails (s : State) (u : Nat) (g : Op → Op) : (s.updOp u g).peerFails = s.peerFails := rfl
@[simp] theorem State.updOp_columns (s : State) (u : Nat) (g : Op → Op) : (s.updOp u g).columns = s.columns := rfl
@[simp] theorem State.updOp_poolGoal (s : State) (u : Nat) (g : Op → Op) : (s.updOp u g).poolGoal = s.poolGoal := rfl
@[simp] theorem State.updOp_cores (s : State) (u : Nat) (g : Op → Op) : (s.updOp u g).cores = s.cores := rfl
@[simp] theorem State.updOp_pf (s : State) (u : Nat) (g : Op → Op) : (s.updOp u g).pf = s.pf := rfl
@[simp] theorem State.updOp_harts (s : State) (u : Nat) (g : Op → Op) : (s.updOp u g).harts = s.harts := rfl
@[simp] theorem State.updOp_out (s : State) (u : Nat) (g : Op → Op) : (s.updOp u g).out = s.out := rfl
@[simp] theorem State.updOp_bkpt (s : State) (u : Nat) (g : Op → Op) : (s.updOp u g).bkpt = s.bkpt := rfl
@[simp] theorem State.updOp_agenda (s : State) (u : Nat) (g : Op → Op) : (s.updOp u g).agenda = s.agenda := rfl
@[simp] theorem State.updOp_seq (s : State) (u : Nat) (g : Op → Op) : (s.updOp u g).seq = s.seq := rfl
@[simp] theorem State.updOp_draws (s : State) (u : Nat) (g : Op → Op) : (s.updOp u g).draws = s.draws := rfl
@[simp] theorem State.updOp_cur (s : State) (u : Nat) (g : Op → Op) : (s.updOp u g).cur = s.cur := rfl
@[simp] theorem State.updOp_curHart (s : State) (u : Nat) (g : Op → Op) : (s.updOp u g).curHart = s.curHart := rfl
@[simp] theorem State.updOp_caps (s : State) (u : Nat) (g : Op → Op) : (s.updOp u g).caps = s.caps := rfl
@[simp] theorem State.updOp_boot (s : State) (u : Nat) (g : Op → Op) : (s.updOp u g).boot = s.boot := rfl
@[simp] theorem State.updOp_dumping (s : State) (u : Nat) (g : Op → Op) : (s.updOp u g).dumping = s.dumping := rfl
@[simp] theorem State.updOp_past (s : State) (u : Nat) (g : Op → Op) : (s.updOp u g).past = s.past := rfl
@[simp] theorem State.updOp_tick (s : State) (u : Nat) (g : Op → Op) : (s.updOp u g).tick = s.tick := rfl
@[simp] theorem State.updOp_stirred (s : State) (u : Nat) (g : Op → Op) : (s.updOp u g).stirred = s.stirred := rfl
@[simp] theorem State.updOp_stopped (s : State) (u : Nat) (g : Op → Op) : (s.updOp u g).stopped = s.stopped := rfl
@[simp] theorem State.updOp_fence (s : State) (u : Nat) (g : Op → Op) : (s.updOp u g).fence = s.fence := rfl
@[simp] theorem State.updOp_reads (s : State) (u : Nat) (g : Op → Op) : (s.updOp u g).reads = s.reads := rfl
@[simp] theorem State.updOp_owing (s : State) (u : Nat) (g : Op → Op) : (s.updOp u g).owing = s.owing := rfl
/-! `State.updColumn` -/
@[simp] theorem State.updColumn_time (s : State) (c : Nat) (g : Column → Column) : (s.updColumn c g).time = s.time := rfl
@[simp] theorem State.updColumn_powered (s : State) (c : Nat) (g : Column → Column) : (s.updColumn c g).powered = s.powered := rfl
@[simp] theorem State.updColumn_cap (s : State) (c : Nat) (g : Column → Column) : (s.updColumn c g).cap = s.cap := rfl
@[simp] theorem State.updColumn_fuses (s : State) (c : Nat) (g : Column → Column) : (s.updColumn c g).fuses = s.fuses := rfl
@[simp] theorem State.updColumn_image (s : State) (c : Nat) (g : Column → Column) : (s.updColumn c g).image = s.image := rfl
@[simp] theorem State.updColumn_errs (s : State) (c : Nat) (g : Column → Column) : (s.updColumn c g).errs = s.errs := rfl
@[simp] theorem State.updColumn_dieErrs (s : State) (c : Nat) (g : Column → Column) : (s.updColumn c g).dieErrs = s.dieErrs := rfl
@[simp] theorem State.updColumn_sensors (s : State) (c : Nat) (g : Column → Column) : (s.updColumn c g).sensors = s.sensors := rfl
@[simp] theorem State.updColumn_links (s : State) (c : Nat) (g : Column → Column) : (s.updColumn c g).links = s.links := rfl
@[simp] theorem State.updColumn_uncorrectable (s : State) (c : Nat) (g : Column → Column) : (s.updColumn c g).uncorrectable = s.uncorrectable := rfl
@[simp] theorem State.updColumn_routes (s : State) (c : Nat) (g : Column → Column) : (s.updColumn c g).routes = s.routes := rfl
@[simp] theorem State.updColumn_mem (s : State) (c : Nat) (g : Column → Column) : (s.updColumn c g).mem = s.mem := rfl
@[simp] theorem State.updColumn_hbm (s : State) (c : Nat) (g : Column → Column) : (s.updColumn c g).hbm = s.hbm := rfl
@[simp] theorem State.updColumn_bad (s : State) (c : Nat) (g : Column → Column) : (s.updColumn c g).bad = s.bad := rfl
@[simp] theorem State.updColumn_teams (s : State) (c : Nat) (g : Column → Column) : (s.updColumn c g).teams = s.teams := rfl
@[simp] theorem State.updColumn_slots (s : State) (c : Nat) (g : Column → Column) : (s.updColumn c g).slots = s.slots := rfl
@[simp] theorem State.updColumn_ops (s : State) (c : Nat) (g : Column → Column) : (s.updColumn c g).ops = s.ops := rfl
@[simp] theorem State.updColumn_tiles (s : State) (c : Nat) (g : Column → Column) : (s.updColumn c g).tiles = s.tiles := rfl
@[simp] theorem State.updColumn_accs (s : State) (c : Nat) (g : Column → Column) : (s.updColumn c g).accs = s.accs := rfl
@[simp] theorem State.updColumn_loads (s : State) (c : Nat) (g : Column → Column) : (s.updColumn c g).loads = s.loads := rfl
@[simp] theorem State.updColumn_stores (s : State) (c : Nat) (g : Column → Column) : (s.updColumn c g).stores = s.stores := rfl
@[simp] theorem State.updColumn_frameReqs (s : State) (c : Nat) (g : Column → Column) : (s.updColumn c g).frameReqs = s.frameReqs := rfl
@[simp] theorem State.updColumn_cacheOps (s : State) (c : Nat) (g : Column → Column) : (s.updColumn c g).cacheOps = s.cacheOps := rfl
@[simp] theorem State.updColumn_tlb (s : State) (c : Nat) (g : Column → Column) : (s.updColumn c g).tlb = s.tlb := rfl
@[simp] theorem State.updColumn_walks (s : State) (c : Nat) (g : Column → Column) : (s.updColumn c g).walks = s.walks := rfl
@[simp] theorem State.updColumn_invals (s : State) (c : Nat) (g : Column → Column) : (s.updColumn c g).invals = s.invals := rfl
@[simp] theorem State.updColumn_contexts (s : State) (c : Nat) (g : Column → Column) : (s.updColumn c g).contexts = s.contexts := rfl
@[simp] theorem State.updColumn_slices (s : State) (c : Nat) (g : Column → Column) : (s.updColumn c g).slices = s.slices := rfl
@[simp] theorem State.updColumn_reserves (s : State) (c : Nat) (g : Column → Column) : (s.updColumn c g).reserves = s.reserves := rfl
@[simp] theorem State.updColumn_stiles (s : State) (c : Nat) (g : Column → Column) : (s.updColumn c g).stiles = s.stiles := rfl
@[simp] theorem State.updColumn_queues (s : State) (c : Nat) (g : Column → Column) : (s.updColumn c g).queues = s.queues := rfl
@[simp] theorem State.updColumn_lastWindow (s : State) (c : Nat) (g : Column → Column) : (s.updColumn c g).lastWindow = s.lastWindow := rfl
@[simp] theorem State.updColumn_peerFails (s : State) (c : Nat) (g : Column → Column) : (s.updColumn c g).peerFails = s.peerFails := rfl
@[simp] theorem State.updColumn_columns (s : State) (c : Nat) (g : Column → Column) : (s.updColumn c g).columns = tset s.columns c (g (s.column c)) := rfl
@[simp] theorem State.updColumn_poolGoal (s : State) (c : Nat) (g : Column → Column) : (s.updColumn c g).poolGoal = s.poolGoal := rfl
@[simp] theorem State.updColumn_cores (s : State) (c : Nat) (g : Column → Column) : (s.updColumn c g).cores = s.cores := rfl
@[simp] theorem State.updColumn_pf (s : State) (c : Nat) (g : Column → Column) : (s.updColumn c g).pf = s.pf := rfl
@[simp] theorem State.updColumn_harts (s : State) (c : Nat) (g : Column → Column) : (s.updColumn c g).harts = s.harts := rfl
@[simp] theorem State.updColumn_out (s : State) (c : Nat) (g : Column → Column) : (s.updColumn c g).out = s.out := rfl
@[simp] theorem State.updColumn_bkpt (s : State) (c : Nat) (g : Column → Column) : (s.updColumn c g).bkpt = s.bkpt := rfl
@[simp] theorem State.updColumn_agenda (s : State) (c : Nat) (g : Column → Column) : (s.updColumn c g).agenda = s.agenda := rfl
@[simp] theorem State.updColumn_seq (s : State) (c : Nat) (g : Column → Column) : (s.updColumn c g).seq = s.seq := rfl
@[simp] theorem State.updColumn_draws (s : State) (c : Nat) (g : Column → Column) : (s.updColumn c g).draws = s.draws := rfl
@[simp] theorem State.updColumn_cur (s : State) (c : Nat) (g : Column → Column) : (s.updColumn c g).cur = s.cur := rfl
@[simp] theorem State.updColumn_curHart (s : State) (c : Nat) (g : Column → Column) : (s.updColumn c g).curHart = s.curHart := rfl
@[simp] theorem State.updColumn_caps (s : State) (c : Nat) (g : Column → Column) : (s.updColumn c g).caps = s.caps := rfl
@[simp] theorem State.updColumn_boot (s : State) (c : Nat) (g : Column → Column) : (s.updColumn c g).boot = s.boot := rfl
@[simp] theorem State.updColumn_dumping (s : State) (c : Nat) (g : Column → Column) : (s.updColumn c g).dumping = s.dumping := rfl
@[simp] theorem State.updColumn_past (s : State) (c : Nat) (g : Column → Column) : (s.updColumn c g).past = s.past := rfl
@[simp] theorem State.updColumn_tick (s : State) (c : Nat) (g : Column → Column) : (s.updColumn c g).tick = s.tick := rfl
@[simp] theorem State.updColumn_stirred (s : State) (c : Nat) (g : Column → Column) : (s.updColumn c g).stirred = s.stirred := rfl
@[simp] theorem State.updColumn_stopped (s : State) (c : Nat) (g : Column → Column) : (s.updColumn c g).stopped = s.stopped := rfl
@[simp] theorem State.updColumn_fence (s : State) (c : Nat) (g : Column → Column) : (s.updColumn c g).fence = s.fence := rfl
@[simp] theorem State.updColumn_reads (s : State) (c : Nat) (g : Column → Column) : (s.updColumn c g).reads = s.reads := rfl
@[simp] theorem State.updColumn_owing (s : State) (c : Nat) (g : Column → Column) : (s.updColumn c g).owing = s.owing := rfl
/-! `State.updCore` -/
@[simp] theorem State.updCore_time (s : State) (c : Nat) (g : CoreRegs → CoreRegs) : (s.updCore c g).time = s.time := rfl
@[simp] theorem State.updCore_powered (s : State) (c : Nat) (g : CoreRegs → CoreRegs) : (s.updCore c g).powered = s.powered := rfl
@[simp] theorem State.updCore_cap (s : State) (c : Nat) (g : CoreRegs → CoreRegs) : (s.updCore c g).cap = s.cap := rfl
@[simp] theorem State.updCore_fuses (s : State) (c : Nat) (g : CoreRegs → CoreRegs) : (s.updCore c g).fuses = s.fuses := rfl
@[simp] theorem State.updCore_image (s : State) (c : Nat) (g : CoreRegs → CoreRegs) : (s.updCore c g).image = s.image := rfl
@[simp] theorem State.updCore_errs (s : State) (c : Nat) (g : CoreRegs → CoreRegs) : (s.updCore c g).errs = s.errs := rfl
@[simp] theorem State.updCore_dieErrs (s : State) (c : Nat) (g : CoreRegs → CoreRegs) : (s.updCore c g).dieErrs = s.dieErrs := rfl
@[simp] theorem State.updCore_sensors (s : State) (c : Nat) (g : CoreRegs → CoreRegs) : (s.updCore c g).sensors = s.sensors := rfl
@[simp] theorem State.updCore_links (s : State) (c : Nat) (g : CoreRegs → CoreRegs) : (s.updCore c g).links = s.links := rfl
@[simp] theorem State.updCore_uncorrectable (s : State) (c : Nat) (g : CoreRegs → CoreRegs) : (s.updCore c g).uncorrectable = s.uncorrectable := rfl
@[simp] theorem State.updCore_routes (s : State) (c : Nat) (g : CoreRegs → CoreRegs) : (s.updCore c g).routes = s.routes := rfl
@[simp] theorem State.updCore_mem (s : State) (c : Nat) (g : CoreRegs → CoreRegs) : (s.updCore c g).mem = s.mem := rfl
@[simp] theorem State.updCore_hbm (s : State) (c : Nat) (g : CoreRegs → CoreRegs) : (s.updCore c g).hbm = s.hbm := rfl
@[simp] theorem State.updCore_bad (s : State) (c : Nat) (g : CoreRegs → CoreRegs) : (s.updCore c g).bad = s.bad := rfl
@[simp] theorem State.updCore_teams (s : State) (c : Nat) (g : CoreRegs → CoreRegs) : (s.updCore c g).teams = s.teams := rfl
@[simp] theorem State.updCore_slots (s : State) (c : Nat) (g : CoreRegs → CoreRegs) : (s.updCore c g).slots = s.slots := rfl
@[simp] theorem State.updCore_ops (s : State) (c : Nat) (g : CoreRegs → CoreRegs) : (s.updCore c g).ops = s.ops := rfl
@[simp] theorem State.updCore_tiles (s : State) (c : Nat) (g : CoreRegs → CoreRegs) : (s.updCore c g).tiles = s.tiles := rfl
@[simp] theorem State.updCore_accs (s : State) (c : Nat) (g : CoreRegs → CoreRegs) : (s.updCore c g).accs = s.accs := rfl
@[simp] theorem State.updCore_loads (s : State) (c : Nat) (g : CoreRegs → CoreRegs) : (s.updCore c g).loads = s.loads := rfl
@[simp] theorem State.updCore_stores (s : State) (c : Nat) (g : CoreRegs → CoreRegs) : (s.updCore c g).stores = s.stores := rfl
@[simp] theorem State.updCore_frameReqs (s : State) (c : Nat) (g : CoreRegs → CoreRegs) : (s.updCore c g).frameReqs = s.frameReqs := rfl
@[simp] theorem State.updCore_cacheOps (s : State) (c : Nat) (g : CoreRegs → CoreRegs) : (s.updCore c g).cacheOps = s.cacheOps := rfl
@[simp] theorem State.updCore_tlb (s : State) (c : Nat) (g : CoreRegs → CoreRegs) : (s.updCore c g).tlb = s.tlb := rfl
@[simp] theorem State.updCore_walks (s : State) (c : Nat) (g : CoreRegs → CoreRegs) : (s.updCore c g).walks = s.walks := rfl
@[simp] theorem State.updCore_invals (s : State) (c : Nat) (g : CoreRegs → CoreRegs) : (s.updCore c g).invals = s.invals := rfl
@[simp] theorem State.updCore_contexts (s : State) (c : Nat) (g : CoreRegs → CoreRegs) : (s.updCore c g).contexts = s.contexts := rfl
@[simp] theorem State.updCore_slices (s : State) (c : Nat) (g : CoreRegs → CoreRegs) : (s.updCore c g).slices = s.slices := rfl
@[simp] theorem State.updCore_reserves (s : State) (c : Nat) (g : CoreRegs → CoreRegs) : (s.updCore c g).reserves = s.reserves := rfl
@[simp] theorem State.updCore_stiles (s : State) (c : Nat) (g : CoreRegs → CoreRegs) : (s.updCore c g).stiles = s.stiles := rfl
@[simp] theorem State.updCore_queues (s : State) (c : Nat) (g : CoreRegs → CoreRegs) : (s.updCore c g).queues = s.queues := rfl
@[simp] theorem State.updCore_lastWindow (s : State) (c : Nat) (g : CoreRegs → CoreRegs) : (s.updCore c g).lastWindow = s.lastWindow := rfl
@[simp] theorem State.updCore_peerFails (s : State) (c : Nat) (g : CoreRegs → CoreRegs) : (s.updCore c g).peerFails = s.peerFails := rfl
@[simp] theorem State.updCore_columns (s : State) (c : Nat) (g : CoreRegs → CoreRegs) : (s.updCore c g).columns = s.columns := rfl
@[simp] theorem State.updCore_poolGoal (s : State) (c : Nat) (g : CoreRegs → CoreRegs) : (s.updCore c g).poolGoal = s.poolGoal := rfl
@[simp] theorem State.updCore_cores (s : State) (c : Nat) (g : CoreRegs → CoreRegs) : (s.updCore c g).cores = tset s.cores c (g (s.core c)) := rfl
@[simp] theorem State.updCore_pf (s : State) (c : Nat) (g : CoreRegs → CoreRegs) : (s.updCore c g).pf = s.pf := rfl
@[simp] theorem State.updCore_harts (s : State) (c : Nat) (g : CoreRegs → CoreRegs) : (s.updCore c g).harts = s.harts := rfl
@[simp] theorem State.updCore_out (s : State) (c : Nat) (g : CoreRegs → CoreRegs) : (s.updCore c g).out = s.out := rfl
@[simp] theorem State.updCore_bkpt (s : State) (c : Nat) (g : CoreRegs → CoreRegs) : (s.updCore c g).bkpt = s.bkpt := rfl
@[simp] theorem State.updCore_agenda (s : State) (c : Nat) (g : CoreRegs → CoreRegs) : (s.updCore c g).agenda = s.agenda := rfl
@[simp] theorem State.updCore_seq (s : State) (c : Nat) (g : CoreRegs → CoreRegs) : (s.updCore c g).seq = s.seq := rfl
@[simp] theorem State.updCore_draws (s : State) (c : Nat) (g : CoreRegs → CoreRegs) : (s.updCore c g).draws = s.draws := rfl
@[simp] theorem State.updCore_cur (s : State) (c : Nat) (g : CoreRegs → CoreRegs) : (s.updCore c g).cur = s.cur := rfl
@[simp] theorem State.updCore_curHart (s : State) (c : Nat) (g : CoreRegs → CoreRegs) : (s.updCore c g).curHart = s.curHart := rfl
@[simp] theorem State.updCore_caps (s : State) (c : Nat) (g : CoreRegs → CoreRegs) : (s.updCore c g).caps = s.caps := rfl
@[simp] theorem State.updCore_boot (s : State) (c : Nat) (g : CoreRegs → CoreRegs) : (s.updCore c g).boot = s.boot := rfl
@[simp] theorem State.updCore_dumping (s : State) (c : Nat) (g : CoreRegs → CoreRegs) : (s.updCore c g).dumping = s.dumping := rfl
@[simp] theorem State.updCore_past (s : State) (c : Nat) (g : CoreRegs → CoreRegs) : (s.updCore c g).past = s.past := rfl
@[simp] theorem State.updCore_tick (s : State) (c : Nat) (g : CoreRegs → CoreRegs) : (s.updCore c g).tick = s.tick := rfl
@[simp] theorem State.updCore_stirred (s : State) (c : Nat) (g : CoreRegs → CoreRegs) : (s.updCore c g).stirred = s.stirred := rfl
@[simp] theorem State.updCore_stopped (s : State) (c : Nat) (g : CoreRegs → CoreRegs) : (s.updCore c g).stopped = s.stopped := rfl
@[simp] theorem State.updCore_fence (s : State) (c : Nat) (g : CoreRegs → CoreRegs) : (s.updCore c g).fence = s.fence := rfl
@[simp] theorem State.updCore_reads (s : State) (c : Nat) (g : CoreRegs → CoreRegs) : (s.updCore c g).reads = s.reads := rfl
@[simp] theorem State.updCore_owing (s : State) (c : Nat) (g : CoreRegs → CoreRegs) : (s.updCore c g).owing = s.owing := rfl
/-! `State.updHart` -/
@[simp] theorem State.updHart_time (s : State) (h : Nat) (g : Hart → Hart) : (s.updHart h g).time = s.time := rfl
@[simp] theorem State.updHart_powered (s : State) (h : Nat) (g : Hart → Hart) : (s.updHart h g).powered = s.powered := rfl
@[simp] theorem State.updHart_cap (s : State) (h : Nat) (g : Hart → Hart) : (s.updHart h g).cap = s.cap := rfl
@[simp] theorem State.updHart_fuses (s : State) (h : Nat) (g : Hart → Hart) : (s.updHart h g).fuses = s.fuses := rfl
@[simp] theorem State.updHart_image (s : State) (h : Nat) (g : Hart → Hart) : (s.updHart h g).image = s.image := rfl
@[simp] theorem State.updHart_errs (s : State) (h : Nat) (g : Hart → Hart) : (s.updHart h g).errs = s.errs := rfl
@[simp] theorem State.updHart_dieErrs (s : State) (h : Nat) (g : Hart → Hart) : (s.updHart h g).dieErrs = s.dieErrs := rfl
@[simp] theorem State.updHart_sensors (s : State) (h : Nat) (g : Hart → Hart) : (s.updHart h g).sensors = s.sensors := rfl
@[simp] theorem State.updHart_links (s : State) (h : Nat) (g : Hart → Hart) : (s.updHart h g).links = s.links := rfl
@[simp] theorem State.updHart_uncorrectable (s : State) (h : Nat) (g : Hart → Hart) : (s.updHart h g).uncorrectable = s.uncorrectable := rfl
@[simp] theorem State.updHart_routes (s : State) (h : Nat) (g : Hart → Hart) : (s.updHart h g).routes = s.routes := rfl
@[simp] theorem State.updHart_mem (s : State) (h : Nat) (g : Hart → Hart) : (s.updHart h g).mem = s.mem := rfl
@[simp] theorem State.updHart_hbm (s : State) (h : Nat) (g : Hart → Hart) : (s.updHart h g).hbm = s.hbm := rfl
@[simp] theorem State.updHart_bad (s : State) (h : Nat) (g : Hart → Hart) : (s.updHart h g).bad = s.bad := rfl
@[simp] theorem State.updHart_teams (s : State) (h : Nat) (g : Hart → Hart) : (s.updHart h g).teams = s.teams := rfl
@[simp] theorem State.updHart_slots (s : State) (h : Nat) (g : Hart → Hart) : (s.updHart h g).slots = s.slots := rfl
@[simp] theorem State.updHart_ops (s : State) (h : Nat) (g : Hart → Hart) : (s.updHart h g).ops = s.ops := rfl
@[simp] theorem State.updHart_tiles (s : State) (h : Nat) (g : Hart → Hart) : (s.updHart h g).tiles = s.tiles := rfl
@[simp] theorem State.updHart_accs (s : State) (h : Nat) (g : Hart → Hart) : (s.updHart h g).accs = s.accs := rfl
@[simp] theorem State.updHart_loads (s : State) (h : Nat) (g : Hart → Hart) : (s.updHart h g).loads = s.loads := rfl
@[simp] theorem State.updHart_stores (s : State) (h : Nat) (g : Hart → Hart) : (s.updHart h g).stores = s.stores := rfl
@[simp] theorem State.updHart_frameReqs (s : State) (h : Nat) (g : Hart → Hart) : (s.updHart h g).frameReqs = s.frameReqs := rfl
@[simp] theorem State.updHart_cacheOps (s : State) (h : Nat) (g : Hart → Hart) : (s.updHart h g).cacheOps = s.cacheOps := rfl
@[simp] theorem State.updHart_tlb (s : State) (h : Nat) (g : Hart → Hart) : (s.updHart h g).tlb = s.tlb := rfl
@[simp] theorem State.updHart_walks (s : State) (h : Nat) (g : Hart → Hart) : (s.updHart h g).walks = s.walks := rfl
@[simp] theorem State.updHart_invals (s : State) (h : Nat) (g : Hart → Hart) : (s.updHart h g).invals = s.invals := rfl
@[simp] theorem State.updHart_contexts (s : State) (h : Nat) (g : Hart → Hart) : (s.updHart h g).contexts = s.contexts := rfl
@[simp] theorem State.updHart_slices (s : State) (h : Nat) (g : Hart → Hart) : (s.updHart h g).slices = s.slices := rfl
@[simp] theorem State.updHart_reserves (s : State) (h : Nat) (g : Hart → Hart) : (s.updHart h g).reserves = s.reserves := rfl
@[simp] theorem State.updHart_stiles (s : State) (h : Nat) (g : Hart → Hart) : (s.updHart h g).stiles = s.stiles := rfl
@[simp] theorem State.updHart_queues (s : State) (h : Nat) (g : Hart → Hart) : (s.updHart h g).queues = s.queues := rfl
@[simp] theorem State.updHart_lastWindow (s : State) (h : Nat) (g : Hart → Hart) : (s.updHart h g).lastWindow = s.lastWindow := rfl
@[simp] theorem State.updHart_peerFails (s : State) (h : Nat) (g : Hart → Hart) : (s.updHart h g).peerFails = s.peerFails := rfl
@[simp] theorem State.updHart_columns (s : State) (h : Nat) (g : Hart → Hart) : (s.updHart h g).columns = s.columns := rfl
@[simp] theorem State.updHart_poolGoal (s : State) (h : Nat) (g : Hart → Hart) : (s.updHart h g).poolGoal = s.poolGoal := rfl
@[simp] theorem State.updHart_cores (s : State) (h : Nat) (g : Hart → Hart) : (s.updHart h g).cores = s.cores := rfl
@[simp] theorem State.updHart_pf (s : State) (h : Nat) (g : Hart → Hart) : (s.updHart h g).pf = s.pf := rfl
@[simp] theorem State.updHart_harts (s : State) (h : Nat) (g : Hart → Hart) : (s.updHart h g).harts = tset s.harts h (g (s.hart h)) := rfl
@[simp] theorem State.updHart_out (s : State) (h : Nat) (g : Hart → Hart) : (s.updHart h g).out = s.out := rfl
@[simp] theorem State.updHart_bkpt (s : State) (h : Nat) (g : Hart → Hart) : (s.updHart h g).bkpt = s.bkpt := rfl
@[simp] theorem State.updHart_agenda (s : State) (h : Nat) (g : Hart → Hart) : (s.updHart h g).agenda = s.agenda := rfl
@[simp] theorem State.updHart_seq (s : State) (h : Nat) (g : Hart → Hart) : (s.updHart h g).seq = s.seq := rfl
@[simp] theorem State.updHart_draws (s : State) (h : Nat) (g : Hart → Hart) : (s.updHart h g).draws = s.draws := rfl
@[simp] theorem State.updHart_cur (s : State) (h : Nat) (g : Hart → Hart) : (s.updHart h g).cur = s.cur := rfl
@[simp] theorem State.updHart_curHart (s : State) (h : Nat) (g : Hart → Hart) : (s.updHart h g).curHart = s.curHart := rfl
@[simp] theorem State.updHart_caps (s : State) (h : Nat) (g : Hart → Hart) : (s.updHart h g).caps = s.caps := rfl
@[simp] theorem State.updHart_boot (s : State) (h : Nat) (g : Hart → Hart) : (s.updHart h g).boot = s.boot := rfl
@[simp] theorem State.updHart_dumping (s : State) (h : Nat) (g : Hart → Hart) : (s.updHart h g).dumping = s.dumping := rfl
@[simp] theorem State.updHart_past (s : State) (h : Nat) (g : Hart → Hart) : (s.updHart h g).past = s.past := rfl
@[simp] theorem State.updHart_tick (s : State) (h : Nat) (g : Hart → Hart) : (s.updHart h g).tick = s.tick := rfl
@[simp] theorem State.updHart_stirred (s : State) (h : Nat) (g : Hart → Hart) : (s.updHart h g).stirred = s.stirred := rfl
@[simp] theorem State.updHart_stopped (s : State) (h : Nat) (g : Hart → Hart) : (s.updHart h g).stopped = s.stopped := rfl
@[simp] theorem State.updHart_fence (s : State) (h : Nat) (g : Hart → Hart) : (s.updHart h g).fence = s.fence := rfl
@[simp] theorem State.updHart_reads (s : State) (h : Nat) (g : Hart → Hart) : (s.updHart h g).reads = s.reads := rfl
@[simp] theorem State.updHart_owing (s : State) (h : Nat) (g : Hart → Hart) : (s.updHart h g).owing = s.owing := rfl
/-! `State.updTile` -/
@[simp] theorem State.updTile_time (s : State) (c k : Nat) (g : Tile → Tile) : (s.updTile c k g).time = s.time := rfl
@[simp] theorem State.updTile_powered (s : State) (c k : Nat) (g : Tile → Tile) : (s.updTile c k g).powered = s.powered := rfl
@[simp] theorem State.updTile_cap (s : State) (c k : Nat) (g : Tile → Tile) : (s.updTile c k g).cap = s.cap := rfl
@[simp] theorem State.updTile_fuses (s : State) (c k : Nat) (g : Tile → Tile) : (s.updTile c k g).fuses = s.fuses := rfl
@[simp] theorem State.updTile_image (s : State) (c k : Nat) (g : Tile → Tile) : (s.updTile c k g).image = s.image := rfl
@[simp] theorem State.updTile_errs (s : State) (c k : Nat) (g : Tile → Tile) : (s.updTile c k g).errs = s.errs := rfl
@[simp] theorem State.updTile_dieErrs (s : State) (c k : Nat) (g : Tile → Tile) : (s.updTile c k g).dieErrs = s.dieErrs := rfl
@[simp] theorem State.updTile_sensors (s : State) (c k : Nat) (g : Tile → Tile) : (s.updTile c k g).sensors = s.sensors := rfl
@[simp] theorem State.updTile_links (s : State) (c k : Nat) (g : Tile → Tile) : (s.updTile c k g).links = s.links := rfl
@[simp] theorem State.updTile_uncorrectable (s : State) (c k : Nat) (g : Tile → Tile) : (s.updTile c k g).uncorrectable = s.uncorrectable := rfl
@[simp] theorem State.updTile_routes (s : State) (c k : Nat) (g : Tile → Tile) : (s.updTile c k g).routes = s.routes := rfl
@[simp] theorem State.updTile_mem (s : State) (c k : Nat) (g : Tile → Tile) : (s.updTile c k g).mem = s.mem := rfl
@[simp] theorem State.updTile_hbm (s : State) (c k : Nat) (g : Tile → Tile) : (s.updTile c k g).hbm = s.hbm := rfl
@[simp] theorem State.updTile_bad (s : State) (c k : Nat) (g : Tile → Tile) : (s.updTile c k g).bad = s.bad := rfl
@[simp] theorem State.updTile_teams (s : State) (c k : Nat) (g : Tile → Tile) : (s.updTile c k g).teams = s.teams := rfl
@[simp] theorem State.updTile_slots (s : State) (c k : Nat) (g : Tile → Tile) : (s.updTile c k g).slots = s.slots := rfl
@[simp] theorem State.updTile_ops (s : State) (c k : Nat) (g : Tile → Tile) : (s.updTile c k g).ops = s.ops := rfl
@[simp] theorem State.updTile_tiles (s : State) (c k : Nat) (g : Tile → Tile) : (s.updTile c k g).tiles = tset s.tiles (c * 64 + k) (g (s.tile c k)) := rfl
@[simp] theorem State.updTile_accs (s : State) (c k : Nat) (g : Tile → Tile) : (s.updTile c k g).accs = s.accs := rfl
@[simp] theorem State.updTile_loads (s : State) (c k : Nat) (g : Tile → Tile) : (s.updTile c k g).loads = s.loads := rfl
@[simp] theorem State.updTile_stores (s : State) (c k : Nat) (g : Tile → Tile) : (s.updTile c k g).stores = s.stores := rfl
@[simp] theorem State.updTile_frameReqs (s : State) (c k : Nat) (g : Tile → Tile) : (s.updTile c k g).frameReqs = s.frameReqs := rfl
@[simp] theorem State.updTile_cacheOps (s : State) (c k : Nat) (g : Tile → Tile) : (s.updTile c k g).cacheOps = s.cacheOps := rfl
@[simp] theorem State.updTile_tlb (s : State) (c k : Nat) (g : Tile → Tile) : (s.updTile c k g).tlb = s.tlb := rfl
@[simp] theorem State.updTile_walks (s : State) (c k : Nat) (g : Tile → Tile) : (s.updTile c k g).walks = s.walks := rfl
@[simp] theorem State.updTile_invals (s : State) (c k : Nat) (g : Tile → Tile) : (s.updTile c k g).invals = s.invals := rfl
@[simp] theorem State.updTile_contexts (s : State) (c k : Nat) (g : Tile → Tile) : (s.updTile c k g).contexts = s.contexts := rfl
@[simp] theorem State.updTile_slices (s : State) (c k : Nat) (g : Tile → Tile) : (s.updTile c k g).slices = s.slices := rfl
@[simp] theorem State.updTile_reserves (s : State) (c k : Nat) (g : Tile → Tile) : (s.updTile c k g).reserves = s.reserves := rfl
@[simp] theorem State.updTile_stiles (s : State) (c k : Nat) (g : Tile → Tile) : (s.updTile c k g).stiles = s.stiles := rfl
@[simp] theorem State.updTile_queues (s : State) (c k : Nat) (g : Tile → Tile) : (s.updTile c k g).queues = s.queues := rfl
@[simp] theorem State.updTile_lastWindow (s : State) (c k : Nat) (g : Tile → Tile) : (s.updTile c k g).lastWindow = s.lastWindow := rfl
@[simp] theorem State.updTile_peerFails (s : State) (c k : Nat) (g : Tile → Tile) : (s.updTile c k g).peerFails = s.peerFails := rfl
@[simp] theorem State.updTile_columns (s : State) (c k : Nat) (g : Tile → Tile) : (s.updTile c k g).columns = s.columns := rfl
@[simp] theorem State.updTile_poolGoal (s : State) (c k : Nat) (g : Tile → Tile) : (s.updTile c k g).poolGoal = s.poolGoal := rfl
@[simp] theorem State.updTile_cores (s : State) (c k : Nat) (g : Tile → Tile) : (s.updTile c k g).cores = s.cores := rfl
@[simp] theorem State.updTile_pf (s : State) (c k : Nat) (g : Tile → Tile) : (s.updTile c k g).pf = s.pf := rfl
@[simp] theorem State.updTile_harts (s : State) (c k : Nat) (g : Tile → Tile) : (s.updTile c k g).harts = s.harts := rfl
@[simp] theorem State.updTile_out (s : State) (c k : Nat) (g : Tile → Tile) : (s.updTile c k g).out = s.out := rfl
@[simp] theorem State.updTile_bkpt (s : State) (c k : Nat) (g : Tile → Tile) : (s.updTile c k g).bkpt = s.bkpt := rfl
@[simp] theorem State.updTile_agenda (s : State) (c k : Nat) (g : Tile → Tile) : (s.updTile c k g).agenda = s.agenda := rfl
@[simp] theorem State.updTile_seq (s : State) (c k : Nat) (g : Tile → Tile) : (s.updTile c k g).seq = s.seq := rfl
@[simp] theorem State.updTile_draws (s : State) (c k : Nat) (g : Tile → Tile) : (s.updTile c k g).draws = s.draws := rfl
@[simp] theorem State.updTile_cur (s : State) (c k : Nat) (g : Tile → Tile) : (s.updTile c k g).cur = s.cur := rfl
@[simp] theorem State.updTile_curHart (s : State) (c k : Nat) (g : Tile → Tile) : (s.updTile c k g).curHart = s.curHart := rfl
@[simp] theorem State.updTile_caps (s : State) (c k : Nat) (g : Tile → Tile) : (s.updTile c k g).caps = s.caps := rfl
@[simp] theorem State.updTile_boot (s : State) (c k : Nat) (g : Tile → Tile) : (s.updTile c k g).boot = s.boot := rfl
@[simp] theorem State.updTile_dumping (s : State) (c k : Nat) (g : Tile → Tile) : (s.updTile c k g).dumping = s.dumping := rfl
@[simp] theorem State.updTile_past (s : State) (c k : Nat) (g : Tile → Tile) : (s.updTile c k g).past = s.past := rfl
@[simp] theorem State.updTile_tick (s : State) (c k : Nat) (g : Tile → Tile) : (s.updTile c k g).tick = s.tick := rfl
@[simp] theorem State.updTile_stirred (s : State) (c k : Nat) (g : Tile → Tile) : (s.updTile c k g).stirred = s.stirred := rfl
@[simp] theorem State.updTile_stopped (s : State) (c k : Nat) (g : Tile → Tile) : (s.updTile c k g).stopped = s.stopped := rfl
@[simp] theorem State.updTile_fence (s : State) (c k : Nat) (g : Tile → Tile) : (s.updTile c k g).fence = s.fence := rfl
@[simp] theorem State.updTile_reads (s : State) (c k : Nat) (g : Tile → Tile) : (s.updTile c k g).reads = s.reads := rfl
@[simp] theorem State.updTile_owing (s : State) (c k : Nat) (g : Tile → Tile) : (s.updTile c k g).owing = s.owing := rfl
/-! `State.updAcc` -/
@[simp] theorem State.updAcc_time (s : State) (c p : Nat) (g : Acc → Acc) : (s.updAcc c p g).time = s.time := rfl
@[simp] theorem State.updAcc_powered (s : State) (c p : Nat) (g : Acc → Acc) : (s.updAcc c p g).powered = s.powered := rfl
@[simp] theorem State.updAcc_cap (s : State) (c p : Nat) (g : Acc → Acc) : (s.updAcc c p g).cap = s.cap := rfl
@[simp] theorem State.updAcc_fuses (s : State) (c p : Nat) (g : Acc → Acc) : (s.updAcc c p g).fuses = s.fuses := rfl
@[simp] theorem State.updAcc_image (s : State) (c p : Nat) (g : Acc → Acc) : (s.updAcc c p g).image = s.image := rfl
@[simp] theorem State.updAcc_errs (s : State) (c p : Nat) (g : Acc → Acc) : (s.updAcc c p g).errs = s.errs := rfl
@[simp] theorem State.updAcc_dieErrs (s : State) (c p : Nat) (g : Acc → Acc) : (s.updAcc c p g).dieErrs = s.dieErrs := rfl
@[simp] theorem State.updAcc_sensors (s : State) (c p : Nat) (g : Acc → Acc) : (s.updAcc c p g).sensors = s.sensors := rfl
@[simp] theorem State.updAcc_links (s : State) (c p : Nat) (g : Acc → Acc) : (s.updAcc c p g).links = s.links := rfl
@[simp] theorem State.updAcc_uncorrectable (s : State) (c p : Nat) (g : Acc → Acc) : (s.updAcc c p g).uncorrectable = s.uncorrectable := rfl
@[simp] theorem State.updAcc_routes (s : State) (c p : Nat) (g : Acc → Acc) : (s.updAcc c p g).routes = s.routes := rfl
@[simp] theorem State.updAcc_mem (s : State) (c p : Nat) (g : Acc → Acc) : (s.updAcc c p g).mem = s.mem := rfl
@[simp] theorem State.updAcc_hbm (s : State) (c p : Nat) (g : Acc → Acc) : (s.updAcc c p g).hbm = s.hbm := rfl
@[simp] theorem State.updAcc_bad (s : State) (c p : Nat) (g : Acc → Acc) : (s.updAcc c p g).bad = s.bad := rfl
@[simp] theorem State.updAcc_teams (s : State) (c p : Nat) (g : Acc → Acc) : (s.updAcc c p g).teams = s.teams := rfl
@[simp] theorem State.updAcc_slots (s : State) (c p : Nat) (g : Acc → Acc) : (s.updAcc c p g).slots = s.slots := rfl
@[simp] theorem State.updAcc_ops (s : State) (c p : Nat) (g : Acc → Acc) : (s.updAcc c p g).ops = s.ops := rfl
@[simp] theorem State.updAcc_tiles (s : State) (c p : Nat) (g : Acc → Acc) : (s.updAcc c p g).tiles = s.tiles := rfl
@[simp] theorem State.updAcc_accs (s : State) (c p : Nat) (g : Acc → Acc) : (s.updAcc c p g).accs = tset s.accs (c * 512 + p) (g (s.acc c p)) := rfl
@[simp] theorem State.updAcc_loads (s : State) (c p : Nat) (g : Acc → Acc) : (s.updAcc c p g).loads = s.loads := rfl
@[simp] theorem State.updAcc_stores (s : State) (c p : Nat) (g : Acc → Acc) : (s.updAcc c p g).stores = s.stores := rfl
@[simp] theorem State.updAcc_frameReqs (s : State) (c p : Nat) (g : Acc → Acc) : (s.updAcc c p g).frameReqs = s.frameReqs := rfl
@[simp] theorem State.updAcc_cacheOps (s : State) (c p : Nat) (g : Acc → Acc) : (s.updAcc c p g).cacheOps = s.cacheOps := rfl
@[simp] theorem State.updAcc_tlb (s : State) (c p : Nat) (g : Acc → Acc) : (s.updAcc c p g).tlb = s.tlb := rfl
@[simp] theorem State.updAcc_walks (s : State) (c p : Nat) (g : Acc → Acc) : (s.updAcc c p g).walks = s.walks := rfl
@[simp] theorem State.updAcc_invals (s : State) (c p : Nat) (g : Acc → Acc) : (s.updAcc c p g).invals = s.invals := rfl
@[simp] theorem State.updAcc_contexts (s : State) (c p : Nat) (g : Acc → Acc) : (s.updAcc c p g).contexts = s.contexts := rfl
@[simp] theorem State.updAcc_slices (s : State) (c p : Nat) (g : Acc → Acc) : (s.updAcc c p g).slices = s.slices := rfl
@[simp] theorem State.updAcc_reserves (s : State) (c p : Nat) (g : Acc → Acc) : (s.updAcc c p g).reserves = s.reserves := rfl
@[simp] theorem State.updAcc_stiles (s : State) (c p : Nat) (g : Acc → Acc) : (s.updAcc c p g).stiles = s.stiles := rfl
@[simp] theorem State.updAcc_queues (s : State) (c p : Nat) (g : Acc → Acc) : (s.updAcc c p g).queues = s.queues := rfl
@[simp] theorem State.updAcc_lastWindow (s : State) (c p : Nat) (g : Acc → Acc) : (s.updAcc c p g).lastWindow = s.lastWindow := rfl
@[simp] theorem State.updAcc_peerFails (s : State) (c p : Nat) (g : Acc → Acc) : (s.updAcc c p g).peerFails = s.peerFails := rfl
@[simp] theorem State.updAcc_columns (s : State) (c p : Nat) (g : Acc → Acc) : (s.updAcc c p g).columns = s.columns := rfl
@[simp] theorem State.updAcc_poolGoal (s : State) (c p : Nat) (g : Acc → Acc) : (s.updAcc c p g).poolGoal = s.poolGoal := rfl
@[simp] theorem State.updAcc_cores (s : State) (c p : Nat) (g : Acc → Acc) : (s.updAcc c p g).cores = s.cores := rfl
@[simp] theorem State.updAcc_pf (s : State) (c p : Nat) (g : Acc → Acc) : (s.updAcc c p g).pf = s.pf := rfl
@[simp] theorem State.updAcc_harts (s : State) (c p : Nat) (g : Acc → Acc) : (s.updAcc c p g).harts = s.harts := rfl
@[simp] theorem State.updAcc_out (s : State) (c p : Nat) (g : Acc → Acc) : (s.updAcc c p g).out = s.out := rfl
@[simp] theorem State.updAcc_bkpt (s : State) (c p : Nat) (g : Acc → Acc) : (s.updAcc c p g).bkpt = s.bkpt := rfl
@[simp] theorem State.updAcc_agenda (s : State) (c p : Nat) (g : Acc → Acc) : (s.updAcc c p g).agenda = s.agenda := rfl
@[simp] theorem State.updAcc_seq (s : State) (c p : Nat) (g : Acc → Acc) : (s.updAcc c p g).seq = s.seq := rfl
@[simp] theorem State.updAcc_draws (s : State) (c p : Nat) (g : Acc → Acc) : (s.updAcc c p g).draws = s.draws := rfl
@[simp] theorem State.updAcc_cur (s : State) (c p : Nat) (g : Acc → Acc) : (s.updAcc c p g).cur = s.cur := rfl
@[simp] theorem State.updAcc_curHart (s : State) (c p : Nat) (g : Acc → Acc) : (s.updAcc c p g).curHart = s.curHart := rfl
@[simp] theorem State.updAcc_caps (s : State) (c p : Nat) (g : Acc → Acc) : (s.updAcc c p g).caps = s.caps := rfl
@[simp] theorem State.updAcc_boot (s : State) (c p : Nat) (g : Acc → Acc) : (s.updAcc c p g).boot = s.boot := rfl
@[simp] theorem State.updAcc_dumping (s : State) (c p : Nat) (g : Acc → Acc) : (s.updAcc c p g).dumping = s.dumping := rfl
@[simp] theorem State.updAcc_past (s : State) (c p : Nat) (g : Acc → Acc) : (s.updAcc c p g).past = s.past := rfl
@[simp] theorem State.updAcc_tick (s : State) (c p : Nat) (g : Acc → Acc) : (s.updAcc c p g).tick = s.tick := rfl
@[simp] theorem State.updAcc_stirred (s : State) (c p : Nat) (g : Acc → Acc) : (s.updAcc c p g).stirred = s.stirred := rfl
@[simp] theorem State.updAcc_stopped (s : State) (c p : Nat) (g : Acc → Acc) : (s.updAcc c p g).stopped = s.stopped := rfl
@[simp] theorem State.updAcc_fence (s : State) (c p : Nat) (g : Acc → Acc) : (s.updAcc c p g).fence = s.fence := rfl
@[simp] theorem State.updAcc_reads (s : State) (c p : Nat) (g : Acc → Acc) : (s.updAcc c p g).reads = s.reads := rfl
@[simp] theorem State.updAcc_owing (s : State) (c p : Nat) (g : Acc → Acc) : (s.updAcc c p g).owing = s.owing := rfl
/-! `Team.updGroup` -/
@[simp] theorem Team.updGroup_uid (t : Team) (n : Nat) (g : Group → Group) : (t.updGroup n g).uid = t.uid := rfl
@[simp] theorem Team.updGroup_ctx (t : Team) (n : Nat) (g : Group → Group) : (t.updGroup n g).ctx = t.ctx := rfl
@[simp] theorem Team.updGroup_slice (t : Team) (n : Nat) (g : Group → Group) : (t.updGroup n g).slice = t.slice := rfl
@[simp] theorem Team.updGroup_desc (t : Team) (n : Nat) (g : Group → Group) : (t.updGroup n g).desc = t.desc := rfl
@[simp] theorem Team.updGroup_index (t : Team) (n : Nat) (g : Group → Group) : (t.updGroup n g).index = t.index := rfl
@[simp] theorem Team.updGroup_core (t : Team) (n : Nat) (g : Group → Group) : (t.updGroup n g).core = t.core := rfl
@[simp] theorem Team.updGroup_cluster (t : Team) (n : Nat) (g : Group → Group) : (t.updGroup n g).cluster = t.cluster := rfl
@[simp] theorem Team.updGroup_rank (t : Team) (n : Nat) (g : Group → Group) : (t.updGroup n g).rank = t.rank := rfl
@[simp] theorem Team.updGroup_parts (t : Team) (n : Nat) (g : Group → Group) : (t.updGroup n g).parts = t.parts := rfl
@[simp] theorem Team.updGroup_slot (t : Team) (n : Nat) (g : Group → Group) : (t.updGroup n g).slot = t.slot := rfl
@[simp] theorem Team.updGroup_units (t : Team) (n : Nat) (g : Group → Group) : (t.updGroup n g).units = t.units := rfl
@[simp] theorem Team.updGroup_tileBase (t : Team) (n : Nat) (g : Group → Group) : (t.updGroup n g).tileBase = t.tileBase := rfl
@[simp] theorem Team.updGroup_groups (t : Team) (n : Nat) (g : Group → Group) : (t.updGroup n g).groups = mapWhere (·.gidx == n) g t.groups := rfl
@[simp] theorem Team.updGroup_bars (t : Team) (n : Nat) (g : Group → Group) : (t.updGroup n g).bars = t.bars := rfl
@[simp] theorem Team.updGroup_kregs (t : Team) (n : Nat) (g : Group → Group) : (t.updGroup n g).kregs = t.kregs := rfl
@[simp] theorem Team.updGroup_resv (t : Team) (n : Nat) (g : Group → Group) : (t.updGroup n g).resv = t.resv := rfl
@[simp] theorem Team.updGroup_mres (t : Team) (n : Nat) (g : Group → Group) : (t.updGroup n g).mres = t.mres := rfl
@[simp] theorem Team.updGroup_mrel (t : Team) (n : Nat) (g : Group → Group) : (t.updGroup n g).mrel = t.mrel := rfl
@[simp] theorem Team.updGroup_throttleMask (t : Team) (n : Nat) (g : Group → Group) : (t.updGroup n g).throttleMask = t.throttleMask := rfl
@[simp] theorem Team.updGroup_throttled (t : Team) (n : Nat) (g : Group → Group) : (t.updGroup n g).throttled = t.throttled := rfl
@[simp] theorem Team.updGroup_async (t : Team) (n : Nat) (g : Group → Group) : (t.updGroup n g).async = t.async := rfl
@[simp] theorem Team.updGroup_started (t : Team) (n : Nat) (g : Group → Group) : (t.updGroup n g).started = t.started := rfl
@[simp] theorem Team.updGroup_retired (t : Team) (n : Nat) (g : Group → Group) : (t.updGroup n g).retired = t.retired := rfl
@[simp] theorem Team.updGroup_killed (t : Team) (n : Nat) (g : Group → Group) : (t.updGroup n g).killed = t.killed := rfl
@[simp] theorem Team.updGroup_swapped (t : Team) (n : Nat) (g : Group → Group) : (t.updGroup n g).swapped = t.swapped := rfl
@[simp] theorem Team.updGroup_evicted (t : Team) (n : Nat) (g : Group → Group) : (t.updGroup n g).evicted = t.evicted := rfl
@[simp] theorem Team.updGroup_stuckAt (t : Team) (n : Nat) (g : Group → Group) : (t.updGroup n g).stuckAt = t.stuckAt := rfl
@[simp] theorem Team.updGroup_clusterStuckAt (t : Team) (n : Nat) (g : Group → Group) : (t.updGroup n g).clusterStuckAt = t.clusterStuckAt := rfl
@[simp] theorem Team.updGroup_given (t : Team) (n : Nat) (g : Group → Group) : (t.updGroup n g).given = t.given := rfl
/-! `Group.setFlag` -/
@[simp] theorem Group.setFlag_gidx (g : Group) (f : Nat) (h : Nat → Nat) : (g.setFlag f h).gidx = g.gidx := rfl
@[simp] theorem Group.setFlag_part (g : Group) (f : Nat) (h : Nat → Nat) : (g.setFlag f h).part = g.part := rfl
@[simp] theorem Group.setFlag_threads (g : Group) (f : Nat) (h : Nat → Nat) : (g.setFlag f h).threads = g.threads := rfl
@[simp] theorem Group.setFlag_flags (g : Group) (f : Nat) (h : Nat → Nat) : (g.setFlag f h).flags = g.flags.set f (h (g.flags.getD f 0)) := rfl
@[simp] theorem Group.setFlag_clause (g : Group) (f : Nat) (h : Nat → Nat) : (g.setFlag f h).clause = g.clause := rfl
@[simp] theorem Group.setFlag_lastStart (g : Group) (f : Nat) (h : Nat → Nat) : (g.setFlag f h).lastStart = g.lastStart := rfl
@[simp] theorem Group.setFlag_lastBack (g : Group) (f : Nat) (h : Nat → Nat) : (g.setFlag f h).lastBack = g.lastBack := rfl
@[simp] theorem Group.setFlag_active (g : Group) (f : Nat) (h : Nat → Nat) : (g.setFlag f h).active = g.active := rfl
@[simp] theorem Group.setFlag_parkedAt (g : Group) (f : Nat) (h : Nat → Nat) : (g.setFlag f h).parkedAt = g.parkedAt := rfl
@[simp] theorem Group.setFlag_issuedAt (g : Group) (f : Nat) (h : Nat → Nat) : (g.setFlag f h).issuedAt = g.issuedAt := rfl
@[simp] theorem Group.setFlag_promotedAt (g : Group) (f : Nat) (h : Nat → Nat) : (g.setFlag f h).promotedAt = g.promotedAt := rfl
@[simp] theorem Group.setFlag_stalled (g : Group) (f : Nat) (h : Nat → Nat) : (g.setFlag f h).stalled = g.stalled := rfl
@[simp] theorem Group.setFlag_triedAt (g : Group) (f : Nat) (h : Nat → Nat) : (g.setFlag f h).triedAt = g.triedAt := rfl
@[simp] theorem Group.setFlag_kept (g : Group) (f : Nat) (h : Nat → Nat) : (g.setFlag f h).kept = g.kept := rfl
@[simp] theorem Group.setFlag_demoted (g : Group) (f : Nat) (h : Nat → Nat) : (g.setFlag f h).demoted = g.demoted := rfl

/-! `Thread.updFrame`, `Thread.setReg`, `Thread.setVs` and `Thread.setP` -/
@[simp] theorem Thread.updFrame_tidx (t : Thread) (g : Frame → Frame) : (t.updFrame g).tidx = t.tidx := by unfold Thread.updFrame; split <;> rfl
@[simp] theorem Thread.updFrame_lane (t : Thread) (g : Frame → Frame) : (t.updFrame g).lane = t.lane := by unfold Thread.updFrame; split <;> rfl
@[simp] theorem Thread.updFrame_slot (t : Thread) (g : Frame → Frame) : (t.updFrame g).slot = t.slot := by unfold Thread.updFrame; split <;> rfl
@[simp] theorem Thread.updFrame_pc (t : Thread) (g : Frame → Frame) : (t.updFrame g).pc = t.pc := by unfold Thread.updFrame; split <;> rfl
@[simp] theorem Thread.updFrame_preds (t : Thread) (g : Frame → Frame) : (t.updFrame g).preds = t.preds := by unfold Thread.updFrame; split <;> rfl
@[simp] theorem Thread.updFrame_rejoin (t : Thread) (g : Frame → Frame) : (t.updFrame g).rejoin = t.rejoin := by unfold Thread.updFrame; split <;> rfl
@[simp] theorem Thread.updFrame_wait (t : Thread) (g : Frame → Frame) : (t.updFrame g).wait = t.wait := by unfold Thread.updFrame; split <;> rfl
@[simp] theorem Thread.updFrame_held (t : Thread) (g : Frame → Frame) : (t.updFrame g).held = t.held := by unfold Thread.updFrame; split <;> rfl
@[simp] theorem Thread.updFrame_exited (t : Thread) (g : Frame → Frame) : (t.updFrame g).exited = t.exited := by unfold Thread.updFrame; split <;> rfl
@[simp] theorem Thread.updFrame_handler (t : Thread) (g : Frame → Frame) : (t.updFrame g).handler = t.handler := by unfold Thread.updFrame; split <;> rfl
@[simp] theorem Thread.updFrame_trapc (t : Thread) (g : Frame → Frame) : (t.updFrame g).trapc = t.trapc := by unfold Thread.updFrame; split <;> rfl
@[simp] theorem Thread.updFrame_trapa (t : Thread) (g : Frame → Frame) : (t.updFrame g).trapa = t.trapa := by unfold Thread.updFrame; split <;> rfl
@[simp] theorem Thread.updFrame_trapv (t : Thread) (g : Frame → Frame) : (t.updFrame g).trapv = t.trapv := by unfold Thread.updFrame; split <;> rfl
@[simp] theorem Thread.updFrame_watch (t : Thread) (g : Frame → Frame) : (t.updFrame g).watch = t.watch := by unfold Thread.updFrame; split <;> rfl
@[simp] theorem Thread.updFrame_arrivals (t : Thread) (g : Frame → Frame) : (t.updFrame g).arrivals = t.arrivals := by unfold Thread.updFrame; split <;> rfl
@[simp] theorem Thread.updFrame_resume (t : Thread) (g : Frame → Frame) : (t.updFrame g).resume = t.resume := by unfold Thread.updFrame; split <;> rfl
@[simp] theorem Thread.updFrame_failedMerge (t : Thread) (g : Frame → Frame) : (t.updFrame g).failedMerge = t.failedMerge := by unfold Thread.updFrame; split <;> rfl
@[simp] theorem Thread.updFrame_came (t : Thread) (g : Frame → Frame) : (t.updFrame g).came = t.came := by unfold Thread.updFrame; split <;> rfl
@[simp] theorem Thread.updFrame_pts (t : Thread) (g : Frame → Frame) : (t.updFrame g).pts = t.pts := by unfold Thread.updFrame; split <;> rfl
@[simp] theorem Thread.updFrame_sync (t : Thread) (g : Frame → Frame) : (t.updFrame g).sync = t.sync := by unfold Thread.updFrame; split <;> rfl
@[simp] theorem Thread.updFrame_lost (t : Thread) (g : Frame → Frame) : (t.updFrame g).lost = t.lost := by unfold Thread.updFrame; split <;> rfl
@[simp] theorem Thread.setReg_tidx (t : Thread) (n : Nat) (r : Reg) : (t.setReg n r).tidx = t.tidx := Thread.updFrame_tidx t _
@[simp] theorem Thread.setReg_lane (t : Thread) (n : Nat) (r : Reg) : (t.setReg n r).lane = t.lane := Thread.updFrame_lane t _
@[simp] theorem Thread.setReg_slot (t : Thread) (n : Nat) (r : Reg) : (t.setReg n r).slot = t.slot := Thread.updFrame_slot t _
@[simp] theorem Thread.setReg_pc (t : Thread) (n : Nat) (r : Reg) : (t.setReg n r).pc = t.pc := Thread.updFrame_pc t _
@[simp] theorem Thread.setReg_preds (t : Thread) (n : Nat) (r : Reg) : (t.setReg n r).preds = t.preds := Thread.updFrame_preds t _
@[simp] theorem Thread.setReg_rejoin (t : Thread) (n : Nat) (r : Reg) : (t.setReg n r).rejoin = t.rejoin := Thread.updFrame_rejoin t _
@[simp] theorem Thread.setReg_wait (t : Thread) (n : Nat) (r : Reg) : (t.setReg n r).wait = t.wait := Thread.updFrame_wait t _
@[simp] theorem Thread.setReg_held (t : Thread) (n : Nat) (r : Reg) : (t.setReg n r).held = t.held := Thread.updFrame_held t _
@[simp] theorem Thread.setReg_exited (t : Thread) (n : Nat) (r : Reg) : (t.setReg n r).exited = t.exited := Thread.updFrame_exited t _
@[simp] theorem Thread.setReg_handler (t : Thread) (n : Nat) (r : Reg) : (t.setReg n r).handler = t.handler := Thread.updFrame_handler t _
@[simp] theorem Thread.setReg_trapc (t : Thread) (n : Nat) (r : Reg) : (t.setReg n r).trapc = t.trapc := Thread.updFrame_trapc t _
@[simp] theorem Thread.setReg_trapa (t : Thread) (n : Nat) (r : Reg) : (t.setReg n r).trapa = t.trapa := Thread.updFrame_trapa t _
@[simp] theorem Thread.setReg_trapv (t : Thread) (n : Nat) (r : Reg) : (t.setReg n r).trapv = t.trapv := Thread.updFrame_trapv t _
@[simp] theorem Thread.setReg_watch (t : Thread) (n : Nat) (r : Reg) : (t.setReg n r).watch = t.watch := Thread.updFrame_watch t _
@[simp] theorem Thread.setReg_arrivals (t : Thread) (n : Nat) (r : Reg) : (t.setReg n r).arrivals = t.arrivals := Thread.updFrame_arrivals t _
@[simp] theorem Thread.setReg_resume (t : Thread) (n : Nat) (r : Reg) : (t.setReg n r).resume = t.resume := Thread.updFrame_resume t _
@[simp] theorem Thread.setReg_failedMerge (t : Thread) (n : Nat) (r : Reg) : (t.setReg n r).failedMerge = t.failedMerge := Thread.updFrame_failedMerge t _
@[simp] theorem Thread.setReg_came (t : Thread) (n : Nat) (r : Reg) : (t.setReg n r).came = t.came := Thread.updFrame_came t _
@[simp] theorem Thread.setReg_pts (t : Thread) (n : Nat) (r : Reg) : (t.setReg n r).pts = t.pts := Thread.updFrame_pts t _
@[simp] theorem Thread.setReg_sync (t : Thread) (n : Nat) (r : Reg) : (t.setReg n r).sync = t.sync := Thread.updFrame_sync t _
@[simp] theorem Thread.setReg_lost (t : Thread) (n : Nat) (r : Reg) : (t.setReg n r).lost = t.lost := Thread.updFrame_lost t _
@[simp] theorem Thread.setVs_tidx (l : List (Nat × Word)) : ∀ t : Thread, (t.setVs l).tidx = t.tidx := by
  induction l with
  | nil => exact fun _ => rfl
  | cons p l ih => exact fun t => (ih (t.setReg p.1 { val := p.2 })).trans (Thread.setReg_tidx t _ _)
@[simp] theorem Thread.setVs_lane (l : List (Nat × Word)) : ∀ t : Thread, (t.setVs l).lane = t.lane := by
  induction l with
  | nil => exact fun _ => rfl
  | cons p l ih => exact fun t => (ih (t.setReg p.1 { val := p.2 })).trans (Thread.setReg_lane t _ _)
@[simp] theorem Thread.setVs_slot (l : List (Nat × Word)) : ∀ t : Thread, (t.setVs l).slot = t.slot := by
  induction l with
  | nil => exact fun _ => rfl
  | cons p l ih => exact fun t => (ih (t.setReg p.1 { val := p.2 })).trans (Thread.setReg_slot t _ _)
@[simp] theorem Thread.setVs_pc (l : List (Nat × Word)) : ∀ t : Thread, (t.setVs l).pc = t.pc := by
  induction l with
  | nil => exact fun _ => rfl
  | cons p l ih => exact fun t => (ih (t.setReg p.1 { val := p.2 })).trans (Thread.setReg_pc t _ _)
@[simp] theorem Thread.setVs_preds (l : List (Nat × Word)) : ∀ t : Thread, (t.setVs l).preds = t.preds := by
  induction l with
  | nil => exact fun _ => rfl
  | cons p l ih => exact fun t => (ih (t.setReg p.1 { val := p.2 })).trans (Thread.setReg_preds t _ _)
@[simp] theorem Thread.setVs_rejoin (l : List (Nat × Word)) : ∀ t : Thread, (t.setVs l).rejoin = t.rejoin := by
  induction l with
  | nil => exact fun _ => rfl
  | cons p l ih => exact fun t => (ih (t.setReg p.1 { val := p.2 })).trans (Thread.setReg_rejoin t _ _)
@[simp] theorem Thread.setVs_wait (l : List (Nat × Word)) : ∀ t : Thread, (t.setVs l).wait = t.wait := by
  induction l with
  | nil => exact fun _ => rfl
  | cons p l ih => exact fun t => (ih (t.setReg p.1 { val := p.2 })).trans (Thread.setReg_wait t _ _)
@[simp] theorem Thread.setVs_held (l : List (Nat × Word)) : ∀ t : Thread, (t.setVs l).held = t.held := by
  induction l with
  | nil => exact fun _ => rfl
  | cons p l ih => exact fun t => (ih (t.setReg p.1 { val := p.2 })).trans (Thread.setReg_held t _ _)
@[simp] theorem Thread.setVs_exited (l : List (Nat × Word)) : ∀ t : Thread, (t.setVs l).exited = t.exited := by
  induction l with
  | nil => exact fun _ => rfl
  | cons p l ih => exact fun t => (ih (t.setReg p.1 { val := p.2 })).trans (Thread.setReg_exited t _ _)
@[simp] theorem Thread.setVs_handler (l : List (Nat × Word)) : ∀ t : Thread, (t.setVs l).handler = t.handler := by
  induction l with
  | nil => exact fun _ => rfl
  | cons p l ih => exact fun t => (ih (t.setReg p.1 { val := p.2 })).trans (Thread.setReg_handler t _ _)
@[simp] theorem Thread.setVs_trapc (l : List (Nat × Word)) : ∀ t : Thread, (t.setVs l).trapc = t.trapc := by
  induction l with
  | nil => exact fun _ => rfl
  | cons p l ih => exact fun t => (ih (t.setReg p.1 { val := p.2 })).trans (Thread.setReg_trapc t _ _)
@[simp] theorem Thread.setVs_trapa (l : List (Nat × Word)) : ∀ t : Thread, (t.setVs l).trapa = t.trapa := by
  induction l with
  | nil => exact fun _ => rfl
  | cons p l ih => exact fun t => (ih (t.setReg p.1 { val := p.2 })).trans (Thread.setReg_trapa t _ _)
@[simp] theorem Thread.setVs_trapv (l : List (Nat × Word)) : ∀ t : Thread, (t.setVs l).trapv = t.trapv := by
  induction l with
  | nil => exact fun _ => rfl
  | cons p l ih => exact fun t => (ih (t.setReg p.1 { val := p.2 })).trans (Thread.setReg_trapv t _ _)
@[simp] theorem Thread.setVs_watch (l : List (Nat × Word)) : ∀ t : Thread, (t.setVs l).watch = t.watch := by
  induction l with
  | nil => exact fun _ => rfl
  | cons p l ih => exact fun t => (ih (t.setReg p.1 { val := p.2 })).trans (Thread.setReg_watch t _ _)
@[simp] theorem Thread.setVs_arrivals (l : List (Nat × Word)) : ∀ t : Thread, (t.setVs l).arrivals = t.arrivals := by
  induction l with
  | nil => exact fun _ => rfl
  | cons p l ih => exact fun t => (ih (t.setReg p.1 { val := p.2 })).trans (Thread.setReg_arrivals t _ _)
@[simp] theorem Thread.setVs_resume (l : List (Nat × Word)) : ∀ t : Thread, (t.setVs l).resume = t.resume := by
  induction l with
  | nil => exact fun _ => rfl
  | cons p l ih => exact fun t => (ih (t.setReg p.1 { val := p.2 })).trans (Thread.setReg_resume t _ _)
@[simp] theorem Thread.setVs_failedMerge (l : List (Nat × Word)) : ∀ t : Thread, (t.setVs l).failedMerge = t.failedMerge := by
  induction l with
  | nil => exact fun _ => rfl
  | cons p l ih => exact fun t => (ih (t.setReg p.1 { val := p.2 })).trans (Thread.setReg_failedMerge t _ _)
@[simp] theorem Thread.setVs_came (l : List (Nat × Word)) : ∀ t : Thread, (t.setVs l).came = t.came := by
  induction l with
  | nil => exact fun _ => rfl
  | cons p l ih => exact fun t => (ih (t.setReg p.1 { val := p.2 })).trans (Thread.setReg_came t _ _)
@[simp] theorem Thread.setVs_pts (l : List (Nat × Word)) : ∀ t : Thread, (t.setVs l).pts = t.pts := by
  induction l with
  | nil => exact fun _ => rfl
  | cons p l ih => exact fun t => (ih (t.setReg p.1 { val := p.2 })).trans (Thread.setReg_pts t _ _)
@[simp] theorem Thread.setVs_sync (l : List (Nat × Word)) : ∀ t : Thread, (t.setVs l).sync = t.sync := by
  induction l with
  | nil => exact fun _ => rfl
  | cons p l ih => exact fun t => (ih (t.setReg p.1 { val := p.2 })).trans (Thread.setReg_sync t _ _)
@[simp] theorem Thread.setVs_lost (l : List (Nat × Word)) : ∀ t : Thread, (t.setVs l).lost = t.lost := by
  induction l with
  | nil => exact fun _ => rfl
  | cons p l ih => exact fun t => (ih (t.setReg p.1 { val := p.2 })).trans (Thread.setReg_lost t _ _)
@[simp] theorem Thread.setP_tidx (t : Thread) (n : Nat) (b : Bool) : (t.setP n b).tidx = t.tidx := by unfold Thread.setP; split <;> rfl
@[simp] theorem Thread.setP_lane (t : Thread) (n : Nat) (b : Bool) : (t.setP n b).lane = t.lane := by unfold Thread.setP; split <;> rfl
@[simp] theorem Thread.setP_slot (t : Thread) (n : Nat) (b : Bool) : (t.setP n b).slot = t.slot := by unfold Thread.setP; split <;> rfl
@[simp] theorem Thread.setP_pc (t : Thread) (n : Nat) (b : Bool) : (t.setP n b).pc = t.pc := by unfold Thread.setP; split <;> rfl
@[simp] theorem Thread.setP_frames (t : Thread) (n : Nat) (b : Bool) : (t.setP n b).frames = t.frames := by unfold Thread.setP; split <;> rfl
@[simp] theorem Thread.setP_rejoin (t : Thread) (n : Nat) (b : Bool) : (t.setP n b).rejoin = t.rejoin := by unfold Thread.setP; split <;> rfl
@[simp] theorem Thread.setP_wait (t : Thread) (n : Nat) (b : Bool) : (t.setP n b).wait = t.wait := by unfold Thread.setP; split <;> rfl
@[simp] theorem Thread.setP_held (t : Thread) (n : Nat) (b : Bool) : (t.setP n b).held = t.held := by unfold Thread.setP; split <;> rfl
@[simp] theorem Thread.setP_exited (t : Thread) (n : Nat) (b : Bool) : (t.setP n b).exited = t.exited := by unfold Thread.setP; split <;> rfl
@[simp] theorem Thread.setP_handler (t : Thread) (n : Nat) (b : Bool) : (t.setP n b).handler = t.handler := by unfold Thread.setP; split <;> rfl
@[simp] theorem Thread.setP_trapc (t : Thread) (n : Nat) (b : Bool) : (t.setP n b).trapc = t.trapc := by unfold Thread.setP; split <;> rfl
@[simp] theorem Thread.setP_trapa (t : Thread) (n : Nat) (b : Bool) : (t.setP n b).trapa = t.trapa := by unfold Thread.setP; split <;> rfl
@[simp] theorem Thread.setP_trapv (t : Thread) (n : Nat) (b : Bool) : (t.setP n b).trapv = t.trapv := by unfold Thread.setP; split <;> rfl
@[simp] theorem Thread.setP_watch (t : Thread) (n : Nat) (b : Bool) : (t.setP n b).watch = t.watch := by unfold Thread.setP; split <;> rfl
@[simp] theorem Thread.setP_arrivals (t : Thread) (n : Nat) (b : Bool) : (t.setP n b).arrivals = t.arrivals := by unfold Thread.setP; split <;> rfl
@[simp] theorem Thread.setP_resume (t : Thread) (n : Nat) (b : Bool) : (t.setP n b).resume = t.resume := by unfold Thread.setP; split <;> rfl
@[simp] theorem Thread.setP_failedMerge (t : Thread) (n : Nat) (b : Bool) : (t.setP n b).failedMerge = t.failedMerge := by unfold Thread.setP; split <;> rfl
@[simp] theorem Thread.setP_came (t : Thread) (n : Nat) (b : Bool) : (t.setP n b).came = t.came := by unfold Thread.setP; split <;> rfl
@[simp] theorem Thread.setP_pts (t : Thread) (n : Nat) (b : Bool) : (t.setP n b).pts = t.pts := by unfold Thread.setP; split <;> rfl
@[simp] theorem Thread.setP_sync (t : Thread) (n : Nat) (b : Bool) : (t.setP n b).sync = t.sync := by unfold Thread.setP; split <;> rfl
@[simp] theorem Thread.setP_lost (t : Thread) (n : Nat) (b : Bool) : (t.setP n b).lost = t.lost := by unfold Thread.setP; split <;> rfl

/-- A register written reads back, tag and all, when the frame has it. -/
@[simp] theorem Thread.setReg_reg_self (t : Thread) (n : Nat) (r : Reg) (h : n < t.size) : (t.setReg n r).reg n = r := by
  unfold Thread.size Thread.frame at h
  unfold Thread.setReg Thread.updFrame Thread.reg Thread.frame
  split
  · next e => simp [e] at h
  · next x xs e => simp only [e, List.headD_cons] at h; simp [h]

/-- Writing one register leaves every other as it was. -/
@[simp] theorem Thread.setReg_reg_ne (t : Thread) {n m : Nat} (r : Reg) (h : m ≠ n) : (t.setReg n r).reg m = t.reg m := by
  unfold Thread.setReg Thread.updFrame Thread.reg Thread.frame
  split
  · rfl
  · next x xs e => simp [e, Ne.symm h]

/-- Writing registers does not change the frame's size. -/
@[simp] theorem Thread.setReg_size (t : Thread) (n : Nat) (r : Reg) : (t.setReg n r).size = t.size := by
  unfold Thread.setReg Thread.updFrame Thread.size Thread.frame
  split
  · rfl
  · next x xs e => simp [e]

@[simp] theorem Thread.setVs_size (l : List (Nat × Word)) : ∀ t : Thread, (t.setVs l).size = t.size := by
  induction l with
  | nil => exact fun _ => rfl
  | cons p l ih => exact fun t => (ih (t.setReg p.1 { val := p.2 })).trans (Thread.setReg_size t _ _)

/-- A register that is none of those written stays. -/
theorem Thread.setVs_reg_ne (l : List (Nat × Word)) {m : Nat} : ∀ t : Thread, (∀ p ∈ l, p.1 ≠ m) → (t.setVs l).reg m = t.reg m := by
  induction l with
  | nil => exact fun _ _ => rfl
  | cons p l ih =>
    intro t h
    exact (ih (t.setReg p.1 { val := p.2 }) fun q hq => h q (.tail _ hq)).trans (Thread.setReg_reg_ne t _ (h p (.head _)).symm)

/-- v registers below the current frame stay. -/
@[simp] theorem Thread.setVs_below (l : List (Nat × Word)) : ∀ t : Thread, (t.setVs l).frames.tail = t.frames.tail := by
  induction l with
  | nil => exact fun _ => rfl
  | cons p l ih =>
    intro t
    refine (ih (t.setReg p.1 { val := p.2 })).trans ?_
    unfold Thread.setReg Thread.updFrame
    split
    · rfl
    · next x xs e => simp [e]

/-- A predicate written reads back; p7 stays 1 (R135). -/
theorem Thread.setP_p (t : Thread) (n m : Nat) (b : Bool) : (t.setP n b).p m = if n = m ∧ n < 7 then b else t.p m := by
  unfold Thread.setP Thread.p
  by_cases h : 7 ≤ n
  · have : ¬(n = m ∧ n < 7) := by omega
    simp only [ge_iff_le, h, if_true, if_neg this]
  · simp only [ge_iff_le, h, if_false]
    have hn : n < 7 := by omega
    by_cases hm : 7 ≤ m
    · have : ¬(n = m ∧ n < 7) := by omega
      simp [hm, this]
    · have hm : m < 7 := by omega
      have hp : (BitVec.ofNat 7 (2 ^ n)).getLsbD m = decide (n = m) := by
        rw [BitVec.getLsbD_ofNat, Nat.testBit_two_pow]; simp [hm]
      have h7 : ¬ 7 ≤ m := by omega
      rw [BitVec.getLsbD_eq_getElem hm] at hp
      generalize BitVec.ofNat 7 (2 ^ n) = q at hp
      by_cases e : n = m
      · subst e; cases b <;> simp_all
      · cases b <;> simp [hn, hm, h7, e, hp]

end Sys2Proof.Machine
end

