-- ==== Sys2Proof/Laws/Keeps.lean ====
section
/-! SUPPORT. The shared operations and memory: those that write no storage leave `mem` as it is, and every other keeps its canonical form. -/

namespace Sys2Proof.Machine

/-! ### Runs of an operation over a list -/

/-- A property that each step of a fold keeps holds after the fold. -/
theorem foldl_keeps {α : Type} {P : State → Prop} {f : State → α → State} (hf : ∀ s a, P s → P (f s a)) :
    ∀ (l : List α) {s : State}, P s → P (l.foldl f s)
  | [], _, h => h
  | a :: l, _, h => foldl_keeps hf l (hf _ a h)

/-- A fold whose steps keep memory canonical keeps it. -/
theorem foldl_good {α : Type} {f : State → α → State} (hf : ∀ s a, s.Good → (f s a).Good) (l : List α) {s : State} (h : s.Good) :
    (l.foldl f s).Good := foldl_keeps hf l h

/-- A fold whose steps leave memory leaves it. -/
theorem foldl_mem {α : Type} {f : State → α → State} (hf : ∀ s a, (f s a).mem = s.mem) (l : List α) (s : State) : (l.foldl f s).mem = s.mem :=
  foldl_keeps (P := fun x => x.mem = s.mem) (fun x a h => (hf x a).trans h) l rfl

/-- A fold that carries a state beside a value keeps what each step keeps. -/
theorem foldl_pair {α β : Type} {P : State → Prop} {f : State × β → α → State × β} (hf : ∀ p a, P p.1 → P (f p a).1) :
    ∀ (l : List α) {p : State × β}, P p.1 → P (l.foldl f p).1
  | [], _, h => h
  | a :: l, _, h => foldl_pair hf l (hf _ a h)

/-- Equal memories are canonical together. -/
theorem State.Good.of_mem {s t : State} (h : s.Good) (e : t.mem = s.mem) : t.Good := by rw [State.Good, e]; exact h

/-! ### Operations that write no storage -/

section Unwritten

variable (s : State)

@[simp] theorem State.flagUp_mem (u g f : Nat) : (s.flagUp u g f).mem = s.mem := rfl
@[simp] theorem State.flagDown_mem (u g f : Nat) : (s.flagDown u g f).mem = s.mem := rfl
@[simp] theorem State.flagDown?_mem (u g : Nat) (f : Option Nat) : (s.flagDown? u g f).mem = s.mem := by cases f <;> rfl
@[simp] theorem State.setMip_mem (h bit : Nat) : (s.setMip h bit).mem = s.mem := rfl
@[simp] theorem State.cure_mem (loc n : Nat) : (s.cure loc n).mem = s.mem := rfl
@[simp] theorem State.stileHit_mem (loc : Nat) (bs : List Byte) : (s.stileHit loc bs).mem = s.mem := rfl
@[simp] theorem State.hold_mem (loc n : Nat) : (s.hold loc n).mem = s.mem := by unfold State.hold; split <;> rfl
@[simp] theorem State.askWalk_mem (who : Nat × Nat) (a : Agent) (ea : Addr) : (s.askWalk who a ea).mem = s.mem := by
  unfold State.askWalk; repeat' (first | rfl | split)
@[simp] theorem State.takeWalks_mem (u g : Nat) : (s.takeWalks u g).mem = s.mem := rfl
@[simp] theorem State.keep_mem (e : Trans) : (s.keep e).mem = s.mem := rfl
@[simp] theorem State.keepAll_mem (ts : List Target) : (s.keepAll ts).mem = s.mem :=
  foldl_mem (fun s a => by split <;> rfl) _ _
@[simp] theorem State.see_mem (ks : List Nat) (u n : Nat) : (s.see ks u n).mem = s.mem := rfl
@[simp] theorem State.seeAll_mem (ks ls : List Nat) (n : Nat) : (s.seeAll ks ls n).mem = s.mem :=
  foldl_mem (fun s l => foldl_mem (fun s k => s.see_mem ks (l / 16 + k) (s.tick + 1)) _ _) _ _
@[simp] theorem State.openPlace_mem (p : Nat) : (s.openPlace p).mem = s.mem := by unfold State.openPlace; split <;> rfl
@[simp] theorem State.fenced_mem : s.fenced.mem = s.mem := by unfold State.fenced; split <;> rfl
@[simp] theorem State.noteRead_mem (l p : Nat) : (s.noteRead l p).mem = s.mem := rfl
@[simp] theorem State.placeFor_mem (f : Nat) (us : List Nat) : (s.placeFor f us).1.mem = s.mem := by unfold State.placeFor; dsimp only; split <;> rfl
@[simp] theorem Iss.closes_mem (i : Iss) : (i.closes s).mem = s.mem := by unfold Iss.closes; split <;> rfl
@[simp] theorem State.dropSlice_mem (x : Slice) : (s.dropSlice x).mem = s.mem := rfl
@[simp] theorem State.noteCharge_mem (y : Slice) : (s.noteCharge y).mem = s.mem := rfl
@[simp] theorem State.readAt_mem (ks ms : List Nat) (f l n : Nat) : (s.readAt ks ms f l n).1.mem = s.mem := rfl
@[simp] theorem State.goesOn_mem : s.goesOn.mem = s.mem := rfl
@[simp] theorem State.stirredBy_mem (t : Turn) : (s.stirredBy t).mem = s.mem := by unfold State.stirredBy; split <;> rfl
@[simp] theorem State.countHome_mem (core : Nat) (ts : List Target) (w : Bool) : (s.countHome core ts w).mem = s.mem := by
  unfold State.countHome; dsimp only; split <;> rfl
@[simp] theorem State.meet_mem (u : Nat) : (s.meet u).mem = s.mem := by
  unfold State.meet; split
  · rfl
  · dsimp only; repeat' split
    all_goals rfl
@[simp] theorem State.clearMarks_mem (ctx : Nat) (w : Word) : (s.clearMarks ctx w).mem = s.mem := rfl
@[simp] theorem State.leaveTiles_mem (u : Nat) : (s.leaveTiles u).mem = s.mem := rfl
@[simp] theorem State.reap_mem : s.reap.mem = s.mem := by unfold State.reap; dsimp only; split <;> rfl
@[simp] theorem State.freeResv_mem (u : Nat) : (s.freeResv u).mem = s.mem := rfl
@[simp] theorem State.resvAfter_mem (u : Nat) : (s.resvAfter u).mem = s.mem := by
  unfold State.resvAfter; repeat' (first | rfl | split)
@[simp] theorem State.releaseOp_mem (u : Nat) : (s.releaseOp u).mem = s.mem := by
  unfold State.releaseOp; repeat' (first | rfl | split)
@[simp] theorem State.dropLoads_mem (u : Nat) (ts : List Nat) : (s.dropLoads u ts).mem = s.mem := by
  unfold State.dropLoads
  refine foldl_mem (fun s a => ?_) _ _
  repeat' (first | rfl | exact State.flagDown?_mem _ _ _ _ | split)
@[simp] theorem State.bkptStop_mem (ctx : Nat) : (s.bkptStop ctx).mem = s.mem := rfl
@[simp] theorem State.takeAsync_mem (u g : Nat) (set : List Nat) (pc : Addr) : (s.takeAsync u g set pc).mem = s.mem := by
  unfold State.takeAsync; repeat' (first | rfl | split)
@[simp] theorem State.interrupt_mem (t : Team) (g : Group) (x : Addr × List Thread) : (s.interrupt t g x).mem = s.mem :=
  State.takeAsync_mem _ _ _ _ _
@[simp] theorem State.askFrames_mem (u g core part : Nat) (use : FrameUse) (who : List (Nat × Nat)) (need fr : List (Nat × Nat × Nat)) :
    (s.askFrames u g core part use who need fr).mem = s.mem := rfl
@[simp] theorem State.dropReq_mem (u g : Nat) (ts : List Nat) : (s.dropReq u g ts).mem = s.mem := rfl
@[simp] theorem State.refill_mem (u g core : Nat) (ts : List Nat) : (s.refill u g core ts).mem = s.mem := by
  unfold State.refill; dsimp only; split <;> rfl
@[simp] theorem Iss.upd_mem (i : Iss) (ts : List Nat) (f : Thread → Thread) : (i.upd s ts f).mem = s.mem := rfl
@[simp] theorem Iss.fetchFrames_mem (i : Iss) (ts : List Thread) : (i.fetchFrames s ts).mem = s.mem := by
  unfold Iss.fetchFrames; dsimp only; repeat' split
  all_goals first | rfl | exact State.refill_mem _ _ _ _ _
@[simp] theorem State.grantFrames_mem (core part : Nat) : (s.grantFrames core part).mem = s.mem := by
  unfold State.grantFrames; split
  · rfl
  · dsimp only; split
    · exact (State.refill_mem _ _ _ _ _).trans (State.dropReq_mem _ _ _ _)
    · rfl
@[simp] theorem State.spillFrame_mem (u g x d : Nat) (p : Place) : (s.spillFrame u g x d p).mem = s.mem := by
  unfold State.spillFrame; dsimp only; repeat' (first | rfl | split)
@[simp] theorem State.newOp_mem (k : Nat) (o : Op) : (s.newOp k o).1.mem = s.mem := rfl
@[simp] theorem Iss.markHandle_mem (i : Iss) (ts : List Nat) (o : Op) : (i.markHandle s ts o).mem = s.mem := rfl
@[simp] theorem State.askHost_mem (r : Reader) (u g : Nat) (ts : List Nat) (ea : Addr) (pa n k : Nat) (v : Option Trans) : (s.askHost r u g ts ea pa n k v).mem = s.mem := rfl
@[simp] theorem State.askFor_mem (o : Op) (x : Span) (t : Target) (k : Nat) : (s.askFor o x t k).mem = s.mem := by
  unfold State.askFor; split <;> rfl
@[simp] theorem State.postHost_mem (pa : Nat) (bs : List Byte) : (s.postHost pa bs).mem = s.mem := rfl
@[simp] theorem Iss.deliver_mem (i : Iss) (regs ext sub : Nat) (ds : List Due) : (i.deliver s regs ext sub ds).mem = s.mem := by
  unfold Iss.deliver
  dsimp only
  refine Eq.trans (foldl_mem (fun s a => ?_) _ _) ?_
  · rfl
  · repeat' split
    all_goals rfl
@[simp] theorem State.tally_mem (k d : Nat) : (s.tally k d).mem = s.mem := rfl
@[simp] theorem State.countError_mem (l : Nat) (b c : Bool) : (s.countError l b c).mem = s.mem := rfl
@[simp] theorem State.eccAt_mem (bs : List Nat) (e : Ecc) : (s.eccAt bs e).mem = s.mem := by
  unfold State.eccAt; repeat' (first | rfl | split)
@[simp] theorem State.eccOn_mem (c : Nat) (e : Ecc) : (s.eccOn c e).mem = s.mem := by unfold State.eccOn; split <;> rfl
@[simp] theorem State.returnLoad_mem (l : Load) (vs : Option (List Word)) (c n : Nat) : (s.returnLoad l vs c n).mem = s.mem := by
  unfold State.returnLoad; dsimp only; repeat' split
  all_goals first | rfl | (rw [State.meet_mem, State.flagDown?_mem]; rfl)
@[simp] theorem State.finishStore_mem (x : Store) : (s.finishStore x).mem = s.mem := rfl
@[simp] theorem State.updK_mem (u k : Nat) (f : KReg → KReg) : (s.updK u k f).mem = s.mem := rfl
@[simp] theorem State.sign_mem (u k x : Nat) (m : Bool) : (s.sign u k x m).mem = s.mem := by
  unfold State.sign; dsimp only; split
  · split <;> rfl
  · rfl
@[simp] theorem State.reserve_mem (t : Team) (e : BitVec 2) (b c : Nat) : (s.reserve t e b c).mem = s.mem := rfl
@[simp] theorem State.markTops_mem : s.markTops.mem = s.mem := rfl
@[simp] theorem State.markStuck_mem : s.markStuck.mem = s.mem := rfl
@[simp] theorem State.settlePhase_mem (ctx : Nat) : (s.settlePhase ctx).mem = s.mem := by
  unfold State.settlePhase; repeat' (first | rfl | split)
@[simp] theorem State.toPool_mem (u g : Nat) : (s.toPool u g).mem = s.mem := rfl
@[simp] theorem State.toActive_mem (u g : Nat) : (s.toActive u g).mem = s.mem := rfl
@[simp] theorem State.promote_mem (core part : Nat) : (s.promote core part).mem = s.mem := by
  unfold State.promote; dsimp only; repeat' (first | rfl | split)
@[simp] theorem State.seat_mem (u : Nat) (gs : List Group) : (s.seat u gs).mem = s.mem := by
  unfold State.seat; split
  · rfl
  · refine Eq.trans (foldl_mem (fun s a => foldl_mem (fun s _ => State.promote_mem s _ _) _ _) _ _) ?_
    exact (foldl_mem (fun s a => State.toPool_mem s _ _) _ _).trans rfl
@[simp] theorem State.reseat_mem (u : Nat) : (s.reseat u).mem = s.mem := by
  unfold State.reseat; split
  · rfl
  · exact State.seat_mem _ _ _
@[simp] theorem State.marked_mem : s.marked.mem = s.mem := by unfold State.marked; split <;> rfl
@[simp] theorem State.updLink_mem (l : Link) (f : LinkRegs → LinkRegs) : (s.updLink l f).mem = s.mem := rfl
@[simp] theorem State.hartTrap_mem (h c : Nat) (v : Addr) : (s.hartTrap h c v).mem = s.mem := rfl
@[simp] theorem State.retireHart_mem (h : Nat) (rd : BitVec 5) (v : Addr) : (s.retireHart h rd v).mem = s.mem := rfl
@[simp] theorem State.dropContext_mem (c : Nat) : (s.dropContext c).mem = s.mem := rfl
@[simp] theorem State.park_mem (core part : Nat) : (s.park core part).mem = s.mem := by
  have h : ∀ (l : List (Team × Group)) (s : State), (l.foldl (fun s x => s.toPool x.1.uid x.2.gidx) s).mem = s.mem :=
    fun l s => foldl_mem (fun s x => State.toPool_mem s x.1.uid x.2.gidx) l s
  unfold State.park; dsimp only; split
  · exact (State.promote_mem _ _ _).trans ((State.toPool_mem _ _ _).trans (h _ _))
  · exact h _ _

end Unwritten

/-! ### Operations that write storage -/

section Written

variable {s : State} (h : s.Good)
include h

theorem State.pokeAt_good (p : Nat) (cs : List (Nat × Byte)) : (s.pokeAt p cs).Good := Memory.puts_wf cs (h.of_mem (s.openPlace_mem p))
theorem State.poke_good (cs : List (Nat × Byte)) : (s.poke cs).Good := State.pokeAt_good h _ cs
/-- What bytes are held back in the caches is no matter of `mem`. -/
theorem State.held_good (ls : List Nat) (n : Nat) : (ls.foldl (fun s l => s.hold l n) s).Good := foldl_good (fun s l hs => hs.of_mem (s.hold_mem l n)) ls h
theorem State.putAt_good (p : Nat) (ls : List Nat) (bs : List Byte) : (s.putAt p ls bs).Good :=
  foldl_good (fun s l hs => hs.of_mem (by simp)) ls (State.pokeAt_good (State.held_good h ls bs.length) p _)
theorem State.put_good (ls : List Nat) (bs : List Byte) : (s.put ls bs).Good := State.putAt_good h _ ls bs
theorem State.setAD_good (t : Target) (w : Bool) : (s.setAD t w).Good := by
  unfold State.setAD; split
  · exact h
  · extract_lets need; clear_value need; split
    · exact h
    · exact State.Good.of_mem (State.poke_good h _) rfl
theorem State.pokeAll_good (ls : List Nat) (bs : List Byte) : (s.pokeAll ls bs).Good :=
  State.poke_good (State.held_good h ls bs.length) _
theorem State.pokePart_good (pa : Nat) (bs : List Byte) : (s.pokePart pa bs).Good := by
  unfold State.pokePart; split
  · exact h
  · rename_i t _
    generalize (if t.view = .repl then locHbm t.home (pa % 2 ^ 38) else t.loc) = at_
    split
    · exact h
    · exact foldl_good (fun s l hs => hs.of_mem (s.cure_mem l bs.length)) _ (State.pokeAll_good h _ _)
theorem State.pokePa_good (pa : Nat) (bs : List Byte) : (s.pokePa pa bs).Good := by
  unfold State.pokePa; split
  · exact h.of_mem rfl
  · exact foldl_good (fun s x hs => State.pokePart_good hs _ _) _ (State.Good.of_mem h rfl)
theorem State.writeBack_good (runs : List (Nat × Nat)) (inv : Bool) : (s.writeBack runs inv).Good := by
  unfold State.writeBack; extract_lets mine left; split
  · exact (State.poke_good h _).of_mem rfl
  · exact h.of_mem rfl
theorem State.post_good (ctx hart : Nat) (e : Entry) : (s.post ctx hart e).Good := by
  unfold State.post; split
  · exact h
  · extract_lets s1 pidx cidx
    have h1 : s1.Good := h.of_mem rfl
    clear_value s1 pidx cidx
    split
    · exact State.pokePa_good h1 _ _
    · exact (State.pokePa_good (State.pokePa_good h1 _ _) _ _).of_mem rfl
theorem State.postEvent_good (ctx c n : Nat) (v : Addr) (id : Word) : (s.postEvent ctx c n v id).Good := State.post_good h _ _ _
theorem State.postBy_good (ctx c n : Nat) (v : Addr) (who : Option Who) (id : Option Word) : (s.postBy ctx c n v who id).Good := by
  unfold State.postBy; split
  · exact State.postEvent_good h _ _ _ _ _
  · exact State.post_good h _ _ _
theorem State.poolCheck_good (x : Slice) : (s.poolCheck x).Good := by
  unfold State.poolCheck; split
  · refine State.postEvent_good ?_ _ _ _ _ _
    exact h.of_mem rfl
  · exact h
theorem State.readyOn_good (ctx n : Nat) : (s.readyOn ctx n).Good := by
  unfold State.readyOn; extract_lets hit; clear_value hit
  refine foldl_good (fun s x hs => ?_) _ h
  refine State.poolCheck_good ?_ _
  exact hs.of_mem rfl
theorem State.decCounter_good (ctx n : Nat) (who : Option Who) : (s.decCounter ctx n who).Good := by
  unfold State.decCounter; split
  · exact h
  · split
    · exact State.postBy_good h _ _ _ _ _ _
    · extract_lets s1
      have h1 : s1.Good := h.of_mem rfl
      clear_value s1; split
      · exact State.readyOn_good h1 _ _
      · exact h1
theorem State.completeSlice_good (ctx : Nat) (id : Word) : (s.completeSlice ctx id).Good := by
  unfold State.completeSlice; split
  · exact h
  · split
    · exact h
    · extract_lets s1 w s2 s3
      have h2 : s2.Good := h.of_mem rfl
      clear_value s2
      have h3 : s3.Good := by
        dsimp only [s3]; split
        · exact h2.of_mem rfl
        · exact h2
      clear_value s3; split
      · exact h3
      · exact State.decCounter_good h3 _ _ _
theorem State.endOp_good (u : Nat) (st : OpState) (c n : Nat) (v : Addr) : (s.endOp u st c n v).Good := by
  unfold State.endOp; split
  · exact h
  · split
    · exact h
    · extract_lets s1 s2 s3 fl s4 s5 s6 s7
      have h3 : s3.Good := (h : s2.Good).of_mem rfl
      clear_value s3 fl
      have h4 : s4.Good := by
        refine foldl_good (fun s f hs => ?_) _ h3
        exact hs.of_mem rfl
      clear_value s4
      have h5 : s5.Good := by
        dsimp only [s5]; split
        · exact State.post_good h4 _ _ _
        · exact h4
      clear_value s5
      have h6 : s6.Good := by
        dsimp only [s6]; split
        · exact h5.of_mem (State.releaseOp_mem _ _)
        · exact h5
      clear_value s6
      have h7 : s7.Good := foldl_good (fun s f hs => hs.of_mem (State.meet_mem _ _)) _ h6
      clear_value s7
      exact h7.of_mem (by simp)
theorem State.failOp_good (o : Op) (c n : Nat) (v : Addr) : (s.failOp o c n v).Good := by
  unfold State.failOp; split <;> exact State.endOp_good h _ _ _ _ _
theorem State.retire_good (cl : Nat) : (s.retire cl).Good := by
  unfold State.retire; extract_lets members s1 s2; split
  · exact h
  · have h1 : s1.Good := h.of_mem rfl
    clear_value s1
    have h2 : s2.Good := by
      refine foldl_good (fun s t hs => ?_) _ h1
      refine State.Good.of_mem (s := List.foldl _ s _) ?_ ((State.updSlice_mem _ _ _ _).trans (State.resvAfter_mem _ _))
      refine foldl_good (fun s o hs => ?_) _ hs
      split
      · exact hs.of_mem (State.releaseOp_mem _ _)
      · exact hs.of_mem rfl
    clear_value s2; split
    · exact (State.completeSlice_good h2 _ _).of_mem (State.reap_mem _)
    · exact h2
theorem State.postMerges_good (u g : Nat) (ts : List Nat) : (s.postMerges u g ts).Good := by
  unfold State.postMerges; split
  · exact h
  · exact foldl_good (fun s x hs => State.post_good hs _ _ _) _ h
theorem State.exitThreads_good (u g : Nat) (ts : List Nat) : (s.exitThreads u g ts).Good := by
  unfold State.exitThreads; extract_lets s1 gone s2 pass s3 s4
  have h1 : s1.Good := (State.postMerges_good h u g ts).of_mem (State.dropLoads_mem _ _ _)
  clear_value s1
  have h4 : s4.Good := (h1.of_mem rfl : s3.Good).of_mem (State.meet_mem _ _)
  clear_value s4; split
  · split
    · exact State.retire_good h4 _
    · exact h4
  · exact h4
theorem State.endGroup_good (u g : Nat) : (s.endGroup u g).Good := by
  unfold State.endGroup; split
  · exact h
  · extract_lets s1 s2
    have h2 : s2.Good := h.of_mem rfl
    clear_value s2
    exact State.exitThreads_good h2 _ _ _
theorem State.kill_good (u : Nat) (now : List Nat) : (s.kill u now).Good := by
  unfold State.kill; split
  · exact h
  · extract_lets ms s1
    refine foldl_good (fun s m hs => foldl_good (fun s g hs => ?_) _ hs) _ (h.of_mem rfl)
    split
    · exact State.endGroup_good hs _ _
    · exact hs
theorem State.cancelOp_good (o : Op) : (s.cancelOp o).Good := by
  unfold State.cancelOp; split
  · extract_lets reg s1
    have h1 : s1.Good := h.of_mem rfl
    clear_value s1
    exact State.endOp_good h1 _ _ _ _ _
  · exact State.endOp_good h _ _ _ _ _
  · exact h.of_mem rfl
  · exact h
theorem State.takeSync_good (u g : Nat) (set : List Nat) (pc : Addr) (tr : Trap) : (s.takeSync u g set pc tr).Good := by
  unfold State.takeSync; split
  · exact h
  · split
    · exact h
    · split
      · exact State.endGroup_good h _ _
      · extract_lets ths lead hit handler nested entry; split
        · exact State.kill_good (State.post_good h _ _ _) _ _
        · split
          · exact (State.post_good h _ _ _).of_mem (State.bkptStop_mem _ _)
          · exact h.of_mem rfl
theorem State.asyncKill_good (u : Nat) : (s.asyncKill u).Good := by
  unfold State.asyncKill; split
  · exact h
  · split
    · split
      · exact h
      · refine State.kill_good (State.post_good ?_ _ _ _) _ _
        exact h.of_mem rfl
    · exact h
theorem State.raise_good (u c : Nat) (f : Async → Async) : (s.raise u c f).Good := by
  unfold State.raise; split
  · exact h
  · split
    · exact h
    · refine State.asyncKill_good ?_ _
      exact h.of_mem rfl
theorem State.limitTrap_good (x : Slice) (c v : Nat) : (s.limitTrap x c v).Good :=
  foldl_good (fun s t hs => State.raise_good hs _ _ _) _ h
theorem State.throttle_good (u : Nat) (b : Bool) : (s.throttle u b).Good := by
  unfold State.throttle; split
  · exact h
  · dsimp only; repeat' (first | exact h | exact State.raise_good h _ _ _ | split)
theorem State.closeSlice_good (x : Slice) : (s.closeSlice x).Good := by
  unfold State.closeSlice
  refine State.completeSlice_good ?_ _ _
  exact h.of_mem rfl
theorem State.graceKill_good (x : Slice) (c : Nat) : (s.graceKill x c).Good := by
  unfold State.graceKill; split
  · exact h
  · dsimp only
    have h1 := State.postEvent_good (h.of_mem (State.noteCharge_mem s { (s.charged? x.ctx x.id).getD x with graced := true })) x.ctx c 1 0 x.id
    exact foldl_good (fun s t hs => State.kill_good hs _ _) _ (foldl_good (fun s o hs => State.cancelOp_good hs _) _ h1)
theorem State.charge_good (ctx : Nat) (id : Word) (cycles energy : Nat) : (s.charge ctx id cycles energy).Good := by
  unfold State.charge; split
  · exact h
  · extract_lets y hitB hitE y' s1 s2 s3 s4
    have h1 : s1.Good := h.of_mem rfl
    clear_value s1
    have h2 : s2.Good := by
      dsimp only [s2]; split
      · exact State.closeSlice_good h1 _
      · exact h1
    clear_value s2
    have h3 : s3.Good := by
      dsimp only [s3]; split
      · exact State.limitTrap_good h2 _ _ _
      · exact h2
    clear_value s3
    have h4 : s4.Good := by
      dsimp only [s4]; split
      · exact State.limitTrap_good h3 _ _ _
      · exact h3
    clear_value s4; split
    · exact State.graceKill_good h4 _ _
    · split
      · exact State.graceKill_good h4 _ _
      · exact h4

/-! ### Issues -/

theorem Iss.bill_good (i : Iss) : (i.bill s).Good := by
  have hc : (i.closes s).Good := h.of_mem (Iss.closes_mem s i)
  unfold Iss.bill; dsimp only; split
  · exact hc.of_mem rfl
  · refine State.charge_good ?_ _ _ _ _
    exact hc.of_mem rfl
theorem Iss.finish_good (i : Iss) : (i.finish s).Good := Iss.bill_good (s := s.updGroup _ _ _) h i
theorem Iss.depart_good (i : Iss) (back : Bool) : (i.depart s back).Good := Iss.bill_good (s := s.updGroup _ _ _) h i
theorem State.endRested_good (u g : Nat) : (s.endRested u g).Good := by
  unfold State.endRested; split
  · split
    · exact State.endGroup_good h _ _
    · exact h
  · exact h
theorem Iss.stall_good (i : Iss) : (i.stall s).Good := State.endRested_good (s := s.updGroup _ _ _) h _ _
theorem Iss.held_good (i : Iss) : (i.held s).Good := by
  unfold Iss.held; dsimp only; split
  · exact State.endRested_good (s := s.updGroup _ _ _) h _ _
  · exact Iss.stall_good h i
theorem Iss.await_good (i : Iss) : (i.await s).Good := by
  have h1 : (i.closes (i.held s)).Good := (Iss.held_good h i).of_mem (Iss.closes_mem _ _)
  unfold Iss.await; dsimp only; split
  · exact h1
  · exact h1.of_mem rfl
theorem Iss.take_good (i : Iss) (t : Trap) : (i.take s t).Good := State.takeSync_good h _ _ _ _ _

end Written

/-- What an effect leaves has canonical memory. -/
def Done.Good : Done → Prop
  | .ok s | .jump s _ | .wait s | .more s | .trap s _ | .over s => s.Good

/-- An issue concludes in canonical memory. -/
theorem Iss.conclude_good (i : Iss) : ∀ {d : Done}, d.Good → (i.conclude d).Good
  | .trap _ t, h => Iss.take_good h i t
  | .wait _, h => Iss.await_good h i
  | .more _, h => State.Good.of_mem h (Iss.closes_mem _ _)
  | .over _, h => Iss.bill_good h i
  | .jump _ b, h => Iss.depart_good h i b
  | .ok _, h => Iss.finish_good h i

/-- What an issue comes to with failed destinations is canonical when its effect is. -/
theorem Iss.withFailed_good (i : Iss) {s : State} (h : s.Good) {d : Done} (hd : d.Good) : (i.withFailed s d).Good := by
  have hf : ∀ (l : List (Thread × Reg)) {s : State}, s.Good →
      (l.foldl (fun s x => i.upd s [x.1.tidx] fun th => th.forgive x.2.failedOf.toList) s).Good :=
    fun l _ h => foldl_good (fun s x hs => hs.of_mem (Iss.upd_mem _ _ _ _)) l h
  unfold Iss.withFailed; split
  · exact hd
  · dsimp only; repeat' split
    all_goals first | exact hd | exact hf _ h | exact hf _ hd

/-- What an issue comes to with UNIFORM and failed destinations is canonical when its effect is. -/
theorem Iss.outcome_good (i : Iss) {s : State} (h : s.Good) {d : Done} (hd : d.Good) : (i.outcome s d).Good := by
  unfold Iss.outcome; repeat' split
  all_goals first | exact Iss.withFailed_good i h hd | exact hd | exact h

/-- A word whose effect keeps memory canonical keeps it, whatever becomes of its issue. -/
theorem runWord_good {v : Dev} {eff : Iss → State → Done} {s : State} (h : s.Good) (he : ∀ i, (eff i s).Good) : (runWord v eff s).Good := by
  unfold runWord; split
  · exact h
  · split
    · exact Iss.stall_good h _
    · split
      · exact Iss.take_good h _ _
      · split
        · exact Iss.stall_good (h.of_mem (Iss.fetchFrames_mem _ _ _)) _
        · split
          · exact Iss.stall_good h _
          · exact Iss.conclude_good _ (Iss.outcome_good _ h (he _))

/-- A word that writes registers only keeps memory canonical. -/
theorem runLanes_good {v : Dev} {f : Thread → List (Nat × Word)} {s : State} (h : s.Good) : (runLanes v f s).Good :=
  runWord_good h fun _ => h.of_mem rfl

end Sys2Proof.Machine
end

