-- ==== Sys2Proof/Laws/PerInstr.lean ====
section
/-! SUPPORT. Per-instruction law RoundTrip: an encoded instruction decodes to itself, with every field at every value (R134, R139, R326). -/

namespace Sys2Proof.Laws

open Machine

/-- A bit of an appended pair: below `n` the low part's, above it the high part's. -/
theorem bit_append {m n : Nat} (x : BitVec m) (y : BitVec n) (lo hi k : Nat) (h : lo ≤ k) (e : lo + n = hi) :
    (x ++ y).getLsbD (k - lo) = if k < hi then y.getLsbD (k - lo) else x.getLsbD (k - hi) := by
  subst e
  by_cases c : k < lo + n
  · simp [BitVec.getLsbD_append, c, show k - lo < n by omega]
  · simp [BitVec.getLsbD_append, c, show ¬ k - lo < n by omega, Nat.sub_sub]

/-- The bits of a put-together word. -/
theorem putTogether_bit (v : Dev) (k : Nat) : (putTogether v).getLsbD k =
    if k < 6 then v.b.getLsbD (k - 0) else if k < 12 then v.a.getLsbD (k - 6) else if k < 18 then v.d.getLsbD (k - 12)
    else if k < 26 then v.op.getLsbD (k - 18) else if k < 27 then (BitVec.ofBool v.pre.n).getLsbD (k - 26)
    else if k < 30 then v.pre.g.getLsbD (k - 27) else if k < 31 then (BitVec.ofBool v.pre.u).getLsbD (k - 30)
    else (BitVec.ofBool v.pre.c).getLsbD (k - 31) := by
  unfold putTogether
  refine (bit_append _ v.b 0 6 k (by omega) rfl).trans ?_
  split; · rfl
  refine (bit_append _ v.a 6 12 k (by omega) rfl).trans ?_
  split; · rfl
  refine (bit_append _ v.d 12 18 k (by omega) rfl).trans ?_
  split; · rfl
  refine (bit_append _ v.op 18 26 k (by omega) rfl).trans ?_
  split; · rfl
  refine (bit_append _ (BitVec.ofBool v.pre.n) 26 27 k (by omega) rfl).trans ?_
  split; · rfl
  refine (bit_append _ v.pre.g 27 30 k (by omega) rfl).trans ?_
  split; · rfl
  exact bit_append _ (BitVec.ofBool v.pre.u) 30 31 k (by omega) rfl

/-- Taking a put-together word apart gives its fields back (R134). -/
theorem takeApart_putTogether (v : Dev) : takeApart (putTogether v) v.lit = v := by
  have hw : ∀ (n lo : Nat) (x : BitVec n), (∀ k, k < n → (putTogether v).getLsbD (lo + k) = x.getLsbD k) →
      (putTogether v).extractLsb' lo n = x := fun n lo x h =>
    BitVec.eq_of_getLsbD_eq fun k hk => by simp [hk, h k hk]
  unfold takeApart
  rw [hw 8 18 v.op, hw 3 27 v.pre.g, hw 6 12 v.d, hw 6 6 v.a, hw 6 0 v.b]
  · obtain ⟨op, ⟨c, u, g, n⟩, d, a, b, lit⟩ := v
    simp only [putTogether_bit, Dev.mk.injEq, Pre.mk.injEq]
    simp
  all_goals
    intro k hk
    rw [putTogether_bit]
    repeat rw [if_neg (by omega)]
    rw [if_pos (by omega)]
    congr 1
    omega

/-- An encoded instruction decodes to itself, whichever agent's word it is. -/
def RoundTrip.Statement (i : Instr) : Prop :=
  i.wf = true → (∀ x, encode i = some x → decodeDevice x.1 x.2 = i) ∧ (∀ w, encodeHart i = some w → decodeHart w = some i)

/-- A device instruction round-trips when its word's fields give it back. -/
theorem roundTrip_of {i : Instr} {v : Dev} (h : i.dev = some v) (hi : v.instr = i) (hh : encodeHart i = none) : RoundTrip.Statement i :=
  fun _ => ⟨fun x hx => by
    simp only [encode, h, Option.map_some, Option.some.injEq] at hx
    subst hx
    exact (congrArg Dev.instr (takeApart_putTogether v)).trans hi, fun w hw => by simp [hh] at hw⟩

/-- An instruction that has no word of either agent. -/
theorem roundTrip_none {i : Instr} (h : i.dev = none) (hh : encodeHart i = none) : RoundTrip.Statement i :=
  fun _ => ⟨fun x hx => by simp [encode, h] at hx, fun w hw => by simp [hh] at hw⟩

/-- Two halves of a field of twelve bits make it. -/
theorem halves (x : BitVec 12) : x.extractLsb' 6 6 ++ x.extractLsb' 0 6 = x := by
  refine BitVec.eq_of_getLsbD_eq fun k hk => ?_
  refine (bit_append _ _ 0 6 k (by omega) rfl).trans ?_
  split <;> rw [BitVec.getLsbD_extractLsb'] <;> rw [decide_eq_true (by omega), Bool.true_and] <;> congr 1 <;> omega

/-- Three parts of a field of eighteen bits make it. -/
theorem thirds (x : BitVec 18) : x.extractLsb' 12 6 ++ x.extractLsb' 6 6 ++ x.extractLsb' 0 6 = x := by
  refine BitVec.eq_of_getLsbD_eq fun k hk => ?_
  refine (bit_append _ _ 0 6 k (by omega) rfl).trans ?_
  split
  · rw [BitVec.getLsbD_extractLsb', decide_eq_true (by omega), Bool.true_and]; congr 1; omega
  refine (bit_append _ _ 6 12 k (by omega) rfl).trans ?_
  split <;> rw [BitVec.getLsbD_extractLsb'] <;> rw [decide_eq_true (by omega), Bool.true_and] <;> congr 1 <;> omega

/-- The high three bits of a field put together from two threes. -/
theorem high3 (x y : BitVec 3) : (x ++ y : BitVec 6).extractLsb' 3 3 = x :=
  BitVec.eq_of_getLsbD_eq fun k hk => by
    rw [BitVec.getLsbD_extractLsb', decide_eq_true hk, Bool.true_and]
    exact (bit_append x y 0 3 (3 + k) (by omega) rfl).trans (by rw [if_neg (by omega)]; congr 1; omega)

/-- The low three bits of a field put together from two threes. -/
theorem low3 (x y : BitVec 3) : (x ++ y : BitVec 6).extractLsb' 0 3 = y :=
  BitVec.eq_of_getLsbD_eq fun k hk => by
    rw [BitVec.getLsbD_extractLsb', decide_eq_true hk, Bool.true_and]
    exact (bit_append x y 0 3 (0 + k) (by omega) rfl).trans (by rw [if_pos (by omega)]; congr 1; omega)

/-- Row `n` of the opcode map (R144). -/
def opRow16 (n : Nat) (v : Dev) : List Instr :=
  match n with
  | 0 => opcodes0 v | 1 => opcodes1 v | 2 => opcodes2 v | 3 => opcodes3 v | 4 => opcodes4 v | 5 => opcodes5 v | 6 => opcodes6 v | 7 => opcodes7 v
  | 8 => opcodes8 v | 9 => opcodes9 v | 10 => opcodesA v | 11 => opcodesB v | 12 => opcodesC v | 13 => opcodesD v | 14 => opcodesE v | _ => opcodesF v

/-- The instruction of a word whose opcode is known. -/
theorem instr_at {i : Instr} (v : Dev) (k : BitVec 8) (h : v.op = k) (e : (opRow16 (k.toNat / 16) v).getD (k.toNat % 16) (un v) = i) :
    v.instr = i := by
  subst e
  unfold Dev.instr opRow16
  rw [h]
  generalize k.toNat / 16 = n
  rcases n with _ | _ | _ | _ | _ | _ | _ | _ | _ | _ | _ | _ | _ | _ | _ | n <;> rfl

/-- An unassigned opcode's word, by the opcode's number. -/
theorem un_at (v : Dev) (n : Nat) (e : v.op.toNat = n) (h : (opRow16 (n / 16) v).getD (n % 16) (un v) = un v) : v.instr = un v := by
  subst e
  exact instr_at v v.op rfl h

/-- An unassigned opcode's word is its own instruction (R381). -/
theorem un_instr (v : Dev) (h : unassigned v.op.toNat = true) : v.instr = un v := by
  obtain ⟨op, pre, d, a, b, lit⟩ := v
  have hl : op.toNat = 0x57 ∨ op.toNat = 0xBB ∨ (0x4C ≤ op.toNat ∧ op.toNat ≤ 0x4F) ∨ (0x7C ≤ op.toNat ∧ op.toNat ≤ 0x7F) ∨
      (0x8C ≤ op.toNat ∧ op.toNat ≤ 0x8F) ∨ (0xAB ≤ op.toNat ∧ op.toNat ≤ 0xAF) ∨ (0xC4 ≤ op.toNat ∧ op.toNat ≤ 0xC7) ∨
      (0xDA ≤ op.toNat ∧ op.toNat ≤ 0xDF) ∨ (0xED ≤ op.toNat ∧ op.toNat ≤ 0xEF) ∨ (0xFB ≤ op.toNat ∧ op.toNat ≤ 0xFF) := by
    simp only [unassigned, Bool.or_eq_true, Bool.and_eq_true, beq_iff_eq, decide_eq_true_eq] at h
    omega
  have hn : op.toNat = 0x57 ∨ op.toNat = 0xBB ∨ op.toNat = 0x4C ∨ op.toNat = 0x4D ∨ op.toNat = 0x4E ∨ op.toNat = 0x4F ∨ op.toNat = 0x7C ∨ op.toNat = 0x7D ∨
      op.toNat = 0x7E ∨ op.toNat = 0x7F ∨ op.toNat = 0x8C ∨ op.toNat = 0x8D ∨ op.toNat = 0x8E ∨ op.toNat = 0x8F ∨ op.toNat = 0xAB ∨ op.toNat = 0xAC ∨
      op.toNat = 0xAD ∨ op.toNat = 0xAE ∨ op.toNat = 0xAF ∨ op.toNat = 0xC4 ∨ op.toNat = 0xC5 ∨ op.toNat = 0xC6 ∨ op.toNat = 0xC7 ∨ op.toNat = 0xDA ∨
      op.toNat = 0xDB ∨ op.toNat = 0xDC ∨ op.toNat = 0xDD ∨ op.toNat = 0xDE ∨ op.toNat = 0xDF ∨ op.toNat = 0xED ∨ op.toNat = 0xEE ∨ op.toNat = 0xEF ∨
      op.toNat = 0xFB ∨ op.toNat = 0xFC ∨ op.toNat = 0xFD ∨ op.toNat = 0xFE ∨ op.toNat = 0xFF := by omega
  clear h hl
  rcases hn with e | e | e | e | e | e | e | e | e | e | e | e | e | e | e | e | e | e | e | e | e | e | e | e | e | e | e | e | e | e | e | e | e |
    e | e | e | e <;> exact un_at _ _ e rfl

/-- Form RI's fields give it back. -/
theorem ri_dev (w : Ri) (op : BitVec 8) : (w.dev op).ri = w := by
  exact congrArg (Ri.mk w.pre w.d) (halves w.imm)

/-- Form BR's fields give it back. -/
theorem br_dev (w : Br) (op : BitVec 8) : (w.dev op).br = w := by
  exact congrArg (fun x => Br.mk w.pre x w.lit) (thirds w.off)

/-- Form CF's fields give it back. -/
theorem cf_dev (w : Cf) (op : BitVec 8) : (w.dev op).cf = w := by
  exact (congrArg (fun x => Cf.mk w.pre x ((w.n ++ w.g : BitVec 6).extractLsb' 0 3) w.a w.z w.lit) (high3 w.n w.g)).trans
    (congrArg (fun x => Cf.mk w.pre w.n x w.a w.z w.lit) (low3 w.n w.g))

/-- Form PC's fields give it back. -/
theorem pc_dev (w : Pc) (op : BitVec 8) : (w.dev op).pc = w := by
  exact (congrArg (fun x => Pc.mk w.pre x ((w.cond ++ w.pd : BitVec 6).extractLsb' 0 3) w.a w.b w.lit) (high3 w.cond w.pd)).trans
    (congrArg (fun x => Pc.mk w.pre w.cond x w.a w.b w.lit) (low3 w.cond w.pd))

/-- The number of an appended pair. -/
theorem toNat_pair {m n : Nat} (x : BitVec m) (y : BitVec n) : (x ++ y).toNat = x.toNat * 2 ^ n + y.toNat := by
  rw [BitVec.toNat_append, ← Nat.shiftLeft_add_eq_or_of_lt y.isLt, Nat.shiftLeft_eq]

/-- The number of a base-core word of R326. -/
theorem hartWord_toNat (rs2 rs1 rd : BitVec 5) (f3 : BitVec 3) :
    (0#7 ++ rs2 ++ rs1 ++ f3 ++ rd ++ 0x0B#7 : Word).toNat = rs2.toNat * 2 ^ 20 + rs1.toNat * 2 ^ 15 + f3.toNat * 2 ^ 12 + rd.toNat * 2 ^ 7 + 11 := by
  refine (toNat_pair _ _).trans ?_
  rw [toNat_pair, toNat_pair, toNat_pair, toNat_pair]
  simp
  omega

/-- A field of five bits of a word, by its number. -/
theorem field5 (w : Word) (lo : Nat) (x : BitVec 5) (h : w.toNat / 2 ^ lo % 32 = x.toNat) : w.extractLsb' lo 5 = x :=
  BitVec.eq_of_toNat_eq (by rw [BitVec.extractLsb'_toNat, Nat.shiftRight_eq_div_pow]; exact h)

/-- NOP. -/
theorem RoundTrip.nop (w : Rrr) : RoundTrip.Statement (.nop w) := roundTrip_of rfl (instr_at (w.dev 0x00) 0x00 rfl rfl) rfl

/-- IADD_I32. -/
theorem RoundTrip.iaddI32 (w : Rrr) : RoundTrip.Statement (.iaddI32 w) := roundTrip_of rfl (instr_at (w.dev 0x01) 0x01 rfl rfl) rfl

/-- IADD_I64. -/
theorem RoundTrip.iaddI64 (w : Rrr) : RoundTrip.Statement (.iaddI64 w) := roundTrip_of rfl (instr_at (w.dev 0x02) 0x02 rfl rfl) rfl

/-- ISUB_I32. -/
theorem RoundTrip.isubI32 (w : Rrr) : RoundTrip.Statement (.isubI32 w) := roundTrip_of rfl (instr_at (w.dev 0x03) 0x03 rfl rfl) rfl

/-- ISUB_I64. -/
theorem RoundTrip.isubI64 (w : Rrr) : RoundTrip.Statement (.isubI64 w) := roundTrip_of rfl (instr_at (w.dev 0x04) 0x04 rfl rfl) rfl

/-- IMUL_I32. -/
theorem RoundTrip.imulI32 (w : Rrr) : RoundTrip.Statement (.imulI32 w) := roundTrip_of rfl (instr_at (w.dev 0x05) 0x05 rfl rfl) rfl

/-- IMUL_I64. -/
theorem RoundTrip.imulI64 (w : Rrr) : RoundTrip.Statement (.imulI64 w) := roundTrip_of rfl (instr_at (w.dev 0x06) 0x06 rfl rfl) rfl

/-- IMULH_S32. -/
theorem RoundTrip.imulhS32 (w : Rrr) : RoundTrip.Statement (.imulhS32 w) := roundTrip_of rfl (instr_at (w.dev 0x07) 0x07 rfl rfl) rfl

/-- IMULH_N32. -/
theorem RoundTrip.imulhN32 (w : Rrr) : RoundTrip.Statement (.imulhN32 w) := roundTrip_of rfl (instr_at (w.dev 0x08) 0x08 rfl rfl) rfl

/-- IMULH_S64. -/
theorem RoundTrip.imulhS64 (w : Rrr) : RoundTrip.Statement (.imulhS64 w) := roundTrip_of rfl (instr_at (w.dev 0x09) 0x09 rfl rfl) rfl

/-- IMULH_N64. -/
theorem RoundTrip.imulhN64 (w : Rrr) : RoundTrip.Statement (.imulhN64 w) := roundTrip_of rfl (instr_at (w.dev 0x0A) 0x0A rfl rfl) rfl

/-- IMAD_I32. -/
theorem RoundTrip.imadI32 (w : Rrr) : RoundTrip.Statement (.imadI32 w) := roundTrip_of rfl (instr_at (w.dev 0x0B) 0x0B rfl rfl) rfl

/-- IMAD_I64. -/
theorem RoundTrip.imadI64 (w : Rrr) : RoundTrip.Statement (.imadI64 w) := roundTrip_of rfl (instr_at (w.dev 0x0C) 0x0C rfl rfl) rfl

/-- IMIN_S32. -/
theorem RoundTrip.iminS32 (w : Rrr) : RoundTrip.Statement (.iminS32 w) := roundTrip_of rfl (instr_at (w.dev 0x0D) 0x0D rfl rfl) rfl

/-- IMIN_N32. -/
theorem RoundTrip.iminN32 (w : Rrr) : RoundTrip.Statement (.iminN32 w) := roundTrip_of rfl (instr_at (w.dev 0x0E) 0x0E rfl rfl) rfl

/-- IMIN_S64. -/
theorem RoundTrip.iminS64 (w : Rrr) : RoundTrip.Statement (.iminS64 w) := roundTrip_of rfl (instr_at (w.dev 0x0F) 0x0F rfl rfl) rfl

/-- IMIN_N64. -/
theorem RoundTrip.iminN64 (w : Rrr) : RoundTrip.Statement (.iminN64 w) := roundTrip_of rfl (instr_at (w.dev 0x10) 0x10 rfl rfl) rfl

/-- IMAX_S32. -/
theorem RoundTrip.imaxS32 (w : Rrr) : RoundTrip.Statement (.imaxS32 w) := roundTrip_of rfl (instr_at (w.dev 0x11) 0x11 rfl rfl) rfl

/-- IMAX_N32. -/
theorem RoundTrip.imaxN32 (w : Rrr) : RoundTrip.Statement (.imaxN32 w) := roundTrip_of rfl (instr_at (w.dev 0x12) 0x12 rfl rfl) rfl

/-- IMAX_S64. -/
theorem RoundTrip.imaxS64 (w : Rrr) : RoundTrip.Statement (.imaxS64 w) := roundTrip_of rfl (instr_at (w.dev 0x13) 0x13 rfl rfl) rfl

/-- IMAX_N64. -/
theorem RoundTrip.imaxN64 (w : Rrr) : RoundTrip.Statement (.imaxN64 w) := roundTrip_of rfl (instr_at (w.dev 0x14) 0x14 rfl rfl) rfl

/-- IABS_S32. -/
theorem RoundTrip.iabsS32 (w : Rrr) : RoundTrip.Statement (.iabsS32 w) := roundTrip_of rfl (instr_at (w.dev 0x15) 0x15 rfl rfl) rfl

/-- IABS_S64. -/
theorem RoundTrip.iabsS64 (w : Rrr) : RoundTrip.Statement (.iabsS64 w) := roundTrip_of rfl (instr_at (w.dev 0x16) 0x16 rfl rfl) rfl

/-- INEG_I32. -/
theorem RoundTrip.inegI32 (w : Rrr) : RoundTrip.Statement (.inegI32 w) := roundTrip_of rfl (instr_at (w.dev 0x17) 0x17 rfl rfl) rfl

/-- INEG_I64. -/
theorem RoundTrip.inegI64 (w : Rrr) : RoundTrip.Statement (.inegI64 w) := roundTrip_of rfl (instr_at (w.dev 0x18) 0x18 rfl rfl) rfl

/-- IDIV_S32. -/
theorem RoundTrip.idivS32 (w : Rrr) : RoundTrip.Statement (.idivS32 w) := roundTrip_of rfl (instr_at (w.dev 0x19) 0x19 rfl rfl) rfl

/-- IDIV_N32. -/
theorem RoundTrip.idivN32 (w : Rrr) : RoundTrip.Statement (.idivN32 w) := roundTrip_of rfl (instr_at (w.dev 0x1A) 0x1A rfl rfl) rfl

/-- IDIV_S64. -/
theorem RoundTrip.idivS64 (w : Rrr) : RoundTrip.Statement (.idivS64 w) := roundTrip_of rfl (instr_at (w.dev 0x1B) 0x1B rfl rfl) rfl

/-- IDIV_N64. -/
theorem RoundTrip.idivN64 (w : Rrr) : RoundTrip.Statement (.idivN64 w) := roundTrip_of rfl (instr_at (w.dev 0x1C) 0x1C rfl rfl) rfl

/-- IREM_S32. -/
theorem RoundTrip.iremS32 (w : Rrr) : RoundTrip.Statement (.iremS32 w) := roundTrip_of rfl (instr_at (w.dev 0x1D) 0x1D rfl rfl) rfl

/-- IREM_N32. -/
theorem RoundTrip.iremN32 (w : Rrr) : RoundTrip.Statement (.iremN32 w) := roundTrip_of rfl (instr_at (w.dev 0x1E) 0x1E rfl rfl) rfl

/-- IREM_S64. -/
theorem RoundTrip.iremS64 (w : Rrr) : RoundTrip.Statement (.iremS64 w) := roundTrip_of rfl (instr_at (w.dev 0x1F) 0x1F rfl rfl) rfl

/-- IREM_N64. -/
theorem RoundTrip.iremN64 (w : Rrr) : RoundTrip.Statement (.iremN64 w) := roundTrip_of rfl (instr_at (w.dev 0x20) 0x20 rfl rfl) rfl

/-- IADDS_S32. -/
theorem RoundTrip.iaddsS32 (w : Rrr) : RoundTrip.Statement (.iaddsS32 w) := roundTrip_of rfl (instr_at (w.dev 0x21) 0x21 rfl rfl) rfl

/-- ISUBS_S32. -/
theorem RoundTrip.isubsS32 (w : Rrr) : RoundTrip.Statement (.isubsS32 w) := roundTrip_of rfl (instr_at (w.dev 0x22) 0x22 rfl rfl) rfl

/-- ISAD_N32. -/
theorem RoundTrip.isadN32 (w : Rrr) : RoundTrip.Statement (.isadN32 w) := roundTrip_of rfl (instr_at (w.dev 0x23) 0x23 rfl rfl) rfl

/-- IDP4_S8. -/
theorem RoundTrip.idp4S8 (w : Rrr) : RoundTrip.Statement (.idp4S8 w) := roundTrip_of rfl (instr_at (w.dev 0x24) 0x24 rfl rfl) rfl

/-- AND. -/
theorem RoundTrip.and (w : Rrr) : RoundTrip.Statement (.and w) := roundTrip_of rfl (instr_at (w.dev 0x25) 0x25 rfl rfl) rfl

/-- OR. -/
theorem RoundTrip.or (w : Rrr) : RoundTrip.Statement (.or w) := roundTrip_of rfl (instr_at (w.dev 0x26) 0x26 rfl rfl) rfl

/-- XOR. -/
theorem RoundTrip.xor (w : Rrr) : RoundTrip.Statement (.xor w) := roundTrip_of rfl (instr_at (w.dev 0x27) 0x27 rfl rfl) rfl

/-- ANDN. -/
theorem RoundTrip.andn (w : Rrr) : RoundTrip.Statement (.andn w) := roundTrip_of rfl (instr_at (w.dev 0x28) 0x28 rfl rfl) rfl

/-- NOT. -/
theorem RoundTrip.not (w : Rrr) : RoundTrip.Statement (.not w) := roundTrip_of rfl (instr_at (w.dev 0x29) 0x29 rfl rfl) rfl

/-- LOP3. -/
theorem RoundTrip.lop3 (w : Rrr) : RoundTrip.Statement (.lop3 w) := roundTrip_of rfl (instr_at (w.dev 0x2A) 0x2A rfl rfl) rfl

/-- SHL_I32. -/
theorem RoundTrip.shlI32 (w : Rrr) : RoundTrip.Statement (.shlI32 w) := roundTrip_of rfl (instr_at (w.dev 0x2B) 0x2B rfl rfl) rfl

/-- SHL_I64. -/
theorem RoundTrip.shlI64 (w : Rrr) : RoundTrip.Statement (.shlI64 w) := roundTrip_of rfl (instr_at (w.dev 0x2C) 0x2C rfl rfl) rfl

/-- SHR_I32. -/
theorem RoundTrip.shrI32 (w : Rrr) : RoundTrip.Statement (.shrI32 w) := roundTrip_of rfl (instr_at (w.dev 0x2D) 0x2D rfl rfl) rfl

/-- SHR_I64. -/
theorem RoundTrip.shrI64 (w : Rrr) : RoundTrip.Statement (.shrI64 w) := roundTrip_of rfl (instr_at (w.dev 0x2E) 0x2E rfl rfl) rfl

/-- SAR_I32. -/
theorem RoundTrip.sarI32 (w : Rrr) : RoundTrip.Statement (.sarI32 w) := roundTrip_of rfl (instr_at (w.dev 0x2F) 0x2F rfl rfl) rfl

/-- SAR_I64. -/
theorem RoundTrip.sarI64 (w : Rrr) : RoundTrip.Statement (.sarI64 w) := roundTrip_of rfl (instr_at (w.dev 0x30) 0x30 rfl rfl) rfl

/-- ROTL_I32. -/
theorem RoundTrip.rotlI32 (w : Rrr) : RoundTrip.Statement (.rotlI32 w) := roundTrip_of rfl (instr_at (w.dev 0x31) 0x31 rfl rfl) rfl

/-- ROTL_I64. -/
theorem RoundTrip.rotlI64 (w : Rrr) : RoundTrip.Statement (.rotlI64 w) := roundTrip_of rfl (instr_at (w.dev 0x32) 0x32 rfl rfl) rfl

/-- SHF. -/
theorem RoundTrip.shf (w : Rrr) : RoundTrip.Statement (.shf w) := roundTrip_of rfl (instr_at (w.dev 0x33) 0x33 rfl rfl) rfl

/-- POPC_I32. -/
theorem RoundTrip.popcI32 (w : Rrr) : RoundTrip.Statement (.popcI32 w) := roundTrip_of rfl (instr_at (w.dev 0x34) 0x34 rfl rfl) rfl

/-- POPC_I64. -/
theorem RoundTrip.popcI64 (w : Rrr) : RoundTrip.Statement (.popcI64 w) := roundTrip_of rfl (instr_at (w.dev 0x35) 0x35 rfl rfl) rfl

/-- CLZ_I32. -/
theorem RoundTrip.clzI32 (w : Rrr) : RoundTrip.Statement (.clzI32 w) := roundTrip_of rfl (instr_at (w.dev 0x36) 0x36 rfl rfl) rfl

/-- CLZ_I64. -/
theorem RoundTrip.clzI64 (w : Rrr) : RoundTrip.Statement (.clzI64 w) := roundTrip_of rfl (instr_at (w.dev 0x37) 0x37 rfl rfl) rfl

/-- CTZ_I32. -/
theorem RoundTrip.ctzI32 (w : Rrr) : RoundTrip.Statement (.ctzI32 w) := roundTrip_of rfl (instr_at (w.dev 0x38) 0x38 rfl rfl) rfl

/-- CTZ_I64. -/
theorem RoundTrip.ctzI64 (w : Rrr) : RoundTrip.Statement (.ctzI64 w) := roundTrip_of rfl (instr_at (w.dev 0x39) 0x39 rfl rfl) rfl

/-- BREV. -/
theorem RoundTrip.brev (w : Rrr) : RoundTrip.Statement (.brev w) := roundTrip_of rfl (instr_at (w.dev 0x3A) 0x3A rfl rfl) rfl

/-- BFE. -/
theorem RoundTrip.bfe (w : Rrr) : RoundTrip.Statement (.bfe w) := roundTrip_of rfl (instr_at (w.dev 0x3B) 0x3B rfl rfl) rfl

/-- BFI. -/
theorem RoundTrip.bfi (w : Rrr) : RoundTrip.Statement (.bfi w) := roundTrip_of rfl (instr_at (w.dev 0x3C) 0x3C rfl rfl) rfl

/-- AND_I64. -/
theorem RoundTrip.andI64 (w : Rrr) : RoundTrip.Statement (.andI64 w) := roundTrip_of rfl (instr_at (w.dev 0x3D) 0x3D rfl rfl) rfl

/-- OR_I64. -/
theorem RoundTrip.orI64 (w : Rrr) : RoundTrip.Statement (.orI64 w) := roundTrip_of rfl (instr_at (w.dev 0x3E) 0x3E rfl rfl) rfl

/-- XOR_I64. -/
theorem RoundTrip.xorI64 (w : Rrr) : RoundTrip.Statement (.xorI64 w) := roundTrip_of rfl (instr_at (w.dev 0x3F) 0x3F rfl rfl) rfl

/-- ISETP_S32. -/
theorem RoundTrip.isetpS32 (w : Pc) : RoundTrip.Statement (.isetpS32 w) := roundTrip_of rfl (instr_at (w.dev 0x40) 0x40 rfl (congrArg Instr.isetpS32 (pc_dev w _))) rfl

/-- ISETP_N32. -/
theorem RoundTrip.isetpN32 (w : Pc) : RoundTrip.Statement (.isetpN32 w) := roundTrip_of rfl (instr_at (w.dev 0x41) 0x41 rfl (congrArg Instr.isetpN32 (pc_dev w _))) rfl

/-- ISETP_S64. -/
theorem RoundTrip.isetpS64 (w : Pc) : RoundTrip.Statement (.isetpS64 w) := roundTrip_of rfl (instr_at (w.dev 0x42) 0x42 rfl (congrArg Instr.isetpS64 (pc_dev w _))) rfl

/-- ISETP_N64. -/
theorem RoundTrip.isetpN64 (w : Pc) : RoundTrip.Statement (.isetpN64 w) := roundTrip_of rfl (instr_at (w.dev 0x43) 0x43 rfl (congrArg Instr.isetpN64 (pc_dev w _))) rfl

/-- FSETP. -/
theorem RoundTrip.fsetp (w : Pc) : RoundTrip.Statement (.fsetp w) := roundTrip_of rfl (instr_at (w.dev 0x44) 0x44 rfl (congrArg Instr.fsetp (pc_dev w _))) rfl

/-- PLOP. -/
theorem RoundTrip.plop (w : Rrr) : RoundTrip.Statement (.plop w) := roundTrip_of rfl (instr_at (w.dev 0x45) 0x45 rfl rfl) rfl

/-- SEL. -/
theorem RoundTrip.sel (w : Rrr) : RoundTrip.Statement (.sel w) := roundTrip_of rfl (instr_at (w.dev 0x46) 0x46 rfl rfl) rfl

/-- PMOV. -/
theorem RoundTrip.pmov (w : Rrr) : RoundTrip.Statement (.pmov w) := roundTrip_of rfl (instr_at (w.dev 0x47) 0x47 rfl rfl) rfl

/-- VOTE. -/
theorem RoundTrip.vote (w : Rrr) : RoundTrip.Statement (.vote w) := roundTrip_of rfl (instr_at (w.dev 0x48) 0x48 rfl rfl) rfl

/-- FINDM_I32. -/
theorem RoundTrip.findmI32 (w : Rrr) : RoundTrip.Statement (.findmI32 w) := roundTrip_of rfl (instr_at (w.dev 0x49) 0x49 rfl rfl) rfl

/-- FINDM_I64. -/
theorem RoundTrip.findmI64 (w : Rrr) : RoundTrip.Statement (.findmI64 w) := roundTrip_of rfl (instr_at (w.dev 0x4A) 0x4A rfl rfl) rfl

/-- ELECT. -/
theorem RoundTrip.elect (w : Rrr) : RoundTrip.Statement (.elect w) := roundTrip_of rfl (instr_at (w.dev 0x4B) 0x4B rfl rfl) rfl

/-- MOV. -/
theorem RoundTrip.mov (w : Rrr) : RoundTrip.Statement (.mov w) := roundTrip_of rfl (instr_at (w.dev 0x50) 0x50 rfl rfl) rfl

/-- MOVK. -/
theorem RoundTrip.movk (w : Ri) : RoundTrip.Statement (.movk w) := roundTrip_of rfl (instr_at (w.dev 0x51) 0x51 rfl (congrArg Instr.movk (ri_dev w _))) rfl

/-- MOVI. -/
theorem RoundTrip.movi (w : Ri) : RoundTrip.Statement (.movi w) := roundTrip_of rfl (instr_at (w.dev 0x52) 0x52 rfl (congrArg Instr.movi (ri_dev w _))) rfl

/-- MOVH. -/
theorem RoundTrip.movh (w : Rrr) : RoundTrip.Statement (.movh w) := roundTrip_of rfl (instr_at (w.dev 0x53) 0x53 rfl rfl) rfl

/-- GSR. -/
theorem RoundTrip.gsr (w : Ri) : RoundTrip.Statement (.gsr w) := roundTrip_of rfl (instr_at (w.dev 0x54) 0x54 rfl (congrArg Instr.gsr (ri_dev w _))) rfl

/-- SSR. -/
theorem RoundTrip.ssr (w : Ri) : RoundTrip.Statement (.ssr w) := roundTrip_of rfl (instr_at (w.dev 0x55) 0x55 rfl (congrArg Instr.ssr (ri_dev w _))) rfl

/-- MOVD. -/
theorem RoundTrip.movd (w : Rrr) : RoundTrip.Statement (.movd w) := roundTrip_of rfl (instr_at (w.dev 0x56) 0x56 rfl rfl) rfl

/-- FADD. -/
theorem RoundTrip.fadd (w : Rrr) : RoundTrip.Statement (.fadd w) := roundTrip_of rfl (instr_at (w.dev 0x58) 0x58 rfl rfl) rfl

/-- FSUB. -/
theorem RoundTrip.fsub (w : Rrr) : RoundTrip.Statement (.fsub w) := roundTrip_of rfl (instr_at (w.dev 0x59) 0x59 rfl rfl) rfl

/-- FMUL. -/
theorem RoundTrip.fmul (w : Rrr) : RoundTrip.Statement (.fmul w) := roundTrip_of rfl (instr_at (w.dev 0x5A) 0x5A rfl rfl) rfl

/-- FFMA. -/
theorem RoundTrip.ffma (w : Rrr) : RoundTrip.Statement (.ffma w) := roundTrip_of rfl (instr_at (w.dev 0x5B) 0x5B rfl rfl) rfl

/-- FMIN. -/
theorem RoundTrip.fmin (w : Rrr) : RoundTrip.Statement (.fmin w) := roundTrip_of rfl (instr_at (w.dev 0x5C) 0x5C rfl rfl) rfl

/-- FMAX. -/
theorem RoundTrip.fmax (w : Rrr) : RoundTrip.Statement (.fmax w) := roundTrip_of rfl (instr_at (w.dev 0x5D) 0x5D rfl rfl) rfl

/-- FABS. -/
theorem RoundTrip.fabs (w : Rrr) : RoundTrip.Statement (.fabs w) := roundTrip_of rfl (instr_at (w.dev 0x5E) 0x5E rfl rfl) rfl

/-- FNEG. -/
theorem RoundTrip.fneg (w : Rrr) : RoundTrip.Statement (.fneg w) := roundTrip_of rfl (instr_at (w.dev 0x5F) 0x5F rfl rfl) rfl

/-- FRND. -/
theorem RoundTrip.frnd (w : Rrr) : RoundTrip.Statement (.frnd w) := roundTrip_of rfl (instr_at (w.dev 0x60) 0x60 rfl rfl) rfl

/-- HADD2. -/
theorem RoundTrip.hadd2 (w : Rrr) : RoundTrip.Statement (.hadd2 w) := roundTrip_of rfl (instr_at (w.dev 0x61) 0x61 rfl rfl) rfl

/-- HMUL2. -/
theorem RoundTrip.hmul2 (w : Rrr) : RoundTrip.Statement (.hmul2 w) := roundTrip_of rfl (instr_at (w.dev 0x62) 0x62 rfl rfl) rfl

/-- HFMA2. -/
theorem RoundTrip.hfma2 (w : Rrr) : RoundTrip.Statement (.hfma2 w) := roundTrip_of rfl (instr_at (w.dev 0x63) 0x63 rfl rfl) rfl

/-- HMIN2. -/
theorem RoundTrip.hmin2 (w : Rrr) : RoundTrip.Statement (.hmin2 w) := roundTrip_of rfl (instr_at (w.dev 0x64) 0x64 rfl rfl) rfl

/-- HMAX2. -/
theorem RoundTrip.hmax2 (w : Rrr) : RoundTrip.Statement (.hmax2 w) := roundTrip_of rfl (instr_at (w.dev 0x65) 0x65 rfl rfl) rfl

/-- BADD2. -/
theorem RoundTrip.badd2 (w : Rrr) : RoundTrip.Statement (.badd2 w) := roundTrip_of rfl (instr_at (w.dev 0x66) 0x66 rfl rfl) rfl

/-- BMUL2. -/
theorem RoundTrip.bmul2 (w : Rrr) : RoundTrip.Statement (.bmul2 w) := roundTrip_of rfl (instr_at (w.dev 0x67) 0x67 rfl rfl) rfl

/-- BFMA2. -/
theorem RoundTrip.bfma2 (w : Rrr) : RoundTrip.Statement (.bfma2 w) := roundTrip_of rfl (instr_at (w.dev 0x68) 0x68 rfl rfl) rfl

/-- FRCP. -/
theorem RoundTrip.frcp (w : Rrr) : RoundTrip.Statement (.frcp w) := roundTrip_of rfl (instr_at (w.dev 0x69) 0x69 rfl rfl) rfl

/-- FRSQ. -/
theorem RoundTrip.frsq (w : Rrr) : RoundTrip.Statement (.frsq w) := roundTrip_of rfl (instr_at (w.dev 0x6A) 0x6A rfl rfl) rfl

/-- FSQRT. -/
theorem RoundTrip.fsqrt (w : Rrr) : RoundTrip.Statement (.fsqrt w) := roundTrip_of rfl (instr_at (w.dev 0x6B) 0x6B rfl rfl) rfl

/-- FEXP2. -/
theorem RoundTrip.fexp2 (w : Rrr) : RoundTrip.Statement (.fexp2 w) := roundTrip_of rfl (instr_at (w.dev 0x6C) 0x6C rfl rfl) rfl

/-- FLOG2. -/
theorem RoundTrip.flog2 (w : Rrr) : RoundTrip.Statement (.flog2 w) := roundTrip_of rfl (instr_at (w.dev 0x6D) 0x6D rfl rfl) rfl

/-- FSIN. -/
theorem RoundTrip.fsin (w : Rrr) : RoundTrip.Statement (.fsin w) := roundTrip_of rfl (instr_at (w.dev 0x6E) 0x6E rfl rfl) rfl

/-- FCOS. -/
theorem RoundTrip.fcos (w : Rrr) : RoundTrip.Statement (.fcos w) := roundTrip_of rfl (instr_at (w.dev 0x6F) 0x6F rfl rfl) rfl

/-- FTANH. -/
theorem RoundTrip.ftanh (w : Rrr) : RoundTrip.Statement (.ftanh w) := roundTrip_of rfl (instr_at (w.dev 0x70) 0x70 rfl rfl) rfl

/-- FDIV. -/
theorem RoundTrip.fdiv (w : Rrr) : RoundTrip.Statement (.fdiv w) := roundTrip_of rfl (instr_at (w.dev 0x71) 0x71 rfl rfl) rfl

/-- F2I. -/
theorem RoundTrip.f2i (w : Rrr) : RoundTrip.Statement (.f2i w) := roundTrip_of rfl (instr_at (w.dev 0x72) 0x72 rfl rfl) rfl

/-- I2F. -/
theorem RoundTrip.i2f (w : Rrr) : RoundTrip.Statement (.i2f w) := roundTrip_of rfl (instr_at (w.dev 0x73) 0x73 rfl rfl) rfl

/-- F2H. -/
theorem RoundTrip.f2h (w : Rrr) : RoundTrip.Statement (.f2h w) := roundTrip_of rfl (instr_at (w.dev 0x74) 0x74 rfl rfl) rfl

/-- H2F. -/
theorem RoundTrip.h2f (w : Rrr) : RoundTrip.Statement (.h2f w) := roundTrip_of rfl (instr_at (w.dev 0x75) 0x75 rfl rfl) rfl

/-- F2Q. -/
theorem RoundTrip.f2q (w : Rrr) : RoundTrip.Statement (.f2q w) := roundTrip_of rfl (instr_at (w.dev 0x76) 0x76 rfl rfl) rfl

/-- Q2F. -/
theorem RoundTrip.q2f (w : Rrr) : RoundTrip.Statement (.q2f w) := roundTrip_of rfl (instr_at (w.dev 0x77) 0x77 rfl rfl) rfl

/-- FSCL. -/
theorem RoundTrip.fscl (w : Rrr) : RoundTrip.Statement (.fscl w) := roundTrip_of rfl (instr_at (w.dev 0x78) 0x78 rfl rfl) rfl

/-- FCLS. -/
theorem RoundTrip.fcls (w : Rrr) : RoundTrip.Statement (.fcls w) := roundTrip_of rfl (instr_at (w.dev 0x79) 0x79 rfl rfl) rfl

/-- FXCVT. -/
theorem RoundTrip.fxcvt (w : Rrr) : RoundTrip.Statement (.fxcvt w) := roundTrip_of rfl (instr_at (w.dev 0x7A) 0x7A rfl rfl) rfl

/-- FMXS. -/
theorem RoundTrip.fmxs (w : Rrr) : RoundTrip.Statement (.fmxs w) := roundTrip_of rfl (instr_at (w.dev 0x7B) 0x7B rfl rfl) rfl

/-- SHFLI. -/
theorem RoundTrip.shfli (w : Rrr) : RoundTrip.Statement (.shfli w) := roundTrip_of rfl (instr_at (w.dev 0x80) 0x80 rfl rfl) rfl

/-- SHFLU. -/
theorem RoundTrip.shflu (w : Rrr) : RoundTrip.Statement (.shflu w) := roundTrip_of rfl (instr_at (w.dev 0x81) 0x81 rfl rfl) rfl

/-- SHFLD. -/
theorem RoundTrip.shfld (w : Rrr) : RoundTrip.Statement (.shfld w) := roundTrip_of rfl (instr_at (w.dev 0x82) 0x82 rfl rfl) rfl

/-- SHFLX. -/
theorem RoundTrip.shflx (w : Rrr) : RoundTrip.Statement (.shflx w) := roundTrip_of rfl (instr_at (w.dev 0x83) 0x83 rfl rfl) rfl

/-- GRADD_I32. -/
theorem RoundTrip.graddI32 (w : Rrr) : RoundTrip.Statement (.graddI32 w) := roundTrip_of rfl (instr_at (w.dev 0x84) 0x84 rfl rfl) rfl

/-- GRADD_F32. -/
theorem RoundTrip.graddF32 (w : Rrr) : RoundTrip.Statement (.graddF32 w) := roundTrip_of rfl (instr_at (w.dev 0x85) 0x85 rfl rfl) rfl

/-- GRMIN_S32. -/
theorem RoundTrip.grminS32 (w : Rrr) : RoundTrip.Statement (.grminS32 w) := roundTrip_of rfl (instr_at (w.dev 0x86) 0x86 rfl rfl) rfl

/-- GRMAX_S32. -/
theorem RoundTrip.grmaxS32 (w : Rrr) : RoundTrip.Statement (.grmaxS32 w) := roundTrip_of rfl (instr_at (w.dev 0x87) 0x87 rfl rfl) rfl

/-- GSCAN_I32. -/
theorem RoundTrip.gscanI32 (w : Rrr) : RoundTrip.Statement (.gscanI32 w) := roundTrip_of rfl (instr_at (w.dev 0x88) 0x88 rfl rfl) rfl

/-- CXCH_I64. -/
theorem RoundTrip.cxchI64 (w : Rrr) : RoundTrip.Statement (.cxchI64 w) := roundTrip_of rfl (instr_at (w.dev 0x89) 0x89 rfl rfl) rfl

/-- CXCH_I32. -/
theorem RoundTrip.cxchI32 (w : Rrr) : RoundTrip.Statement (.cxchI32 w) := roundTrip_of rfl (instr_at (w.dev 0x8A) 0x8A rfl rfl) rfl

/-- MRNK_I64. -/
theorem RoundTrip.mrnkI64 (w : Rrr) : RoundTrip.Statement (.mrnkI64 w) := roundTrip_of rfl (instr_at (w.dev 0x8B) 0x8B rfl rfl) rfl

/-- LD_B8. -/
theorem RoundTrip.ldB8 (w : Rrr) : RoundTrip.Statement (.ldB8 w) := roundTrip_of rfl (instr_at (w.dev 0x90) 0x90 rfl rfl) rfl

/-- LD_S8. -/
theorem RoundTrip.ldS8 (w : Rrr) : RoundTrip.Statement (.ldS8 w) := roundTrip_of rfl (instr_at (w.dev 0x91) 0x91 rfl rfl) rfl

/-- LD_B16. -/
theorem RoundTrip.ldB16 (w : Rrr) : RoundTrip.Statement (.ldB16 w) := roundTrip_of rfl (instr_at (w.dev 0x92) 0x92 rfl rfl) rfl

/-- LD_S16. -/
theorem RoundTrip.ldS16 (w : Rrr) : RoundTrip.Statement (.ldS16 w) := roundTrip_of rfl (instr_at (w.dev 0x93) 0x93 rfl rfl) rfl

/-- LD_B32. -/
theorem RoundTrip.ldB32 (w : Rrr) : RoundTrip.Statement (.ldB32 w) := roundTrip_of rfl (instr_at (w.dev 0x94) 0x94 rfl rfl) rfl

/-- LD_B64. -/
theorem RoundTrip.ldB64 (w : Rrr) : RoundTrip.Statement (.ldB64 w) := roundTrip_of rfl (instr_at (w.dev 0x95) 0x95 rfl rfl) rfl

/-- LD_B128. -/
theorem RoundTrip.ldB128 (w : Rrr) : RoundTrip.Statement (.ldB128 w) := roundTrip_of rfl (instr_at (w.dev 0x96) 0x96 rfl rfl) rfl

/-- ST_B8. -/
theorem RoundTrip.stB8 (w : Rrr) : RoundTrip.Statement (.stB8 w) := roundTrip_of rfl (instr_at (w.dev 0x97) 0x97 rfl rfl) rfl

/-- ST_B16. -/
theorem RoundTrip.stB16 (w : Rrr) : RoundTrip.Statement (.stB16 w) := roundTrip_of rfl (instr_at (w.dev 0x98) 0x98 rfl rfl) rfl

/-- ST_B32. -/
theorem RoundTrip.stB32 (w : Rrr) : RoundTrip.Statement (.stB32 w) := roundTrip_of rfl (instr_at (w.dev 0x99) 0x99 rfl rfl) rfl

/-- ST_B64. -/
theorem RoundTrip.stB64 (w : Rrr) : RoundTrip.Statement (.stB64 w) := roundTrip_of rfl (instr_at (w.dev 0x9A) 0x9A rfl rfl) rfl

/-- ST_B128. -/
theorem RoundTrip.stB128 (w : Rrr) : RoundTrip.Statement (.stB128 w) := roundTrip_of rfl (instr_at (w.dev 0x9B) 0x9B rfl rfl) rfl

/-- LDT. -/
theorem RoundTrip.ldt (w : Rrr) : RoundTrip.Statement (.ldt w) := roundTrip_of rfl (instr_at (w.dev 0x9C) 0x9C rfl rfl) rfl

/-- STT. -/
theorem RoundTrip.stt (w : Rrr) : RoundTrip.Statement (.stt w) := roundTrip_of rfl (instr_at (w.dev 0x9D) 0x9D rfl rfl) rfl

/-- ATOM. -/
theorem RoundTrip.atom (w : Rrr) : RoundTrip.Statement (.atom w) := roundTrip_of rfl (instr_at (w.dev 0x9E) 0x9E rfl rfl) rfl

/-- ATOM64. -/
theorem RoundTrip.atom64 (w : Rrr) : RoundTrip.Statement (.atom64 w) := roundTrip_of rfl (instr_at (w.dev 0x9F) 0x9F rfl rfl) rfl

/-- ACAS. -/
theorem RoundTrip.acas (w : Rrr) : RoundTrip.Statement (.acas w) := roundTrip_of rfl (instr_at (w.dev 0xA0) 0xA0 rfl rfl) rfl

/-- ACAS64. -/
theorem RoundTrip.acas64 (w : Rrr) : RoundTrip.Statement (.acas64 w) := roundTrip_of rfl (instr_at (w.dev 0xA1) 0xA1 rfl rfl) rfl

/-- RED. -/
theorem RoundTrip.red (w : Rrr) : RoundTrip.Statement (.red w) := roundTrip_of rfl (instr_at (w.dev 0xA2) 0xA2 rfl rfl) rfl

/-- RED64. -/
theorem RoundTrip.red64 (w : Rrr) : RoundTrip.Statement (.red64 w) := roundTrip_of rfl (instr_at (w.dev 0xA3) 0xA3 rfl rfl) rfl

/-- AFADD. -/
theorem RoundTrip.afadd (w : Rrr) : RoundTrip.Statement (.afadd w) := roundTrip_of rfl (instr_at (w.dev 0xA4) 0xA4 rfl rfl) rfl

/-- PREF. -/
theorem RoundTrip.pref (w : Rrr) : RoundTrip.Statement (.pref w) := roundTrip_of rfl (instr_at (w.dev 0xA5) 0xA5 rfl rfl) rfl

/-- SYNC. -/
theorem RoundTrip.sync (w : Rrr) : RoundTrip.Statement (.sync w) := roundTrip_of rfl (instr_at (w.dev 0xA6) 0xA6 rfl rfl) rfl

/-- MWATCH. -/
theorem RoundTrip.mwatch (w : Rrr) : RoundTrip.Statement (.mwatch w) := roundTrip_of rfl (instr_at (w.dev 0xA7) 0xA7 rfl rfl) rfl

/-- MWAIT. -/
theorem RoundTrip.mwait (w : Rrr) : RoundTrip.Statement (.mwait w) := roundTrip_of rfl (instr_at (w.dev 0xA8) 0xA8 rfl rfl) rfl

/-- CWB. -/
theorem RoundTrip.cwb (w : Rrr) : RoundTrip.Statement (.cwb w) := roundTrip_of rfl (instr_at (w.dev 0xA9) 0xA9 rfl rfl) rfl

/-- CINV. -/
theorem RoundTrip.cinv (w : Rrr) : RoundTrip.Statement (.cinv w) := roundTrip_of rfl (instr_at (w.dev 0xAA) 0xAA rfl rfl) rfl

/-- BRA. -/
theorem RoundTrip.bra (w : Br) : RoundTrip.Statement (.bra w) := roundTrip_of rfl (instr_at (w.dev 0xB0) 0xB0 rfl (congrArg Instr.bra (br_dev w _))) rfl

/-- BRX. -/
theorem RoundTrip.brx (w : Br) : RoundTrip.Statement (.brx w) := roundTrip_of rfl (instr_at (w.dev 0xB1) 0xB1 rfl (congrArg Instr.brx (br_dev w _))) rfl

/-- BRI. -/
theorem RoundTrip.bri (w : Rrr) : RoundTrip.Statement (.bri w) := roundTrip_of rfl (instr_at (w.dev 0xB2) 0xB2 rfl rfl) rfl

/-- CALL. -/
theorem RoundTrip.call (w : Cf) : RoundTrip.Statement (.call w) := roundTrip_of rfl (instr_at (w.dev 0xB3) 0xB3 rfl (congrArg Instr.call (cf_dev w _))) rfl

/-- CALLI. -/
theorem RoundTrip.calli (w : Cf) : RoundTrip.Statement (.calli w) := roundTrip_of rfl (instr_at (w.dev 0xB4) 0xB4 rfl (congrArg Instr.calli (cf_dev w _))) rfl

/-- RET. -/
theorem RoundTrip.ret (w : Rrr) : RoundTrip.Statement (.ret w) := roundTrip_of rfl (instr_at (w.dev 0xB5) 0xB5 rfl rfl) rfl

/-- UNWIND. -/
theorem RoundTrip.unwind (w : Rrr) : RoundTrip.Statement (.unwind w) := roundTrip_of rfl (instr_at (w.dev 0xB6) 0xB6 rfl rfl) rfl

/-- FRSZ. -/
theorem RoundTrip.frsz (w : Rrr) : RoundTrip.Statement (.frsz w) := roundTrip_of rfl (instr_at (w.dev 0xB7) 0xB7 rfl rfl) rfl

/-- EXIT. -/
theorem RoundTrip.exit (w : Rrr) : RoundTrip.Statement (.exit w) := roundTrip_of rfl (instr_at (w.dev 0xB8) 0xB8 rfl rfl) rfl

/-- YIELD. -/
theorem RoundTrip.yield (w : Rrr) : RoundTrip.Statement (.yield w) := roundTrip_of rfl (instr_at (w.dev 0xB9) 0xB9 rfl rfl) rfl

/-- SLEEP. -/
theorem RoundTrip.sleep (w : Rrr) : RoundTrip.Statement (.sleep w) := roundTrip_of rfl (instr_at (w.dev 0xBA) 0xBA rfl rfl) rfl

/-- BARA. -/
theorem RoundTrip.bara (w : Rrr) : RoundTrip.Statement (.bara w) := roundTrip_of rfl (instr_at (w.dev 0xBC) 0xBC rfl rfl) rfl

/-- BARW. -/
theorem RoundTrip.barw (w : Rrr) : RoundTrip.Statement (.barw w) := roundTrip_of rfl (instr_at (w.dev 0xBD) 0xBD rfl rfl) rfl

/-- BAR. -/
theorem RoundTrip.bar (w : Rrr) : RoundTrip.Statement (.bar w) := roundTrip_of rfl (instr_at (w.dev 0xBE) 0xBE rfl rfl) rfl

/-- GSYNC. -/
theorem RoundTrip.gsync (w : Rrr) : RoundTrip.Statement (.gsync w) := roundTrip_of rfl (instr_at (w.dev 0xBF) 0xBF rfl rfl) rfl

/-- KDECL. -/
theorem RoundTrip.kdecl (w : Rrr) : RoundTrip.Statement (.kdecl w) := roundTrip_of rfl (instr_at (w.dev 0xC0) 0xC0 rfl rfl) rfl

/-- KSIGN. -/
theorem RoundTrip.ksign (w : Rrr) : RoundTrip.Statement (.ksign w) := roundTrip_of rfl (instr_at (w.dev 0xC1) 0xC1 rfl rfl) rfl

/-- KWAIT. -/
theorem RoundTrip.kwait (w : Rrr) : RoundTrip.Statement (.kwait w) := roundTrip_of rfl (instr_at (w.dev 0xC2) 0xC2 rfl rfl) rfl

/-- KRST. -/
theorem RoundTrip.krst (w : Rrr) : RoundTrip.Statement (.krst w) := roundTrip_of rfl (instr_at (w.dev 0xC3) 0xC3 rfl rfl) rfl

/-- MRES. -/
theorem RoundTrip.mres (w : Rrr) : RoundTrip.Statement (.mres w) := roundTrip_of rfl (instr_at (w.dev 0xC8) 0xC8 rfl rfl) rfl

/-- MREL. -/
theorem RoundTrip.mrel (w : Rrr) : RoundTrip.Statement (.mrel w) := roundTrip_of rfl (instr_at (w.dev 0xC9) 0xC9 rfl rfl) rfl

/-- MMA_MXF4. -/
theorem RoundTrip.mmaMxf4 (w : Rrr) : RoundTrip.Statement (.mmaMxf4 w) := roundTrip_of rfl (instr_at (w.dev 0xCA) 0xCA rfl rfl) rfl

/-- MMA_MXF8. -/
theorem RoundTrip.mmaMxf8 (w : Rrr) : RoundTrip.Statement (.mmaMxf8 w) := roundTrip_of rfl (instr_at (w.dev 0xCB) 0xCB rfl rfl) rfl

/-- MMA_FP8. -/
theorem RoundTrip.mmaFp8 (w : Rrr) : RoundTrip.Statement (.mmaFp8 w) := roundTrip_of rfl (instr_at (w.dev 0xCC) 0xCC rfl rfl) rfl

/-- MMA_I8. -/
theorem RoundTrip.mmaI8 (w : Rrr) : RoundTrip.Statement (.mmaI8 w) := roundTrip_of rfl (instr_at (w.dev 0xCD) 0xCD rfl rfl) rfl

/-- MMA_TS8I. -/
theorem RoundTrip.mmaTs8i (w : Rrr) : RoundTrip.Statement (.mmaTs8i w) := roundTrip_of rfl (instr_at (w.dev 0xCE) 0xCE rfl rfl) rfl

/-- MMA_TS8E. -/
theorem RoundTrip.mmaTs8e (w : Rrr) : RoundTrip.Statement (.mmaTs8e w) := roundTrip_of rfl (instr_at (w.dev 0xCF) 0xCF rfl rfl) rfl

/-- MMA_BF16. -/
theorem RoundTrip.mmaBf16 (w : Rrr) : RoundTrip.Statement (.mmaBf16 w) := roundTrip_of rfl (instr_at (w.dev 0xD0) 0xD0 rfl rfl) rfl

/-- MMA_F16. -/
theorem RoundTrip.mmaF16 (w : Rrr) : RoundTrip.Statement (.mmaF16 w) := roundTrip_of rfl (instr_at (w.dev 0xD1) 0xD1 rfl rfl) rfl

/-- AZERO. -/
theorem RoundTrip.azero (w : Rrr) : RoundTrip.Statement (.azero w) := roundTrip_of rfl (instr_at (w.dev 0xD2) 0xD2 rfl rfl) rfl

/-- ANORM. -/
theorem RoundTrip.anorm (w : Rrr) : RoundTrip.Statement (.anorm w) := roundTrip_of rfl (instr_at (w.dev 0xD3) 0xD3 rfl rfl) rfl

/-- ASCL. -/
theorem RoundTrip.ascl (w : Rrr) : RoundTrip.Statement (.ascl w) := roundTrip_of rfl (instr_at (w.dev 0xD4) 0xD4 rfl rfl) rfl

/-- AREAD. -/
theorem RoundTrip.aread (w : Rrr) : RoundTrip.Statement (.aread w) := roundTrip_of rfl (instr_at (w.dev 0xD5) 0xD5 rfl rfl) rfl

/-- AWRITE. -/
theorem RoundTrip.awrite (w : Rrr) : RoundTrip.Statement (.awrite w) := roundTrip_of rfl (instr_at (w.dev 0xD6) 0xD6 rfl rfl) rfl

/-- AEXP. -/
theorem RoundTrip.aexp (w : Rrr) : RoundTrip.Statement (.aexp w) := roundTrip_of rfl (instr_at (w.dev 0xD7) 0xD7 rfl rfl) rfl

/-- ASTR. -/
theorem RoundTrip.astr (w : Rrr) : RoundTrip.Statement (.astr w) := roundTrip_of rfl (instr_at (w.dev 0xD8) 0xD8 rfl rfl) rfl

/-- AMOV. -/
theorem RoundTrip.amov (w : Rrr) : RoundTrip.Statement (.amov w) := roundTrip_of rfl (instr_at (w.dev 0xD9) 0xD9 rfl rfl) rfl

/-- XCOPY. -/
theorem RoundTrip.xcopy (w : Rrr) : RoundTrip.Statement (.xcopy w) := roundTrip_of rfl (instr_at (w.dev 0xE0) 0xE0 rfl rfl) rfl

/-- XCOLL. -/
theorem RoundTrip.xcoll (w : Rrr) : RoundTrip.Statement (.xcoll w) := roundTrip_of rfl (instr_at (w.dev 0xE1) 0xE1 rfl rfl) rfl

/-- XQPOST. -/
theorem RoundTrip.xqpost (w : Rrr) : RoundTrip.Statement (.xqpost w) := roundTrip_of rfl (instr_at (w.dev 0xE2) 0xE2 rfl rfl) rfl

/-- HWAIT. -/
theorem RoundTrip.hwait (w : Rrr) : RoundTrip.Statement (.hwait w) := roundTrip_of rfl (instr_at (w.dev 0xE3) 0xE3 rfl rfl) rfl

/-- HTEST. -/
theorem RoundTrip.htest (w : Rrr) : RoundTrip.Statement (.htest w) := roundTrip_of rfl (instr_at (w.dev 0xE4) 0xE4 rfl rfl) rfl

/-- HSTAT. -/
theorem RoundTrip.hstat (w : Rrr) : RoundTrip.Statement (.hstat w) := roundTrip_of rfl (instr_at (w.dev 0xE5) 0xE5 rfl rfl) rfl

/-- HCAN. -/
theorem RoundTrip.hcan (w : Rrr) : RoundTrip.Statement (.hcan w) := roundTrip_of rfl (instr_at (w.dev 0xE6) 0xE6 rfl rfl) rfl

/-- HDET. -/
theorem RoundTrip.hdet (w : Rrr) : RoundTrip.Statement (.hdet w) := roundTrip_of rfl (instr_at (w.dev 0xE7) 0xE7 rfl rfl) rfl

/-- HPRI. -/
theorem RoundTrip.hpri (w : Rrr) : RoundTrip.Statement (.hpri w) := roundTrip_of rfl (instr_at (w.dev 0xE8) 0xE8 rfl rfl) rfl

/-- HADOPT. -/
theorem RoundTrip.hadopt (w : Rrr) : RoundTrip.Statement (.hadopt w) := roundTrip_of rfl (instr_at (w.dev 0xE9) 0xE9 rfl rfl) rfl

/-- TDEF. -/
theorem RoundTrip.tdef (w : Rrr) : RoundTrip.Statement (.tdef w) := roundTrip_of rfl (instr_at (w.dev 0xEA) 0xEA rfl rfl) rfl

/-- TSET. -/
theorem RoundTrip.tset (w : Rrr) : RoundTrip.Statement (.tset w) := roundTrip_of rfl (instr_at (w.dev 0xEB) 0xEB rfl rfl) rfl

/-- TQRY. -/
theorem RoundTrip.tqry (w : Rrr) : RoundTrip.Statement (.tqry w) := roundTrip_of rfl (instr_at (w.dev 0xEC) 0xEC rfl rfl) rfl

/-- LAUNCH. -/
theorem RoundTrip.launch (w : Rrr) : RoundTrip.Statement (.launch w) := roundTrip_of rfl (instr_at (w.dev 0xF0) 0xF0 rfl rfl) rfl

/-- DEPDEC. -/
theorem RoundTrip.depdec (w : Rrr) : RoundTrip.Statement (.depdec w) := roundTrip_of rfl (instr_at (w.dev 0xF1) 0xF1 rfl rfl) rfl

/-- SLYLD. -/
theorem RoundTrip.slyld (w : Rrr) : RoundTrip.Statement (.slyld w) := roundTrip_of rfl (instr_at (w.dev 0xF2) 0xF2 rfl rfl) rfl

/-- BUDGT. -/
theorem RoundTrip.budgt (w : Rrr) : RoundTrip.Statement (.budgt w) := roundTrip_of rfl (instr_at (w.dev 0xF3) 0xF3 rfl rfl) rfl

/-- PTRAP. -/
theorem RoundTrip.ptrap (w : Rrr) : RoundTrip.Statement (.ptrap w) := roundTrip_of rfl (instr_at (w.dev 0xF4) 0xF4 rfl rfl) rfl

/-- PSTAT. -/
theorem RoundTrip.pstat (w : Rrr) : RoundTrip.Statement (.pstat w) := roundTrip_of rfl (instr_at (w.dev 0xF5) 0xF5 rfl rfl) rfl

/-- TRAP. -/
theorem RoundTrip.trap (w : Ri) : RoundTrip.Statement (.trap w) := roundTrip_of rfl (instr_at (w.dev 0xF6) 0xF6 rfl (congrArg Instr.trap (ri_dev w _))) rfl

/-- RTE. -/
theorem RoundTrip.rte (w : Rrr) : RoundTrip.Statement (.rte w) := roundTrip_of rfl (instr_at (w.dev 0xF7) 0xF7 rfl rfl) rfl

/-- GTR. -/
theorem RoundTrip.gtr (w : Rrr) : RoundTrip.Statement (.gtr w) := roundTrip_of rfl (instr_at (w.dev 0xF8) 0xF8 rfl rfl) rfl

/-- BKPT. -/
theorem RoundTrip.bkpt (w : Rrr) : RoundTrip.Statement (.bkpt w) := roundTrip_of rfl (instr_at (w.dev 0xF9) 0xF9 rfl rfl) rfl

/-- SYSC. -/
theorem RoundTrip.sysc (w : Ri) : RoundTrip.Statement (.sysc w) := roundTrip_of rfl (instr_at (w.dev 0xFA) 0xFA rfl (congrArg Instr.sysc (ri_dev w _))) rfl

/-- UNASSIGNED_OPCODE. -/
theorem RoundTrip.unassignedOpcode (op : BitVec 8) (w : Rrr) : RoundTrip.Statement (.unassignedOpcode op w) := by
  intro h
  refine roundTrip_of rfl ?_ rfl h
  simp only [Instr.wf, Bool.and_eq_true] at h
  exact un_instr (w.dev op) h.1

/-- ILLEGAL_INSTRUCTION_EXCEPTION. -/
theorem RoundTrip.illegalInstructionException (w : Word) : RoundTrip.Statement (.illegalInstructionException w) :=
  fun h => ⟨fun x hx => by simp [encode, Instr.dev] at hx, fun x hx => by
    have e : w = x := Option.some.inj hx
    subst e
    simp only [Instr.wf, hartAssigned, Bool.and_eq_true, Bool.not_eq_true', Bool.or_eq_false_iff, Bool.and_eq_false_imp, beq_iff_eq,
      beq_eq_false_iff_ne] at h
    obtain ⟨h0, ⟨⟨h1, h2⟩, h3⟩, h4⟩ := h
    simp only [decodeHart, h0]
    rw [if_neg (by omega), if_neg (fun c => h1 c.1 c.2), if_neg (fun c => h2 c.1 c.2), if_neg (fun c => h3 ⟨c.1, c.2.1⟩ c.2.2), if_neg h4]⟩

/-- EDISP. -/
theorem RoundTrip.edisp (rd rs1 rs2 : BitVec 5) : RoundTrip.Statement (.edisp rd rs1 rs2) :=
  fun _ => ⟨fun x hx => by simp [encode, Instr.dev] at hx, fun w hw => by
    have e : (0#7 ++ rs2 ++ rs1 ++ 0#3 ++ rd ++ 0x0B#7 : Word) = w := Option.some.inj hw
    have n := hartWord_toNat rs2 rs1 rd 0#3
    have c0 : (0#3 : BitVec 3).toNat = 0 := rfl
    have c1 : (1#3 : BitVec 3).toNat = 1 := rfl
    have c2 : (2#3 : BitVec 3).toNat = 2 := rfl
    have c5 : (0#5 : BitVec 5).toNat = 0 := rfl
    rw [e] at n
    have h1 := (rs2 : BitVec 5).isLt
    have h2 := (rs1 : BitVec 5).isLt
    have h3 := (rd : BitVec 5).isLt
    have f1 : w.extractLsb' 7 5 = rd := field5 w 7 _ (by rw [n]; omega)
    have f2 : w.extractLsb' 15 5 = rs1 := field5 w 15 _ (by rw [n]; omega)
    have f3 : w.extractLsb' 20 5 = rs2 := field5 w 20 _ (by rw [n]; omega)
    simp only [decodeHart, bits, n, f1, f2, f3, c0, c1, c2, c5]
    rw [if_neg (by omega), if_pos (by omega)]⟩

/-- EJOIN. -/
theorem RoundTrip.ejoin (rd rs1 : BitVec 5) : RoundTrip.Statement (.ejoin rd rs1) :=
  fun _ => ⟨fun x hx => by simp [encode, Instr.dev] at hx, fun w hw => by
    have e : (0#7 ++ 0#5 ++ rs1 ++ 1#3 ++ rd ++ 0x0B#7 : Word) = w := Option.some.inj hw
    have n := hartWord_toNat 0#5 rs1 rd 1#3
    have c0 : (0#3 : BitVec 3).toNat = 0 := rfl
    have c1 : (1#3 : BitVec 3).toNat = 1 := rfl
    have c2 : (2#3 : BitVec 3).toNat = 2 := rfl
    have c5 : (0#5 : BitVec 5).toNat = 0 := rfl
    rw [e] at n
    have h1 := (0#5 : BitVec 5).isLt
    have h2 := (rs1 : BitVec 5).isLt
    have h3 := (rd : BitVec 5).isLt
    have f1 : w.extractLsb' 7 5 = rd := field5 w 7 _ (by rw [n]; omega)
    have f2 : w.extractLsb' 15 5 = rs1 := field5 w 15 _ (by rw [n]; omega)
    have f3 : w.extractLsb' 20 5 = 0#5 := field5 w 20 _ (by rw [n]; omega)
    simp only [decodeHart, bits, n, f1, f2, f3, c0, c1, c2, c5]
    rw [if_neg (by omega), if_neg (by omega), if_pos (by omega)]⟩

/-- EGINV. -/
theorem RoundTrip.eginv (rs1 rs2 : BitVec 5) : RoundTrip.Statement (.eginv rs1 rs2) :=
  fun _ => ⟨fun x hx => by simp [encode, Instr.dev] at hx, fun w hw => by
    have e : (0#7 ++ rs2 ++ rs1 ++ 2#3 ++ 0#5 ++ 0x0B#7 : Word) = w := Option.some.inj hw
    have n := hartWord_toNat rs2 rs1 0#5 2#3
    have c0 : (0#3 : BitVec 3).toNat = 0 := rfl
    have c1 : (1#3 : BitVec 3).toNat = 1 := rfl
    have c2 : (2#3 : BitVec 3).toNat = 2 := rfl
    have c5 : (0#5 : BitVec 5).toNat = 0 := rfl
    rw [e] at n
    have h1 := (rs2 : BitVec 5).isLt
    have h2 := (rs1 : BitVec 5).isLt
    have h3 := (0#5 : BitVec 5).isLt
    have f1 : w.extractLsb' 7 5 = 0#5 := field5 w 7 _ (by rw [n]; omega)
    have f2 : w.extractLsb' 15 5 = rs1 := field5 w 15 _ (by rw [n]; omega)
    have f3 : w.extractLsb' 20 5 = rs2 := field5 w 20 _ (by rw [n]; omega)
    simp only [decodeHart, bits, n, f1, f2, f3, c0, c1, c2, c5]
    rw [if_neg (by omega), if_neg (by omega), if_neg (by omega), if_pos (by omega)]⟩

/-- EGINVW. -/
theorem RoundTrip.eginvw : RoundTrip.Statement .eginvw := fun _ => ⟨fun x hx => by simp [encode, Instr.dev] at hx, fun w hw => by
  have e : 0x0000300B#32 = w := Option.some.inj hw
  subst e
  decide⟩

/-- LOAD_DATA_RETURN. -/
theorem RoundTrip.loadDataReturn (load : Nat) (ecc : Ecc) : RoundTrip.Statement (.loadDataReturn load ecc) := roundTrip_none rfl rfl

/-- STORE_MERGE. -/
theorem RoundTrip.storeMerge (store : Nat) (ecc : Ecc) : RoundTrip.Statement (.storeMerge store ecc) := roundTrip_none rfl rfl

/-- MMA_START. -/
theorem RoundTrip.mmaStart (core engine : Nat) : RoundTrip.Statement (.mmaStart core engine) := roundTrip_none rfl rfl

/-- MMA_ROW. -/
theorem RoundTrip.mmaRow (core engine : Nat) : RoundTrip.Statement (.mmaRow core engine) := roundTrip_none rfl rfl

/-- COPY_START. -/
theorem RoundTrip.copyStart (gleaner : Gleaner) : RoundTrip.Statement (.copyStart gleaner) := roundTrip_none rfl rfl

/-- COPY_CHUNK. -/
theorem RoundTrip.copyChunk (op : Nat) : RoundTrip.Statement (.copyChunk op) := roundTrip_none rfl rfl

/-- TEAM_ADMIT. -/
theorem RoundTrip.teamAdmit (core : Nat) : RoundTrip.Statement (.teamAdmit core) := roundTrip_none rfl rfl

/-- FRAME_GRANT. -/
theorem RoundTrip.frameGrant (core part : Nat) : RoundTrip.Statement (.frameGrant core part) := roundTrip_none rfl rfl

/-- GROUP_PROMOTE. -/
theorem RoundTrip.groupPromote (core part : Nat) : RoundTrip.Statement (.groupPromote core part) := roundTrip_none rfl rfl

/-- QUEUE_TAKE. -/
theorem RoundTrip.queueTake (queue : Nat) : RoundTrip.Statement (.queueTake queue) := roundTrip_none rfl rfl

/-- STILE_LAUNCH. -/
theorem RoundTrip.stileLaunch (line : Nat) : RoundTrip.Statement (.stileLaunch line) := roundTrip_none rfl rfl

/-- MRES_GRANT. -/
theorem RoundTrip.mresGrant (core : Nat) : RoundTrip.Statement (.mresGrant core) := roundTrip_none rfl rfl

/-- MREL_RELEASE. -/
theorem RoundTrip.mrelRelease (team : Nat) : RoundTrip.Statement (.mrelRelease team) := roundTrip_none rfl rfl

/-- WALK_RETURN. -/
theorem RoundTrip.walkReturn (die walk : Nat) : RoundTrip.Statement (.walkReturn die walk) := roundTrip_none rfl rfl

/-- ASYNC_TRAP_TAKE. -/
theorem RoundTrip.asyncTrapTake (team : Nat) : RoundTrip.Statement (.asyncTrapTake team) := roundTrip_none rfl rfl

/-- CREATE. -/
theorem RoundTrip.create (c : Cmd) : RoundTrip.Statement (.create c) := roundTrip_none rfl rfl

/-- DESTROY. -/
theorem RoundTrip.destroy (c : Cmd) : RoundTrip.Statement (.destroy c) := roundTrip_none rfl rfl

/-- PREEMPT. -/
theorem RoundTrip.preempt (c : Cmd) : RoundTrip.Statement (.preempt c) := roundTrip_none rfl rfl

/-- RESTORE. -/
theorem RoundTrip.restore (c : Cmd) : RoundTrip.Statement (.restore c) := roundTrip_none rfl rfl

/-- STILE. -/
theorem RoundTrip.stile (c : Cmd) : RoundTrip.Statement (.stile c) := roundTrip_none rfl rfl

/-- QUEUE. -/
theorem RoundTrip.queue (c : Cmd) : RoundTrip.Statement (.queue c) := roundTrip_none rfl rfl

/-- PWIN. -/
theorem RoundTrip.pwin (c : Cmd) : RoundTrip.Statement (.pwin c) := roundTrip_none rfl rfl

/-- PGRANT. -/
theorem RoundTrip.pgrant (c : Cmd) : RoundTrip.Statement (.pgrant c) := roundTrip_none rfl rfl

/-- ROUTE. -/
theorem RoundTrip.route (c : Cmd) : RoundTrip.Statement (.route c) := roundTrip_none rfl rfl

/-- POOL. -/
theorem RoundTrip.pool (c : Cmd) : RoundTrip.Statement (.pool c) := roundTrip_none rfl rfl

/-- SVCRING. -/
theorem RoundTrip.svcring (c : Cmd) : RoundTrip.Statement (.svcring c) := roundTrip_none rfl rfl

/-- ATTEST. -/
theorem RoundTrip.attest (c : Cmd) : RoundTrip.Statement (.attest c) := roundTrip_none rfl rfl

/-- CERT. -/
theorem RoundTrip.cert (c : Cmd) : RoundTrip.Statement (.cert c) := roundTrip_none rfl rfl

/-- ERRSTAT. -/
theorem RoundTrip.errstat (c : Cmd) : RoundTrip.Statement (.errstat c) := roundTrip_none rfl rfl

/-- DUMPCLR. -/
theorem RoundTrip.dumpclr (c : Cmd) : RoundTrip.Statement (.dumpclr c) := roundTrip_none rfl rfl

/-- RESET. -/
theorem RoundTrip.reset (c : Cmd) : RoundTrip.Statement (.reset c) := roundTrip_none rfl rfl

/-- REGISTER_WRITE. -/
theorem RoundTrip.registerWrite (hart : Nat) (csr : Csr) (op : CsrOp) (v : CsrArg) : RoundTrip.Statement (.registerWrite hart csr op v) := roundTrip_none rfl rfl

/-- CLUSTER_PLACE_TIMEOUT. -/
theorem RoundTrip.clusterPlaceTimeout (slice : Word) (core : Nat) : RoundTrip.Statement (.clusterPlaceTimeout slice core) := roundTrip_none rfl rfl

/-- TEDDER_WAIT_TIMEOUT. -/
theorem RoundTrip.tedderWaitTimeout (core part lane : Nat) : RoundTrip.Statement (.tedderWaitTimeout core part lane) := roundTrip_none rfl rfl

/-- XCOLL_ACK. -/
theorem RoundTrip.xcollAck (op chunks : Nat) (fail : Option (Nat × Nat)) : RoundTrip.Statement (.xcollAck op chunks fail) := roundTrip_none rfl rfl

/-- UALINK_INBOUND_WRITE. -/
theorem RoundTrip.ualinkInboundWrite (w : PeerWrite) : RoundTrip.Statement (.ualinkInboundWrite w) := roundTrip_none rfl rfl

/-- PCIE_INBOUND_WRITE. -/
theorem RoundTrip.pcieInboundWrite (die : Nat) (bar0 : Nat) (data : List Byte) (noSnoop : Bool) : RoundTrip.Statement (.pcieInboundWrite die bar0 data noSnoop) := roundTrip_none rfl rfl

/-- PCIE_INBOUND_READ. -/
theorem RoundTrip.pcieInboundRead (die bar off len : Nat) (noSnoop : Bool) : RoundTrip.Statement (.pcieInboundRead die bar off len noSnoop) := roundTrip_none rfl rfl

/-- MWAIT_BOUND_EXPIRY. -/
theorem RoundTrip.mwaitBoundExpiry (team tidx : Nat) : RoundTrip.Statement (.mwaitBoundExpiry team tidx) := roundTrip_none rfl rfl

/-- SLEEP_EXPIRY. -/
theorem RoundTrip.sleepExpiry (team gidx : Nat) : RoundTrip.Statement (.sleepExpiry team gidx) := roundTrip_none rfl rfl

/-- INVALIDATION_RECEIVE. -/
theorem RoundTrip.invalidationReceive (who : Participant) (inv : Nat) : RoundTrip.Statement (.invalidationReceive who inv) := roundTrip_none rfl rfl

/-- INVALIDATION_ACK. -/
theorem RoundTrip.invalidationAck (who : Participant) (inv : Nat) : RoundTrip.Statement (.invalidationAck who inv) := roundTrip_none rfl rfl

/-- SYSC_REPLY. -/
theorem RoundTrip.syscReply (column : Nat) : RoundTrip.Statement (.syscReply column) := roundTrip_none rfl rfl

/-- SYSVIEW_LOAD_COMPLETION. -/
theorem RoundTrip.sysviewLoadCompletion (load : Nat) (data : Option (List Byte)) : RoundTrip.Statement (.sysviewLoadCompletion load data) := roundTrip_none rfl rfl

/-- SYSVIEW_LOAD_TIMEOUT. -/
theorem RoundTrip.sysviewLoadTimeout (load : Nat) : RoundTrip.Statement (.sysviewLoadTimeout load) := roundTrip_none rfl rfl

/-- PCIE_STORE_REFUSED. -/
theorem RoundTrip.pcieStoreRefused (store : Nat) : RoundTrip.Statement (.pcieStoreRefused store) := roundTrip_none rfl rfl

/-- DEADLOCK_TIMEOUT. -/
theorem RoundTrip.deadlockTimeout (team : Nat) : RoundTrip.Statement (.deadlockTimeout team) := roundTrip_none rfl rfl

/-- GRANT_LEVEL_STEP. -/
theorem RoundTrip.grantLevelStep (column : Nat) : RoundTrip.Statement (.grantLevelStep column) := roundTrip_none rfl rfl

/-- SENSOR_SAMPLE. -/
theorem RoundTrip.sensorSample (reading : Reading) : RoundTrip.Statement (.sensorSample reading) := roundTrip_none rfl rfl

/-- SUPPLY_FAULT_TIMEOUT. -/
theorem RoundTrip.supplyFaultTimeout (die rail : Nat) : RoundTrip.Statement (.supplyFaultTimeout die rail) := roundTrip_none rfl rfl

/-- WATCHDOG_EXPIRY. -/
theorem RoundTrip.watchdogExpiry (die unit : Nat) : RoundTrip.Statement (.watchdogExpiry die unit) := roundTrip_none rfl rfl

/-- HBM_SCRUB. -/
theorem RoundTrip.hbmScrub (block : Nat) (ecc : Ecc) : RoundTrip.Statement (.hbmScrub block ecc) := roundTrip_none rfl rfl

/-- LINK_REPLAY. -/
theorem RoundTrip.linkReplay (r : Replay) : RoundTrip.Statement (.linkReplay r) := roundTrip_none rfl rfl

/-- LINK_RETRAIN_EXPIRY. -/
theorem RoundTrip.linkRetrainExpiry (link : Link) (up : Bool) : RoundTrip.Statement (.linkRetrainExpiry link up) := roundTrip_none rfl rfl

/-- PCIE_LINK_DOWN. -/
theorem RoundTrip.pcieLinkDown (die : Nat) : RoundTrip.Statement (.pcieLinkDown die) := roundTrip_none rfl rfl

/-- DRAIN_TIMEOUT. -/
theorem RoundTrip.drainTimeout (ctx : Nat) : RoundTrip.Statement (.drainTimeout ctx) := roundTrip_none rfl rfl

/-- SWAP_TIMEOUT. -/
theorem RoundTrip.swapTimeout (ctx : Nat) : RoundTrip.Statement (.swapTimeout ctx) := roundTrip_none rfl rfl

/-- TEAM_SWAP_OUT. -/
theorem RoundTrip.teamSwapOut (team : Nat) : RoundTrip.Statement (.teamSwapOut team) := roundTrip_none rfl rfl

/-- TEAM_SWAP_IN. -/
theorem RoundTrip.teamSwapIn (team core : Nat) : RoundTrip.Statement (.teamSwapIn team core) := roundTrip_none rfl rfl

/-- COLUMN_CLASS_MOVE. -/
theorem RoundTrip.columnClassMove (column cls : Nat) : RoundTrip.Statement (.columnClassMove column cls) := roundTrip_none rfl rfl

/-- HOT_RESET. -/
theorem RoundTrip.hotReset : RoundTrip.Statement .hotReset := roundTrip_none rfl rfl

/-- POWER_ON_RESET. -/
theorem RoundTrip.powerOnReset (result : PowerOn) : RoundTrip.Statement (.powerOnReset result) := roundTrip_none rfl rfl

/-- BASE_CORE_ACCESS. -/
theorem RoundTrip.baseCoreAccess (a : HartAccess) : RoundTrip.Statement (.baseCoreAccess a) := roundTrip_none rfl rfl

/-- UALINK_INBOUND_READ. -/
theorem RoundTrip.ualinkInboundRead (die port peer win off len : Nat) : RoundTrip.Statement (.ualinkInboundRead die port peer win off len) := roundTrip_none rfl rfl

/-- WRITE_BACK_COMPLETE. -/
theorem RoundTrip.writeBackComplete (id : Nat) : RoundTrip.Statement (.writeBackComplete id) := roundTrip_none rfl rfl

/-- SYSVIEW_STORE_ACCEPTED. -/
theorem RoundTrip.sysviewStoreAccepted (store : Nat) : RoundTrip.Statement (.sysviewStoreAccepted store) := roundTrip_none rfl rfl

/-- CLOCK_CHANGE_DONE. -/
theorem RoundTrip.clockChangeDone (column : Nat) : RoundTrip.Statement (.clockChangeDone column) := roundTrip_none rfl rfl

/-- POWER_LOSS. -/
theorem RoundTrip.powerLoss : RoundTrip.Statement .powerLoss := roundTrip_none rfl rfl

end Sys2Proof.Laws
end

