-- ==== Sys2Proof/Laws/Units.lean ====
section
/-! SUPPORT. The operations of each unit (accesses, frames, operations, launches, contexts, base cores, the device) and memory's canonical form. -/

namespace Sys2Proof.Machine

/-! ### Accesses and frames of an issue -/

/-- What follows a list of traps keeps memory canonical when it does without one. -/
theorem Iss.trapIf_good {s : State} {c : Nat} {hits : List Hit} {k : Unit → Done} (h : s.Good) (hk : (k ()).Good) : (Iss.trapIf s c hits k).Good := by
  unfold Iss.trapIf; split
  · exact hk
  · exact h

section Issue

variable {s : State} (h : s.Good)
include h

/-- The A and D bits that some accesses set. -/
theorem setAll_good (acc : List Access) (w : Bool) : (acc.foldl (fun s x => s.setAD x.tgt w) s).Good :=
  foldl_good (fun _ x hs => State.setAD_good hs x.tgt w) _ h

/-- What follows the walks of an issue keeps memory canonical when it does without one. -/
theorem Iss.walked_good (i : Iss) (tr : Option Trap) (eas : List (Agent × Addr)) {go : State → Done} (hg : ∀ s, s.Good → (go s).Good) :
    (i.walked s tr eas go).Good := by
  unfold Iss.walked; extract_lets early; split
  · exact foldl_good (fun s x hs => hs.of_mem (State.askWalk_mem _ _ _ _)) _ h
  · split
    · exact h.of_mem (State.takeWalks_mem _ _ _)
    · exact hg _ h

theorem Iss.access_good (i : Iss) (n : Nat) (k : AccKind) (sub : Nat) (ea : Thread → Addr) {go : State → List Access → Done}
    (hg : ∀ s acc, s.Good → (go s acc).Good) : (i.access s n k sub ea go).Good := by
  unfold Iss.access; extract_lets checks
  refine Iss.walked_good h i _ _ fun s hs => ?_
  extract_lets acc s1; split
  · exact hs
  · exact hg _ _ (State.Good.of_mem (setAll_good hs _ _) (State.countHome_mem _ _ _ _))

theorem Iss.hear_mem (i : Iss) (s : State) (ts : List Nat) (p : Nat) : (i.hear s ts p).mem = s.mem := rfl
theorem Iss.read_good (i : Iss) (n : Nat) (sign : Bool) (a : Access) (low : Nat) : (i.read s n sign a low).1.Good := by
  unfold Iss.read; split
  · exact h
  · exact h.of_mem rfl
theorem Iss.readAll_good (i : Iss) (n : Nat) (sign : Bool) (acc : List Access) : (i.readAll s n sign acc).1.Good :=
  foldl_pair (P := State.Good) (f := fun (p : State × List Due × Nat) a => let r := i.read p.1 n sign a p.2.2; (r.1, p.2.1 ++ [r.2.1], r.2.2))
    (fun p a hp => Iss.read_good hp i n sign a p.2.2) acc (p := (s.fenced, [], 0)) (h.of_mem s.fenced_mem)
theorem Iss.standsNow_good (i : Iss) (a : Access) : (i.standsNow s a).Good := by
  unfold Iss.standsNow; extract_lets ts; split
  · exact h
  · exact State.Good.of_mem (s := (a.tgt.loc :: a.tgt.reps).foldl (fun s l => s.see (i.keys ts) (l / 16) (s.tick + 1)) s)
      (foldl_good (fun _ _ hs => hs.of_mem (State.see_mem _ _ _ _)) _ h) rfl

theorem Iss.inTile_good (i : Iss) (n : Nat) {go : (Thread → Addr) → Done} (hg : ∀ ea, (go ea).Good) : (i.inTile s n go).Good := by
  unfold Iss.inTile; dsimp only
  repeat' split
  all_goals first | exact h | exact hg _

/-- Some locations seen by some agents. -/
theorem seen_good (keys ls : List Nat) (top : Nat) : (ls.foldl (fun s l => s.see keys (l / 16) top) s).Good :=
  foldl_good (fun s l hs => hs.of_mem (s.see_mem keys (l / 16) top)) ls h

theorem Iss.storeOne_good (i : Iss) (issue : Nat) (ws : List (Nat × Nat)) (low : Nat) (a : Access) (bs : List Byte) :
    (i.storeOne issue ws s low a bs).1.Good := by
  unfold Iss.storeOne; extract_lets n ts rec0 s1 blocks bad s2 locs r s3
  have h2 : s2.Good := h.of_mem rfl
  have hr : r.1.Good := by
    dsimp only [r]; split
    · exact h2.of_mem (State.placeFor_mem _ _ _)
    · exact h2
  clear_value r
  have h3 : s3.Good := seen_good (State.putAt_good hr r.2 a.tgt.reps bs) _ _ _
  split
  · exact h.of_mem rfl
  · split
    · exact h2
    · exact h3.of_mem rfl

theorem Iss.storeAll_good (i : Iss) (acc : List Access) (data : Thread → List Byte) : (i.storeAll s acc data).Good := by
  unfold Iss.storeAll
  exact foldl_pair (P := State.Good) (fun x a hs => Iss.storeOne_good hs i _ _ x.2 a _) acc (h.of_mem s.fenced_mem)

theorem State.atomStep_good (t : Target) (n : Nat) (fails : Bool) (new : Nat → Option Nat) : (s.atomStep t n fails new).1.Good := by
  unfold State.atomStep; extract_lets old; split
  · exact h
  · split
    · exact State.put_good h _ _
    · exact h

theorem State.failMerge_good (x : Store) : (s.failMerge x).Good := by
  refine foldl_good (fun s k hs => ?_) _ h
  split
  · exact hs.of_mem rfl
  · exact State.post_good hs _ _ _

theorem Iss.withFrames_good (i : Iss) (use : FrameUse) (who : List (Nat × Nat)) (need : List (Nat × Nat × Nat)) {go : State → Done}
    (fr : List (Nat × Nat × Nat)) (hg : ∀ s, s.Good → (go s).Good) : (i.withFrames s use who need go fr).Good := by
  unfold Iss.withFrames; dsimp only
  repeat' split
  all_goals first
    | exact h
    | exact hg _ h
    | exact hg _ (h.of_mem (State.dropReq_mem _ _ _))
    | exact h.of_mem (State.askFrames_mem _ _ _ _ _ _ _ _ _)

omit h in
theorem State.tedderLoop_good (core part lane : Nat) : ∀ n : Nat, ∀ {s : State}, s.Good → (s.tedderLoop core part lane n).Good
  | 0, _, h => h
  | n + 1, s, h => by
    unfold State.tedderLoop; split
    · exact h
    · extract_lets k; split
      · exact h
      · split
        · exact h
        · extract_lets use size lacks ctx share; split
          · refine State.tedderLoop_good core part lane n ?_
            exact h.of_mem (State.spillFrame_mem _ _ _ _ _ _)
          · split
            · refine State.tedderLoop_good core part lane n ?_
              exact h.of_mem (State.spillFrame_mem _ _ _ _ _ _)
            · split
              · split
                · exact State.endGroup_good h _ _
                · exact State.kill_good (State.post_good h _ _ _) _ _
              · exact h

theorem State.tedder_good (core part lane : Nat) : (s.tedder core part lane).Good := by
  unfold State.tedder; split
  · exact h
  · extract_lets long ths all; split
    · exact State.tedderLoop_good _ _ _ _ h
    · exact h

theorem Iss.bringBack_good (i : Iss) : (i.bringBack s).Good := by
  unfold Iss.bringBack; extract_lets u g away need; split
  · exact h
  · split
    · exact h.of_mem (State.refill_mem _ _ _ _ _)
    · exact h.of_mem (State.askFrames_mem _ _ _ _ _ _ _ _ _)

theorem Iss.unwindTo_good (i : Iss) (d : Thread → Nat) : (i.unwindTo s d).Good := by
  unfold Iss.unwindTo; extract_lets s1
  have h1 : s1.Good := h.of_mem rfl
  exact Iss.bringBack_good (s := s1.updGroup _ _ _) h1 i

theorem Iss.useTiles_good (i : Iss) (ts who : List Nat) {go : State → List Nat → Done} (hg : ∀ s ps, s.Good → (go s ps).Good) :
    (i.useTiles s ts who go).Good := by
  unfold Iss.useTiles; split
  · exact h
  · split
    · exact h
    · split
      · exact h
      · extract_lets me ps core s1
        have h1 : s1.Good := by
          refine foldl_good (fun s p hs => ?_) _ h
          split
          · exact hs
          · exact hs.of_mem rfl
        clear_value s1; split
        · refine hg _ _ (foldl_good (fun s p hs => ?_) _ h1)
          exact hs.of_mem rfl
        · exact h1

theorem Iss.wornTile_good (i : Iss) : (i.wornTile s).Good := by
  unfold Iss.wornTile; split
  · exact State.endGroup_good h _ _
  · exact State.kill_good (State.post_good h _ _ _) _ _

theorem Iss.useTile_good (i : Iss) (who : List Nat) {go : State → Nat → Done} (hg : ∀ s p, s.Good → (go s p).Good) : (i.useTile s who go).Good :=
  Iss.useTiles_good h i _ _ fun s ps hs => by
    extract_lets p; split
    · exact Iss.wornTile_good hs i
    · exact hg _ _ hs

theorem Iss.handles_good (i : Iss) {k : Unit → Done} (hk : (k ()).Good) : (i.handles s k).Good := by
  unfold Iss.handles; extract_lets bad given; split
  · exact hk
  · exact h

theorem Iss.withTile_good (i : Iss) (k : Nat) {go : Thread → Tile → Done} (hg : ∀ l e, (go l e).Good) : (i.withTile s k go).Good := by
  unfold Iss.withTile; split
  · exact h
  · split
    · exact h
    · exact hg _ _

end Issue

/-! ### Operations -/

/-- What an operation's reads leave has canonical memory. -/
def Gathered.Good : Gathered → Prop
  | .miss _ => True
  | .pending s | .got s _ => s.Good

/-- What a chunk leaves has canonical memory. -/
def Chunk.Good : Chunk → Prop
  | .miss _ => True
  | .pending s | .made s _ => s.Good

section Operations

variable {s : State} (h : s.Good)
include h

omit h in
@[simp] theorem State.opRead_mem (s : State) (o : Op) (l n : Nat) : (s.opRead o l n).1.mem = s.mem := by
  unfold State.opRead; repeat' (first | rfl | exact State.seeAll_mem _ _ _ _ | split)

theorem State.gather_good (o : Op) (a : Agent) (xs : List Span) (more : List OpMiss) (k : Nat) : (s.gather o a xs more k).Good := by
  unfold State.gather; extract_lets seen tg tg2 lacks r; split
  · trivial
  · split
    · exact foldl_good (fun s x hs => hs.of_mem (State.askFor_mem _ _ _ _ _)) _ (h.of_mem (State.keepAll_mem _ _))
    · refine foldl_pair (P := State.Good) (fun p x hp => ?_) _ (foldl_good (fun s x hs => State.setAD_good hs _ _) _ h)
      split
      · exact hp
      · exact hp.of_mem (State.opRead_mem _ _ _ _)

theorem State.hostData_good (l : Load) (r : Reader) (d : Option (List Byte)) : (s.hostData l r d).Good := by
  unfold State.hostData; extract_lets s1
  have h1 : s1.Good := h.of_mem rfl
  clear_value s1; split
  · exact h1.of_mem rfl
  · split
    · exact State.failOp_good h1 _ _ _ _
    · exact h1
  all_goals exact h1.of_mem rfl

theorem State.hostAnswer_good (l : Load) (d : Option (List Byte)) : (s.hostAnswer l d).Good := by
  unfold State.hostAnswer; split
  · exact State.hostData_good h _ _ _
  all_goals exact h.of_mem (State.returnLoad_mem _ _ _ _ _)

theorem State.gleanerPut_good (ls : List Nat) (bs : List Byte) : (s.gleanerPut ls bs).Good :=
  (State.put_good h ls bs).of_mem (State.seeAll_mem _ _ _ _)

theorem State.opStore_good (o : Op) (t : Target) (ea : Addr) (bs : List Byte) : (s.opStore o t ea bs).Good := by
  unfold State.opStore; split
  · exact h.of_mem rfl
  · exact State.gleanerPut_good h _ _

theorem State.completeCopy_good (o : Op) (p : CopyPk) : (s.completeCopy o p).Good := by
  unfold State.completeCopy; extract_lets tile cw broken s1 q; split
  · exact State.failOp_good h _ _ _ _
  · have key : ∀ c : Option Target, (match c with | some t => s.opStore o t p.caddr (toLe 4 p.cval) | none => s).Good := by
      intro c; cases c
      · exact h
      · exact State.opStore_good h _ _ _ _
    have h1 : s1.Good := key _
    clear_value s1; split
    · exact State.failOp_good h _ _ _ _
    · split
      · exact State.endOp_good (s := s1.updTile _ _ _) (h1.of_mem rfl) _ _ _ _ _
      · exact State.endOp_good (State.decCounter_good h1 _ _ _) _ _ _ _ _
      · exact State.failOp_good h1 _ _ _ _
      · split
        · exact State.endOp_good (State.opStore_good (State.setAD_good h1 _ _) _ _ _ _) _ _ _ _ _
        · exact State.endOp_good h1 _ _ _ _ _
      · exact State.endOp_good h1 _ _ _ _ _

theorem State.startAstr_good (o : Op) : (s.startAstr o).Good := by
  unfold State.startAstr; extract_lets p a w s1; split
  · exact State.failOp_good h _ _ _ _
  · have h1 : s1.Good := by
      dsimp only [s1]; split <;> exact h.of_mem rfl
    exact h1.of_mem rfl

theorem writeUnit_good (o : Op) (t : Target) (ea : Addr) (bs : List Byte) : (writeUnit s o t ea bs).1.Good := by
  unfold writeUnit; extract_lets p reads o1 r
  clear_value o1; repeat' split
  all_goals first
    | exact State.gleanerPut_good h _ _
    | exact State.opStore_good h _ _ _ _

theorem sendUnit_good (o : Op) (c : Nat) (ea : Addr) (bs : List Byte) : (sendUnit s o c ea bs).1.Good := by
  unfold sendUnit; extract_lets
  repeat' split
  all_goals exact h.of_mem rfl

theorem State.makeChunk_good (o : Op) (c : Nat) : (s.makeChunk o c).Good := by
  unfold State.makeChunk
  extract_lets p ps coll es ask lacks entry listed kind targets mended looked last cw misses srcs written ahead lines o' own
  have hask : ∀ {x : State} l, x.Good → (ask x l).Good := fun l hx =>
    foldl_good (fun s x hs => hs.of_mem (State.askFor_mem _ _ _ _ _)) _ (hx.of_mem (State.keepAll_mem _ _))
  clear_value ask; split
  · exact hask _ h
  · split
    · trivial
    · have hg := State.gather_good h o o.agent srcs.flatten [] c
      clear_value ahead mended looked; split
      · trivial
      · rename_i e
        rw [e] at hg; exact hg
      · rename_i s' data e
        rw [e] at hg
        split
        · exact hask _ hg
        extract_lets s1 s2 s3 runs r src
        have h1 : s1.Good := by
          refine foldl_good (fun s x hs => ?_) _ hg
          split
          · exact State.setAD_good hs _ _
          · exact hs
        have h2 : s2.Good := by
          refine foldl_good (fun s x hs => foldl_good (fun s y hs => ?_) _ hs) _ h1
          split
          · exact State.setAD_good hs _ _
          · exact hs
        have h3 : s3.Good := by
          dsimp only [s3]; split
          · exact State.setAD_good h2 _ _
          · exact h2
        have hr : r.1.Good := by
          refine foldl_pair (P := State.Good) (fun q x hq => ?_) _ (p := (s3, o')) h3
          split
          · exact sendUnit_good hq _ _ _ _
          · refine foldl_pair (P := State.Good) (fun q y hq => ?_) _ hq
            split
            · exact writeUnit_good hq _ _ _ _
            · exact hq
        exact hr.of_mem rfl

theorem State.countChunk_good (o : Op) : (s.countChunk o).Good := by
  unfold State.countChunk; extract_lets s1
  have h1 : s1.Good := h.of_mem rfl
  clear_value s1; split
  · exact h1
  · exact State.charge_good h1 _ _ _ _

theorem State.tryComplete_good (uid : Nat) : (s.tryComplete uid).Good := by
  unfold State.tryComplete; split
  · exact h
  · repeat' split
    all_goals first | exact h | exact State.endOp_good h _ _ _ _ _ | exact State.completeCopy_good h _ _

theorem State.finishChunk_good (o : Op) : (s.finishChunk o).Good := State.tryComplete_good (State.countChunk_good h o) _

theorem State.threadStore_good (i : Iss) (x : Thread) (t : Target) (ea : Addr) (bs : List Byte) : (s.threadStore i x t ea bs).Good := by
  unfold State.threadStore; split
  · exact h.of_mem rfl
  · split
    · exact h.of_mem rfl
    · exact Iss.standsNow_good (State.put_good h _ _) i _

theorem State.hcan_good (ctx : Nat) (w : Word) : (s.hcan ctx w).1.Good := by
  unfold State.hcan; split
  · exact h
  · split
    · exact h
    · exact State.cancelOp_good h _

theorem State.queueFault_good (q : Queue) (c n : Nat) (v : Addr) : (s.queueFault q c n v).Good := by
  unfold State.queueFault; refine State.post_good ?_ _ _ _
  exact h.of_mem rfl

theorem State.peerFault_good (ctx die c n : Nat) (v : Addr) : (s.peerFault ctx die c n v).Good := State.post_good h _ _ _

end Operations

/-! ### XCOPY, XQPOST, queues and peers -/

section Posts

variable {s : State} (h : s.Good)
include h

theorem Iss.packetStep_good (i : Iss) (k : OpKind) (issue : Nat) (t : Thread) (g : Target) : (i.packetStep s k issue t g).Good := by
  unfold Iss.packetStep; extract_lets old got s1
  have h1 : s1.Good := Iss.standsNow_good h i _
  clear_value s1; split
  · exact h1.of_mem rfl
  · exact h1.of_mem rfl

theorem Iss.flagOps_good (i : Iss) (issue : Nat) : (i.flagOps s issue).Good := by
  unfold Iss.flagOps; split
  · exact h
  · split
    · exact h.of_mem rfl
    · exact h

/-- One access of an XQPOST keeps memory canonical. -/
theorem Iss.postStep_good (i : Iss) (t : Thread) : (i.postStep s t).Good := by
  unfold Iss.postStep; extract_lets p set go fails ask test
  have hset : ∀ {x : State} (w : Wait), x.Good → (set x w).Good := fun w hx => hx.of_mem rfl
  have hgo : ∀ {x : State} (w : Wait), x.Good → (go x w).Good := fun w hx => hset w hx
  have hfails : ∀ ea ms, (fails ea ms).Good := fun ea ms => hgo _ (h.of_mem rfl)
  have hask : ∀ g ea n key w, (ask g ea n key w).Good := by
    intro g ea n key w; dsimp only [ask]; split
    · exact h
    · exact hgo w ((State.setAD_good h g false).of_mem rfl)
  have htest : ∀ {x : State} (w : Wait), x.Good → (test x w).Good := by
    intro x w hx; dsimp only [test]; split
    · exact hset _ hx
    · exact hgo _ hx
  have hst : ∀ d ea bs w, (go ((s.setAD d true).threadStore i t d ea bs) w).Good := fun d ea bs w =>
    hgo w (State.threadStore_good (State.setAD_good h d true) i t d ea bs)
  clear_value p set go fails ask test
  repeat' (first
    | exact h
    | exact hfails _ _
    | exact hask _ _ _ _ _
    | exact hst _ _ _ _
    | exact htest _ h
    | exact htest _ (Iss.standsNow_good (State.setAD_good h _ _) i _)
    | exact hgo _ (Iss.standsNow_good (State.setAD_good h _ _) i _)
    | exact hgo _ (Iss.standsNow_good (State.put_good (State.setAD_good h _ _) _ _) i _)
    | split)

theorem State.queueForget_good (q : Queue) : (s.queueForget q).Good := h.of_mem rfl

theorem State.takePacket_good (q : Queue) (bs : List Byte) (r : Addr × Option Target) : (s.takePacket q bs r).Good := by
  unfold State.takePacket; extract_lets p o next s1
  have h1 : s1.Good := h.of_mem rfl
  clear_value s1; split
  · exact State.opStore_good (State.setAD_good h1 _ _) _ _ _ _
  · exact h1

theorem State.peerUnit_good (ctx : Nat) (aop : Option (Nat × Int)) (ea : Addr) (t : Target) (bs : List Byte) :
    (s.peerUnit ctx aop ea t bs).Good := by
  unfold State.peerUnit; extract_lets s1
  have h1 : s1.Good := State.setAD_good h _ _
  clear_value s1; split
  · exact h1.of_mem rfl
  · split <;> exact State.gleanerPut_good h1 _ _

theorem State.peerWrite_good (w : PeerWrite) (c : Context) (x : Window) : (s.peerWrite w c x).Good := by
  unfold State.peerWrite; extract_lets runs right outside at_ unit a kind spans targets mended looked s1
  have h1 : s1.Good := by
    refine foldl_good (fun s y hs => ?_) _ h
    split
    · exact hs
    · exact State.peerUnit_good hs _ _ _ _ _
  clear_value s1; split
  · exact (State.peerFault_good h _ _ _ _ _).of_mem rfl
  · split
    · exact h
    · split
      · exact (State.peerFault_good h _ _ _ _ _).of_mem rfl
      · exact h1.of_mem rfl

end Posts

/-- What a queue's read leaves has canonical memory. -/
def QueueRead.Good : QueueRead → Prop
  | .got s _ | .pending s => s.Good
  | .refused => True

theorem State.queueRead_good {s : State} (h : s.Good) (q : Queue) (key n : Nat) (ea : Addr) (g : Target) : (s.queueRead q key n ea g).Good := by
  unfold State.queueRead; split
  · exact (State.setAD_good h g false).of_mem (State.seeAll_mem _ _ _ _)
  · split
    · trivial
    · exact h
    · show State.Good (ite _ _ _)
      split
      · exact h
      · exact (State.setAD_good h g false).of_mem rfl

theorem State.queueReads_good (q : Queue) : ∀ (l : List (Nat × Nat × Addr × List Miss × Option Target)) (acc : List Byte) {s : State}, s.Good →
    ∀ {r : QueueRead}, s.queueReads q l acc = .ok r → r.Good
  | [], _, _, h, _, e => by cases e; exact h
  | (key, n, ea, ms, tg) :: rest, acc, s, h, r, e => by
    unfold State.queueReads at e; split at e
    · cases e
    · cases e
    · rename_i g _
      have hq := State.queueRead_good h q key n ea g
      split at e
      · rename_i e2; rw [e2] at hq
        exact State.queueReads_good q rest _ hq e
      · cases e
      · rename_i e2; rw [e2] at hq
        cases e; exact hq

/-! ### Launches, contexts and moves -/

section Fold

variable {s : State} (h : s.Good)
include h

theorem State.readDesc_good (ctx die : Nat) (va : Addr) {r : State × List Byte} (e : s.readDesc ctx die va = .ok r) : r.1.Good := by
  unfold State.readDesc at e; extract_lets a spans seen at e; split at e
  · cases e
  · cases e
    refine foldl_good (fun s x hs => ?_) _ h
    split
    · exact State.setAD_good hs _ _
    · exact hs

theorem State.launch_good (ctx column : Nat) (va : Addr) (argp : Option Addr) (join : Bool) (who : Option Who) :
    (s.launch ctx column va argp join who).1.Good := by
  unfold State.launch; extract_lets refuse; split
  · exact h
  · split
    · exact h
    · split
      · exact State.postBy_good h _ _ _ _ _ _
      · split
        · exact State.postBy_good h _ _ _ _ _ _
        · rename_i e
          have h1 := State.readDesc_good h _ _ _ e
          dsimp only at h1
          extract_lets d id set s1 now x s2 s3
          split
          · exact State.postBy_good h1 _ _ _ _ _ _
          · have h2 : s2.Good := by
              have : s1.Good := by
                dsimp only [s1]; split <;> exact h1.of_mem rfl
              exact this.of_mem rfl
            clear_value s2
            have h3 : s3.Good := by
              dsimp only [s3]; split
              · exact State.poolCheck_good h2 _
              · exact h2
            clear_value s3
            show State.Good (ite _ _ _); split
            · exact State.readyOn_good h3 _ _
            · exact h3

theorem State.zeroUnits_good (core : Nat) (us : List Nat) : (s.zeroUnits core us).Good := by
  refine foldl_good (fun s u hs => ?_) _ h
  exact Memory.clear_wf _ _ hs

theorem State.admitOne_good (x : Slice) (index core cluster rank : Nat) : (s.admitOne x index core cluster rank).Good := by
  unfold State.admitOne; extract_lets t; split
  · exact h
  · refine State.Good.of_mem (State.zeroUnits_good ?_ _ _) (State.seat_mem _ _ _)
    exact h.of_mem rfl

theorem State.resetContext_good (ctx : Nat) (sub : Option Nat) : (s.resetContext ctx sub).Good := by
  unfold State.resetContext; split
  · exact h
  · extract_lets mine isMine ops gone keep pending join read freed s0 s1 s2
    have h0 : s0.Good := by
      dsimp only [s0]; split
      · exact h
      · exact foldl_good (fun s t hs => foldl_good (fun s g hs => State.postMerges_good hs _ _ _) _ hs) _ h
    clear_value s0
    have h2 : s2.Good := h0.of_mem rfl
    clear_value s2; split
    · exact State.post_good h2 _ _ _
    · exact h2

theorem State.moveRuns_good (runs : List (Nat × Nat)) : (s.moveRuns runs).Good := Memory.puts_wf _ (Memory.filter_wf _ h)
theorem State.moveOut_good (t : Team) (e : Bool) : (s.moveOut t e).Good := (State.moveRuns_good h t.runs).of_mem rfl
omit h in
@[simp] theorem State.bringTrans_mem (s : State) (t : Team) (d : Nat) : (s.bringTrans t d).mem = s.mem := by
  unfold State.bringTrans; split <;> rfl
theorem State.bringTrans_good (t : Team) (d : Nat) : (s.bringTrans t d).Good := h.of_mem (State.bringTrans_mem s t d)
theorem State.moveIn_good (t : Team) (core : Nat) : (s.moveIn t core).Good := by
  unfold State.moveIn; split
  · exact h
  · extract_lets t' s1 s2 s3 s4 low
    have h2 : s2.Good := State.moveRuns_good (State.zeroUnits_good (State.bringTrans_good h _ _) _ _) _
    clear_value s2
    have h4 : s4.Good := State.Good.of_mem (s := s2) h2 (State.reseat_mem _ _)
    clear_value s4
    refine State.asyncKill_good ?_ _
    split
    · exact State.throttle_good h4 _ _
    · exact h4

theorem State.cmdPut_good (c : Cmd) (off : Nat) (bs : List Byte) : (s.cmdPut c off bs).Good := by
  unfold State.cmdPut; split
  · exact h.of_mem rfl
  · exact State.pokePa_good h _ _
theorem State.reply_good (c : Cmd) (v : Nat) : (s.reply c v).Good := State.cmdPut_good h _ _ _
theorem State.putPa_good (pa : Nat) (bs : List Byte) : (s.putPa pa bs).Good := by
  refine foldl_good (fun s x hs => ?_) _ h
  exact State.put_good hs _ _

theorem runCmd_good (code : Nat) (noCtx : Bool) (c : Cmd) {f : List Byte → State → Except Nat State}
    (hf : ∀ bs s t, s.Good → f bs s = .ok t → t.Good) : (runCmd code noCtx c s f).Good := by
  unfold runCmd; extract_lets bs s1; split
  · exact h
  · have h1 : s1.Good := h.of_mem rfl
    clear_value s1; split
    · exact State.reply_good h1 _ _
    · split
      · exact State.reply_good h1 _ _
      · split
        · exact State.reply_good h1 _ _
        · rename_i e
          exact State.reply_good (hf _ _ _ h1 e) _ _

theorem runCtxCmd_good (code : Nat) (c : Cmd) {f : List Byte → Context → State → Except Nat State}
    (hf : ∀ bs x s t, s.Good → f bs x s = .ok t → t.Good) : (runCtxCmd code c s f).Good :=
  runCmd_good h code false c fun bs s t hs e => by
    split at e
    · cases e
    · exact hf _ _ _ _ hs e

theorem State.dumpPut_good (off : Nat) (bs : List Byte) : (s.dumpPut off bs).Good := Memory.puts_wf _ h

omit h in
@[simp] theorem State.showCap_mem (s : State) (c : Cap) : (s.showCap c).mem = s.mem := rfl

theorem State.computeReset_good : s.computeReset.Good := by
  unfold State.computeReset; extract_lets s1 s2 unit
  have h1 : s1.Good := by
    refine foldl_good (fun s n hs => ?_) _ h
    exact State.resetContext_good hs _ _
  have h2 : s2.Good := by
    dsimp only [s2]; split
    · exact State.dumpPut_good h1 _ _
    · exact h1
  clear_value s2
  exact Memory.filter_wf _ h2

end Fold

/-! ### Base cores and the device -/

section Device

variable {s : State} (h : s.Good)
include h

theorem State.hartStore_good (hart : Nat) (va : Addr) (bs : List Byte) : (s.hartStore hart va bs).1.Good := by
  unfold State.hartStore; extract_lets l; split
  · exact h.of_mem rfl
  · refine foldl_good (fun s x hs => ?_) _ h
    split
    · exact hs
    · extract_lets d; split
      · exact hs.of_mem rfl
      · exact (State.put_good hs _ _).of_mem (State.seeAll_mem _ _ _ _)

omit h in
theorem State.argStores_good (hart : Nat) (base : Addr) : ∀ (n k : Nat) {s : State}, s.Good → (s.argStores hart base n k).1.Good
  | 0, _, _, h => h
  | n + 1, k, s, h => by
    unfold State.argStores; extract_lets r
    have h1 : r.1.Good := State.hartStore_good h _ _ _
    split
    · exact State.argStores_good hart base n (k + 1) h1
    · exact h1

theorem State.hbmOff_good : s.hbmOff.Good := Memory.filter_wf _ h

theorem State.startDump_good (cause die unit : Nat) : (s.startDump cause die unit).Good := by
  unfold State.startDump; generalize s.dumpHead 1 cause die unit = hd; generalize s.dumpSections = secs
  exact State.Good.of_mem (State.dumpPut_good h 0 hd) rfl
theorem State.dumpLost_good : s.dumpLost.Good := State.dumpPut_good h _ _

theorem State.dumpStep_good (k off : Nat) : (s.dumpStep k off).Good := by
  unfold State.dumpStep; generalize s.dumpSections = secs; dsimp only; split
  · exact State.Good.of_mem (State.dumpPut_good (State.dumpPut_good h _ _) _ _) rfl
  · have h1 := State.dumpPut_good h 24 (toLe 4 secs.length)
    generalize s.dumpPut 24 (toLe 4 secs.length) = s1 at h1 ⊢
    have h2 := State.dumpPut_good h1 128 (sha3 (Memory.gets s1.mem (dumpLoc 256) (off - 256)))
    generalize s1.dumpPut 128 (sha3 (Memory.gets s1.mem (dumpLoc 256) (off - 256))) = s2 at h2 ⊢
    have h3 := State.dumpPut_good h2 6 [2]
    generalize s2.dumpPut 6 [2] = s3 at h3 ⊢
    exact State.Good.of_mem h3 rfl

theorem State.fatalAgain_good (cause : Nat) : (s.fatalAgain cause).Good := by
  unfold State.fatalAgain; extract_lets first src r
  have hr : r.Good := by
    dsimp only [r]; split
    · exact h.of_mem rfl
    · exact h
  clear_value r; split
  · exact (State.hbmOff_good hr).of_mem rfl
  · split
    · exact hr
    · refine State.dumpLost_good ?_
      split
      · exact State.dumpPut_good hr _ _
      · exact hr

theorem State.fatal_good (cause die unit : Nat) : (s.fatal cause die unit).Good := by
  unfold State.fatal; split
  · exact State.fatalAgain_good h _
  · extract_lets join s1 src s2 signal
    have h2 : s2.Good := h.of_mem rfl
    have hs : ∀ {x : State}, x.Good → (signal x).Good := fun hx => hx.of_mem rfl
    clear_value s2 signal; split
    · exact hs (State.hbmOff_good h2)
    · split
      · exact hs (State.dumpLost_good h2)
      · exact State.startDump_good h2 _ _ _

theorem State.edgeLost_good (e : Nat) : (s.edgeLost e).Good := by
  unfold State.edgeLost; extract_lets s1
  have h1 : s1.Good := State.fatal_good h _ _ _
  clear_value s1; split
  · exact State.fatal_good h1 _ _ _
  · exact h1

theorem State.storeLost_good (x : Store) : (s.storeLost x).Good :=
  (State.postEvent_good h _ _ _ _ _).of_mem (State.finishStore_mem _ _)

theorem State.trainPorts_good (lost : List (Nat × Nat)) : (s.trainPorts lost).Good := by
  unfold State.trainPorts; generalize List.range 32 = l
  exact foldl_good (fun s n hs => hs.of_mem (State.updLink_mem _ _ _)) l h

theorem State.bootStep_good (p : PowerOn) : (s.bootStep p).Good := by
  have hl := State.trainPorts_good h p.lost
  have hd := State.dumpPut_good h 0 (s.dumpHead 0 0 0 0)
  unfold State.bootStep
  generalize State.dumpPut s 0 (s.dumpHead 0 0 0 0) = sd at hd ⊢
  generalize s.trainPorts p.lost = sl at hl ⊢
  extract_lets k src sc s2
  have h2 : s2.Good := by
    dsimp only [s2]; split
    · exact hd
    · exact h
  clear_value s2
  split
  · exact hl.of_mem rfl
  · split
    · split <;> exact h.of_mem rfl
    · split
      · exact h.of_mem rfl
      · exact h2.of_mem rfl

theorem State.firmware_good : s.firmware.Good := by
  unfold State.firmware; split
  · exact h
  · split
    · exact State.dumpStep_good h _ _
    · exact State.bootStep_good h _
    · exact h

theorem State.portDown_good (die port : Nat) : (s.portDown die port).Good := by
  unfold State.portDown; extract_lets mine s1
  have h1 : s1.Good := by
    dsimp only [s1]; split
    · exact h
    · exact foldl_good (fun s o hs => State.failOp_good hs _ _ _ _) _ h
  exact h1.of_mem rfl

theorem State.upset_good (u : Upset) : (s.upset u).Good := by
  unfold State.upset; extract_lets sram; split
  · exact h.of_mem (State.eccAt_mem _ _ _)
  · exact h.of_mem (State.eccAt_mem _ _ _)
  · split
    · exact h
    · extract_lets s1
      have h1 : s1.Good := h.of_mem rfl
      clear_value s1; split
      · exact State.kill_good (State.post_good h1 _ _ _) _ _
      · exact h1
  · extract_lets s1
    have h1 : s1.Good := h.of_mem rfl
    clear_value s1; split
    · exact h1.of_mem rfl
    · exact h1
  · extract_lets s1
    have h1 : s1.Good := h.of_mem rfl
    clear_value s1; split
    · refine foldl_good (fun s n hs => ?_) _ h1
      exact State.resetContext_good hs _ _
    · exact h1
  · extract_lets s1
    have h1 : s1.Good := h.of_mem rfl
    clear_value s1; split
    · exact State.fatal_good h1 _ _ _
    · exact h1
  · extract_lets s1
    have h1 : s1.Good := h.of_mem rfl
    clear_value s1; split
    · exact h1.of_mem rfl
    · exact h1

end Device

/-! ### How a turn comes to a word -/

/-- What a partition's turn leaves has canonical memory. -/
def Ready.Good : Ready → Prop
  | .idle s | .go s _ => s.Good

/-- What a turn leaves has canonical memory. -/
def Move.Good : Move → Prop
  | .rest s | .run s _ | .serve s _ => s.Good
  | .halt _ | .refuse _ => True

section Turns

variable {s : State} (h : s.Good)
include h

theorem State.takeMerges_good (t : Team) (g : Group) (pc : Addr) (ths : List Thread) : (s.takeMerges t g pc ths).Good := by
  unfold State.takeMerges; extract_lets set
  exact State.takeSync_good (s := s.updThreads _ _ _ _) h _ _ _ _ _

omit h in
@[simp] theorem State.setAside_mem (s : State) (t : Team) (g : Group) (x : Addr × List Thread) : (s.setAside t g x).mem = s.mem := rfl

omit h in
/-- Fetching a packet begins walks at most. -/
theorem State.fetched_mem (s : State) (t : Team) (g : Group) (pc : Addr) : (s.fetched t g pc).1.mem = s.mem := by
  unfold State.fetched; repeat' (first | rfl | exact State.askWalk_mem _ _ _ _ | split)

theorem State.boundaryTrap_good (t : Team) (g : Group) {s' : State} (e : s.boundaryTrap t g = some s') : s'.Good := by
  unfold State.boundaryTrap at e; extract_lets front at e; clear_value front
  split at e
  · cases e
  · split at e
    · split at e
      · cases e; exact State.takeMerges_good (s := s.setAside t g _) (h.of_mem (State.setAside_mem _ _ _ _)) _ _ _ _
      · split at e
        · cases e; exact h.of_mem (State.takeAsync_mem _ _ _ _ _)
        · cases e
    · split at e
      · obtain ⟨x, _, rfl⟩ := Option.map_eq_some_iff.mp e
        split
        · exact h.of_mem (State.interrupt_mem _ _ _ _)
        · exact State.takeMerges_good (s := s.setAside t g x) (h.of_mem (State.setAside_mem _ _ _ _)) _ _ _ _
      · cases e

theorem State.beginClause_good (t : Team) (g : Group) : (s.beginClause t g).Good := by
  unfold State.beginClause; split
  · exact h
  · extract_lets set
    have hf : ∀ {pc : Addr} {x : State × Option (Except (Nat × Nat × Addr) (Target × List Word × Header))}, s.fetched t g pc = x → x.1.Good :=
      fun {pc} _ e => h.of_mem (e ▸ State.fetched_mem s t g pc)
    split
    · rename_i e; exact hf e
    · rename_i e; exact State.takeSync_good (hf e) _ _ _ _ _
    · rename_i e
      extract_lets resumed hd s1; split
      · exact State.takeSync_good (hf e) _ _ _ _ _
      · exact (State.setAD_good (hf e) _ _).of_mem rfl

theorem State.testWait_good (t : Team) (g : Group) (c : Clause) (ths : List Thread) (pc : Addr) : (s.testWait t g c ths pc).Good := by
  unfold State.testWait; split
  · exact h
  · split
    · exact State.takeSync_good (s := s.updThreads _ _ _ _) h _ _ _ _ _
    · exact h.of_mem rfl

theorem State.nextPacket_good (t : Team) (g : Group) (c : Clause) (pc : Addr) : (s.nextPacket t g c pc).Good := by
  have hf : ∀ {x : State × _}, s.fetched t g pc = x → x.1.Good := fun e => h.of_mem (e ▸ State.fetched_mem s t g pc)
  unfold State.nextPacket; split
  · rename_i e; exact (hf e).of_mem rfl
  · rename_i e; exact State.takeSync_good (hf e) _ _ _ _ _
  · rename_i e; split
    · exact (hf e).of_mem rfl
    · exact (State.setAD_good (hf e) _ _).of_mem rfl

theorem State.inClause_good (t : Team) (g : Group) (c : Clause) : (s.inClause t g c).Good := by
  unfold State.inClause; split
  · exact h.of_mem rfl
  · split
    · exact State.testWait_good h _ _ _ _ _
    · split
      · exact State.nextPacket_good h _ _ _ _
      · extract_lets n; split
        · exact h
        · extract_lets pos; split
          · split
            · exact h.of_mem rfl
            · exact State.takeSync_good (s := s.updThreads _ _ _ _) h _ _ _ _ _
          · exact h.of_mem rfl

omit h in
theorem State.goOn_good (u g : Nat) : ∀ (n : Nat) {s : State}, s.Good → (s.goOn u g n).Good
  | 0, _, h => h
  | n + 1, s, h => by
    unfold State.goOn; split
    · split
      · have hc := State.inClause_good h ‹Team› ‹Group› ‹Clause›
        split
        · rename_i e; rw [e] at hc
          split
          · exact hc
          · exact State.goOn_good u g n hc
        · exact hc
      · exact h
    · exact h

theorem State.comeToWord_good (u g : Nat) : (s.comeToWord u g).Good := by
  unfold State.comeToWord; split
  · split
    · exact State.endGroup_good h _ _
    · split
      · rename_i e; exact State.boundaryTrap_good h _ _ e
      · split
        · split
          · exact State.inClause_good h _ _ _
          · split
            · exact h
            · exact State.goOn_good _ _ _ h
        · split
          · exact h
          · extract_lets s1
            have h1 : s1.Good := State.beginClause_good h _ _
            clear_value s1; split
            · exact h1
            · exact State.goOn_good _ _ _ h1
  · exact h

theorem State.turn_good (core part : Nat) : (s.turn core part).Good := by
  unfold State.turn; extract_lets -lift s1
  have h1 : s1.Good := h.of_mem (State.park_mem _ _ _)
  split
  · exact h1
  · rename_i u g _
    extract_lets src s2
    have h2 : s2.Good := h1.of_mem rfl
    clear_value s2
    have hw := State.comeToWord_good h2 u g
    split
    · rename_i e; rw [e] at hw
      show State.Good (ite _ _ _); split
      · exact hw
      · exact State.Good.of_mem hw (State.goesOn_mem _)
    · exact hw

theorem State.hostReadDone_good (x : Nat) (r : HostRead) : (s.hostReadDone x r).1.Good := by
  unfold State.hostReadDone; extract_lets s1 parts
  have h1 : s1.Good := h.of_mem rfl
  clear_value s1; repeat' split
  all_goals exact h1.of_mem rfl

theorem State.hartTurn_good (x : Nat) : (s.hartTurn x).Good := by
  unfold State.hartTurn; split
  · exact h
  · extract_lets s1 y
    have h1 : s1.Good := h.of_mem rfl
    clear_value s1; split
    · rename_i r _
      split
      · exact h1
      · have hr := State.hostReadDone_good h1 x r
        split
        all_goals (rename_i e; rw [e] at hr; exact hr)
    · split
      · exact h1.of_mem rfl
      · split
        · exact h1.of_mem rfl
        · trivial
        · split
          · exact h1
          · trivial

theorem State.issueTurn_good (core part : Nat) : (s.issueTurn core part).Good := by
  unfold State.issueTurn; split
  · exact h
  · have ht := State.turn_good h core part
    split
    all_goals (rename_i e; rw [e] at ht; exact ht)

/-- A turn keeps memory canonical up to the instruction it comes to. -/
theorem State.move_good (t : Turn) : (s.move t).Good := by
  unfold State.move; split
  · split
    · exact State.issueTurn_good h _ _
    · exact h
  · split
    · exact State.hartTurn_good h _
    · exact h
  · split <;> exact h
  · show State.Good (ite _ _ _)
    split
    · exact State.upset_good h _
    · exact h
  · exact State.firmware_good h
  · show State.Good (ite _ _ _)
    split
    · exact h.of_mem rfl
    · exact h

/-- The next turn keeps memory canonical up to the instruction it comes to. -/
theorem State.nextMove_good : s.nextMove.Good := by
  have hm : s.marked.Good := h.of_mem (State.marked_mem s)
  unfold State.nextMove; split
  · refine State.move_good (State.Good.of_mem ?_ (State.stirredBy_mem _ _)) _
    exact hm.of_mem rfl
  · exact State.move_good (hm.of_mem (State.goesOn_mem _)) _

end Turns

end Sys2Proof.Machine
end

