-- ==== Sys2Proof/Tests/Slice0.lean ====
section
/-! SUPPORT. Tests: ill-formed instructions refused, words decoded, results of single steps, and for every statement a state and operands that
meet its hypotheses. -/

open Sys2Proof Sys2Proof.Machine

namespace Sys2Proof.Tests

set_option Elab.async false

/-! ### A small state to test on -/

/-- Test registers: register `k` holds `k`; the pair v8:v9 holds address 0x80000, the pair v10:v11 0, v14 holds −1. -/
def regs : List Reg := (List.range 64).map fun k =>
  { val := if k = 8 then 0x80000#32 else if k = 9 then 0 else if k = 10 then 0 else if k = 11 then 0 else if k = 14 then 0xFFFFFFFF#32 else BitVec.ofNat 32 k }

/-- A thread about to issue the word in slot 1 of the packet at 0x10000. -/
def thr (x : Nat) : Thread := { tidx := x, lane := x, slot := 0, pc := 0x10004, frames := [{ regs := regs }] }

def grp : Group :=
  { gidx := 0, part := 0, threads := [thr 0, thr 1],
    clause := some { start := 0x10004, set := [0, 1], seta := 15, setb := 15, packets := 1, tested := true } }

def team : Team :=
  { uid := 1, ctx := 0, slice := 1, desc := probeDesc, index := 0, core := 0, cluster := 1, rank := 0, parts := [0], slot := 0, units := [0, 1], tileBase := 0, groups := [grp],
    started := true }

def slice : Slice := { id := 1, ctx := 0, desc := probeDesc, column := 0, joined := false, ready := some 0, next := 1, left := 1 }

def context : Context :=
  { num := 0, asid := 0, root := (probePa + 0x20000) / 4096, hart := 0, sward := [0, 0, 0, 0], swardBase := [0, 0, 0, 0], spill := probePa + 0x1000000,
    save := probePa + 0x2000000, cn := 4, drain := 200000, swap := 2000000 }

/-- The one leaf of the small state, as a die's unit keeps it: 512 GiB from address 0 (R332). -/
def keptLeaf (d : Nat) : Trans := ⟨d, 0, 0, 3, false, probePa / 4096 * 1024 + 0xDF, ⟨824633769984, 824633769984, [824633769984]⟩⟩

/-- One team of one group of two threads on core 0 with a clause in hand, its pages mapped and kept by every die's unit. -/
def base : State :=
  { contexts := [context], slices := [slice], teams := [team], mem := probeTables [], cur := some ⟨1, 0⟩, seq := 10, time := 1000,
    cap := { phase := 1 }, tlb := (List.range 4).map keptLeaf }

/-- What is kept is what a walk finds. -/
theorem test_kept_leaf : ∀ d ∈ [0, 3], (match walkFrom base 0x10000 d 5 context.root with
    | .ok l => some (l.trans d 0 0x10000)
    | .error _ => none) = some (keptLeaf d) := by decide +kernel

/-- The threads changed. -/
def withThreads (f : Thread → Thread) : State := base.updThreads 1 0 (fun _ => true) f
/-- The team changed. -/
def withTeam (f : Team → Team) : State := base.updTeam 1 f
/-- The descriptor changed. -/
def withDesc (f : Desc → Desc) : State := (base.updSlice 0 1 fun x => { x with desc := f x.desc }).updTeam 1 fun t => { t with desc := f t.desc }
/-- Some registers set. -/
def set (l : List (Nat × Word)) : State := withThreads (·.setVs l)
/-- Threads in handler state, trapped at slot 1 of the packet at 0x10000. -/
def handled : State := withThreads fun t => { t with handler := true, trapa := 0x10004 }

/-- Bytes written to device memory at virtual addresses of the small state. -/
def stored (s : State) (l : List (Nat × List Byte)) : State :=
  { s with mem := l.foldl (fun m x => Memory.puts m (paCells (probePa + x.1) x.2)) s.mem }

def p0 : Pre := ⟨false, false, 0, false⟩
/-- Prefix with the guard p0, which no thread of the small state has set. -/
def pOff : Pre := ⟨false, false, 1, false⟩
/-- Prefix with U = 1. -/
def pU : Pre := ⟨false, true, 0, false⟩
def r (d a b : Field) : Rrr := ⟨p0, d, a, b, none⟩
def rl (d a b : Field) (l : Word) : Rrr := ⟨p0, d, a, b, some l⟩

/-! ### Witnesses -/

/-- The taken-apart word of a device instruction. -/
def devOf (i : Instr) : Dev := i.dev.getD (p0 |> fun p => ⟨0, p, 0, 0, 0, none⟩)

/-- The test of `Issues`. -/
def canIssue (s : State) (v : Dev) : Bool :=
  match issueOf s v with
  | none => false
  | some i => (i.packetTrap s).isNone && (i.wordTrap s).isNone && i.co.all (fun t => t.frame.place == .bank) && i.failed.isNone && !i.mustWait && !i.flagFull && i.uniformHits.isNone

/-- The issue of a word at a state. -/
def issue (s : State) (v : Dev) : Iss :=
  (issueOf s v).getD ⟨team, grp, { start := 0, set := [], seta := 15, setb := 15, packets := 1 }, probeDesc, [], [], 0, v⟩

theorem issues_of {s : State} {v : Dev} (h : canIssue s v = true) : Issues s v (issue s v) := by
  unfold canIssue at h
  unfold issue
  split at h
  · cases h
  · next i e =>
    rw [e]
    simp only [Bool.and_eq_true, Option.isNone_iff_eq_none, List.all_eq_true, beq_iff_eq, Bool.not_eq_true'] at h
    obtain ⟨⟨⟨⟨⟨⟨p, a⟩, b⟩, c⟩, d⟩, e'⟩, f⟩ := h
    exact ⟨e, p, a, b, c, d, e', f⟩

/-- Some state and word meet the hypotheses of a `Completes`. -/
def Meets (ins : Instr) (p : Dev → Iss → State → Prop) : Prop := ∃ v s i, ins.dev = some v ∧ Issues s v i ∧ p v i s

theorem meets (s : State) {ins : Instr} {p : Dev → Iss → State → Prop} {v : Dev} (hd : ins.dev = some v) (h : canIssue s v = true)
    (hp : p v (issue s v) s) : Meets ins p := ⟨v, s, issue s v, hd, issues_of h, hp⟩

/-- The words of a list all issue at a state. -/
def allIssue (s : State) (l : List Instr) : Bool := l.all fun ins => match ins.dev with
  | some v => canIssue s v
  | none => false

theorem meets_all (s : State) {l : List Instr} (h : allIssue s l = true) : ∀ ins ∈ l, Meets ins fun _ _ _ => True := by
  intro ins hi
  have := List.all_eq_true.mp h ins hi
  split at this
  · next v e => exact meets s e this trivial
  · cases this

/-! ### Ill-formed instructions are refused -/

/-- One ill-formed term for each check of `Instr.wf`, and one well-formed neighbour. -/
theorem test_wf_device : (Instr.iabsS32 (r 4 6 12)).wf = false ∧ (Instr.iabsS32 (r 4 6 0)).wf = true ∧
    (Instr.lop3 (r 4 6 12)).wf = false ∧ (Instr.lop3 (rl 4 6 12 0x96)).wf = true ∧
    (Instr.iaddI32 (rl 4 6 12 1)).wf = false ∧ (Instr.iaddI32 (rl 4 6 0 1)).wf = true ∧ (Instr.nop (rl 0 0 0 1)).wf = false ∧
    (Instr.vote ⟨pU, 4, 6, 0, none⟩).wf = false ∧ (Instr.unassignedOpcode 0x01 (r 0 0 0)).wf = false ∧ (Instr.unassignedOpcode 0x4C (r 0 0 0)).wf = true ∧
    (Instr.unassignedOpcode 0x4C (rl 0 0 0 0)).wf = false := by decide +kernel

theorem test_wf_commands : (Instr.create ⟨48, 0⟩).wf = false ∧ (Instr.destroy ⟨0, 32⟩).wf = false ∧ (Instr.reset ⟨0, 2 ^ 56⟩).wf = false ∧
    (Instr.create ⟨47, 64⟩).wf = true ∧ (Instr.registerWrite 48 .efcmd .set ⟨0, 0⟩).wf = false := by decide +kernel

theorem test_wf_events : (Instr.teamAdmit 192).wf = false ∧ (Instr.groupPromote 0 16).wf = false ∧ (Instr.frameGrant 192 0).wf = false ∧
    (Instr.tedderWaitTimeout 0 0 16).wf = false ∧ (Instr.mmaStart 0 2).wf = false ∧ (Instr.mmaRow 192 0).wf = false ∧ (Instr.copyStart (.router 192)).wf = false ∧
    (Instr.copyStart (.ualink 4 0 0 0)).wf = false ∧ (Instr.pcieInboundWrite 4 0 [] false).wf = false ∧ (Instr.pcieInboundWrite 0 (2 ^ 40) [0] false).wf = false ∧
    (Instr.pcieLinkDown 4).wf = false ∧ (Instr.walkReturn 4 0).wf = false ∧ (Instr.invalidationReceive (.unit 4) 0).wf = false ∧
    (Instr.invalidationAck (.hart 48) 0).wf = false ∧ (Instr.syscReply 48).wf = false ∧ (Instr.linkReplay ⟨.ualink 0 8, false⟩).wf = false ∧
    (Instr.linkRetrainExpiry (.ucie 4) true).wf = false ∧ (Instr.baseCoreAccess ⟨0, 0, 3, none, 0⟩).wf = false ∧ (Instr.ualinkInboundRead 0 8 0 0 0 1).wf = false ∧
    (Instr.illegalInstructionException 0x0000000B).wf = false ∧ (Instr.illegalInstructionException 0x00000013).wf = false ∧
    (Instr.illegalInstructionException 0x0000400B).wf = true := by decide +kernel

/-! ### Decoding: words written out from R134, R139, R144 and R326 -/

/-- A word of form RRR, bit by bit: C, U, G, N, opcode, D, A, B (R134, R139). -/
def word (op : BitVec 8) (d a b : BitVec 6) : Word := 0b0#1 ++ 0b0#1 ++ 0b000#3 ++ 0b0#1 ++ op ++ d ++ a ++ b

theorem test_decode_integer : decodeDevice (0b0#1 ++ 0b1#1 ++ 0b010#3 ++ 0b1#1 ++ 0b00000001#8 ++ 0b000100#6 ++ 0b000110#6 ++ 0b001100#6) none =
    .iaddI32 ⟨⟨false, true, 2, true⟩, 4, 6, 12, none⟩ := by decide +kernel
theorem test_decode_logic : decodeDevice (word 0x2A 4 6 12) (some 0x96) = .lop3 (rl 4 6 12 0x96) := by decide +kernel
theorem test_decode_compare : decodeDevice (0b000000#6 ++ 0x41#8 ++ 0b101#3 ++ 0b010#3 ++ 0b000110#6 ++ 0b001100#6) none =
    .isetpN32 ⟨p0, 5, 2, 6, 12, none⟩ := by decide +kernel
theorem test_decode_moves : decodeDevice (0b000000#6 ++ 0x52#8 ++ 0b000100#6 ++ 0b100000000001#12) none = .movi ⟨p0, 4, 0x801⟩ ∧
    decodeDevice (word 0x50 4 0 0) (some 0xDEADBEEF) = .mov (rl 4 0 0 0xDEADBEEF) := by decide +kernel
theorem test_decode_float : decodeDevice (word 0x5B 4 6 12) none = .ffma (r 4 6 12) ∧ decodeDevice (word 0x76 4 6 12) (some 8) = .f2q (rl 4 6 12 8) := by
  decide +kernel
theorem test_decode_group : decodeDevice (word 0x48 4 7 3) none = .vote (r 4 7 3) ∧ decodeDevice (word 0x80 4 6 12) none = .shfli (r 4 6 12) := by decide +kernel
theorem test_decode_memory : decodeDevice (word 0x94 4 8 12) none = .ldB32 (r 4 8 12) ∧ decodeDevice (word 0x9E 4 8 12) (some 0x107) = .atom (rl 4 8 12 0x107) := by
  decide +kernel
theorem test_decode_order : decodeDevice (word 0xA6 0 0 2) none = .sync (r 0 0 2) := by decide +kernel
theorem test_decode_control : decodeDevice (0b000000#6 ++ 0xB0#8 ++ 0b111111111111111111#18) none = .bra ⟨p0, -1, none⟩ ∧
    decodeDevice (word 0xB8 0 0 0) none = .exit (r 0 0 0) := by decide +kernel
theorem test_decode_barriers : decodeDevice (word 0xBC 15 0 2) none = .bara (r 15 0 2) := by decide +kernel
theorem test_decode_matrix : decodeDevice (word 0xCC 4 40 0) (some 1) = .mmaFp8 (rl 4 40 0 1) ∧ decodeDevice (word 0xD2 0 0 0) (some 3) = .azero (rl 0 0 0 3) := by
  decide +kernel
theorem test_decode_operations : decodeDevice (word 0xE0 4 18 0) none = .xcopy (r 4 18 0) ∧ decodeDevice (word 0xEA 3 18 12) none = .tdef (r 3 18 12) := by
  decide +kernel
theorem test_decode_launch : decodeDevice (word 0xF0 4 8 0) none = .launch (r 4 8 0) ∧
    decodeDevice (0b000000#6 ++ 0xF6#8 ++ 0b000100#6 ++ 0b111111111111#12) none = .trap ⟨p0, 4, 0xFFF⟩ := by decide +kernel
theorem test_decode_unassigned : decodeDevice (word 0x4C 1 2 3) none = .unassignedOpcode 0x4C (r 1 2 3) ∧
    decodeDevice (word 0xFF 0 0 0) none = .unassignedOpcode 0xFF (r 0 0 0) := by decide +kernel
theorem test_decode_hart : decodeHart (0b0000000#7 ++ 0b01100#5 ++ 0b01011#5 ++ 0b000#3 ++ 0b01010#5 ++ 0b0001011#7) = some (.edisp 10 11 12) ∧
    decodeHart 0x00000013#32 = none := by decide +kernel

/-! ### Results, calculated by hand from the rules -/

/-- Register `n` of thread `x` after an instruction. -/
def out (s : State) (i : Instr) (x n : Nat) : Option Word := match exec i s with
  | .next t => (t.thread? 1 0 x).map fun th => th.v n
  | _ => none

/-- Predicate `n` of thread `x` after an instruction. -/
def outP (s : State) (i : Instr) (x n : Nat) : Option Bool := match exec i s with
  | .next t => (t.thread? 1 0 x).map fun th => th.p n
  | _ => none

/-- v20 and v21 set. -/
def with2 (a b : Word) : State := set [(20, a), (21, b)]

theorem test_iadd_wraps : out base (.iaddI32 (rl 4 14 0 1)) 0 4 = some 0 := by decide +kernel
theorem test_iadd64_carries : out (set [(20, 0xFFFFFFFF), (21, 7)]) (.iaddI64 (rl 4 20 0 1)) 0 5 = some 8 := by decide +kernel
theorem test_isub_borrows : out base (.isubI32 (r 4 10 6)) 0 4 = some 0xFFFFFFFA := by decide +kernel
theorem test_imulh_signs : out base (.imulhS32 (r 4 14 6)) 0 4 = some 0xFFFFFFFF ∧ out base (.imulhN32 (r 4 14 6)) 0 4 = some 5 := by decide +kernel
theorem test_imad_reads_d : out base (.imadI32 (r 6 4 12)) 0 6 = some 54 := by decide +kernel
theorem test_imin_signs : out base (.iminS32 (r 4 14 6)) 0 4 = some 0xFFFFFFFF ∧ out base (.iminN32 (r 4 14 6)) 0 4 = some 6 := by decide +kernel
theorem test_idiv_truncates : out (with2 0xFFFFFFF9 2) (.idivS32 (r 4 20 21)) 0 4 = some 0xFFFFFFFD ∧
    out (with2 0xFFFFFFF9 2) (.iremS32 (r 4 20 21)) 0 4 = some 0xFFFFFFFF := by decide +kernel
theorem test_idiv_zero : out base (.idivN32 (r 4 6 10)) 0 4 = some 0xFFFFFFFF ∧ out base (.iremN32 (r 4 6 10)) 0 4 = some 6 := by decide +kernel
theorem test_iadds_saturates : out (with2 0x7FFFFFFF 1) (.iaddsS32 (r 4 20 21)) 0 4 = some 0x7FFFFFFF ∧
    out (with2 0x80000000 1) (.isubsS32 (r 4 20 21)) 0 4 = some 0x80000000 := by decide +kernel
theorem test_isad_adds : out base (.isadN32 (r 6 4 12)) 0 6 = some 14 := by decide +kernel
theorem test_idp4_signs : out base (.idp4S8 (rl 4 14 0 0x01020304)) 0 4 = some 0xFFFFFFFA := by decide +kernel
theorem test_lop3_table : out base (.lop3 (rl 6 4 12 0x96)) 0 6 = some 14 := by decide +kernel
theorem test_shl_all : out base (.shlI32 (rl 4 14 0 32)) 0 4 = some 0 ∧ out base (.shlI32 (rl 4 14 0 31)) 0 4 = some 0x80000000 := by decide +kernel
theorem test_sar_sign : out base (.sarI32 (rl 4 14 0 40)) 0 4 = some 0xFFFFFFFF ∧ out base (.shrI32 (rl 4 14 0 28)) 0 4 = some 15 := by decide +kernel
theorem test_rotl_modulo : out base (.rotlI32 (rl 4 6 0 33)) 0 4 = some 12 := by decide +kernel
theorem test_shf_pair : out base (.shf (rl 4 14 0 32)) 0 4 = some 15 := by decide +kernel
theorem test_counts : out base (.popcI32 (r 4 14 0)) 0 4 = some 32 ∧ out base (.clzI32 (r 4 10 0)) 0 4 = some 32 ∧ out base (.ctzI32 (r 4 12 0)) 0 4 = some 2 ∧
    out base (.brev (r 4 6 0)) 0 4 = some 0x60000000 := by decide +kernel
theorem test_bfe_signs : out base (.bfe (rl 4 6 0 0x00201)) 0 4 = some 3 ∧ out base (.bfe (rl 4 6 0 0x10201)) 0 4 = some 0xFFFFFFFF := by decide +kernel
theorem test_bfi_replaces : out base (.bfi (rl 14 10 0 0x0804)) 0 14 = some 0xFFFFF00F := by decide +kernel
theorem test_isetp_signs : outP base (.isetpS32 ⟨p0, 2, 3, 14, 6, none⟩) 0 3 = some true ∧ outP base (.isetpN32 ⟨p0, 2, 3, 14, 6, none⟩) 0 3 = some false := by
  decide +kernel
theorem test_sel_by_guard : out base (.sel ⟨pOff, 4, 6, 12, none⟩) 0 4 = some 12 := by decide +kernel
theorem test_guard_off_keeps : out base (.iaddI32 ⟨pOff, 4, 6, 12, none⟩) 0 4 = some 4 := by decide +kernel
theorem test_pmov_mask : outP base (.pmov ⟨p0, 4, 14, 0, some 2⟩) 0 1 = some true ∧ out base (.pmov ⟨p0, 4, 14, 0, some 2⟩) 0 4 = some 128 := by decide +kernel
theorem test_vote_ballot : out base (.vote (r 4 7 0)) 0 4 = some 3 := by decide +kernel
theorem test_mov_imm : out base (.movi ⟨p0, 4, 0x800⟩) 0 4 = some 0xFFFFF800 ∧ out base (.movk ⟨p0, 6, 0x7FF⟩) 0 6 = some 0x67FF := by decide +kernel
theorem test_gsr_tidx : out base (.gsr ⟨p0, 4, 0x000⟩) 1 4 = some 1 ∧ out base (.gsr ⟨p0, 4, 0x00E⟩) 1 4 = some 32 := by decide +kernel

/-- 1 + 2, 1 / 0, the square root of 4, and 2^24 + 1 rounded to even (IEEE 754). -/
theorem test_float_results : out (with2 0x3F800000 0x40000000) (.fadd (r 4 20 21)) 0 4 = some 0x40400000 ∧
    out (with2 0x3F800000 0) (.fdiv (r 4 20 21)) 0 4 = some 0x7F800000 ∧ out (with2 0x40800000 0) (.fsqrt (r 4 20 0)) 0 4 = some 0x40000000 ∧
    out (with2 16777217 0) (.i2f (r 4 20 0)) 0 4 = some 0x4B800000 := by decide +kernel
/-- Infinity minus infinity is the canonical NaN; −0 is less than +0 for FMIN (R178); 1e10 saturates as s32. -/
theorem test_float_corners : out (with2 0x7F800000 0x7F800000) (.fsub (r 4 20 21)) 0 4 = some 0x7FC00000 ∧
    out (with2 0x80000000 0) (.fmin (r 4 21 20)) 0 4 = some 0x80000000 ∧ out (with2 0x501502F9 0) (.f2i (r 4 20 0)) 0 4 = some 0x7FFFFFFF := by decide +kernel
/-- 1.0 in FP16 is 0x3C00, in the high half; the low half stays. -/
theorem test_f2h_half : out (with2 0x3F800000 0) (.f2h (r 14 20 2)) 0 14 = some 0x3C00FFFF := by decide +kernel
theorem test_shuffle_and_sum : (let s := withThreads fun t => t.setVs [(20, BitVec.ofNat 32 (100 + t.tidx))];
    out s (.shfli (rl 4 20 0 1)) 0 4 = some 101 ∧ out s (.graddI32 (r 4 20 0)) 0 4 = some 201 ∧ out s (.gscanI32 (r 4 20 0)) 1 4 = some 201 ∧
    out s (.gscanI32 (r 4 20 1)) 1 4 = some 100) := by decide +kernel

/-- The bytes at virtual address `va` of the small state after an instruction. -/
def outMem (s : State) (i : Instr) (va n : Nat) : List Byte := match exec i s with
  | .next t => t.peekPa (probePa + va) n
  | _ => []

theorem test_store_little_endian : outMem (with2 0x11223344 0) (.stB32 (rl 20 8 0 4)) 0x80004 5 = [0x44, 0x33, 0x22, 0x11, 0] := by decide +kernel
theorem test_store_byte : outMem (with2 0x11223344 0) (.stB8 (rl 20 8 0 1)) 0x80000 3 = [0, 0x44, 0] := by decide +kernel
/-- Two threads add 12 one after the other. -/
theorem test_atom_adds_twice : outMem base (.atom (rl 4 8 12 0)) 0x80000 4 = [24, 0, 0, 0] := by decide +kernel
theorem test_load_sign : (match exec (.ldS8 (r 4 8 10)) (stored base [(0x80000, [0x80])]) with
    | .next t => t.loads.map (·.vals)
    | _ => []) = [[0xFFFFFF80], [0xFFFFFF80]] := by decide +kernel

/-- Where thread `x` stands after an instruction. -/
def outPc (s : State) (i : Instr) (x : Nat) : Option Addr := match exec i s with
  | .next t => (t.thread? 1 0 x).map (·.pc)
  | _ => none

theorem test_next_slot : outPc base (.nop (r 0 0 0)) 0 = some 0x10008 ∧ outPc base (.mov (rl 4 0 0 1)) 0 = some 0x1000C := by decide +kernel
theorem test_bra_back : outPc base (.bra ⟨p0, -1, none⟩) 0 = some 0xFFF4 := by decide +kernel
theorem test_call_target : outPc base (.call ⟨p0, 0, 0, 0, 0, some 2⟩) 0 = some 0x10024 := by decide +kernel
theorem test_exit_ends : (match exec (.exit (r 0 0 0)) base with
    | .next t => t.teams.flatMap (·.threads) |>.all (·.exited)
    | _ => false) = true := by decide +kernel
/-- TRAP 5 with v12: slot 1 of the packet at HANDLER, TRAPC's cause 0x12 with SELF, TRAPV the register above the immediate. -/
theorem test_trap_enters : (match exec (.trap ⟨p0, 12, 5⟩) base with
    | .next t => (t.thread? 1 0 0).map fun th => (th.pc, th.handler, th.trapc, th.trapa, th.trapv)
    | _ => none) = some (0x11004, true, 0x00010012, 0x10004, 0x0000000C00000005) := by decide +kernel
theorem test_illegal_op : (match exec (.unassignedOpcode 0x4C (r 0 0 0)) base with
    | .next t => (t.thread? 1 0 0).map (·.trapc)
    | _ => none) = some 0x00010101 := by decide +kernel
theorem test_misaligned_traps : (match exec (.ldB64 (rl 4 8 0 4)) base with
    | .next t => (t.thread? 1 0 0).map fun th => (th.trapc, th.trapv)
    | _ => none) = some (0x00010107, 0x80004) := by decide +kernel
theorem test_rte_restores : (match exec (.rte (r 0 0 0)) (handled.updThreads 1 0 (fun _ => true) fun t => { t with trapc := 0x2A010012 }) with
    | .next t => (t.thread? 1 0 0).map fun th => (th.pc, th.handler, th.preds)
    | _ => none) = some (0x10004, false, 0x2A) := by decide +kernel

/-! ### Hypotheses met: integer, logic, predicates, moves -/

theorem test_IntegerResults_met : ∀ ins ∈ [Instr.iaddI32 (r 4 6 12), .iaddI64 (r 4 6 12), .isubI32 (r 4 6 12), .isubI64 (r 4 6 12), .imulI32 (r 4 6 12),
    .imulI64 (r 4 6 12), .imulhS32 (r 4 6 12), .imulhN32 (r 4 6 12), .imulhS64 (r 4 6 12), .imulhN64 (r 4 6 12), .imadI32 (r 4 6 12), .imadI64 (r 4 6 12),
    .iminS32 (r 4 6 12), .iminN32 (r 4 6 12), .iminS64 (r 4 6 12), .iminN64 (r 4 6 12), .imaxS32 (r 4 6 12), .imaxN32 (r 4 6 12), .imaxS64 (r 4 6 12),
    .imaxN64 (r 4 6 12), .iabsS32 (r 4 6 0), .iabsS64 (r 4 6 0), .inegI32 (r 4 6 0), .inegI64 (r 4 6 0), .isadN32 (r 4 6 12), .idp4S8 (r 4 6 12)],
    Meets ins fun _ _ _ => True := meets_all base (by decide +kernel)

theorem test_IntegerResults_divide_met : ∀ ins ∈ [Instr.iaddsS32 (r 4 6 12), .isubsS32 (r 4 6 12), .idivS32 (r 4 6 10), .idivS64 (r 4 6 10), .idivN32 (r 4 6 12),
    .idivN64 (r 4 6 12), .iremS32 (r 4 6 10), .iremS64 (r 4 6 10), .iremN32 (r 4 6 12), .iremN64 (r 4 6 12)], Meets ins fun _ _ _ => True :=
  meets_all base (by decide +kernel)

theorem test_LogicShiftResults_met : ∀ ins ∈ [Instr.and (r 4 6 12), .or (r 4 6 12), .xor (r 4 6 12), .andn (r 4 6 12), .not (r 4 6 0), .andI64 (r 4 6 12),
    .orI64 (r 4 6 12), .xorI64 (r 4 6 12), .lop3 (rl 4 6 12 0x96), .shlI32 (r 4 6 14), .shlI64 (r 4 6 14), .shrI32 (r 4 6 14), .shrI64 (r 4 6 14),
    .sarI32 (r 4 6 14), .sarI64 (r 4 6 14), .rotlI32 (r 4 6 14), .rotlI64 (r 4 6 14), .shf (r 4 6 12)], Meets ins fun _ _ _ => True :=
  meets_all base (by decide +kernel)

theorem test_LogicShiftResults_count_met : ∀ ins ∈ [Instr.popcI32 (r 4 6 0), .popcI64 (r 4 6 0), .clzI32 (r 4 6 0), .clzI64 (r 4 6 0), .ctzI32 (r 4 6 0),
    .ctzI64 (r 4 6 0), .brev (r 4 6 0), .bfe (r 4 6 12), .bfi (r 4 6 12)], Meets ins fun _ _ _ => True := meets_all base (by decide +kernel)

/-- A field at the top of the word, one that runs past it, the longest, and the empty one. -/
theorem test_BitRules_met : (∃ b : Word, ∃ k < 32, b.toNat % 256 ≤ k ∧ k < b.toNat % 256 + min (b.toNat / 256 % 256) 32) ∧
    (∃ b : Word, ∃ k < min (b.toNat / 256 % 256) 32, ¬(b.toNat % 256 + k < 32)) ∧
    (∃ b : Word, ∃ k < 32, 0 < min (b.toNat / 256 % 256) 32 ∧ min (b.toNat / 256 % 256) 32 ≤ k) ∧ ∃ b : Word, b.toNat / 256 % 256 = 0 :=
  ⟨⟨0x0000011F, 31, by decide, by decide, by decide⟩, ⟨0x0001021F, 1, by decide, by decide⟩, ⟨0x00001F00, 31, by decide, by decide, by decide⟩, ⟨0, rfl⟩⟩

theorem test_PredicateResults_met : ∀ ins ∈ [Instr.isetpS32 ⟨p0, 2, 6, 4, 12, none⟩, .isetpN32 ⟨p0, 7, 7, 4, 12, none⟩, .isetpS64 ⟨p0, 0, 0, 4, 12, none⟩,
    .isetpN64 ⟨p0, 5, 1, 4, 12, none⟩, .fsetp ⟨p0, 1, 2, 4, 12, none⟩, .plop (r 0x24 6 12), .sel (r 4 6 12), .pmov (r 4 6 12)], Meets ins fun _ _ _ => True :=
  meets_all base (by decide +kernel)

theorem test_GroupResults_met : ∀ ins ∈ [Instr.vote (r 4 6 0), .vote (r 4 6 3), .findmI32 (r 4 6 0), .findmI64 (r 4 6 7), .elect (r 4 0 0), .shfli (r 4 6 12),
    .shflu (r 4 6 1), .shfld (r 4 6 1), .shflx (r 4 6 1), .graddI32 (r 4 6 0), .grminS32 (r 4 6 0), .grmaxS32 (r 4 6 0), .gscanI32 (r 4 6 1),
    .cxchI32 (r 4 6 1), .cxchI64 (r 4 6 1), .mrnkI64 (r 4 6 1)], Meets ins fun _ _ _ => True := meets_all base (by decide +kernel)

theorem test_MoveResults_met : (∀ ins ∈ [Instr.nop (r 4 6 12), .mov (r 4 0 12), .movd (r 4 0 12), .movh (r 4 6 0), .movi ⟨p0, 4, 0x800⟩, .movk ⟨p0, 4, 0x7FF⟩],
    Meets ins fun _ _ _ => True) ∧
    Meets (.gsr ⟨p0, 4, 0x01A⟩) (fun _ _ _ => (0x01A : BitVec 12) ≠ 0x011) ∧ Meets (.gsr ⟨p0, 4, 0x011⟩) (fun _ _ _ => (0x011 : BitVec 12) = 0x011) ∧
    ∀ ins ∈ [Instr.ssr ⟨p0, 4, 0x018⟩, .ssr ⟨p0, 4, 0x019⟩, .ssr ⟨p0, 4, 0x01A⟩], Meets ins fun _ _ _ => True :=
  ⟨meets_all base (by decide +kernel), meets handled rfl (by decide +kernel) (by decide), meets base rfl (by decide +kernel) rfl,
    meets_all handled (by decide +kernel)⟩

/-! ### Hypotheses met: floating point -/

theorem test_FloatResults_met : ∀ ins ∈ [Instr.fadd (r 4 6 12), .fsub (r 4 6 12), .fmul (r 4 6 12), .ffma (r 4 6 12), .fmin (r 4 6 12), .fmax (r 4 6 12),
    .fabs (r 4 6 0), .fneg (r 4 6 0), .frnd (r 4 6 3), .hadd2 (r 4 6 12), .hmul2 (r 4 6 12), .hfma2 (r 4 6 12), .hmin2 (r 4 6 12), .hmax2 (r 4 6 12),
    .badd2 (r 4 6 12), .bmul2 (r 4 6 12), .bfma2 (r 4 6 12), .frcp (r 4 6 0), .frsq (r 4 6 0), .fsqrt (r 4 6 0), .fexp2 (r 4 6 0), .flog2 (r 4 6 0),
    .fsin (r 4 6 0), .fcos (r 4 6 0), .ftanh (r 4 6 0), .fdiv (r 4 6 12)], Meets ins fun _ _ _ => True := meets_all base (by decide +kernel)

theorem test_ConvertResults_met : Meets (.f2i (r 4 6 1)) (fun v _ _ => v.b.toNat % 4 ≤ 1) ∧ Meets (.f2i (r 4 6 2)) (fun v _ _ => 2 ≤ v.b.toNat % 4) ∧
    ∀ ins ∈ [Instr.i2f (r 4 6 3), .f2h (r 4 6 3), .h2f (r 4 6 3), .fscl (r 4 6 12), .fcls (r 4 6 0), .fxcvt (r 4 8 12), .fmxs (r 4 6 0), .f2q (rl 4 6 12 0),
      .q2f (rl 4 6 12 0), .graddF32 (r 4 6 0)], Meets ins fun _ _ _ => True :=
  ⟨meets base rfl (by decide +kernel) (by decide +kernel), meets base rfl (by decide +kernel) (by decide +kernel), meets_all base (by decide +kernel)⟩

/-- The largest finite number of each format, R55 and R56. -/
theorem test_FormatRoundTrip_met : ∀ x ∈ [(fp32, 0x7F7FFFFF), (fp16, 0x7BFF), (bf16, 0x7F7F), (e4m3, 0x7E), (e5m2, 0x7B), (e2m1, 7)],
    x.2 < 2 * x.1.signBit ∧ x.1.val x.2 ≠ .nan := by decide +kernel

/-- Values that are no pattern's: below and at the half-way point past FP16's greatest value, and past E4M3's (IEEE 754; R56, R57); 5/2 and 7/2 in E2M1
round to even. -/
theorem test_FormatRoundTrip_rounds_met : fp16.enc (.fin false 65519 0) = 0x7BFF ∧ fp16.enc (.fin false 65520 0) = 0x7C00 ∧ e4m3.enc (.fin true 500 0) = 0xFE ∧
    e2m1.enc (.fin false 5 (-1)) = 4 ∧ e2m1.enc (.fin false 7 (-1)) = 6 ∧ e4m3.inf = false ∧ fp16.inf = true := by decide +kernel

theorem test_FloatSpecialCases_met : ∃ (m : Nat) (e : Int), m ≠ 0 ∧ (FV.fin true m e).sqrt = .nan := ⟨1, -149, by decide, by decide +kernel⟩

/-! ### Hypotheses met: memory -/

theorem test_LoadStoreResults_met :
    (∀ x ∈ [(Instr.ldB8 (r 4 8 7), 1), (.ldS8 (r 4 8 7), 1), (.ldB16 (r 4 8 12), 2), (.ldS16 (r 4 8 12), 2), (.ldB32 (r 4 8 12), 4), (.ldB64 (rl 4 8 0 8), 8),
      (.ldB128 (rl 4 8 0 0xFF0), 16)], Meets x.1 fun v i s => i.allClear s x.2 .read 1 (plainEa v) ∧ i.hostFree s .read (i.accesses s x.2 .read 1 (plainEa v))) ∧
    Meets (.mwatch (r 4 8 12)) (fun v i s => i.allClear s 4 .watch 2 (plainEa v) ∧ i.hostFree s .watch (i.accesses s 4 .watch 2 (plainEa v))) ∧
    ∀ x ∈ [(Instr.stB8 (r 4 8 7), 1), (.stB16 (r 4 8 12), 2), (.stB32 (r 4 8 12), 4), (.stB64 (rl 4 8 0 8), 8), (.stB128 (rl 4 8 0 0xFF0), 16)],
      Meets x.1 fun v i s => i.allClear s x.2 .write 1 (plainEa v) := by
  refine ⟨?_, meets base rfl (by decide +kernel) ⟨by unfold Iss.allClear; decide +kernel, nofun⟩, ?_⟩
  · simp only [List.forall_mem_cons, List.not_mem_nil, false_implies, implies_true, and_true]
    repeat' apply And.intro
    all_goals exact meets base rfl (by decide +kernel) ⟨by unfold Iss.allClear; decide +kernel, by unfold Iss.hostFree; decide +kernel⟩
  · simp only [List.forall_mem_cons, List.not_mem_nil, false_implies, implies_true, and_true]
    repeat' apply And.intro
    all_goals exact meets base rfl (by decide +kernel) (by unfold Iss.allClear; decide +kernel)

/-- The small state with tile 1 READY over 256 bytes at 0x80000. -/
def tiled : State := base.updTile 0 1 fun _ => { base := 0x80000, size := 256, st := .ready }

/-- The last four bytes of the region (offset v12 = 12, and 240). -/
theorem test_TileAccessResults_met : ∀ x ∈ [(Instr.ldt (rl 4 1 12 0x0000F004), AccKind.read), (.stt (rl 4 1 12 0x0000F004), .write)], Meets x.1 fun v i s =>
    i.act ≠ [] ∧ v.a.toNat < i.desc.tiles ∧ (s.tile i.team.core (i.team.tileBase + v.a.toNat)).st = .ready ∧
    (∀ t ∈ i.doers, let off := ((v.rb32 t).toNat : Int) + (v.lw.extractLsb' 8 24).toInt
      0 ≤ off ∧ off + wdBytes (v.lw.toNat % 8) ≤ (s.tile i.team.core (i.team.tileBase + v.a.toNat)).size ∧ off % wdBytes (v.lw.toNat % 8) = 0) ∧
    let ea := fun t => BitVec.ofInt 64 ((s.tile i.team.core (i.team.tileBase + v.a.toNat)).base + (((v.rb32 t).toNat : Int) + (v.lw.extractLsb' 8 24).toInt))
    i.allClear s (wdBytes (v.lw.toNat % 8)) x.2 1 ea ∧ i.hostFree s x.2 (i.accesses s (wdBytes (v.lw.toNat % 8)) x.2 1 ea) := by
  simp only [List.forall_mem_cons, List.not_mem_nil, false_implies, implies_true, and_true]
  exact ⟨meets tiled rfl (by decide +kernel) (by unfold Iss.allClear Iss.hostFree; decide +kernel),
    meets tiled rfl (by decide +kernel) (by unfold Iss.allClear Iss.hostFree; decide +kernel)⟩

/-- The last word of the page, with the negative offset −8 (bits [31:8]) in the 64-bit forms. -/
theorem test_AtomicResults_met : ∀ x ∈ [(Instr.atom (rl 4 8 12 0x000FFC00), 4), (.atom64 (rl 4 8 12 0xFFFFF808), 8), (.acas (rl 4 8 12 0x000FFC00), 4),
    (.acas64 (rl 4 8 12 0xFFFFF800), 8), (.afadd (rl 4 8 12 0), 4), (.red (rl 0 8 12 0x00000407), 4), (.red64 (rl 0 8 12 0x00000807), 8)],
    Meets x.1 fun v i s => i.allClear s x.2 .atomic 1 (atomicEa v) := by
  simp only [List.forall_mem_cons, List.not_mem_nil, false_implies, implies_true, and_true]
  repeat' apply And.intro
  all_goals exact meets base rfl (by decide +kernel) (by unfold Iss.allClear; decide +kernel)

/-- PREF, SYNC with no system-view access outstanding, MWAIT with no watch, and cache maintenance of no byte. -/
theorem test_OrderingResults_met : Meets (.pref (r 0 8 12)) (fun _ _ _ => True) ∧
    Meets (.sync (r 0 0 3)) (fun v i s => v.b.toNat % 4 = 3 → (∀ l ∈ s.loads, l.sysview.isSome → l.team = i.team.uid → ∀ x ∈ l.tidxs, x ∉ i.acts) ∧
      ∀ x ∈ s.stores, x.sysview.isSome → x.op.isNone → x.team = i.team.uid → ∀ y ∈ x.orders, y ∉ i.acts) ∧
    Meets (.mwait (r 4 0 12)) (fun v i s => ∀ t ∈ i.doers, ∃ st, mwaitTest s.time (v.b32 t) t = .mwaitDone st) ∧
    Meets (.cwb (r 0 8 10)) (fun v i _ => (∀ t ∈ i.act, t.wait = .run) ∧ ∀ t ∈ i.doers, v.b32 t = 0) ∧
    Meets (.cinv (r 0 8 10)) (fun v i _ => (∀ t ∈ i.act, t.wait = .run) ∧ ∀ t ∈ i.doers, v.b32 t = 0) ∧
    ∀ ins ∈ [Instr.cwb (r 0 8 12), .cinv (r 0 8 12)], Meets ins fun _ i _ => ∃ t ∈ i.act, t.wait = .cacheDone :=
  ⟨meets base rfl (by decide +kernel) trivial, meets base rfl (by decide +kernel) (fun _ => ⟨fun l h => (nomatch (show l ∈ [] from h)), fun x h => (nomatch (show x ∈ [] from h))⟩),
    meets base rfl (by decide +kernel) (by
      have : ∀ t ∈ (issue base (devOf (.mwait (r 4 0 12)))).doers, mwaitTest base.time ((devOf (.mwait (r 4 0 12))).b32 t) t = .mwaitDone 2 := by decide +kernel
      exact fun t ht => ⟨2, this t ht⟩),
    meets base rfl (by decide +kernel) (by decide +kernel), meets base rfl (by decide +kernel) (by decide +kernel),
    by
      simp only [List.forall_mem_cons, List.not_mem_nil, false_implies, implies_true, and_true]
      exact ⟨meets (withThreads fun t => { t with wait := .cacheDone }) rfl (by decide +kernel) (by decide +kernel),
        meets (withThreads fun t => { t with wait := .cacheDone }) rfl (by decide +kernel) (by decide +kernel)⟩⟩

/-- A watch unseen, with the bounds 0, 1, 2^32 − 2 and without bound. -/
theorem test_mwait_bounds : let t : Thread := { thr 0 with watch := some ⟨5, false⟩ }
    t.wait = .run ∧ mwaitTest 7 0 t = .mwaitDone 0 ∧ mwaitTest 7 1 t = .mwait (some 8) ∧ mwaitTest 7 0xFFFFFFFE#32 t = .mwait (some (7 + 0xFFFFFFFE)) ∧
    mwaitTest 7 0xFFFFFFFF#32 t = .mwait none ∧ mwaitTest 7 0 { t with watch := some ⟨5, true⟩ } = .mwaitDone 1 := by decide +kernel

/-- v4 + v12 of two threads: a misaligned pair of addresses traps with ALIGN. -/
theorem test_MemoryTraps_met : canIssue base (devOf (.ldB64 (r 4 8 12))) = true ∧
    (∃ tr, memTrap ((issue base (devOf (.ldB64 (r 4 8 12)))).doers.map fun t =>
      (t, plainEa (devOf (.ldB64 (r 4 8 12))) t, (resolve base (.thread 1 t.tidx) (plainEa (devOf (.ldB64 (r 4 8 12))) t) 8 .read 1).1)) = some tr) ∧
    (resolve base (.thread 1 0) 0x20004 8 .read 1).1 = [⟨7, 1⟩] ∧ (resolve base (.thread 1 0) 0x0100000000000000 8 .read 1).1 = [⟨0xA, 1⟩] ∧
    (Agent.ctx (.thread 1 0) base).isSome = true :=
  ⟨by decide +kernel, Option.isSome_iff_exists.mp (by decide +kernel), by decide +kernel, by decide +kernel, by decide +kernel⟩

/-! ### Hypotheses met: control flow -/

/-- Thread 1 has p0, and the packet at 0x10090 begins a clause. -/
def forked : State :=
  let s := withThreads fun t => t.setP 0 (t.tidx == 1)
  { s with mem := Memory.puts s.mem (paCells (probePa + 0x10090) (toLe 4 0xFF80A)) }

/-- BRA back, a BRA with a reconvergence literal, BRX, and BRI to an aligned address. -/
theorem test_BranchResults_met : Meets (.bra ⟨p0, -1, none⟩) (fun _ _ _ => True) ∧ Meets (.bra ⟨pOff, 5, some 9⟩) (fun _ _ _ => True) ∧
    Meets (.brx ⟨p0, 5, none⟩) (fun _ _ _ => True) ∧ Meets (.bri (r 0 8 0)) (fun _ _ _ => True) :=
  ⟨meets base rfl (by decide +kernel) trivial, meets forked rfl (by decide +kernel) trivial,
    meets base rfl (by decide +kernel) trivial, meets base rfl (by decide +kernel) trivial⟩

/-- Two threads that part under a reconvergence literal push one pair that lists both. -/
theorem test_BranchTargets_met : let s := forked
    let i := issue s (devOf (.bra ⟨pOff, 5, some 9⟩))
    i.dev.lit = some 9 ∧ i.acts = [1] ∧ i.cos = [0, 1] ∧
    ((i.leave s fun t => if t.tidx ∈ i.acts then some 0x10054 else none).group? 1 0).map (fun g => g.threads.map fun t => (t.pc, t.rejoin.map fun p => (p.pc, p.mask))) =
      some [(0x10014, [(0x10094, [0, 1])]), (0x10054, [(0x10094, [0, 1])])] := by decide +kernel

/-- R31's worked example: two groups of 32 threads meet, A (0x1000) receives group 0 and B (0x2000) group 2. Before and after by lane. -/
theorem test_BranchTargets_repack_met :
    let ths := [(0, 2), (16, 1), (64, 1), (80, 2), (1, 1), (17, 1), (65, 2), (2, 2), (66, 1), (82, 2), (3, 1), (19, 2), (67, 2), (83, 1)].map fun x =>
      (BitVec.ofNat 64 (x.2 * 0x1000), x.1 / 32, { thr x.1 with lane := x.1 % 16, slot := x.1 / 16 % 2 })
    let d : Desc := { probeDesc with tsize := 128 }
    [0, 2].Nodup ∧ (∀ x ∈ ths, x.2.2.lane < 16) ∧ (∀ l < 16, (ths.filter fun x => x.2.2.lane == l).length ≤ (slotsOf d [0, 2] l).length) ∧
    (repack d [0, 2] ths).map (fun y => (y.2.lane, y.1, y.2.slot, y.2.tidx)) =
      [(0, 0, 0, 16), (0, 0, 1, 64), (0, 2, 0, 0), (0, 2, 1, 80), (1, 0, 0, 1), (1, 0, 1, 17), (1, 2, 0, 65), (2, 0, 0, 66), (2, 2, 0, 2), (2, 2, 1, 82),
       (3, 0, 0, 3), (3, 0, 1, 83), (3, 2, 0, 19), (3, 2, 1, 67)] := by decide +kernel

/-- CALL with a frame of 64 registers, CALLI with the link granule v56 to v63. -/
theorem test_FrameResults_met :
    Meets (.call ⟨p0, 7, 0, 0, 0, some 5⟩) (fun v i s => (∀ t ∈ i.act, t.depth ≠ 255) ∧ (∀ q ∈ s.frameReqs, ¬(q.team = i.team.uid ∧ q.gidx = i.grp.gidx)) ∧
      s.canGrant i.team.core i.grp.part s.seq (laneNeeds (i.act.map fun t => (t.lane, v.d.toNat / 8 + 1, 1))) = true) ∧
    Meets (.calli ⟨p0, 0, 7, 8, 0, none⟩) (fun v i s => (∀ t ∈ i.act, t.depth ≠ 255) ∧
      (∀ q ∈ s.frameReqs, ¬(q.team = i.team.uid ∧ q.gidx = i.grp.gidx)) ∧
      s.canGrant i.team.core i.grp.part s.seq (laneNeeds (i.act.map fun t => (t.lane, v.d.toNat / 8 + 1, 1))) = true) ∧
    (∀ gr, base.group? team.uid grp.gidx = some gr → ∀ t ∈ gr.threads, t.tidx ∈ [0, 1] → t.frame.place = .bank) ∧
    Meets (.ret (r 0 0 0)) (fun _ i _ => ∀ t ∈ i.act, t.depth ≠ 0) ∧
    Meets (.unwind (r 0 0 10)) (fun v i _ => ∀ t ∈ i.act, (v.b32 (i.src t)).toNat < t.depth) ∧
    Meets (.frsz (rl 0 0 0 64)) (fun v i s => (∀ t ∈ i.act, (v.b32 (i.src t)).toNat % 8 = 0 ∧ 8 ≤ (v.b32 (i.src t)).toNat ∧ (v.b32 (i.src t)).toNat ≤ 64) ∧
      (∀ q ∈ s.frameReqs, ¬(q.team = i.team.uid ∧ q.gidx = i.grp.gidx)) ∧
      s.canGrant i.team.core i.grp.part s.seq (laneNeeds ((i.act.filter fun t => t.size < (v.b32 (i.src t)).toNat).map fun t =>
        (t.lane, ((v.b32 (i.src t)).toNat - t.size) / 8, 0))) = true) ∧
    Meets (.frsz (rl 0 0 0 8)) (fun v i _ => ∀ t ∈ i.act, (v.b32 (i.src t)).toNat % 8 = 0 ∧ 8 ≤ (v.b32 (i.src t)).toNat ∧ (v.b32 (i.src t)).toNat ≤ 64) ∧
    Meets (.frsz (r 0 0 16)) (fun v i s => (∀ t ∈ i.act, (v.b32 (i.src t)).toNat % 8 = 0 ∧ 8 ≤ (v.b32 (i.src t)).toNat ∧ (v.b32 (i.src t)).toNat ≤ 64) ∧
      let grows := laneNeeds ((i.act.filter fun t => t.size < (v.b32 (i.src t)).toNat).map fun t => (t.lane, ((v.b32 (i.src t)).toNat - t.size) / 8, 0))
      let gives := laneNeeds ((i.act.filter fun t => (v.b32 (i.src t)).toNat < t.size).map fun t => (t.lane, (t.size - (v.b32 (i.src t)).toNat) / 8, 0))
      grows ≠ [] ∧ gives ≠ [] ∧ s.frameReqs = [] ∧
      (s.askFrames i.team.uid i.grp.gidx i.team.core i.grp.part .frsz [] grows gives).canGrant i.team.core i.grp.part s.seq grows = true) :=
  let deep := withThreads fun t => t.call 64 0 0x10014 0x10004
  ⟨meets base rfl (by decide +kernel) (by decide +kernel), meets base rfl (by decide +kernel) (by decide +kernel),
    fun gr h => by
      have e : base.group? team.uid grp.gidx = some grp := by decide +kernel
      obtain rfl : grp = gr := Option.some.inj (e.symm.trans h)
      decide +kernel,
    meets deep rfl (by decide +kernel) (by decide +kernel), meets deep rfl (by decide +kernel) (by decide +kernel),
    meets (withThreads fun t => t.updFrame fun f => { f with regs := f.regs.take 16 }) rfl (by decide +kernel) (by decide +kernel),
    meets base rfl (by decide +kernel) (by decide +kernel),
    meets (withThreads fun t => (t.setVs [(16, if t.tidx = 0 then 40 else 32)]).updFrame fun f => { f with regs := if t.tidx = 0 then f.regs.take 24 else f.regs })
      rfl (by decide +kernel) (by decide +kernel)⟩

theorem test_CallReturn_met : (thr 0).frames ≠ [] ∧ 56 + 8 ≤ (thr 0).size ∧ (((thr 0).call 8 56 0x10014 0x20004).popTo 0 true).frames = (thr 0).frames := by
  decide +kernel

theorem test_PauseResults_met : (∀ ins ∈ [Instr.exit (r 0 0 0), .yield (r 0 0 0)], Meets ins fun _ _ _ => True) ∧
    Meets (.sleep (r 0 0 12)) (fun v i s => ∀ t ∈ i.act, match t.wait with
      | .slept => True
      | .sleep u => u ≤ s.time
      | _ => v.b32 (i.src t) = 0) ∧
    Meets (.sleep (r 0 0 10)) (fun v i s => ∀ t ∈ i.act, match t.wait with
      | .slept => True
      | .sleep u => u ≤ s.time
      | _ => v.b32 (i.src t) = 0) ∧
    Meets (.sleep (r 0 0 12)) (fun v i _ => i.act ≠ [] ∧ ∀ t ∈ i.act, t.wait = .run ∧ v.b32 (i.src t) ≠ 0) := by
  refine ⟨meets_all base (by decide +kernel), meets (withThreads fun t => { t with wait := .sleep 1000 }) rfl (by decide +kernel) ?_,
    meets base rfl (by decide +kernel) ?_, meets base rfl (by decide +kernel) (by decide +kernel)⟩
  · have : ∀ t ∈ (issue (withThreads fun t => { t with wait := .sleep 1000 }) (devOf (.sleep (r 0 0 12)))).act, t.wait = .sleep 1000 := by decide +kernel
    intro t ht
    simp only [this t ht]
    decide
  · have : ∀ t ∈ (issue base (devOf (.sleep (r 0 0 10)))).act, t.wait = .run ∧ (devOf (.sleep (r 0 0 10))).b32 ((issue base (devOf (.sleep (r 0 0 10)))).src t) = 0 := by
      decide +kernel
    intro t ht
    simp only [(this t ht).1]
    exact (this t ht).2

/-- The team once both threads have arrived at barrier 15 with the count 2. -/
def arrived : Option Team :=
  ((base.updTeam 1 fun t => [(0, 2), (1, 2)].foldl (fun t p => t.arrive 0 p.1 15 p.2) t).meet 1).team? 1

/-- Arrivals at barrier 15 with the count 2: the second completes the phase; each thread then waits for phase 0's end. -/
theorem test_BarrierResults_met :
    Meets (.bara (rl 15 0 0 2)) (fun v i _ => (∀ t ∈ i.act, (v.b32 (i.src t)).toNat ≤ 2048) ∧
      arriveConflict i.grp.gidx (v.d.toNat % 16) i.team (i.act.map fun t => (t.tidx, (v.b32 (i.src t)).toNat)) = false) ∧
    Meets (.barw (r 15 0 0)) (fun v i s => ∃ t, s.team? i.team.uid = some t ∧ ∀ th ∈ t.threads, th.tidx ∈ i.acts →
      ∃ ph, ph ≠ (t.bar (v.d.toNat % 16)).ph ∧
        (th.wait = .bar (v.d.toNat % 16) ph ∨ ((∀ b p, th.wait ≠ .bar b p) ∧ tget th.arrivals (v.d.toNat % 16) = some ph))) ∧
    Meets (.bar (rl 15 0 0 2)) (fun v i s =>
      let counts := i.act.map fun t => (t.tidx, (v.b32 (i.src t)).toNat)
      (∀ t ∈ i.act, t.wait = .run) ∧ (∀ t ∈ i.act, (v.b32 (i.src t)).toNat ≤ 2048) ∧ arriveConflict i.grp.gidx (v.d.toNat % 16) i.team counts = false ∧
      ∃ t, ((s.updTeam i.team.uid fun t => counts.foldl (fun t p => t.arrive i.grp.gidx p.1 (v.d.toNat % 16) p.2) t).meet i.team.uid).team? i.team.uid = some t ∧
        ∀ th ∈ t.threads, th.tidx ∈ i.acts → ∃ ph, ph ≠ (t.bar (v.d.toNat % 16)).ph ∧
          (th.wait = .bar (v.d.toNat % 16) ph ∨ ((∀ b p, th.wait ≠ .bar b p) ∧ tget th.arrivals (v.d.toNat % 16) = some ph))) ∧
    Meets (.gsync (r 0 0 0)) (fun v i s => ∀ t ∈ i.nowActs (i.standAt s (.gsync (v.b.getLsbD 0))), t.wait = .passed) ∧
    Meets (.gsync (r 0 0 1)) (fun v i s => ∀ t ∈ i.nowActs (i.standAt s (.gsync (v.b.getLsbD 0))), t.wait = .passed) := by
  refine ⟨meets base rfl (by decide +kernel) (by decide +kernel), meets (withTeam fun t =>
      ({ t with bars := tset t.bars 15 { ph := 1 } } : Team).updGroup 0 fun g => { g with threads := g.threads.map fun th => { th with arrivals := [(15, 0)] } })
      rfl (by decide +kernel) ?_, meets base rfl (by decide +kernel) ⟨by decide +kernel, by decide +kernel, by decide +kernel, ?_⟩,
    meets base rfl (by decide +kernel) (by decide +kernel), meets base rfl (by decide +kernel) (by decide +kernel)⟩
  · refine ⟨_, rfl, ?_⟩
    have h : ∀ th ∈ [({ thr 0 with arrivals := [(15, 0)] } : Thread), { thr 1 with arrivals := [(15, 0)] }], th.wait = .run ∧ tget th.arrivals 15 = some 0 := by
      decide +kernel
    intro th hth _
    have := h th hth
    exact ⟨0, by decide +kernel, .inr ⟨fun b p => by simp [this.1], this.2⟩⟩
  · have h : ∀ th ∈ (arrived.getD team).threads, th.wait = .run ∧ tget th.arrivals 15 = some 0 ∧ ((arrived.getD team).bar 15).ph ≠ 0 := by decide +kernel
    refine ⟨arrived.getD team, ?_, fun th hth _ => ⟨0, fun e => (h th hth).2.2 e.symm, .inr ⟨fun b p => by simp [(h th hth).1], (h th hth).2.1⟩⟩⟩
    have e : arrived.isSome = true := by decide +kernel
    obtain ⟨t, ht⟩ := Option.isSome_iff_exists.mp e
    exact ht.trans (by simp [ht])

/-! ### Hypotheses met: causes, traps, frames -/

/-- No word-level cause. -/
def clean (s : State) (i : Iss) : Bool := (i.packetTrap s).isNone && (i.wordTrap s).isNone

/-- A BRI whose target is pending; a BRI to no packet; a literal where none may stand; a frame that is away; a marked register that is read, a full
flag; a difference under UCHK; a failed destination that is read. -/
theorem test_IssueOrder_met :
    (let s := withThreads fun t => t.setReg 8 { val := 0, tag := .mark }
     let i := issue s (devOf (.bri (r 0 8 0)))
     (issueOf s (devOf (.bri (r 0 8 0)))).isSome = true ∧ i.dev.op = 0xB2 ∧ i.mustWait = true) ∧
    (let s := withThreads fun t => t.setReg 12 { val := 0, tag := .mark }
     let i := issue s (devOf (.kdecl (r 1 0 12)))
     testsOperand i.dev.op.toNat = true ∧ i.mustWait = true) ∧
    (let s := set [(8, 0x80004)]
     let i := issue s (devOf (.bri (r 0 8 0)))
     i.mustWait = false ∧ (i.packetTrap s).isSome = true) ∧
    (let i := issue base (devOf (.iabsS32 (r 4 6 12))); i.packetTrap base = none ∧ (i.wordTrap base).isSome = true) ∧
    (let s := withThreads fun t => t.updFrame fun f => { f with place := .spill }
     let i := issue s (devOf (.iaddI32 (r 4 6 12)))
     clean s i = true ∧ i.away s ≠ []) ∧
    (let s := withThreads fun t => t.setReg 6 { val := 0, tag := .mark }
     let i := issue s (devOf (.iaddI32 (r 4 6 12)))
     clean s i = true ∧ i.away s = [] ∧ i.mustWait = true) ∧
    (let s := base.updGroup 1 0 fun g => { g with flags := g.flags.set 3 7, clause := g.clause.map fun c => { c with seta := 3 } }
     let i := issue s (devOf (.ldB32 (r 4 8 12)))
     clean s i = true ∧ i.away s = [] ∧ i.flagFull = true) ∧
    (let s := (withDesc fun d => { d with uchk := true }).updThreads 1 0 (fun t => t.tidx == 1) (·.setVs [(6, 99)])
     let i := issue s (devOf (.iaddI32 ⟨pU, 4, 6, 12, none⟩))
     clean s i = true ∧ i.away s = [] ∧ i.mustWait = false ∧ i.flagFull = false ∧ i.uniformHits.isSome = true) ∧
    (let s := withThreads fun t => t.setReg 6 { val := 0, tag := .failed 3 0x20000 0xB 1 none }
     let i := issue s (devOf (.iaddI32 (r 4 6 12)))
     clean s i = true ∧ i.away s = [] ∧ i.mustWait = false ∧ i.flagFull = false ∧ i.uniformHits = none ∧ i.failed.isSome = true) := by decide +kernel

/-- ILLEG, of a BRX with a rejoin stack too, LITMISS, BADREG (an odd pair, and a pair that ends past the frame), and no cause; a branch with and
without a reconvergence PC, a CALLI, an RTE in handler state. -/
theorem test_WordCauses_met :
    (issue base (devOf (.iabsS32 (r 4 6 12)))).illeg.isSome = true ∧
    (let s := withThreads fun t => { t with rejoin := [⟨0x10094, [0, 1], 0, 1⟩] }
     (issue s (devOf (.brx ⟨p0, 5, none⟩))).illeg = some 0xB) ∧
    (let i := issue base (devOf (.lop3 (r 4 6 12))); i.illeg = none ∧ i.dev.spec.litMissing = true) ∧
    (let i := issue base (devOf (.iaddI64 (r 5 6 12))); i.illeg = none ∧ i.dev.spec.litMissing = false ∧ (i.wordTrap base).map (·.cause) = some 3) ∧
    (let s := withThreads fun t => t.updFrame fun f => { f with regs := f.regs.take 8 }
     let i := issue s (devOf (.iaddI32 (r 8 6 7)))
     i.illeg = none ∧ i.dev.spec.litMissing = false ∧ i.readable = true ∧ i.operIlleg s = none ∧ (i.wordTrap s).map (·.cause) = some 3) ∧
    (let i := issue base (devOf (.kdecl (rl 1 0 0 2049))); i.illeg = none ∧ i.dev.spec.litMissing = false ∧ i.readable = true ∧ i.operIlleg base = some (8, [0])) ∧
    (let s := withThreads fun t => t.updFrame fun f => { f with regs := f.regs.take 8 }
     let i := issue s (devOf (.kdecl (r 1 0 12)))
     i.illeg = none ∧ i.dev.spec.litMissing = false ∧ i.readable = false ∧ (i.wordTrap s).map (·.cause) = some 3) ∧
    (let i := issue base (devOf (.bri (r 0 8 0))); i.dev.op = 0xB2 ∧ i.lead.isSome = true ∧ ∀ t ∈ i.co, (i.dev.a64 (i.src t)).toNat % 16 = 0) ∧
    unassigned 0x4C = true ∧ (issue base (devOf (.nop (r 63 63 63)))).dev.op = 0 ∧
    (let i := issue base (devOf (.bra ⟨pOff, 5, some 9⟩)); i.dev.op = 0xB0 ∧ i.dev.lit = some 9 ∧ (i.headerAt base (i.offPc 9)).isSome = true) ∧
    (issue base (devOf (.calli ⟨p0, 0, 7, 8, 0, none⟩))).dev.op = 0xB4 ∧
    (let i := issue handled (devOf (.rte (r 0 0 0))); i.dev.op = 0xF7 ∧ ∀ t ∈ i.co, t.handler = true) := by decide +kernel

theorem test_TrapResults_met : Meets (.trap ⟨p0, 4, 0xFFF⟩) (fun _ i _ => i.act ≠ []) ∧ Meets (.trap ⟨pOff, 4, 0⟩) (fun _ i _ => i.act = []) ∧
    Meets (.bkpt (r 0 0 0)) (fun _ i _ => i.desc.handler ≠ 0 ∨ ∃ t ∈ i.co, t.handler = true) ∧
    Meets (.bkpt (r 0 0 0)) (fun _ i _ => i.desc.handler = 0 ∧ ∀ t ∈ i.co, t.handler = false) ∧
    (∀ w ∈ [r 0 0 0, r 0 0 1], Meets (.rte w) fun v _ _ => v.b.toNat % 4 ≤ 1) ∧
    Meets (.rte (r 0 10 2)) (fun v i _ => v.b.toNat % 4 = 2 ∧ ∀ t ∈ i.act, (v.a32 (i.src t)).toNat < t.depth) ∧
    Meets (.gtr ⟨pOff, 0, 0, 12, none⟩) (fun _ i _ => i.act = []) ∧
    Meets (.gtr (r 0 0 12)) (fun v i _ => i.lead = some (thr 0) ∧ v.d.toNat % 4 = 0) ∧
    Meets (.gtr (r 1 0 12)) (fun v i _ => i.lead = some (thr 0) ∧ v.d.toNat % 4 = 1) ∧
    (unassigned 0xFF = true ∧ (issueOf base ((r 1 2 3).dev 0xFF)).isSome = true) := by
  refine ⟨meets base rfl (by decide +kernel) (by decide +kernel), meets base rfl (by decide +kernel) (by decide +kernel),
    meets base rfl (by decide +kernel) (by decide +kernel), meets (withDesc fun d => { d with handler := 0 }) rfl (by decide +kernel) (by decide +kernel), ?_,
    meets (handled.updThreads 1 0 (fun _ => true) fun t => t.call 64 0 0x10014 0x10004) rfl (by decide +kernel) (by decide +kernel),
    meets base rfl (by decide +kernel) (by decide +kernel), meets base rfl (by decide +kernel) (by decide +kernel),
    meets base rfl (by decide +kernel) (by decide +kernel), by decide +kernel⟩
  simp only [List.forall_mem_cons, List.not_mem_nil, false_implies, implies_true, and_true]
  exact ⟨meets handled rfl (by decide +kernel) (by decide +kernel), meets handled rfl (by decide +kernel) (by decide +kernel)⟩

theorem test_TrapEntry_met : base.team? 1 = some team ∧ team.group? 0 = some grp ∧ team.killed = false ∧ team.desc.handler ≠ 0 ∧
    (∀ th ∈ grp.threads, th.tidx ∈ [0, 1] → th.handler = false) ∧ (trapOf 7 255 [1] 0x20001).chn < 8 ∧ (trapOf 7 255 [1] 0x20001).cause < 256 ∧
    (trapOf 7 255 [1] 0x20001).sub < 256 ∧ ∀ h ∈ (trapOf 7 255 [1] 0x20001).hits, h.sub < 256 := by decide +kernel

/-- A team that was killed; one in handler state; one without a handler, at an ENGINE trap and at BKPT. -/
theorem test_TrapKills_met : (∃ t g, (withTeam fun t => { t with killed := true }).team? 1 = some t ∧ t.group? 0 = some g ∧ t.killed = true) ∧
    (∃ t g, handled.team? 1 = some t ∧ t.group? 0 = some g ∧ t.killed = false ∧ ∃ th ∈ g.threads, th.tidx ∈ [0] ∧ th.handler = true) ∧
    ∃ t g, (withDesc fun d => { d with handler := 0 }).team? 1 = some t ∧ t.group? 0 = some g ∧ t.killed = false ∧
      (∀ th ∈ g.threads, th.tidx ∈ [0] → th.handler = false) ∧ t.desc.handler = 0 ∧ (0xD : Nat) ≠ 0x13 :=
  ⟨⟨_, _, rfl, rfl, rfl⟩, ⟨(handled.team? 1).getD team, _, by decide +kernel, rfl, by decide +kernel, by decide +kernel⟩,
    ⟨_, _, rfl, rfl, rfl, by decide +kernel, rfl, by decide⟩⟩

theorem test_TrapEntry_return_met : (7 : Nat) < 8 ∧ (255 : Nat) < 256 ∧ trapcWord 0x55 7 false true 255 0x13 = 0x5571FF13#32 := by decide +kernel

theorem test_AsyncOrder_met : ∃ a : Async, a.user = none ∧ a.budget = none ∧ a.energy = none ∧ a.throttle = some 1 := ⟨{ throttle := some 1 }, rfl, rfl, rfl, rfl⟩

theorem test_RegisterFrame_met : canIssue base (devOf (.iaddI64 (r 62 6 12))) = true ∧ (devOf (.iaddI64 (r 62 6 12))).op.toNat ≤ 0x8B ∧
    unassigned (devOf (.iaddI64 (r 62 6 12))).op.toNat = false ∧ (issue base (devOf (.iaddI64 (r 62 6 12)))).unlimited base ∧
    ∃ t, exec (.iaddI64 (r 62 6 12)) base = .next t :=
  ⟨by decide +kernel, by decide +kernel, by decide +kernel, fun x h => by
    have e : base.charged? (issue base (devOf (.iaddI64 (r 62 6 12)))).team.ctx (issue base (devOf (.iaddI64 (r 62 6 12)))).team.slice = some slice := by decide +kernel
    rw [e] at h
    cases h
    exact ⟨rfl, rfl⟩, _, rfl⟩

/-! ### Hypotheses met: matrix -/

/-- Convergence register 1 OPEN for `n` signatures, an engine-and-window reservation, operands in registers v40 to v47. -/
def mmaReady (n : Nat) : State :=
  (set [(40, 0x80000), (41, 0), (42, 0x84000), (43, 0), (44, 384), (45, 384), (46, 3), (47, 0)]).updTeam 1 fun t =>
    { t with resv := some ⟨3, 0, 4⟩, kregs := tset t.kregs 1 { st := .open, n := n } }

/-- KDECL of 1 and of 2048 signatures; the last two signatures of a generation; KWAIT at an IDLE register; KRST. -/
theorem test_ConvergenceResults_met :
    (∀ w ∈ [rl 1 0 0 1, rl 7 0 0 0x800], Meets (.kdecl w) fun v i _ => i.lead = some (thr 0) ∧ 1 ≤ bits (v.b32 (thr 0)) 11 0 ∧ bits (v.b32 (thr 0)) 11 0 ≤ 2048 ∧
      bits (v.b32 (thr 0)) 15 12 = 0 ∧ bits (v.b32 (thr 0)) 31 16 < i.team.groups.length ∧ (i.team.kreg (v.d.toNat % 8)).st ≠ .open) ∧
    Meets (.ksign (r 1 0 0)) (fun v i _ => i.acts.Nodup ∧ i.acts ≠ [] ∧ (i.team.kreg (v.d.toNat % 8)).st = .open ∧ (i.team.kreg (v.d.toNat % 8)).mma ≠ some true ∧
      (∀ x ∈ i.acts, x ∉ (i.team.kreg (v.d.toNat % 8)).signers) ∧ (i.team.kreg (v.d.toNat % 8)).signers.length + i.acts.length ≤ (i.team.kreg (v.d.toNat % 8)).n) ∧
    Meets (.kwait (r 2 0 0)) (fun v i _ => (i.team.kreg (v.d.toNat % 8)).st ≠ .open) ∧ Meets (.krst (r 1 0 0)) (fun _ i _ => i.act ≠ []) ∧
    (mmaReady 2).team? 1 ≠ none := by
  refine ⟨?_, meets (mmaReady 2) rfl (by decide +kernel) (by decide +kernel), meets base rfl (by decide +kernel) (by decide +kernel),
    meets base rfl (by decide +kernel) (by decide +kernel), by decide +kernel⟩
  simp only [List.forall_mem_cons, List.not_mem_nil, false_implies, implies_true, and_true]
  exact ⟨meets base rfl (by decide +kernel) (by decide +kernel), meets base rfl (by decide +kernel) (by decide +kernel)⟩

/-- A request with a reserved bit, one for 513 tiles, one for nothing; one of a team that holds a reservation; one for both engines and 512 tiles; a granted one. -/
theorem test_ReservationResults_met :
    (∀ l ∈ [(0x04000001 : Word), 0x00000005, 0x02010000, 0], Meets (.mres (rl 4 2 0 l)) fun v i _ => i.lead = some (thr 0) ∧
      (bits (v.b32 (thr 0)) 31 26 ≠ 0 ∨ bits (v.b32 (thr 0)) 15 2 ≠ 0 ∨ 512 < bits (v.b32 (thr 0)) 25 16 ∨
        (bits (v.b32 (thr 0)) 1 0 = 0 ∧ bits (v.b32 (thr 0)) 25 16 = 0))) ∧
    Meets (.mres (rl 4 2 0 0x00010003)) (fun _ i _ => (i.lead.map (·.tidx)) = some 0 ∧ (i.team.mres.isNone) ∧ (i.team.resv.isSome ∨ i.team.mres.isSome)) ∧
    Meets (.mres (rl 4 2 0 0x00010003)) (fun _ i _ => i.lead = some (thr 0) ∧ (∀ m ∈ i.team.mres, ¬(m.gidx = i.grp.gidx ∧ m.who = 0)) ∧ i.team.mres.isSome) ∧
    Meets (.mres (rl 4 2 0 0x02000003)) (fun v i s => i.lead = some (thr 0) ∧ i.team.resv = none ∧ i.team.mres = none ∧
      s.canReserve i.team.core (BitVec.ofNat 2 (bits (v.b32 (thr 0)) 1 0)) (bits (v.b32 (thr 0)) 25 16) s.seq = some 0) ∧
    Meets (.mres (rl 4 2 0 0x00010003)) (fun _ i _ => i.lead = some (thr 0) ∧ i.team.mres = some { gidx := 0, eng := 3, count := 1, order := 5, granted := true, word := 0x40003 } ∧ (0 : Nat) = i.grp.gidx) ∧
    Meets (.mrel (r 0 0 0)) (fun _ i _ => ∃ t ∈ i.act, t.wait = .passed) ∧
    Meets (.mrel (r 0 0 0)) (fun _ i _ => i.act ≠ [] ∧ (∀ t ∈ i.act, t.wait ≠ .passed) ∧ i.team.resv = none) ∧
    Meets (.mrel (r 0 0 0)) (fun _ i s => i.act ≠ [] ∧ (∀ t ∈ i.act, t.wait ≠ .passed) ∧ i.team.resv ≠ none ∧ ∀ o ∈ s.ops, o.holdsResv i.team.uid = false) := by
  refine ⟨?_, meets (mmaReady 2) rfl (by decide +kernel) (by decide +kernel),
    meets (withTeam fun t => { t with mres := some { gidx := 0, eng := 3, count := 1, order := 5, who := 1 } }) rfl (by decide +kernel) (by decide +kernel),
    meets base rfl (by decide +kernel) (by decide +kernel),
    meets (withTeam fun t => { t with mres := some { gidx := 0, eng := 3, count := 1, order := 5, granted := true, word := 0x40003 }, resv := some ⟨3, 0, 1⟩ }) rfl (by decide +kernel) (by decide +kernel),
    meets (withThreads fun t => { t with wait := .passed }) rfl (by decide +kernel) (by decide +kernel), meets base rfl (by decide +kernel) (by decide +kernel),
    meets (mmaReady 2) rfl (by decide +kernel) (by decide +kernel)⟩
  simp only [List.forall_mem_cons, List.not_mem_nil, false_implies, implies_true, and_true]
  repeat' apply And.intro
  all_goals exact meets base rfl (by decide +kernel) (by decide +kernel)

/-- The requests above that are not malformed. -/
theorem test_ReservationResults_fine_met : ([0x00010003#32, 0x02000003#32].all fun x =>
    bits x 31 26 == 0 && bits x 15 2 == 0 && Nat.ble (bits x 25 16) 512 && bits x 1 0 != 0) = true := by decide +kernel

/-- The last engine and the last run of tiles. -/
theorem test_ReservationRule_met : (withTeam fun t => { t with resv := some ⟨1, 0, 511⟩ }).canReserve 0 2 1 9 = some 511 := by decide +kernel

/-- Two signatures that complete an unscaled generation; two of three of a scaled one. -/
theorem test_MmaResults_met :
    (∀ ins ∈ [Instr.mmaMxf4 ⟨pOff, 4, 40, 24, some 1⟩, .mmaMxf8 ⟨pOff, 4, 40, 24, some 1⟩, .mmaFp8 ⟨pOff, 4, 40, 0, some 1⟩, .mmaI8 ⟨pOff, 4, 40, 0, some 1⟩,
      .mmaTs8i ⟨pOff, 4, 40, 24, some 1⟩, .mmaTs8e ⟨pOff, 4, 40, 24, some 1⟩, .mmaBf16 ⟨pOff, 4, 40, 0, some 1⟩, .mmaF16 ⟨pOff, 4, 40, 0, some 1⟩],
      Meets ins fun _ i _ => i.act = []) ∧
    (∀ ins ∈ [Instr.mmaFp8 (rl 4 40 0 1), .mmaI8 (rl 4 40 0 1), .mmaBf16 (rl 4 40 0 1), .mmaF16 (rl 4 40 0 1), .mmaMxf4 (rl 4 40 24 1), .mmaMxf8 (rl 4 40 24 1),
      .mmaTs8i (rl 4 40 24 1), .mmaTs8e (rl 4 40 24 1)],
      Meets ins fun v i s => i.act ≠ [] ∧ (i.signAll s i.act 0).2.1 = none ∧ ((i.team.kreg (bits v.lw 2 0)).op ≠ none ∨ s.freeSlot i.team.core ≠ none)) := by
  simp only [List.forall_mem_cons, List.not_mem_nil, false_implies, implies_true, and_true]
  constructor
  · repeat' apply And.intro
    all_goals exact meets (mmaReady 2) rfl (by decide +kernel) (by decide +kernel)
  · refine ⟨meets (mmaReady 2) rfl (by decide +kernel) (by decide +kernel), meets (mmaReady 2) rfl (by decide +kernel) (by decide +kernel),
      meets (mmaReady 2) rfl (by decide +kernel) (by decide +kernel), meets (mmaReady 2) rfl (by decide +kernel) (by decide +kernel), ?_⟩
    repeat' apply And.intro
    all_goals exact meets (mmaReady 3) rfl (by decide +kernel) (by decide +kernel)

/-- Two terms under the anchor 2; the row lengths of every format; an element that is no number. -/
theorem test_MmaResults_sums_met :
    (let l : List Dyad := [⟨1, 0⟩, ⟨3, -1⟩, ⟨0, 9⟩]; (∀ x ∈ l, x.m ≠ 0 → (x.m.natAbs.log2 : Int) + x.x + 1 ≤ 1) ∧ ∃ x ∈ l, x.m ≠ 0 ∧ (x.m.natAbs.log2 : Int) + x.x + 1 = 1) ∧
    (∀ n < 8, let f := mmaFmt (0xCA + n) true true; f.w ≠ 0 ∧ f.k % f.w = 0 ∧ (List.replicate f.k (⟨1, 0⟩ : Dyad)).length = f.k) ∧
    (scaledRow 1 [0x38] (some [0x80])).isSome = true := ⟨by decide +kernel, by decide +kernel, by decide +kernel⟩

theorem mayUse_of {i : Iss} {s : State} {ts : List Nat} {q : Reservation} (h : i.act ≠ [] ∧ i.team.resv = some q ∧
    ∀ t ∈ ts, t < q.count ∧ (s.acc i.team.core (q.base + t)).order = []) : i.mayUse s ts :=
  ⟨h.1, q, h.2.1, fun t ht => ⟨(h.2.2 t ht).1, fun u hu => by simp [(h.2.2 t ht).2] at hu⟩⟩

/-- The window's last tile, 3; AMOV from tile 3 to tile 0, adding. -/
theorem test_AccumulatorResults_met : Meets (.azero (rl 0 0 0 3)) (fun v i s => i.mayUse s [v.accT]) ∧
    (∀ ins ∈ [Instr.anorm (rl 4 0 0 3), .aread (rl 4 8 0 3), .awrite (rl 4 8 0 3), .aexp (rl 4 0 0 3)],
      Meets ins fun v i s => i.mayUse s [v.accT] ∧ (i.accAt s).bad = false) ∧
    Meets (.ascl (rl 0 0 12 3)) (fun v i s => (i.lead.map (·.tidx)) = some 0 ∧ i.mayUse s [v.accT] ∧ (i.accAt s).bad = false) ∧
    Meets (.amov (rl 0 0 0 0x00040600)) (fun v i s => i.mayUse s [v.accT, bits v.lw 17 9] ∧ (s.acc i.team.core (i.team.accPos (bits v.lw 17 9))).bad = false ∧
      (v.lw.getLsbD 18 = true → (i.accAt s).bad = false)) := by
  refine ⟨meets (mmaReady 2) rfl (by decide +kernel) (mayUse_of (q := ⟨3, 0, 4⟩) (by decide +kernel)), ?_,
    meets (mmaReady 2) rfl (by decide +kernel) ⟨by decide +kernel, mayUse_of (q := ⟨3, 0, 4⟩) (by decide +kernel), by decide +kernel⟩,
    meets (mmaReady 2) rfl (by decide +kernel) ⟨mayUse_of (q := ⟨3, 0, 4⟩) (by decide +kernel), by decide +kernel, by decide +kernel⟩⟩
  simp only [List.forall_mem_cons, List.not_mem_nil, false_implies, implies_true, and_true]
  repeat' apply And.intro
  all_goals exact meets (mmaReady 2) rfl (by decide +kernel) ⟨mayUse_of (q := ⟨3, 0, 4⟩) (by decide +kernel), by decide +kernel⟩

/-- 2^48, which raises e by 2 where it can, or past its greatest value; a NaN; a number that fits. -/
theorem test_AccumulatorResults_write_met : let a : Acc := { mant := [(1, 5)], e := 0 }
    (a.mant.map (·.1)).Nodup ∧
    (let d := ((fp32.val 0x57800000).dyad).getD ⟨0, 0⟩
     let q := d.trunc 0
     (fp32.val 0x57800000).dyad.isSome = true ∧ q.natAbs / 2 ^ 2 ≤ mantMax ∧ mantMax < q.natAbs / 2 ^ 1) ∧ (2047 : Int) < 2046 + 2 ∧
    (fp32.val 0x7FC00000).dyad = none ∧ ((fp32.val 0x3F800000).dyad.map fun d => decide ((d.trunc 0).natAbs ≤ mantMax)) = some true := by decide +kernel

/-- A row with an element of 2^47, which raises e by 1; exponents that ASCL moves past either end. -/
theorem test_NormalizeRule_row_met : let r : List (Option Int) := some (2 ^ 47) :: none :: List.replicate 30 (some 0)
    r.length = 32 ∧ (∀ x ∈ r, ∀ v ∈ x, v.natAbs / 2 ^ 1 ≤ mantMax) ∧ ¬(∀ x ∈ r, ∀ v ∈ x, v.natAbs / 2 ^ 0 ≤ mantMax) ∧
    (-2048 : Int) ≤ 2047 + 0 ∧ (-2048 : Int) + -1 < -2048 ∧ (2047 : Int) < 2047 + 1 := by decide +kernel

/-- Mantissas at the ends of their range, e at its least. -/
theorem test_NormalizeRule_met : let a : Acc := { mant := [(0, 5), (1023, -(2 ^ 47 - 1))], e := -2048 }
    a.e ≥ -2048 ∧ (a.mant.map (·.1)).Nodup ∧ ∀ x ∈ a.mant, -2 ^ 47 ≤ x.2 ∧ x.2 < 2 ^ 47 := by decide +kernel

/-! ### Hypotheses met: child operations, tiles, launches -/

theorem some_getD {α : Type} {o : Option α} (d : α) (h : o.isSome = true) : o = some (o.getD d) := by
  cases o with
  | none => cases h
  | some a => rfl

/-- What an `Except` holds, or a default. -/
def okD {ε α : Type} (e : Except ε α) (d : α) : α := match e with
  | .ok a => a
  | .error _ => d

/-- Whether an `Except` holds a result. -/
def isOk {ε α : Type} (e : Except ε α) : Bool := match e with
  | .ok _ => true
  | .error _ => false

theorem ok_okD {ε α : Type} {e : Except ε α} (d : α) (h : isOk e = true) : e = .ok (okD e d) := by
  cases e with
  | error _ => cases h
  | ok a => rfl

/-- A queue at 0x60000: WIDX and RIDX 0, ring at 0x40000, four slots; v16:v17 names it; v18:v19 names the start of scratch. -/
def queued : State :=
  stored (set [(16, 0x60000), (17, 0), (18, 0), (19, 0x00FF1000)]) [(0x60008, toLe 8 0x70000), (0x60010, [2])]

/-- The threads of `queued` waiting at `w`. -/
def queuedAt (w : Wait) : State := queued.updThreads 1 0 (fun _ => true) fun t => { t with wait := w }

/-- The first thread of an issue that has still to post, its plan without a cause. -/
def posts (i : Iss) (s : State) (p : Thread → PostPlan → Bool) : Bool := match i.doers.filter fun u => !u.posted with
  | [] => false
  | t :: ts => (i.postTrap s (t :: ts)).isNone && ((i.postPlans s (t :: ts)).all fun x => x.2.all.all fun y => !s.needsWalk (.thread i.team.uid x.1.tidx) y.1) &&
      p t (i.postPlan (i.postReach s (t :: ts)) t 0)

/-- ASTR of the window's last tile; XCOPY and XCOLL from scratch: every operation made, the last unit of the last packet, an earlier one. -/
theorem test_OperationResults_met :
    Meets (.astr (rl 4 8 0 3)) (fun v i s => i.lead.isSome ∧ (∀ l ∈ i.lead, (v.a64 l).toNat % 16 = 0) ∧ (i.team.resv = some ⟨3, 0, 4⟩ ∧ v.accT < 4) ∧
      bits v.lw 10 9 = 0 ∧ s.freeSlot i.team.core ≠ none) ∧
    ∀ k ∈ [Instr.xcopy, .xcoll],
      Meets (k (r 4 18 0)) (fun _ i _ => i.doers ≠ [] ∧ (i.doers.filter fun t => t.madeBy.isNone) = []) ∧
      Meets (k ⟨pU, 4, 18, 0, none⟩) (fun v i s => (i.doers.filter fun t => t.madeBy.isNone).length = 1 ∧ ∀ t ∈ i.doers.filter fun t => t.madeBy.isNone,
        (s.packetMiss i.team.uid t.tidx (v.a64 t)).1 = [] ∧ (s.packetMiss i.team.uid t.tidx (v.a64 t)).2.isSome = true ∧
        t.wait.begun = true ∧ s.slotWait i.team.core t = false) ∧
      Meets (k ⟨pU, 4, 18, 0, none⟩) (fun _ i s => (i.doers.filter fun t => t.madeBy.isNone).length = 1 ∧ (∃ u ∈ i.doers, u.wait.begun = true) ∧
        ∀ t ∈ i.doers.filter fun t => t.madeBy.isNone, s.slotWait i.team.core t = true) ∧
      Meets (k (r 4 18 0)) (fun v i s => (i.doers.filter fun t => t.madeBy.isNone).length = 2 ∧ ∀ t ∈ i.doers.filter fun t => t.madeBy.isNone,
        (s.packetMiss i.team.uid t.tidx (v.a64 t)).1 = [] ∧ (s.packetMiss i.team.uid t.tidx (v.a64 t)).2.isSome = true ∧ s.slotWait i.team.core t = false) := by
  refine ⟨meets (mmaReady 2) rfl (by decide +kernel) (by decide +kernel), ?_⟩
  simp only [List.forall_mem_cons, List.not_mem_nil, false_implies, implies_true, and_true]
  repeat' apply And.intro
  all_goals first
    | exact meets queued rfl (by decide +kernel) (by decide +kernel)
    | exact meets (queuedAt (.made 5)) rfl (by decide +kernel) (by decide +kernel)
    | exact meets (queuedAt (.packet (List.replicate 48 0))) rfl (by decide +kernel) (by decide +kernel)
    | exact meets { queuedAt (.packet (List.replicate 64 0)) with slots := (List.range 256).map fun k => (k, ⟨1, some 9⟩) } rfl (by decide +kernel) (by decide +kernel)

/-- XQPOST into an empty ring: every thread has posted; the first one's claim, its test for a free slot, its ticket. -/
theorem test_OperationResults_post_met :
    Meets (.xqpost (r 4 16 8)) (fun _ i _ => i.doers ≠ [] ∧ ∀ t ∈ i.doers, t.posted = true ∧ t.wait = .queueDone 0) ∧
    Meets (.xqpost (r 4 16 8)) (fun _ i s => posts i s (fun t p => t.claimed.isNone && p.head.2.2.isSome) = true) ∧
    Meets (.xqpost (r 4 16 8)) (fun _ i s => posts i s (fun t p => t.wait == .queue 1 && (match p.tail.2.2 with
      | some g => g.view != .system
      | none => false)) = true) ∧
    Meets (.xqpost (r 4 16 8)) (fun _ i s => posts i s (fun t p => t.wait == .posting 3 5 none && (match p.dst with
      | [(5, _, _, some _)] => true
      | _ => false)) = true) :=
  ⟨meets (queuedAt (.queueDone 0)) rfl (by decide +kernel) (by decide +kernel), meets queued rfl (by decide +kernel) (by decide +kernel),
    meets (queuedAt (.queue 1)) rfl (by decide +kernel) (by decide +kernel), meets (queuedAt (.posting 3 5 none)) rfl (by decide +kernel) (by decide +kernel)⟩

/-- The last slot of the last core. -/
theorem test_HandleResults_layout_met : ∃ o : Op, (255 : Nat) < 256 ∧ o.core < 192 ∧ o.kind ≠ .queue ∧ ((0 : Nat), 254) ≠ (o.core, 255) :=
  ⟨{ uid := 0, token := 0, kind := .mma, core := 191, slot := 0, ctx := 0, slice := 1, team := 1, issuer := 0, start := 0 }, by decide, by decide, by decide, by decide⟩

/-- A DONE copy of thread 0, which v20 names; v21 names nothing. -/
def copied : State :=
  { set [(20, 0x05000030), (21, 0xFFBFFF40), (10, 0)] with
    ops := [{ uid := 7, token := 0x05000030, kind := .xcopy, core := 0, slot := 0, ctx := 0, slice := 1, team := 1, oteam := 1, issuer := 0, start := 0, st := .done }] }

/-- Null, a handle in use, and the highest core and kind. -/
theorem test_HandleResults_met : (∀ a ∈ [(10 : Field), 20, 21], ∀ ins ∈ [Instr.htest (r 4 a 0), .hstat (r 4 a 0), .hcan (r 4 a 0), .hdet (r 0 a 0), .hpri (r 0 a 12),
      .hadopt (r 4 a 0)], Meets ins fun v i _ => ∀ t ∈ i.doers, badHandle (v.a32 t) = false) ∧
    Meets (.hwait (r 4 20 0)) (fun v i s => (∀ t ∈ i.doers, badHandle (v.a32 t) = false) ∧
      ∀ t ∈ i.doers, ∀ o ∈ s.named? i.team.ctx (v.a32 t), o.st.final = true) := by
  refine ⟨?_, meets copied rfl (by decide +kernel) (by decide +kernel)⟩
  simp only [List.forall_mem_cons, List.not_mem_nil, false_implies, implies_true, and_true]
  repeat' apply And.intro
  all_goals exact meets copied rfl (by decide +kernel) (by decide +kernel)

/-- The last tile of the team over the smallest region; tile 1 READY; states 0, 1 and 2. -/
theorem test_TileResults_met :
    Meets (.tdef (rl 3 18 0 128)) (fun v i s => ∃ l, i.lead = some l ∧ v.d.toNat < i.desc.tiles ∧ (s.tile i.team.core (i.team.tileBase + v.d.toNat)).st = .empty ∧
      (v.a64 l).toNat % 128 = 0 ∧ (v.b32 l).toNat % 128 = 0 ∧ 128 ≤ (v.b32 l).toNat ∧ (v.b32 l).toNat ≤ 2 ^ 24 ∧
      s.oneWindow (.thread i.team.uid l.tidx) ((v.a64 l).toNat % 2 ^ 56) (v.b32 l).toNat = true) ∧
    (∀ w ∈ [r 1 0 0, r 1 0 1], Meets (.tset w) fun v i s => i.lead.isSome ∧ v.d.toNat < i.desc.tiles ∧ v.b.toNat % 4 ≤ 1 ∧
      (s.tile i.team.core (i.team.tileBase + v.d.toNat)).st = .ready) ∧
    Meets (.tset (r 1 0 2)) (fun v i s => i.lead.isSome ∧ v.d.toNat < i.desc.tiles ∧ v.b.toNat % 4 = 2 ∧ (s.tile i.team.core (i.team.tileBase + v.d.toNat)).st ≠ .empty) ∧
    Meets (.tqry (r 4 3 0)) (fun v i _ => i.lead.isSome ∧ v.a.toNat < i.desc.tiles) ∧
    ∃ e : Tile, e.base < 2 ^ 56 ∧ e.size < 2 ^ 25 ∧ e.pend < 2 ^ 25 := by
  refine ⟨meets queued rfl (by decide +kernel) ?_, ?_, meets tiled rfl (by decide +kernel) (by decide +kernel),
    meets tiled rfl (by decide +kernel) (by decide +kernel), ⟨{ base := 2 ^ 56 - 1, size := 2 ^ 25 - 1, pend := 2 ^ 25 - 1 }, by decide, by decide, by decide⟩⟩
  · exact ⟨(thr 0).setVs [(16, 0x60000), (17, 0), (18, 0), (19, 0x00FF1000)], by decide +kernel⟩
  · simp only [List.forall_mem_cons, List.not_mem_nil, false_implies, implies_true, and_true]
    exact ⟨meets tiled rfl (by decide +kernel) (by decide +kernel), meets tiled rfl (by decide +kernel) (by decide +kernel)⟩

/-- A service ring for column 0 and threads whose SYSC is answered. -/
def served : State := (withThreads fun t => { t with wait := .syscDone [1, 2] }).updColumn 0 fun c => { c with ring := some 0x800000000000 }

/-- A counter above 1, at 1 and at 0. -/
theorem test_LaunchGroupResults_counters_met : ∀ k ∈ [2, 1, 0], ((base.updCtx 0 fun c => { c with counters := tset c.counters 3 k }).ctx? 0).map (·.counter 3) = some k := by
  decide +kernel

theorem test_LaunchGroupResults_met : Meets (.launch (r 4 8 0)) (fun v i s => i.lead = some (thr 0) ∧ s.canLaunch i.team.ctx = true ∧
      (v.a64 (thr 0)).toNat % 256 = 0 ∧ s.needsWalk (.queue i.team.ctx (dieOfCore i.team.core)) (v.a64 (thr 0)) = false) ∧
    Meets (.depdec (rl 4 0 0 3)) (fun v i s => i.lead = some (thr 0) ∧ s.ctx? i.team.ctx = some context ∧ (v.b32 (thr 0)).toNat % 4096 < context.cn) ∧
    Meets (.ptrap (r 4 0 12)) (fun _ i _ => i.lead = some (thr 0)) ∧
    Meets (.pstat (rl 4 0 0 0x42)) (fun v i s => i.lead = some (thr 0) ∧ bits (v.b32 (thr 0)) 23 16 = 0 ∧ s.pstat i.team.core (bits (v.b32 (thr 0)) 15 0) = some 0) ∧
    Meets (.slyld (r 4 0 0)) (fun _ i s => ∀ t ∈ i.nowActs ((i.upd s i.acts fun t => match t.wait with
      | .slyldDone _ => t
      | _ => { t with wait := .slyld }).meet i.team.uid), t.wait = .slyldDone false) ∧
    (∀ w ∈ [r 4 0 0, r 4 0 1, r 4 0 2, r 4 0 3], Meets (.budgt w) fun _ i s => s.slice? i.team.ctx i.team.slice = some slice) ∧
    Meets (.sysc ⟨p0, 8, 5⟩) (fun _ i s => i.act ≠ [] ∧ (s.column (columnOfCore i.team.core)).ring.isSome ∧ ∀ t ∈ i.act, t.wait = .syscDone [1, 2]) := by
  refine ⟨meets base rfl (by decide +kernel) (by decide +kernel), meets base rfl (by decide +kernel) (by decide +kernel),
    meets base rfl (by decide +kernel) (by decide +kernel), meets base rfl (by decide +kernel) (by decide +kernel),
    meets base rfl (by decide +kernel) (by decide +kernel), ?_, meets served rfl (by decide +kernel) (by decide +kernel)⟩
  simp only [List.forall_mem_cons, List.not_mem_nil, false_implies, implies_true, and_true]
  repeat' apply And.intro
  all_goals exact meets base rfl (by decide +kernel) (by decide +kernel)

/-- A descriptor at 0x50000: one team of one thread, no counter. -/
def launchable : State :=
  stored base [(0x50001, [1]), (0x50010, [1, 0, 0, 0, 1, 0, 0, 0, 1, 0, 0, 0, 1]), (0x50048, [0xFF, 0xFF, 0, 0, 0xFF, 0xFF])]

theorem test_LaunchRule_met : launchable.ctx? 0 = some context ∧ launchable.stopped = false ∧ (0x50080 : Addr).toNat % 256 ≠ 0 ∧ (0x50000 : Addr).toNat % 256 = 0 ∧
    (∃ s' bs, launchable.readDesc 0 0 0x50000 = .ok (s', bs) ∧ (parseDesc bs 0x50000 none).wctr = 0xFFFF ∧ validDesc bs (parseDesc bs 0x50000 none) 4 = true) ∧
    ∃ s' bs, base.readDesc 0 0 0x50000 = .ok (s', bs) ∧ validDesc bs (parseDesc bs 0x50000 none) 4 = false := by
  have h : isOk (launchable.readDesc 0 0 0x50000) = true ∧ (let bs := (okD (launchable.readDesc 0 0 0x50000) (base, [])).2
      (parseDesc bs 0x50000 none).wctr = 0xFFFF ∧ validDesc bs (parseDesc bs 0x50000 none) 4 = true) := by decide +kernel
  have g : isOk (base.readDesc 0 0 0x50000) = true ∧ (let bs := (okD (base.readDesc 0 0 0x50000) (base, [])).2
      validDesc bs (parseDesc bs 0x50000 none) 4 = false) := by decide +kernel
  exact ⟨by decide +kernel, by decide +kernel, by decide +kernel, by decide +kernel, ⟨_, _, ok_okD (base, []) h.1, h.2⟩, ⟨_, _, ok_okD (base, []) g.1, g.2⟩⟩

/-! ### Hypotheses met: engines and Gleaners -/

/-- An MMA.i8 over the operands at 0x80000 and 0x84000 into tile 3, first in that tile's order. -/
def mmaOp : Op :=
  { uid := 7, token := 0x05000010, kind := .mma, core := 0, slot := 0, ctx := 0, slice := 1, team := 1, oteam := 1, issuer := 0, start := 0,
    words := [0x80000, 0, 0x84000, 0, 384, 384, 3, 0, 0xCD, 0, 0] }

def mmaQueued : State :=
  { (mmaReady 2).updAcc 0 3 fun a => { a with order := [.op 7] } with ops := [mmaOp] }

/-- The MMA on engine 0 before its last row. -/
def mmaLast : Op := { mmaOp with st := .running, engine := some 0, prog := 31, bytes := toLe 8 0x80000 ++ toLe 8 0x84000, counted := true }

def mmaRunning : State := { mmaQueued with ops := [mmaLast] }

/-- A copy of 16 bytes from 0x80000 to 0x84000. -/
def copyOp : Op :=
  { mmaOp with kind := .xcopy, words := [], bytes := [0, 0, 0, 0] ++ toLe 4 16 ++ toLe 8 0x80000 ++ toLe 8 0x84000 ++ toLe 4 1 ++ List.replicate 36 0 }

/-- A copy that holds the target of its completion store at 0x80000, checked with its last chunk. -/
def copyHeld : Op :=
  { copyOp with st := .running, bytes := [0, 0, 4, 0] ++ toLe 4 16 ++ toLe 8 0x80000 ++ toLe 8 0x84000 ++ toLe 4 1 ++ List.replicate 20 0 ++ toLe 8 0x80000 ++
      List.replicate 8 0, lines := [(cwKey, [])] }

/-- The same from a peer's window. -/
def collOp : Op := { copyOp with kind := .xcoll, st := .running }

def astrOp : Op := { mmaOp with kind := .astr, words := [3, 0x80000, 0, 0] }

def got (g : Gathered) : Bool := match g with
  | .got _ _ => true
  | _ => false

def made (c : Chunk) : Bool := match c with
  | .made _ _ => true
  | _ => false

theorem test_EngineEvents_engine_met : (∀ p ∈ mmaQueued.ops, p.st ≠ .running) ∧ leastBy Op.rank (mmaQueued.ops.filter (mmaQueued.canStartMma 0 1)) = some mmaOp ∧ (mmaQueued.team? mmaOp.team).isSome ∧
    (∀ t ∈ mmaQueued.team? mmaOp.team, ∀ x ∈ mmaQueued.mmaTiles t mmaOp, x ≠ .empty) ∧
    (mmaRunning.ops.find? fun o => o.core == 0 && o.kind == .mma && o.st == .running && o.engine == some 0) = some mmaLast ∧ mmaLast.cancel = false ∧
    (mmaRunning.acc 0 3).bad = false ∧ (let s := { mmaRunning with ops := [{ mmaLast with prog := 0 }] }.updAcc 0 3 fun a => { a with bad := true }
     (s.acc 0 3).bad = true ∧ ((dword mmaLast.words 10) != 0) = false) ∧
    got (mmaRunning.gather mmaLast (.oper 1) ((rowSpans (mmaLast.rowBase false 31) ++ (List.range 32).flatMap fun j => rowSpans (mmaLast.rowBase true j)).foldl (fun l x =>
      if (tget mmaLast.lines (lineKey x.ea)).isSome || l.any (fun y => lineKey y.ea == lineKey x.ea) then l else l ++ [x]) []) []) = true := by decide +kernel

theorem test_EngineEvents_grants_met : (let s := withTeam fun t => { t with mres := some { gidx := 0, eng := 3, count := 512, order := 5 } };
     [(0, false, false, false)] = (s.teams.map fun t => (t.core, t.swapped, t.retired, (t.mres.map (·.granted)).getD true)) ∧ s.canReserve 0 3 512 5 = some 0) ∧
    (let s := (mmaReady 2).updTeam 1 fun t => { t with mrel := some 0 };
     (s.team? 1).map (·.mrel) = some (some 0) ∧ ((s.group? 1 0).bind (·.clause)).isSome = true ∧ ∀ o ∈ s.ops, o.holdsResv 1 = false) := by decide +kernel

theorem test_EngineEvents_copies_met : (let s : State := { base with ops := [copyOp] };
     leastBy Op.rank (s.ops.filter (s.canStartCopy (.router 0))) = some copyOp ∧ (copyPk copyOp.bytes).bytes ≠ 0 ∧ s.startMisses copyOp (copyPk copyOp.bytes) 0 0 = []) ∧
    (let o := { collOp with st := .queued }; let s : State := { base with ops := [o], contexts := [{ context with grants := [(0, 0)] }], routes := [(0, 0, 3)] };
     leastBy Op.rank (s.ops.filter (s.canStartCopy (.ualink 0 3 0x84010 1))) = some o ∧ s.startMisses o (copyPk o.bytes) 0x84010 1 = []) ∧
    (let s : State := { mmaQueued with ops := [astrOp] };
     leastBy Op.rank (s.ops.filter (s.canStartCopy (.router 0))) = some astrOp ∧ astrOp.kind = .astr) ∧
    (let o := { copyOp with st := .running };
     let s : State := { base with ops := [o] };
     s.op? 7 = some o ∧ s.opHeld o = false ∧ o.cancel = false ∧ o.prog < o.chunks ∧ made (s.makeChunk o o.prog) = true) ∧
    (let o := { copyOp with st := .running, prog := 1 };
     let s : State := { base with ops := [o] };
     s.op? 7 = some o ∧ s.opHeld o = false ∧ o.cancel = false ∧ o.chunks ≤ o.prog) ∧
    (let s : State := { base with ops := [collOp] };
     s.op? 7 = some collOp ∧ s.opHeld collOp = false ∧ collOp.cancel = false ∧ collOp.prog < collOp.chunks ∧ collOp.sent < collOp.chunks ∧ made (s.makeChunk collOp collOp.sent) = true) ∧
    ∀ b ∈ [false, true], let o := { collOp with sent := 1, cancel := b };
     let s : State := { base with ops := [o] };
     s.op? 7 = some o ∧ o.sent = o.prog + 1 ∧ ((s.countChunk o).op? 7).map (fun p => (p.cancel, p.sent, p.prog)) = some (b, 1, 1) := by decide +kernel

/-- The queue of `queued`, registered on die 3, with one packet posted. -/
def posted : State :=
  { stored queued [(0x60000, [1])] with queues := [{ id := 9, ctx := 0, die := 3, header := 0x60000, ring := 0x70000, capl := 2 }] }

theorem test_EngineEvents_queue_met : let a : Agent := .queue 0 3
    let fine := fun (r : List Miss × Option Target) (m : Nat) => r.1.isEmpty && (match r.2 with
      | some g => g.view != .system && (match g.leaf with | some e => e.pte &&& m == m | none => true)
      | none => false)
    fine (posted.reach a 0x60000 8 .read 5) 0x40 = true ∧ fine (posted.reach a 0x7003C 4 .read 5) 0x40 = true ∧
    posted.queues.all (fun q => !q.blocked) ∧ (posted.ctx? 0).map (·.phase) = some .running ∧ (packetUnits.all fun u => fine (posted.reach a (0x70000 + BitVec.ofNat 64 u.1) u.2 .read 5) 0x40) = true ∧
    fine (posted.reach a 0x60080 8 .write 5) 0xC0 = true ∧
    ((posted.reach a 0x60000 8 .read 5).2.map fun g => Memory.nat posted.mem g.loc 8) = some 1 ∧
    ((posted.reach a 0x7003C 4 .read 5).2.map fun g => Memory.nat posted.mem g.loc 4) = some 0 ∧ Memory.wf posted.mem = true := by decide +kernel

/-! ### Hypotheses met: admission, timers, moves -/

/-- A ready slice with its one team still to place, and no team. -/
def waitingSlice : State := { base with teams := [], slices := [{ slice with next := 0 }] }

theorem test_ScheduleEvents_admit_met :
    ((waitingSlice.competing.findSome? fun x => (waitingSlice.canHost x 191).map fun cs => (x.id, cs)) = some (1, [191]) ∧
     ∀ x ∈ waitingSlice.competing, waitingSlice.returnsFirst (waitingSlice.classOf x) [191] = false) ∧
    (let s : State := { waitingSlice with teams := [{ team with swapped := true, evicted := true }], slices := [{ slice with next := 0 }] };
     (s.competing.findSome? fun x => (s.canHost x 191).map fun cs => (x.id, cs)) = some (1, [191]) ∧
     ∀ x ∈ s.competing, s.returnsFirst (s.classOf x) [191] = true) ∧
    (∀ u ∈ [FrameUse.call, .refill], let q : FrameReq := { team := 1, gidx := 0, core := 0, part := 0, use := u, who := [], need := [(15, 1, 1)], order := 3, since := 0 };
     let s : State := { base with frameReqs := [q] };
     leastBy FrameReq.order (s.frameReqs.filter fun r => r.core == 0 && r.part == 0 && !r.granted && s.canGrant 0 0 r.order r.need) = some q ∧
     leastBy FrameReq.order (s.frameReqs.filter fun r => r.core == 0 && r.part == 0 && !r.granted && r.need.any (·.1 == 15)) = some q ∧
     65536 * 20 ≤ ({ s with time := 10 ^ 9 }.time - q.since) * cyclesIn20 (s.column (columnOfCore 0)).cls) ∧
    (let s := base.updGroup 1 0 fun g => { g with active := false, clause := none };
     1 = ((s.groupsAt 0 0).filter fun x => !x.2.active && !s.blocked x.1 x.2).length ∧ ((s.groupsAt 0 0).filter (·.2.active)).length < 8) ∧
    (let s := withTeam fun t => { t with
       async := { user := some 1 },
       groups := { grp with active := false, clause := none } :: (List.range 8).map fun k => { grp with gidx := k + 1, promotedAt := k, clause := none } };
     let act := (s.groupsAt 0 0).filter (·.2.active);
     ((s.groupsAt 0 0).filter fun x => !x.2.active && !s.blocked x.1 x.2).map (fun x => (x.2.gidx, x.1.trapDue x.2)) = [(0, true)] ∧ 8 ≤ act.length ∧
     (∀ z ∈ act, z.2.inHandler = false ∧ z.1.trapDue z.2 = false ∧ z.2.demoted = false) ∧
     ((act.getLast?.map fun y => (y.2.promotedAt, act.all fun z => z.2.gidx == y.2.gidx || decide (z.2.promotedAt < y.2.promotedAt))) = some (7, true))) := by
  decide +kernel

theorem test_ScheduleEvents_timers_met :
    (let l : StileLine := { id := 5, ctx := 0, column := 0, loc := 0x100, reps := [0x100], reqs := [(0x50000, 1)] };
     let s : State := { base with stiles := [l] };
     (∀ y ∈ s.stiles, y.reqs ≠ [] → y = l) ∧ s.canLaunch l.ctx = true) ∧
    (let s := (withTeam fun t => { t with async := { budget := some 1 } }).updGroup 1 0 fun g => { g with clause := none };
     ((s.team? 1).bind fun t => t.elected.bind fun g => s.boundaryTrap t g).isSome = true) ∧
    (let d : Desc := { probeDesc with nx := 4, clw := 1, clh := 1 };
     let s : State := { waitingSlice with slices := [{ slice with next := 0, desc := d, topAt := some 0, left := 4 }], time := 100000 };
     true = (s.competing.find? fun x => x.id == 1 && decide (x.desc.csize > 1)).isSome ∧ (rectangle 38 d) = some [38, 39, 46, 47] ∧ s.reserves = [] ∧
     s.competing.length = 1 ∧ ∀ x ∈ s.competing, x.topAt = some 0 ∧ ∀ c ∈ [38, 39, 46, 47], s.coreServes x c = true) ∧
    (let s : State := base.updCtx 0 fun c => { c with phase := .draining 1000 };
     s.time = 1000 ∧ (s.ctx? 0).map (·.phase) = some (.draining 1000)) ∧
    (let s : State := base.updCtx 0 fun c => { c with phase := .swapping 1000 };
     (s.ctx? 0).map (·.phase) = some (.swapping 1000)) ∧
    (let s : State := { base with poolGoal := [47, 0, 0, 1] };
     (∀ t ∈ s.teams, t.swapped = false → columnOfCore t.core ≠ 47) ∧ (s.column 47).changing = false ∧ (s.column 47).cls ≠ 3 ∧
     s.poolGoal.getD (s.column 47).cls 0 < ((List.range 48).filter fun x => (s.column x).cls == (s.column 47).cls).length ∧
     ((List.range 48).filter fun x => (s.column x).cls == 3).length < s.poolGoal.getD 3 0) ∧
    (let s := base.updColumn 0 fun c => { c with target := 0, steppedAt := 1 };
     (s.column 0).level ≠ (s.column 0).target ∧ (s.column 0).steppedAt + 1000 ≤ s.time + 1) ∧
    (let s := base.updColumn 0 fun c => { c with dieDrawn := true }; (s.column 0).dieDrawn = true ∧ (s.column 0).level ≠ 0) := by decide +kernel

/-- A thread that waits at a barrier that nobody completes is stuck; a team at rest may be swapped out, and back. -/
theorem test_ScheduleEvents_swap_met :
    (let s := { (withThreads fun t => { t with wait := .kwait 1 }).updTeam 1 fun t => { t with stuckAt := some 0, kregs := tset t.kregs 1 { st := .open, n := 3 } } with time := 1000000 };
     let s := s.updGroup 1 0 fun g => { g with clause := none };
     (s.team? 1).map (fun t => (t.stuckAt, s.stuck t)) = some (some 0, true) ∧ s.clusterStuck 1 = false) ∧
    (let held := { grp with clause := none, threads := grp.threads.map fun th => { th with wait := .kwait 1 } };
     let t : Team := { team with groups := [held], kregs := [(1, { st := .open, n := 3 })], stuckAt := some 0, clusterStuckAt := some 0 };
     let s : State := { base with teams := [t, { t with uid := 2, core := 1, rank := 1 }], time := 1000000 };
     (s.team? 1).map (·.clusterStuckAt) = some (some 0) ∧ s.clusterStuck 1 = true) ∧
    (let s := (base.updCtx 0 fun c => { c with phase := .swapping 1000 }).updGroup 1 0 fun g => { g with clause := none };
     s.quiet 1 = true ∧ ∀ m ∈ s.teams, m.swapped = false ∧ ∀ g ∈ m.groups, g.mayLeave m = true) ∧
    (let s := withTeam fun t => { t with swapped := true, evicted := true };
     (let x := s.sliceOf ((s.team? 1).getD team); rectangle 9 x.desc = some [9] ∧ ∀ m ∈ s.teams, s.coreServes x 9 = true ∧ (s.roomFor 9 m x.desc).isSome = true ∧ s.eligible m = true) ∧
      ∀ c ∈ s.ctx? 0, c.phase = .running) := by decide +kernel

/-! ### Hypotheses met: base cores -/

/-- Base core 0 in machine mode in context 0 of the small state: x11 names the descriptor of `launchable`, x12 slice 9, which is no slice. -/
def hartBase : State :=
  launchable.updHart 0 fun h => { h with
    x := [(11, 0x50000), (12, 9), (13, BitVec.ofNat 64 (probePa + 0x90000)), (14, 1)], satp := BitVec.ofNat 64 context.root, pc := BitVec.ofNat 64 (probePa + 0xA0000) }

theorem test_BaseCoreResults_met :
    (let x := hartBase.hart 0; let r := hartBase.argStores 0 (x.r 13) 8 0;
     r.2 = true ∧ (x.r 11).toNat % 256 = 0 ∧ (x.r 13).toNat % 64 = 0 ∧ r.1.currentCtx 0 = some context ∧ r.1.stopped = false ∧ r.1.canLaunch context.num = true) ∧
    (let s := hartBase.updHart 0 fun h => { h with satp := 1 }; (s.argStores 0 ((s.hart 0).r 13) 8 0).2 = true ∧ (s.argStores 0 ((s.hart 0).r 13) 8 0).1.currentCtx 0 = none) ∧
    (hartBase.hart 0).joinVal = none ∧ ((hartBase.updHart 0 fun h => { h with joinVal := some 5 }).hart 0).joinVal = some 5 ∧
    hartBase.slice? 0 (((hartBase.hart 0).r 12).setWidth 32) = none ∧
    (let s : State := { hartBase with slices := [{ slice with complete := true }] }; (s.slice? 0 (((s.hart 0).r 14).setWidth 32)).map (·.complete) = some true) ∧
    (hartBase.hart 0).mode ≠ .user ∧ (∀ i ∈ hartBase.invals, i.hart ≠ 0) ∧ ((hartBase.updHart 0 fun h => { h with mode := .user }).hart 0).mode = .user ∧
    (63 : Nat) < 64 := by decide +kernel

/-- Every mode may use some register, a user-mode hart none of these; a block of the host's and one of HBM's; a load of the host's first bytes. -/
theorem test_BaseCoreAccess_host_met : (hartBase.hart 0).hostRead = none ∧ (csrNeeds .efcmd).code ≤ Mode.supervisor.code ∧
    Mode.user.code < (csrNeeds .efcmd).code ∧ Mode.supervisor.code < (csrNeeds .mip).code ∧
    hostPa (csrNew .write 0 0x1000 0x00FFFFFFFFFFFFC0).toNat = true ∧ hostPa (csrNew .write 0 (BitVec.ofNat 64 probePa) 0x00FFFFFFFFFFFFC0).toNat = false ∧
    ∀ k ∈ [AccKind.read, .write], isOk (hartBase.hartAddr 0 0 k) = true ∧ (okD (hartBase.hartAddr 0 0 k) ⟨.repl, 0, [], 0, 0, none⟩).view = .system := by decide +kernel

theorem test_BaseCoreAccess_met : (hartBase.hart 0).mode = .machine ∧ (BitVec.ofNat 64 (probePa + 0x90000)).toNat % 8 = 0 ∧
    (∀ k ∈ [AccKind.read, .write], match hartBase.hartAddr 0 (BitVec.ofNat 64 (probePa + 0x90000)) k with
      | .ok t => t.view ≠ .system ∧ t.reps = [t.loc] ∧ ∀ b ∈ blocksOf t.loc 8, b ∉ hartBase.bad
      | .error _ => False) := by
  have h : ∀ k ∈ [AccKind.read, .write], isOk (hartBase.hartAddr 0 (BitVec.ofNat 64 (probePa + 0x90000)) k) = true ∧
      (let t := okD (hartBase.hartAddr 0 (BitVec.ofNat 64 (probePa + 0x90000)) k) ⟨.system, 0, [], 0, 0, none⟩
       t.view ≠ .system ∧ t.reps = [t.loc] ∧ ∀ b ∈ blocksOf t.loc 8, b ∉ hartBase.bad) := by decide +kernel
  refine ⟨by decide +kernel, by decide +kernel, fun k hk => ?_⟩
  obtain ⟨e, g⟩ := h k hk
  rw [ok_okD ⟨.system, 0, [], 0, 0, none⟩ e]
  exact g

/-! ### Hypotheses met: the Fold -/

/-- A command block at 0xB0000: code, context, argument bytes as (offset, length, value). -/
def block (s : State) (code ctx : Nat) (args : List (Nat × Nat × Nat)) : State :=
  stored s ([(0xB0000, toLe 2 code), (0xB0004, toLe 4 ctx)] ++ args.map fun a => (0xB0000 + a.1, toLe a.2.1 a.2.2))

def cmd : Cmd := ⟨0, probePa + 0xB0000⟩

/-- Some block meets the hypotheses of a `Serves`. -/
def blockOk (s : State) (code : Nat) (noCtx : Bool) (p : List Byte → State → Bool) : Bool :=
  let bs := s.peekPa cmd.blk 64
  fieldOf bs 0 2 == code && !s.stopped && fieldOf bs 2 2 == 0 && fieldOf bs 56 4 == 0 && (!noCtx || fieldOf bs 4 4 == 0) && p bs s

theorem served_of {s : State} {code : Nat} {noCtx : Bool} {p : List Byte → State → Bool} (h : blockOk s code noCtx p = true) :
    cmdServed cmd code noCtx s ∧ p (s.peekPa cmd.blk 64) s = true := by
  simp only [blockOk, Bool.and_eq_true, beq_iff_eq, bne_iff_ne, Bool.or_eq_true, Bool.not_eq_true'] at h
  obtain ⟨⟨⟨⟨⟨a, b⟩, c⟩, d⟩, e⟩, f⟩ := h
  exact ⟨⟨a, b, c, d, fun g => e.resolve_left (by simp [g])⟩, f⟩

/-- A context of 4,092 more counters, all sward units, a root of the greatest page number; every timer at its default. -/
theorem test_FoldResults_create_met : blockOk (block base 1 0 [(10, 2, 4092), (16, 8, 2 ^ 44 - 1), (24, 8, probePa), (32, 8, probePa + 0x3040), (48, 8, 0x01C001C001C001C0)])
    1 true (fun bs s => decide (timerOf (fieldOf bs 12 4) 1000 100000000 200000 = some 200000 ∧ timerOf (fieldOf bs 40 8) 100000 100000000 2000000 = some 2000000 ∧
      fieldOf bs 10 2 + (s.contexts.map (·.cn)).sum ≤ 4096 ∧ (∀ k < 4, fieldOf bs (48 + 2 * k) 2 ≤ 448) ∧ fieldOf bs 16 8 < 2 ^ 44 ∧
      inHbm (fieldOf bs 24 8) = true ∧ inHbm (fieldOf bs 32 8) = true ∧
      s.freeSward 0 (fieldOf bs 48 2) = some 0 ∧ s.freeSward 1 (fieldOf bs 50 2) = some 0 ∧ s.freeSward 2 (fieldOf bs 52 2) = some 0 ∧
      s.freeSward 3 (fieldOf bs 54 2) = some 0)) = true := by decide +kernel

theorem test_FoldResults_contexts_met :
    (∀ code ∈ [2, 3], blockOk (block base code 0 []) code false (fun bs s => decide (s.ctx? (fieldOf bs 4 4) = some context ∧ context.phase = .running)) = true) ∧
    (∀ p ∈ [Phase.out, .wiped, .draining 7], blockOk ((block base 4 0 []).updCtx 0 fun c => { c with phase := p }) 4 false (fun bs s =>
      decide ((s.ctx? (fieldOf bs 4 4)).map (·.phase) = some p)) = true) ∧
    (blockOk (block base 5 0 [(8, 8, 47), (16, 8, 0xC0000)]) 5 false (fun bs s =>
      decide (argOf bs 0 < 48 ∧ argOf bs 1 % 128 = 0 ∧ argOf bs 1 < 2 ^ 56 ∧ inWindows (argOf bs 1) = false ∧ (s.stiles.filter (·.column == argOf bs 0)).length < 16) &&
      isOk (leafOf s (argOf bs 0 / 12) context.asid context.root (argOf bs 1) false) &&
      isOk (physical (leafPa (okD (leafOf s (argOf bs 0 / 12) context.asid context.root (argOf bs 1) false) ⟨0, 0, ⟨0, 0, []⟩⟩) (argOf bs 1)) (argOf bs 0 / 12)) &&
      (okD (physical (leafPa (okD (leafOf s (argOf bs 0 / 12) context.asid context.root (argOf bs 1) false) ⟨0, 0, ⟨0, 0, []⟩⟩) (argOf bs 1)) (argOf bs 0 / 12))
        ⟨.system, 0, [], 0, 0, none⟩).view != .system) = true) ∧
    blockOk (block queued 6 0 [(8, 8, 0x60000), (16, 8, 3)]) 6 false (fun bs s =>
      let a := (resolve s (.queue 0 (argOf bs 1)) (BitVec.ofNat 64 (argOf bs 0)) 128 .read).2
      let b := (resolve s (.queue 0 (argOf bs 1)) (BitVec.ofNat 64 (argOf bs 0 + 128)) 128 .read).2
      decide (argOf bs 1 ≤ 3 ∧ argOf bs 0 % 128 = 0 ∧ argOf bs 0 + 128 < 2 ^ 64) && a.isSome && b.isSome &&
      (let a := a.getD ⟨.system, 0, [], 0, 0, none⟩
       let b := b.getD ⟨.system, 0, [], 0, 0, none⟩
       let h := s.bytesAt a 128 ++ s.bytesAt b 128
       decide (a.view ≠ .system ∧ b.view ≠ .system ∧ (∀ k ∈ blocksOf a.loc 128 ++ blocksOf b.loc 128, k ∉ s.bad) ∧
        fieldOf h 8 8 % 64 = 0 ∧ fieldOf h 16 4 ≤ 24 ∧ fieldOf h 20 108 = 0 ∧ fieldOf h 140 116 = 0))) = true ∧
    blockOk (block base 7 0 [(8, 8, 63), (24, 8, 4096), (32, 8, 3)]) 7 false (fun bs s => decide (argOf bs 0 ≤ 63 ∧ argOf bs 2 % 4096 = 0 ∧ argOf bs 3 ≤ 3 ∧
      ∀ y ∈ s.contexts, y.num ≠ 0 → tget y.windows (argOf bs 0) = none)) = true ∧
    blockOk (block base 8 0 [(8, 8, 1023), (16, 8, 63)]) 8 false (fun bs _ => decide (argOf bs 0 ≤ 1023 ∧ argOf bs 1 ≤ 63)) = true := by decide +kernel

theorem test_FoldResults_module_met :
    blockOk (block base 9 0 [(8, 8, 3), (16, 8, 1023), (24, 8, 7)]) 9 false (fun bs _ => decide (argOf bs 0 ≤ 3 ∧ argOf bs 1 ≤ 1023 ∧ argOf bs 2 ≤ 7)) = true ∧
    blockOk (block base 10 0 [(8, 8, 0), (32, 8, 48)]) 10 false (fun bs _ => decide (argOf bs 0 + argOf bs 1 + argOf bs 2 + argOf bs 3 = 48)) = true ∧
    blockOk (block base 11 0 [(8, 8, 47), (16, 8, probePa)]) 11 false (fun bs _ => decide (argOf bs 0 < 48 ∧ argOf bs 1 % 4096 = 0 ∧ paLoc (argOf bs 1) ≠ none)) = true ∧
    (∀ code ∈ [12, 13], blockOk (block base code 0 [(8, 8, probePa), (24, 1, 1)]) code true (fun bs _ => decide (bufferOk (argOf bs 0) = true ∧ fieldOf bs 24 1 ≤ 1)) = true) ∧
    ∀ code ∈ [14, 15, 16], blockOk (block base code 0 []) code true (fun _ _ => true) = true := by decide +kernel

/-- A command in fatal error; one whose bytes 2 and 3, whose bytes 56 to 59, and whose context of none are not zero. -/
theorem test_FoldRefusals_met : (let s : State := { block base 1 0 [] with stopped := true }; fieldOf (s.peekPa cmd.blk 64) 0 2 = 1 ∧ s.stopped = true) ∧
    fieldOf ((block base 2 0 [(2, 2, 1)]).peekPa cmd.blk 64) 2 2 ≠ 0 ∧ fieldOf ((block base 2 0 [(56, 4, 1)]).peekPa cmd.blk 64) 56 4 ≠ 0 ∧
    fieldOf ((block base 14 5 []).peekPa cmd.blk 64) 4 4 ≠ 0 := by decide +kernel

/-! ### Hypotheses met: what comes back, the device -/

def aLoad : Load := { id := 3, issue := 2, team := 1, gidx := 0, tidxs := [0], vals := [5], ext := 4, blocks := [8], ea := 0x80000, sub := 1, flag := none }
def aStore : Store := { id := 3, issue := 2, team := 1, gidx := 0, tidxs := [0], orders := [0], blocks := [8], ea := 0x80000, pc := 0x10004, ctx := 0 }

theorem test_ReturnResults_met :
    (let s : State := { base with loads := [aLoad] }; s.loads.find? (·.id == 3) = some aLoad ∧ aLoad.sysview = none ∧ aLoad.bad = false) ∧
    (let l := { aLoad with bad := true }; let s : State := { base with loads := [l] }; s.loads.find? (·.id == 3) = some l ∧ l.sysview = none ∧ l.bad = true) ∧
    (let s : State := { base with stores := [aStore] }; s.stores.find? (·.id == 3) = some aStore ∧ aStore.sysview = none ∧ aStore.bad = false) ∧
    (let x := { aStore with bad := true }; let s : State := { base with stores := [x] }; s.stores.find? (·.id == 3) = some x ∧ x.sysview = none ∧ x.bad = true) ∧
    (∀ rd ∈ [none, some Reader.post], let l := { aLoad with sysview := some 0x1000, blocks := [], reader := rd };
     let s : State := { base with loads := [l] }; (s.loads.find? fun l => l.id == 3 && l.sysview.isSome) = some l) ∧
    (let l := { aLoad with sysview := some 0x1000, blocks := [], since := 7 }; let s : State := { base with loads := [l], time := 50000007 };
     (s.loads.find? fun l => l.id == 3 && l.sysview.isSome && decide (l.since + 50000000 ≤ s.time)) = some l ∧ l.reader = none) ∧
    (let x := { aStore with sysview := some 0x1000 }; let s : State := { base with stores := [x] }; (s.stores.find? fun x => x.id == 3 && x.sysview.isSome) = some x) ∧
    (let c : CacheOp := { id := 4, team := 1, gidx := 0 }; let s : State := { base with cacheOps := [c] }; s.cacheOps.find? (·.id == 4) = some c) ∧
    (let w : Walk := { id := 6, die := 3, ctx := 0, va := 0x80000 }; let s : State := { base with walks := [w], tlb := [] };
     (s.walks.find? fun w => w.id == 6 && w.die == 3 && !w.returned) = some w ∧ s.ctx? w.ctx = some context ∧ isOk (walkFrom s w.va 3 5 context.root) = true ∧ s.kept? 3 0 w.va = none ∧
     isOk (walkFrom s w.va 3 5 0) = false) ∧
    (let i : Inval := { id := 6, hart := 0, va := 0x80000, pages := 0, asid := none, toReceive := [.unit 3], toAck := [.hart 1, .unit 3] };
     let s : State := { base with invals := [i] };
     (s.invals.find? fun i => i.id == 6 && i.toReceive.contains (.unit 3)) = some i ∧
     (s.invals.find? fun i => i.id == 6 && !i.toReceive.contains (.hart 1) && i.toAck.contains (.hart 1)) = some i ∧
     (∀ o ∈ s.ops, s.holdsTarget 3 i o = false) ∧ s.loads = [] ∧ s.stores = [] ∧ s.begunOn 3 i = false ∧
     s.holdsTarget 3 i { copyOp with st := .running, cw := some (keptLeaf 3) } = true ∧
     ({ s with ops := [{ copyOp with core := 144, st := .running, lines := [(hostKey 0 0, [])] }] } : State).begunOn 3 i = true ∧
     (let x : Store := { aStore with sysview := some 0x1000, via := some { keptLeaf 3 with die := hartUnit 1 } };
      x.id < i.id ∧ i.removes { keptLeaf 3 with die := hartUnit 1 } = true ∧ i.removes (keptLeaf 3) = true)) ∧
    (let s : State := base.updLink (.pcie 2) fun r => { r with up := false }; (s.link (.pcie (0x200000000000 / 2 ^ 44 % 4))).up = false ∧
     (s.link (.pcie 0)).up = true) ∧
    (let s := (stored served [(0xD0030, [1])]).updColumn 0 fun c => { c with ring := some (probePa + 0xD0000), posted := 1 };
     (s.column 0).ring = some (probePa + 0xD0000) ∧ (s.column 0).posted ≠ 0 ∧ leNat (s.peekPa (probePa + 0xD0000 + 48) 4 0) = 1 ∧ hostPa (probePa + 0xD0030) = false ∧ (s.column 0).fromHost = [] ∧ s.loads = [] ∧
     (withThreads fun t => { t with wait := .sysc 0 }).column 0 = {}) ∧
    (let s := withThreads fun t => { t with wait := .sysc 0 }; (s.thread? 1 0 0).map (fun t => (t.wait, t.watch)) = some (.sysc 0, none)) := by decide +kernel

/-- A write to a window of all rights at its last byte; the ends of BAR 0's range; temperatures below every limit. -/
theorem test_DeviceEvents_met :
    (let x : Window := { base := 0x80000, size := 4096, write := true, reduce := true };
     let s := base.updCtx 0 fun c => { c with windows := tset c.windows 5 x };
     let ea := x.base + BitVec.ofNat 64 4095;
     s.peerFails = [] ∧ ((s.look (.queue 0 3) ⟨ea, 1⟩ .write).2.map fun t => s.mended (t.written 1)) = some [] ∧
     (∃ f ∈ ({ s with peerFails := [(9, 4, 2)] } : State).peerFails, f.1 = 9 ∧ f.2.1 = 4 ∧ f.2.2 ≤ 2) ∧
     ((s.look (.queue 0 3) ⟨ea, 1⟩ .write).2.map (·.view != .system)) = some true ∧
     (s.contexts.find? fun c => (tget c.windows 5).isSome).map (·.num) = some 0 ∧ (4095 : Nat) + 1 ≤ x.size ∧ (x.base + BitVec.ofNat 64 4095).toNat % 16 + 1 ≤ 16 ∧
     (s.look (.queue 0 3) ⟨x.base + BitVec.ofNat 64 4095, 1⟩ .write).1 = [] ∧ (s.look (.queue 0 3) ⟨x.base + BitVec.ofNat 64 4095, 1⟩ .write).2.isSome = true) ∧
    (base.cap.dump ≠ 2 ∧ (2 ^ 40 - 8) % 8 = 0 ∧ (paLoc (0x800000000000 + (2 ^ 40 - 8))).isSome = true) ∧
    (3 : Nat) ≠ 0 ∧ (2 ^ 40 - 3) % 64 + 3 ≤ 64 ∧ (839 : Nat) < 840 ∧ (∀ t ∈ [919, 0], t < 920) ∧ (920 ≤ 920 ∧ 840 ≤ 840) ∧ base.stopped = false ∧ 2 ^ 34 - 1 < 2 ^ 34 ∧
    (base.link (.pcie 0)).up = true ∧ 16 ≤ ((base.updLink (.pcie 0) fun r => { r with flit := 16 }).link (.pcie 0)).flit ∧ base.loads = [] ∧ base.stores = [] ∧
    ((base.updLink (.ualink 3 7) fun r => { r with up := false }).link (.ualink 3 7)).up = false ∧ (base.link (.ualink 3 7)).up = true := by
  decide +kernel

/-- Fatal errors before, during and after a dump that may be written, one that may not, the dump's end; each step of bring-up, with and without a
step that fails; a block that is good and one that is bad. -/
theorem test_DeviceEvents_firmware_met : base.stopped = false ∧ base.dumpGet 6 1 = 0 ∧
    (stored base [(0, [])]).powered = true ∧ ({ base with stopped := true } : State).stopped = true ∧ base.dumpSections[21]? = none ∧
    (let p : PowerOn := { image := some {}, fail := some ⟨5, 1, 2, 3⟩, lost := [(3, 7)] };
     (∀ k ∈ [2, 3, 4], ∀ f, p.fail = some f → f.step ≠ k) ∧ ∀ f, p.fail = some f → f.step = 5) ∧
    (∀ c ∈ [({ phase := 0, step := 1 } : Cap), { phase := 0, step := 5 }, { phase := 1 }],
      let s : State := { base with cap := c, boot := some { image := none } };
      s.powered = true ∧ s.dumping = none ∧ s.boot = some { image := none }) ∧
    5 ∉ base.bad ∧ 5 ∈ ({ base with bad := [5] } : State).bad := by
  refine ⟨by decide +kernel, by decide +kernel, by decide +kernel, by decide +kernel, by decide +kernel, ⟨?_, ?_⟩, by decide +kernel, by decide +kernel, by decide +kernel⟩
  · intro k hk f hf
    obtain rfl := Option.some.inj hf
    revert k
    decide
  · intro f hf
    obtain rfl := Option.some.inj hf
    rfl

/-- FIPS 202: SHA3-512 of the empty message begins A6 9F 73 CC. -/
theorem test_sha3_empty : (sha3 []).take 4 = [0xA6, 0x9F, 0x73, 0xCC] := by decide +kernel

/-- With one fuse blown, an image of version 0 is turned away whatever the unit's digest and verifier are; with none, one whose key and
signature they take is accepted. -/
theorem test_DeviceEvents_image_met : (∃ r, Image.rejected {} 1 = some r) ∧
    ∀ i : Image, sha3 i.key = bytesOf 64 Config.keyDigest → Mldsa.hashVerify i.key i.bytes i.sig = true → Image.rejected i 0 = none := by
  refine ⟨?_, fun i h v => by simp [Image.rejected, h, v]⟩
  unfold Image.rejected
  split
  · exact ⟨_, rfl⟩
  · split
    · exact ⟨_, rfl⟩
    · exact ⟨3, rfl⟩

/-! ### Hypotheses met: decoding and stepping -/

theorem test_RoundTrip_met : (∀ i ∈ [Instr.iaddI32 (r 63 63 63), .lop3 (rl 4 8 12 0xFF), .call ⟨p0, 7, 7, 0, 0, some 0xFFFFFFFF⟩, .bra ⟨p0, -131072, some 0⟩,
    .isetpS64 ⟨p0, 7, 7, 0, 0, none⟩, .sysc ⟨p0, 56, 0xFFF⟩], i.wf = true) ∧ (Instr.edisp 31 31 31).wf = true := by decide +kernel

/-- A packet that is taken, and one for each sub-cause of R380: no signature, a reserved bit, a reserved code, a wait in a packet that does not begin a
clause, a literal in slot 1, a word after a branch. -/
theorem test_PacketRejects_met : 16 ≤ (probePacket 0x00040186#32).length ∧ (decodePacket (probePacket 0x00040186#32)).isOk = true ∧
    ([[0x00000000#32, 0, 0, 0], [0x000FF88A, 0, 0, 0], [0x000CF80A, 0, 0, 0], [0x001FF00A, 0, 0, 0], [0x000FF81A, 0, 0, 0], [0x000FF80A, 0x02C00000, 0x00040186, 0]].map
      fun ws => match decodePacket (wordsLe ws) with | .error e => e.sub | .ok _ => 0) = [1, 2, 3, 4, 5, 6] := by decide +kernel

/-- The bytes of a packet fetched that is refused. -/
theorem test_PacketRejects_fetch_met : (match (stored base [(0x10000, [0x8A])]).fetch team 0x10000 with
    | .ok (_, b) => (match decodePacket b with | .error e => e.sub | .ok _ => 0)
    | .error _ => 0) = 2 := by decide +kernel

/-- The small state with the packet of `iadd.i32 v4, v6, v6` in memory, its clause in hand and tested, and its partition's turn next. -/
def stepping : State :=
  let s := stored base [(0x10000, probePacket 0x00044186#32)]
  { s.updGroup 1 0 (fun g => { g with clause := g.clause.map fun c => { c with code := leWords 4 (probePacket 0x00044186#32) } }) with
    cur := none, agenda := [.issue 0 0] }

theorem test_StepRunsDecoded_issue_met : stepping.powered = true ∧ stepping.cap.phase = 1 ∧ goodCore 191 = true ∧
    (let s1 := ({ stepping.marked with agenda := [] } : State).park 0 0; s1.pick 0 0 = some (1, 0) ∧
     let s2 : State := { s1.updGroup 1 0 (fun x => { x with triedAt := s1.seq }) with seq := s1.seq + 1 };
     ((s2.team? 1).bind fun t => (s2.group? 1 0).map fun g => (t.killed, (s2.boundaryTrap t g).isNone, g.gidx)) = some (false, true, 0) ∧
     ((s2.group? 1 0).bind (·.clause)).map (fun c => (c.tested, c.code.isEmpty)) = some (true, false)) ∧
    ((wordsFrom (leWords 4 (probePacket 0x00044186#32)) 1).head?.map fun x => (x.1, x.2.chains)) = some (1, false) := by decide +kernel

theorem test_StepRunsDecoded_clause_met :
    (let s := stepping.updGroup 1 0 fun g => { g with clause := none };
     s.needsWalk (.oper 1) 0x10000 = false ∧
     ((s.team? 1).bind fun t => (s.group? 1 0).bind fun g => (t.select g).map fun x => (x.1, x.2.map (·.tidx), isOk (s.packetAt t x.1), isOk (s.fetch t (packetOf x.1)),
        x.2.all fun th => th.came != .resumed)) = some (0x10004, [0, 1], true, true, true)) ∧
    ((decodePacket (probePacket 0x00044186#32)).toOption.map fun p => (p.hdr.isLit 1, p.hdr.cls)) = some (false, true) := by decide +kernel

theorem test_StepRunsDecoded_others_met :
    (let s := stored hartBase [(0xA0000, toLe 4 0x0000300B)]; isOk (s.hartWord 0) = true ∧ okD (s.hartWord 0) none = some 0x0000300B#32 ∧
      decodeHart 0x0000300B#32 = some .eginvw ∧ (s.hart 0).interrupt = none ∧ (s.hart 0).joinVal = none ∧ (s.hart 0).hostRead = none) ∧
    isEvent (.linkReplay ⟨.pcie 0, false⟩) = true ∧ (Instr.linkReplay ⟨.pcie 0, false⟩).wf = true ∧ base.allows (.linkReplay ⟨.pcie 0, false⟩) = true ∧ goodColumn 47 = true := by decide +kernel

/-- A command block of the host's that has come: its Fold has a command to carry out. -/
theorem test_StepRunsDecoded_serve_met : let r : HostRead := { rd := none, va := 0, size := 64, got := [(0, some (List.replicate 64 1))] }
    let s := hartBase.updHart 47 fun h => { h with hostRead := some r, efcmd := 0x1000 }
    (s.hart 47).hostRead = some r ∧ (∀ n < r.parts, (tget r.got n).isSome = true) ∧
    (({ s.marked with agenda := [], curHart := 47 } : State).hostReadDone 47 r).2 = some ⟨47, 0x1000⟩ := by decide +kernel

theorem test_StepKeepsMemory_met : State.reset.Good ∧ ∃ t, step State.reset = .next t := ⟨rfl, _, rfl⟩

/-- A store of the last four bytes of a page by one thread, U = 1. -/
theorem test_StoreWrites_met : let w : Rrr := ⟨pU, 4, 8, 0, some 0xFFC⟩
    canIssue base (w.dev 0x99) = true ∧ (devOf (.stB32 w)) = w.dev 0x99 ∧ (issue base (w.dev 0x99)).unlimited base ∧
    (issue base (w.dev 0x99)).allClear base 4 .write 1 (plainEa (w.dev 0x99)) ∧
    (((issue base (w.dev 0x99)).accesses base 4 .write 1 (plainEa (w.dev 0x99))).map fun a => (a.tgt.view == .system, base.partialBad a.tgt.loc 4)) = [(false, false)] ∧
    base.Good ∧ ∃ t, exec (.stB32 w) base = .next t :=
  ⟨by decide +kernel, by decide +kernel, fun x h => by
    have e : base.charged? (issue base (Rrr.dev ⟨pU, 4, 8, 0, some 0xFFC⟩ 0x99)).team.ctx (issue base (Rrr.dev ⟨pU, 4, 8, 0, some 0xFFC⟩ 0x99)).team.slice = some slice := by
      decide +kernel
    rw [e] at h
    cases h
    exact ⟨rfl, rfl⟩, by unfold Iss.allClear; decide +kernel, by decide +kernel, by unfold State.Good; decide +kernel, _, rfl⟩

/-- An access to the last word of the tile's region. -/
theorem test_AccessFrame_tile_met : ∀ x ∈ [(Instr.ldt (rl 4 1 12 0x0000F004), AccKind.read), (.stt (rl 4 1 12 0x0000F004), .write)],
    let v := devOf x.1
    let i := issue tiled v
    let off := fun (th : Thread) => ((v.rb32 th).toNat : Int) + (v.lw.extractLsb' 8 24).toInt
    canIssue tiled v = true ∧ v.a.toNat < i.desc.tiles ∧ (tiled.tile i.team.core (i.team.tileBase + v.a.toNat)).st ≠ .empty ∧
    (∀ th ∈ i.doers, 0 ≤ off th ∧ off th + wdBytes (v.lw.toNat % 8) ≤ (tiled.tile i.team.core (i.team.tileBase + v.a.toNat)).size ∧ off th % wdBytes (v.lw.toNat % 8) = 0) ∧
    i.allClear tiled (wdBytes (v.lw.toNat % 8)) x.2 1 (fun th => BitVec.ofInt 64 ((tiled.tile i.team.core (i.team.tileBase + v.a.toNat)).base + off th)) ∧
    (tiled.slice? i.team.ctx i.team.slice) = some slice ∧ ∃ t, exec x.1 tiled = .next t := by
  simp only [List.forall_mem_cons, List.not_mem_nil, false_implies, implies_true, and_true]
  exact ⟨⟨by decide +kernel, by decide +kernel, by decide +kernel, by decide +kernel, by unfold Iss.allClear; decide +kernel, by decide +kernel, _, rfl⟩,
    ⟨by decide +kernel, by decide +kernel, by decide +kernel, by decide +kernel, by unfold Iss.allClear; decide +kernel, by decide +kernel, _, rfl⟩⟩

/-- A load of the first word of a page by both threads; an atomic of the word before the page's end. -/
theorem test_AccessFrame_met : ∀ x ∈ [(Instr.ldB32 (rl 4 8 0 0), AccKind.read, plainEa), (.atom (rl 4 8 12 0x000FFC00), .atomic, atomicEa)],
    canIssue base (devOf x.1) = true ∧ (issue base (devOf x.1)).allClear base 4 x.2.1 1 (x.2.2 (devOf x.1)) ∧ (issue base (devOf x.1)).unlimited base ∧
    ∃ t, exec x.1 base = .next t := by
  simp only [List.forall_mem_cons, List.not_mem_nil, false_implies, implies_true, and_true]
  have e : ∀ v ∈ [devOf (.ldB32 (rl 4 8 0 0)), devOf (.atom (rl 4 8 12 0x000FFC00))],
      base.charged? (issue base v).team.ctx (issue base v).team.slice = some slice := by decide +kernel
  have u : ∀ v ∈ [devOf (.ldB32 (rl 4 8 0 0)), devOf (.atom (rl 4 8 12 0x000FFC00))], (issue base v).unlimited base := fun v hv x h => by
    rw [e v hv] at h
    cases h
    exact ⟨rfl, rfl⟩
  exact ⟨⟨by decide +kernel, by unfold Iss.allClear; decide +kernel, u _ (by simp), _, rfl⟩,
    ⟨by decide +kernel, by unfold Iss.allClear; decide +kernel, u _ (by simp), _, rfl⟩⟩

/-! ### Hypotheses met: clauses -/

/-- A group whose last clause, at 0x10024, ended in a backward branch: threads below it, above it, waiting at their rejoin point, and one that left. -/
def scattered : Group :=
  { grp with lastStart := 0x10024, lastBack := true, clause := none,
             threads := [thr 0, { thr 1 with pc := 0x10044 }, { thr 2 with pc := 0x10034 }, { thr 3 with wait := .rejoin }, { thr 4 with exited := true }] }

/-- Two words of one pipe, two that write one register, a read of what was written, a branch before the end, a chain that ends its packet. -/
def chains : List (List Dev) :=
  [[(r 4 6 12).dev 0x01, (r 5 6 12).dev 0x01], [devOf (.iaddI32 (r 4 6 12)), devOf (.fadd (r 5 4 12))], [devOf (.iaddI32 (r 4 6 12)), devOf (.fadd (r 4 6 12))],
    [devOf (.bra ⟨p0, 0, none⟩), devOf (.iaddI32 (r 4 6 12))], [devOf (.iaddI32 (r 4 6 12)), devOf (.fadd ⟨⟨true, false, 0, false⟩, 5, 6, 12, none⟩)]]

/-- A packet of two chained words that write one register, by one pipe. -/
def chained : Clause :=
  { start := 0x10004, set := [0, 1], seta := 15, setb := 15, packets := 1, tested := true, code := [0x000FF80A#32, 0x80044186#32, 0x00044186, 0] }

/-- Two threads at their rejoin point with the same pair on top; a third of its mask has left, or has still to come. -/
def meeting (m : List Nat) : Group :=
  let p : RejoinPair := ⟨0x10004, m, 0, 7⟩
  { grp with threads := [{ thr 0 with wait := .rejoin, rejoin := [p], pts := 3 }, { thr 1 with wait := .rejoin, rejoin := [p], pts := 5 }, { thr 2 with rejoin := [p] }] }

/-- Threads that may go on and one of each kind that may not; a PC above the clause just run, and none; flags that hold a WAIT and that do not; chains
that break each condition, and one that breaks none; a meeting that pops and one that waits. -/
theorem test_ClauseRules_met :
    scattered.threads.map (team.selectable scattered) = [true, true, true, false, false] ∧ (team.select scattered).map (·.1) = some 0x10034 ∧
    (team.select { scattered with lastStart := 0x10044 }).map (·.1) = some 0x10004 ∧ (team.select { scattered with threads := [] }).isNone = true ∧
    (({ grp with flags := grp.flags.set 11 1 } : Group).flagsHold 0x800 = true ∧ grp.flagsHold 0xFFF = false ∧ ∀ th ∈ grp.threads, th.failedIn 0xFFF = []) ∧
    (base.group? 1 0).map (·.flags.length) = some 12 ∧
    (chains.map fun l => chainBreak chained [] 0 l) = [some (1, 1), some (1, 2), some (1, 3), some (0, 4), some (1, 5)] ∧
    chainBreak chained [] 0 [devOf (.iaddI32 (r 4 6 12))] = none ∧
    (let words := wordsFrom chained.code 1
     grp.setOf chained = [thr 0, thr 1] ∧ (words.head?.map fun x => (x.1, x.2.pre.c, x.2.op)) = some (1, true, 0x01) ∧ chainPos chained (thr 0).pc 1 = 0 ∧
     (chainTrap base team grp chained [thr 0, thr 1] words 1).map (fun x => (x.1, x.2.cause, x.2.chn)) = some (0x10004, 4, 1) ∧ chainWaits team grp words = false ∧
     chainFaults base team grp (chainOf words) = []) ∧
    (let w := wordsFrom [0x000FF80A#32, 0x80044186#32, 0x80044186#32, 0] 1 |>.map fun x => (x.1, if x.1 = 3 then { x.2 with op := 0x4C } else x.2)
     (chainTrap base team grp chained [thr 0, thr 1] w 1).map (fun x => (x.1, x.2.cause)) = some (0x1000C, 1) ∧
     (chainFaults base team grp (chainOf w)).map (·.2.cause) = [1]) ∧
    (∀ m ∈ [0, 1], ∃ x ∈ (meeting [0, 1]).threads, x.tidx = m ∧ x.exited = false ∧ x.wait = .rejoin ∧ x.rejoin.map (·.id) = [7]) ∧
    ((meeting [0, 1]).popRejoin.threads.map fun th => (th.wait == .rejoin, th.rejoin.length, th.pts)) = [(false, 0, 5), (false, 0, 5), (false, 1, 0)] ∧
    (meeting [0, 1, 2]).popRejoin = meeting [0, 1, 2] ∧
    (((meeting [0, 1, 2]).settle [2]).threads.map fun th => (th.wait == .rejoin, th.rejoin.length, th.pts)) = [(false, 0, 5), (false, 0, 5), (false, 0, 5)] := by
  decide +kernel

/-! ### Hypotheses met: fault queues, leaving and moving -/

/-- Physical addresses of the interleaved view reach storage (R85). -/
theorem physical_inter (x die : Nat) (h : x < 2 ^ 40) : ∃ t : Target, physical (probePa + x) die = .ok t ∧ t.view = .inter := by
  have a : (probePa + x) / 2 ^ 48 = 0 := by unfold probePa; omega
  have b : (probePa + x) / 2 ^ 44 % 16 = 8 := by unfold probePa; omega
  have c : (probePa + x) / 2 ^ 40 % 16 = 0 := by unfold probePa; omega
  exact ⟨_, by simp only [physical, a, b, c]; rfl, rfl⟩

theorem paLoc_inter (x die : Nat) (h : x < 2 ^ 40) : (paLoc (probePa + x) die).isSome = true := by
  obtain ⟨t, e, v⟩ := physical_inter x die h
  unfold paLoc
  rw [e]
  show (if t.view = .system then none else some t.loc).isSome = true
  rw [v]
  rfl

/-- A byte above every listed address reads 0. -/
theorem get_above {m : List Host.Cell} {lo a : Nat} (h : (m.all fun c => decide (c.1 < lo)) = true) (ha : lo ≤ a) : Memory.get m a = 0 := by
  have : m.lookup a = none := by
    rw [List.lookup_eq_none_iff]
    intro c hc
    have below : c.1 < lo := of_decide_eq_true (List.all_eq_true.mp h c hc)
    have apart : a ≠ c.1 := by omega
    simpa using apart
  rw [Memory.get, this]
  rfl

/-- The words of the fault queue's header of the small state: PIDX, and CIDX at 0x40. -/
def faults (pidx cidx : Nat) : State := stored base [(0x2000000, toLe 8 pidx), (0x2000040, toLe 8 cidx)]

/-- An empty queue, one with one place free and its index about to wrap, and two full ones. -/
theorem test_ContextFaultQueue_met :
    (∀ x ∈ [(0, 0), (2 ^ 64 - 1, 2 ^ 64 - 1024), (1024, 0), (3, 2 ^ 64 - 1021)], let s := faults x.1 x.2
      s.stopped = false ∧ s.ctx? 0 = some context ∧ s.Good ∧ context.save % 64 = 0 ∧ context.hart < 48 ∧
      (∀ k < 0x11000, (paLoc (context.save + k) (dieOfColumn 0)).isSome = true ∧ ∀ l ∈ paLocs (context.save + k), l / 64 ∉ s.bad)) ∧
    ([(0, 0), (2 ^ 64 - 1, 2 ^ 64 - 1024), (1024, 0), (3, 2 ^ 64 - 1021)].map fun x =>
      let word := fun (off : Nat) => leNat ((faults x.1 x.2).peekPa (context.save + off) 8 0)
      decide ((word 0 + 2 ^ 64 - word 0x40) % 2 ^ 64 = 1024)) = [false, false, true, true] ∧
    ({ base with stopped := true } : State).stopped = true ∧ base.ctx? 5 = none := by
  refine ⟨fun x hx => ?_, by decide +kernel, rfl, by decide +kernel⟩
  refine ⟨rfl, rfl, ?_, by decide, by decide, fun k hk => ⟨?_, fun l _ => by simp [faults, stored, base]⟩⟩
  · revert x
    unfold State.Good
    decide +kernel
  · have := paLoc_inter (0x2000000 + k) (dieOfColumn 0) (by omega)
    rwa [← Nat.add_assoc] at this

/-- A group with a rejoin pair over both threads, a group that waits, a reservation, units 3 and 5. -/
def leaving : Team :=
  let p : RejoinPair := ⟨0x10040, [0, 1], 3, 7⟩
  let line := (locSram 0 (3 * 65536)) / 128
  { team with resv := some ⟨3, 4, 2⟩, units := [3, 5], desc := { team.desc with tiles := 3, scr := 2 }, tileBase := 9,
              groups := [{ grp with clause := none, threads := [{ thr 0 with rejoin := [p] }, { thr 1 with rejoin := [p], watch := some ⟨line, false⟩ }] },
                { grp with gidx := 1, clause := none, threads := [{ thr 2 with wait := .kwait 1 }] }] }

/-- That team and one of another cluster; bytes in its units, tiles and accumulators of its own and of others. -/
def leavingState : State :=
  { base with teams := [leaving, { leaving with uid := 2, core := 1, cluster := 9 }],
              mem := Memory.puts base.mem [(locSram 0 (3 * 65536 + 10), 1), (locSram 0 (5 * 65536 + 65535), 3), (locSram 0 (4 * 65536), 9)],
              tiles := [(9, { st := .filling, size := 44 }), (12, { st := .draining })], accs := [(4, { bad := true }), (6, { e := 8 })],
              loads := [{ aLoad with tidxs := [0, 1], flag := some 2 }] }

/-- It has left its core. -/
def leftState : State := leavingState.moveOut leaving true

/-- Exits of one thread and of all; a load of threads that all go; a cluster with a live thread, one whose threads have all exited, none. -/
theorem test_LeaveResults_exit_met : leavingState.team? 1 = some leaving ∧ (leaving.group? 0).isSome = true ∧ (leaving.groups.map (·.gidx)).Nodup ∧
    (∀ g ∈ leaving.groups, (g.threads.map (·.tidx)).Nodup) ∧ (∀ ts ∈ [[0], [0, 1]], ((leavingState.exitThreads 1 0 ts).team? 1).isSome = true) ∧
    (let l := { aLoad with tidxs := [0, 1], flag := some 2 }; leavingState.loads = [l] ∧ l.reader = none ∧ l.tidxs ≠ [] ∧ ∀ x ∈ l.tidxs, x ∈ [0, 1]) ∧
    (leavingState.teams.filter (·.cluster == 7)) = [] ∧ (∃ t ∈ leavingState.teams.filter (·.cluster == 1), ∃ g ∈ t.groups, ∃ th ∈ g.threads, th.exited = false) ∧
    (let s : State := { leavingState with
      teams := leavingState.teams.map fun t => { t with groups := t.groups.map fun g => { g with threads := g.threads.map fun th => { th with exited := true } } },
      slices := [{ slice with left := 7 }],
      ops := [{ mmaOp with own := .team, st := .done }, { mmaOp with own := .team, uid := 8, st := .queued }, { mmaOp with uid := 9 }] }
     s.teams.filter (·.cluster == 1) ≠ [] ∧ (∀ t ∈ s.teams.filter (·.cluster == 1), t.retired = false ∧ ∀ g ∈ t.groups, ∀ th ∈ g.threads, th.exited = true) ∧
     (s.ops.map (·.uid)).Nodup ∧ (s.teams.map (·.uid)).Nodup ∧ (s.slice? 0 1).isSome = true ∧ ((s.retire 1).slice? 0 1).isSome = true) := by decide +kernel

/-- A kill of a team with a group at rest, one in the middle of its clause, and one told to end; a core with room for a team of 70 threads. -/
theorem test_LeaveResults_kill_met :
    (let t := { leaving with groups := [grp, { grp with gidx := 1, clause := none, threads := [{ thr 2 with wait := .kwait 1 }] }] }
     let s : State := { leavingState with teams := [t] }
     s.team? 1 = some t ∧ (s.teams.map (·.uid)).Nodup ∧ (∀ m ∈ s.teams, (m.groups.map (·.gidx)).Nodup ∧ ∀ g ∈ m.groups, ∀ th ∈ g.threads, th.atBrx = false) ∧
     t.groups.map (·.atRest) = [false, true] ∧ ((s.kill 1 []).team? 1).isSome = true) ∧
    (let x : Slice := { slice with desc := { probeDesc with tsize := 70, scr := 1, tiles := 3, spread := 2, frame := 16 } }
     (∀ t ∈ leavingState.teams, t.uid ≠ leavingState.seq) ∧ 0 < x.desc.width ∧
     (leavingState.roomFor 0 (newTeam x leavingState.seq 4 0 1 0) x.desc).isSome = true) := by decide +kernel

theorem test_LeaveResults_out_met : leavingState.team? leaving.uid = some leaving ∧ leavingState.Good ∧ leaving.core < 192 ∧ leaving.uid < 2 ^ 38 ∧
    leaving.units.Nodup ∧ leaving.units.length ≤ 24 ∧ (∀ n ∈ leaving.units, n < 24) ∧ (∀ k < 24 * 65536, Memory.get leavingState.mem (savedLoc leaving.uid k) = 0) ∧
    leaving.desc.tiles ≤ 64 ∧ (leavingState.tiles.map (·.1)).Nodup ∧ (leavingState.accs.map (·.1)).Nodup ∧
    (∀ k < 64, tget leavingState.tiles (savedCore leaving.uid * 64 + k) = none) ∧ (∀ k < 512, tget leavingState.accs (savedCore leaving.uid * 512 + k) = none) ∧
    (leaving.groups.map (·.gidx)).Nodup ∧ (∀ g ∈ leaving.groups, (g.threads.map (·.tidx)).Nodup) ∧
    ∀ g ∈ leaving.groups, ∀ th ∈ g.threads, th.standsAt (.slyldDone false) = false := by
  refine ⟨by decide +kernel, by unfold State.Good; decide +kernel, by decide, by decide, by decide, by decide, by decide, fun k _ => ?_, by decide, by decide,
    by decide, by decide +kernel, by decide +kernel, by decide, by decide, by decide⟩
  exact get_above (lo := 2 ^ 61) (by decide +kernel) (by unfold savedLoc; omega)

/-- It comes back to its core, to another core and to another die. -/
theorem test_LeaveResults_in_met : ∀ core ∈ [0, 3, 50], ∃ t, leftState.team? t.uid = some t ∧ leftState.Good ∧ core < 192 ∧ t.uid < 2 ^ 38 ∧
    (leftState.roomFor core t t.desc).isSome = true ∧ t.throttleMask = 0 ∧ t.async.first = none ∧ (leftState.tiles.map (·.1)).Nodup ∧ (leftState.accs.map (·.1)).Nodup ∧
    (t.groups.map (·.gidx)).Nodup ∧ ∀ g ∈ t.groups, (g.threads.map (·.tidx)).Nodup := by
  intro core hc
  refine ⟨(leftState.team? 1).getD team, ?_⟩
  revert core
  unfold State.Good
  decide +kernel

/-! ### Hypotheses met: copies -/

/-- The target of an access does not depend on its size. -/
theorem resolve_one {s : State} {a : Agent} {ea : Addr} {n : Nat} {k : AccKind} {g : Target} (h : (resolve s a ea n k).2 = some g) :
    (resolve s a ea 1 k).2 = some g := by
  have key : ∀ (c : Prop) [Decidable c] (r : List Miss × Option Target) (l : List Miss),
      (if c then r else (l ++ r.1, if l.isEmpty then r.2 else none)).2 = some g → r.2 = some g := by
    intro c _ r l h
    split at h
    · exact h
    · dsimp only at h
      split at h
      · exact h
      · cases h
  have t := key _ _ _ h
  unfold resolve
  simp only [Nat.mod_one, if_true, List.isEmpty_nil, List.nil_append]
  simp only [ite_self]
  exact t

/-- A reduction of one row of 8 bytes and an atomic one, from 0x80000 to 0x84000. -/
def addOp (op etype rop : Nat) : Op :=
  { copyOp with st := .running,
                bytes := [BitVec.ofNat 8 op, 0, 0, BitVec.ofNat 8 etype] ++ toLe 4 8 ++ toLe 8 0x80000 ++ toLe 8 0x84000 ++ toLe 4 1 ++ List.replicate 14 0 ++ toLe 2 rop ++
                  List.replicate 20 0 }

/-- A copy, a reduction and an atomic addition, with the pieces, the sources and the addresses of their one chunk. -/
def chunkOps : List (Op × List Piece × List Span × List Addr) :=
  [({ copyOp with st := .running }, [⟨0, 0, ⟨0x84000, 16⟩⟩], [⟨0x80000, 16⟩], [0x80000, 0x84000, 0]),
    (addOp 2 4 0, [⟨0, 0, ⟨0x84000, 16⟩⟩, ⟨0, 16, ⟨0x84010, 16⟩⟩], [⟨0x80000, 4⟩, ⟨0x80004, 4⟩], [0x80000, 0x80004, 0x84000, 0x84010, 0]),
    (addOp 3 2 0, [⟨0, 0, ⟨0x84000, 4⟩⟩, ⟨0, 4, ⟨0x84004, 4⟩⟩], [⟨0x80000, 4⟩, ⟨0x80004, 4⟩], [0x80000, 0x80004, 0x84000, 0x84004, 0])]

/-- They are made whole, over places apart, of translations whose A and D bits stand. -/
theorem test_CopyEffects_chunk_met : ∀ x ∈ chunkOps, let o := x.1
    made (base.makeChunk o 0) = true ∧ Memory.wf base.mem = true ∧ o.kind ≠ .xcoll ∧ base.past = [] ∧ o.lines = [] ∧ o.piecesAt 0 = x.2.1 ∧
    x.2.1.flatMap (o.sourceOf (o.entryOf base 0 (base.entries o x.2.1))) = x.2.2.1 ∧ x.2.1.flatMap o.targetsOf = x.2.1.map (·.dst) ∧
    ((x.2.2.1.map (·.ea) ++ (x.2.1.map (·.dst.ea)) ++ x.2.1.map (fun y => (copyPk o.bytes).src + BitVec.ofNat 64 (8 * y.row)) ++ [(copyPk o.bytes).caddr]).all
      x.2.2.2.contains) = true := by decide +kernel

theorem test_CopyEffects_places_met : ∀ x ∈ chunkOps, let kind : AccKind := if x.1.kind != .astr && (copyPk x.1.bytes).reduces then .atomic else .write
    (∀ y ∈ x.2.2.1, ∀ g ∈ (resolve base x.1.agent y.ea 1 .read).2, g.view ≠ .system) ∧
    (∀ y ∈ x.2.1, (resolve base x.1.agent y.dst.ea 1 kind).2.isSome = true ∧ ∀ t ∈ (resolve base x.1.agent y.dst.ea 1 kind).2,
      t.view ≠ .system ∧ t.reps = [t.loc] ∧ t.loc % 2 ^ 12 = y.dst.ea.toNat % 2 ^ 12) := by decide +kernel

theorem test_CopyEffects_marked_met : ∀ x ∈ chunkOps, ∀ ea ∈ x.2.2.2, ∀ n k g e, (resolve base x.1.agent ea n k).2 = some g → g.leaf = some e → e.pte &&& 0xC0 = 0xC0 := by
  have marked : (chunkOps.all fun x => x.2.2.2.all fun ea => [AccKind.read, .write, .atomic, .fetch, .watch].all fun k =>
      ((resolve base x.1.agent ea 1 k).2.bind (·.leaf)).all fun e => e.pte &&& 0xC0 == 0xC0) = true := by decide +kernel
  intro x hx ea he n k t l ht hl
  have m := List.all_eq_true.mp (List.all_eq_true.mp (List.all_eq_true.mp marked x hx) ea he) k (by cases k <;> simp)
  rw [resolve_one ht] at m
  simpa [hl] using m

/-- Tiles that count down, that come to READY and to FILLING again, and that may not be counted down; the last chunk and one before it; a completion store
over part of a bad block; a queue packet's sequence write. -/
theorem test_CopyEffects_completion_met :
    (∀ e ∈ [({ st := .filling, pend := 17, size := 64 } : Tile), { st := .filling, pend := 16, size := 64 }, { st := .draining, pend := 16, size := 64 }],
      let o := { copyOp with bytes := [0, 0, 1, 0] ++ copyOp.bytes.drop 4 }
      let s := base.updTile 0 0 fun _ => e
      s.team? o.team = some team ∧ (copyPk o.bytes).ck = 1 ∧ (copyPk o.bytes).counted = 16 ∧ (s.tile o.core (team.tileBase + (copyPk o.bytes).cid)) = e ∧
        s.cwTarget o (copyPk o.bytes) = none) ∧
    (let o := { copyOp with bytes := [0, 0, 1, 0] ++ copyOp.bytes.drop 4 }; (base.tile o.core (team.tileBase + (copyPk o.bytes).cid)).st = .empty) ∧
    (copyPk ([0, 0, 2, 0] ++ copyOp.bytes.drop 4)).ck = 2 ∧ (copyPk copyOp.bytes).ck = 0 ∧ (copyPk copyOp.bytes).cw = false ∧ tget copyOp.lines cwKey = none ∧
    (∀ b ∈ [false, true], let t : Target := ⟨.inter, 0x1000, [0x1000], 0, 0, none⟩
      let o := { copyHeld with lines := [(cwKey, keepTarget t)] }
      let s : State := { base with bad := if b then [64] else [] }
      s.cwTarget o (copyPk o.bytes) = some t ∧ s.partialBad t.loc 4 = b) ∧
    (∀ k ∈ [0, 1], let o := { copyOp with st := .running, prog := k }; let s : State := { base with ops := [o] }
      s.op? 7 = some o ∧ o.plan.total = 16 ∧ decide (o.prog * 2048 < o.plan.total) = (k == 0)) ∧
    (let o := { copyOp with st := .running, prog := 1, bytes := [0, 0x0D] ++ copyOp.bytes.drop 2 }
     let s : State := { base with ops := [o], stores := [{ aStore with op := some 7 }] }
     s.op? 7 = some o ∧ o.acqHost = true ∧ ∃ x ∈ s.stores, x.op = some 7) ∧
    (let o := { copyOp with kind := .queue, queue := 9, core := 144, bytes := [0, 0, 3, 0] ++ copyOp.bytes.drop 4 }
     let s : State := { posted with ops := [o] }
     ((s.queues.find? (·.id == o.queue)).map (·.header)) = some 0x60000 ∧ (copyPk o.bytes).ck = 3 ∧
     (s.look o.agent ⟨0x60000 + 136, 4⟩ .write).1 = [] ∧ (s.look o.agent ⟨0x60000 + 136, 4⟩ .write).2.isSome = true) := by decide +kernel

/-! ### Hypotheses met: no active thread, and what covers no line of device memory -/

/-- The small state with a page of the system view at 512 GiB, which the first threads' v8:v9 names. -/
def hostPaged : State :=
  { set [(8, 0), (9, 0x80)] with tlb := base.tlb ++ [⟨0, 0, 1, 3, false, 0xDF, ⟨0, 0, []⟩⟩] }

/-- The guard p0 holds for no thread. -/
theorem test_no_active_met : ∀ ins ∈ [Instr.mres ⟨pOff, 4, 2, 0, some 0x00010003⟩, .mrel ⟨pOff, 0, 0, 0, none⟩, .azero ⟨pOff, 0, 0, 0, some 3⟩,
      .anorm ⟨pOff, 4, 0, 0, some 3⟩, .aread ⟨pOff, 4, 8, 0, some 3⟩, .awrite ⟨pOff, 4, 8, 0, some 3⟩, .aexp ⟨pOff, 4, 0, 0, some 3⟩, .ascl ⟨pOff, 0, 0, 12, some 3⟩,
      .amov ⟨pOff, 0, 0, 0, some 0x00040600⟩, .tdef ⟨pOff, 3, 18, 12, none⟩, .tset ⟨pOff, 1, 0, 2, none⟩, .tqry ⟨pOff, 4, 3, 0, none⟩, .launch ⟨pOff, 4, 8, 0, none⟩,
      .depdec ⟨pOff, 4, 0, 0, some 3⟩, .ptrap ⟨pOff, 4, 0, 12, none⟩, .pstat ⟨pOff, 4, 0, 0, some 0x42⟩, .sysc ⟨pOff, 8, 5⟩], Meets ins fun _ i _ => i.act = [] := by
  simp only [List.forall_mem_cons, List.not_mem_nil, false_implies, implies_true, and_true]
  repeat' apply And.intro
  all_goals exact meets base rfl (by decide +kernel) (by decide +kernel)

/-- Twelve bytes of scratch, and of the system view; a page of each kind. -/
theorem test_OrderingResults_pages_met : (∀ ins ∈ [Instr.cwb (r 0 18 12), .cinv (r 0 18 12)], Meets ins fun v i _ => (∀ t ∈ i.act, t.wait = .run) ∧
      ∀ t ∈ i.doers, (cachePages (v.a64 t) (v.b32 t)).map inWindows = [true]) ∧
    ∀ ins ∈ [Instr.cwb (r 0 8 12), .cinv (r 0 8 12)], Meets ins fun v i s => (∀ t ∈ i.act, t.wait = .run) ∧ ∀ t ∈ i.doers,
      cachePages (v.a64 t) (v.b32 t) = [0x8000000000] ∧ s.needsWalk (.thread i.team.uid t.tidx) 0x8000000000 = false ∧
      (resolve s (.thread i.team.uid t.tidx) 0x8000000000 1 .read).1 = [] ∧
      (resolve s (.thread i.team.uid t.tidx) 0x8000000000 1 .read).2.map (·.view) = some .system := by
  simp only [List.forall_mem_cons, List.not_mem_nil, false_implies, implies_true, and_true]
  exact ⟨⟨meets queued rfl (by decide +kernel) (by decide +kernel), meets queued rfl (by decide +kernel) (by decide +kernel)⟩,
    meets hostPaged rfl (by decide +kernel) (by decide +kernel), meets hostPaged rfl (by decide +kernel) (by decide +kernel)⟩

/-! ### Hypotheses met: SETW, descriptors read -/

/-- `launchable` with SETW, counter 2 and WINIT `n`; a slice that the counter holds. -/
def setting (n : Nat) : State :=
  { (stored launchable [(0x50027, [2]), (0x50048, [2, 0, BitVec.ofNat 8 n, 0])]).updCtx 0 (fun c => { c with counters := [(2, 7)] }) with
    slices := [slice, { slice with id := 5, ready := none, desc := { probeDesc with wctr := 2 } }] }

/-- WINIT 0 and 3; the sixteen spans of the descriptor's address; an address that is not mapped. -/
theorem test_LaunchRule_setw_met : (∀ n ∈ [0, 3], let s := setting n
      isOk (s.readDesc 0 0 0x50000) = true ∧ (let bs := (okD (s.readDesc 0 0 0x50000) (base, [])).2
        let x := parseDesc bs 0x50000 none
        validDesc bs x context.cn = true ∧ x.setw = true ∧ x.wctr = 2 ∧ x.winit = n) ∧
      ((okD (s.readDesc 0 0 0x50000) (base, [])).1.ctx? 0).isSome = true ∧ (s.launch 0 0 0x50000 none true none).2 = 2) ∧
    (∀ k < 16, let va : Addr := 0x50000 + BitVec.ofNat 64 (16 * k)
      inWindows va.toNat = false ∧ (launchable.look (.queue 0 0) ⟨va, 16⟩ .read).1 = [] ∧
      ((launchable.look (.queue 0 0) ⟨va, 16⟩ .read).2.map fun g => (g.view == .system)) = some false) ∧
    isOk (launchable.readDesc 0 0 0x8000000000) = false ∧ (0x8000000000 : Addr).toNat % 256 = 0 := by decide +kernel

/-- A ring whose records lie in good blocks of storage; a request posted, one that waits for a free record, and one that has been posted. -/
def ringed (status : Nat) : State :=
  stored (base.updColumn 0 fun c => { c with ring := some (probePa + 0xD0000), post := 63 }) [(0xD0FC0 + 48, [BitVec.ofNat 8 status])]

theorem test_LaunchGroupResults_sysc_met : (∀ st ∈ [2, 0], let s := ringed st
      let i := issue s (devOf (.sysc ⟨p0, 8, 5⟩))
      canIssue s (devOf (.sysc ⟨p0, 8, 5⟩)) = true ∧ i.act ≠ [] ∧ (s.column 0).ring = some (probePa + 0xD0000) ∧ columnOfCore i.team.core = 0 ∧
      (i.doers.find? fun t => match t.wait with | .syscDone _ => false | _ => true) = some (thr 0) ∧ (∀ n < 64, (thr 0).wait ≠ .sysc n) ∧
      hostPa (probePa + 0xD0000 + 64 * 63 + 48) = false ∧ leNat (s.peekPa (probePa + 0xD0000 + 64 * 63 + 48) 4 0) = st ∧ Memory.wf s.mem = true ∧
      (∀ n < 64, (paLoc (probePa + 0xD0000 + 64 * 63 + n) 0).isSome = true) ∧ s.bad = [] ∧ s.thread? i.team.uid i.grp.gidx 0 = some (thr 0) ∧ (thr 0).watch = none) ∧
    (let s := (ringed 0).updThreads 1 0 (fun _ => true) fun t => { t with wait := .sysc 63 }
     canIssue s (devOf (.sysc ⟨p0, 8, 5⟩)) = true ∧
     ((issue s (devOf (.sysc ⟨p0, 8, 5⟩))).doers.find? fun t => match t.wait with | .syscDone _ => false | _ => true).map (·.wait) = some (.sysc 63)) := by
  decide +kernel

/-- Every sensor at and below its limit (R431). -/
theorem test_DeviceEvents_thermal_met : (∃ t ∈ [919, 920], 920 ≤ t) ∧ 840 ≤ 840 ∧ ¬(∃ t ∈ [919], 920 ≤ t) := by decide

/-- A device that has stopped with a dump under way, and one whose power was taken; a base core's join of a slice that is ready and one that is not. -/
theorem test_ResetState_met : (∀ d ∈ [0, 2], let s : State := { base with stopped := true, cap := { phase := 3, dump := d }, dumping := some (2, 0) }
      s.Good ∧ s.dumping ≠ none ∧ s.computeReset.stopped = decide (d = 2)) ∧
    (let s := { hartBase with slices := [slice, { slice with id := 5, ready := none }] }
     s.ctx? 0 = some context ∧ ((s.slice? 0 1).bind (·.ready)).isSome = true ∧ ((s.slice? 0 5).bind (·.ready)).isSome = false) := by
  constructor
  · unfold State.Good
    decide +kernel
  · decide +kernel

/-- A misaligned doubleword whose eight places are in two blocks, the second of them good or bad; an edisp of a misplaced descriptor, of a misplaced block,
and one whose third store meets a bad block. -/
theorem test_BaseCoreAccess_spread_met : let va : Addr := BitVec.ofNat 64 (probePa + 0x9003C)
    let last := okD (hartBase.hartAddr 0 (va + 7) .read) ⟨.system, 0, [], 0, 0, none⟩
    let torn : State := { hartBase with bad := [last.loc / 64] }
    va.toNat % 8 ≠ 0 ∧ hartBase.past = [] ∧
    (∀ i < 8, ∀ k ∈ [AccKind.read, .write], isOk (hartBase.hartAddr 0 (va + BitVec.ofNat 64 i) k) = true ∧
      (okD (hartBase.hartAddr 0 (va + BitVec.ofNat 64 i) k) ⟨.system, 0, [], 0, 0, none⟩).view = .inter) ∧
    (∀ i < 4, ∀ b ∈ blocksOf (okD (torn.hartAddr 0 (va + BitVec.ofNat 64 i) .read) ⟨.system, 0, [], 0, 0, none⟩).loc 1, b ∉ torn.bad) ∧
    (∃ b ∈ blocksOf (okD (torn.hartAddr 0 (va + 4) .read) ⟨.system, 0, [], 0, 0, none⟩).loc 1, b ∈ torn.bad) ∧
    (((hartBase.updHart 0 fun h => { h with x := [(11, 0x50001)] }).hart 0).r 11).toNat % 256 ≠ 0 ∧ ((hartBase.hart 0).r 12).toNat % 64 ≠ 0 ∧
    (let s : State := { hartBase with bad := [(okD (hartBase.hartAddr 0 (BitVec.ofNat 64 (probePa + 0x90040)) .write) ⟨.system, 0, [], 0, 0, none⟩).loc / 64] }
     (s.argStores 0 (BitVec.ofNat 64 (probePa + 0x90030)) 8 0).2 = false) := by decide +kernel

/-- A team with a trap of each cause pending, to which a later one comes. -/
theorem test_AsyncOrder_again_met : ∀ a ∈ [({ user := some 1 } : Async), { budget := some 1 }, { energy := some 1 }, { throttle := some 1 }],
    let s := withTeam fun t => { t with async := a }
    (s.team? 1).map (fun t => (t.live.isEmpty, t.killed, t.desc.handler == 0, t.async == a)) = some (false, false, false, true) := by decide +kernel

/-- A running XCOLL's port that is down as it starts, and one that is up. -/
theorem test_EngineEvents_down_met : let o := { collOp with st := .queued }
    let s : State := { base with ops := [o], contexts := [{ context with grants := [(0, 0)] }], routes := [(0, 0, 3)] }
    leastBy Op.rank (s.ops.filter (s.canStartCopy (.ualink 0 3 0x84010 1))) = some o ∧ (s.link (.ualink 0 3)).up = true ∧
    leastBy Op.rank ((s.updLink (.ualink 0 3) fun r => { r with up := false }).ops.filter
      ((s.updLink (.ualink 0 3) fun r => { r with up := false }).canStartCopy (.ualink 0 3 0x84010 1))) = some o ∧
    ((s.updLink (.ualink 0 3) fun r => { r with up := false }).link (.ualink 0 3)).up = false := by decide +kernel

end Sys2Proof.Tests
end

section
/-! PROOFS. Loads and stores: what an access that meets nothing comes to, what a load delivers, and what a store leaves in memory. -/

namespace Sys2Proof.Machine

/-! ### Little-endian bytes and words, read by index (R3) -/

/-- Byte `k` of the bytes of a number. -/
theorem toLe_getD (n v k : Nat) : (toLe n v).getD k 0 = if k < n then BitVec.ofNat 8 (v / 256 ^ k) else 0 := by
  induction n generalizing v k with
  | zero => simp [toLe]
  | succ n ih =>
    cases k with
    | zero => simp [toLe]
    | succ k =>
      simp only [toLe, List.getD_cons_succ, ih, Nat.add_lt_add_iff_right, Nat.div_div_eq_div_mul]
      rw [← Nat.pow_succ']

@[simp] theorem wordsLe_length (ws : List Word) : (wordsLe ws).length = 4 * ws.length := by
  induction ws with
  | nil => rfl
  | cons w ws ih =>
    rw [wordsLe, List.flatMap_cons, List.length_append, toLe_length, ← wordsLe, ih, List.length_cons]
    omega

/-- Byte `k` of a list of words is byte `k % 4` of word `k / 4`. -/
theorem wordsLe_getD (ws : List Word) (k : Nat) :
    (wordsLe ws).getD k 0 = BitVec.ofNat 8 ((ws.getD (k / 4) 0).toNat / 256 ^ (k % 4)) := by
  induction ws generalizing k with
  | nil => simp [wordsLe]
  | cons w ws ih =>
    rw [wordsLe, List.flatMap_cons, ← wordsLe]
    by_cases hk : k < 4
    · have first : (toLe 4 w.toNat ++ wordsLe ws).getD k 0 = (toLe 4 w.toNat).getD k 0 := by
        rw [List.getD_eq_getElem?_getD, List.getElem?_append_left (by rwa [toLe_length]), ← List.getD_eq_getElem?_getD]
      rw [first, toLe_getD, if_pos hk, Nat.div_eq_of_lt hk, Nat.mod_eq_of_lt hk, List.getD_cons_zero]
    · obtain ⟨j, rfl⟩ : ∃ j, k = j + 4 := ⟨k - 4, by omega⟩
      have later : (toLe 4 w.toNat ++ wordsLe ws).getD (j + 4) 0 = (wordsLe ws).getD j 0 := by
        rw [List.getD_eq_getElem?_getD, List.getElem?_append_right (by rw [toLe_length]; omega), toLe_length, Nat.add_sub_cancel,
          ← List.getD_eq_getElem?_getD]
      rw [later, ih, Nat.add_div_right _ (by decide), List.getD_cons_succ, Nat.add_mod_right]

@[simp] theorem leWords_length (n : Nat) (bs : List Byte) : (leWords n bs).length = n := by
  induction n generalizing bs with
  | zero => rfl
  | succ n ih => exact congrArg (· + 1) (ih _)

/-- Word `k` of a list of bytes is the number of its four bytes. -/
theorem leWords_getD {n k : Nat} (h : k < n) (bs : List Byte) :
    (leWords n bs).getD k 0 = BitVec.ofNat 32 (leNat ((bs.drop (4 * k)).take 4)) := by
  induction n generalizing bs k with
  | zero => exact absurd h (Nat.not_lt_zero k)
  | succ n ih =>
    cases k with
    | zero => rfl
    | succ k =>
      rw [leWords, List.getD_cons_succ, ih (Nat.lt_of_succ_lt_succ h), List.drop_drop, Nat.mul_succ, Nat.add_comm 4]

/-- The registers from `r` up, by index. -/
theorem Thread.vs_getD (t : Thread) {r n k : Nat} (h : k < n) : (t.vs r n).getD k 0 = t.v (r + k) := by
  simp [Thread.vs, h]

/-- A number read from `n` bytes is one of `n` bytes. -/
theorem leNat_gets_lt (m : List Host.Cell) (a n : Nat) : leNat (Memory.gets m a n) < 256 ^ n := by
  simpa [Memory.gets] using leNat_lt (Memory.gets m a n)

/-- A part of a run of bytes is the run that stands there. -/
theorem Memory.gets_part (m : List Host.Cell) {a n d k : Nat} (h : d + k ≤ n) : ((Memory.gets m a n).drop d).take k = Memory.gets m (a + d) k := by
  apply List.ext_getElem
  · simp [Memory.gets]; omega
  · intro j h1 h2
    simp [Memory.gets, Nat.add_assoc]

/-- The number of a byte, of two bytes and of four. -/
theorem leNat_gets_one (m : List Host.Cell) (a : Nat) : leNat (Memory.gets m a 1) = (Memory.get m a).toNat := rfl

theorem leNat_gets_two (m : List Host.Cell) (a : Nat) :
    leNat (Memory.gets m a 2) = (Memory.get m a).toNat + 256 * (Memory.get m (a + 1)).toNat := rfl

theorem leNat_gets_four (m : List Host.Cell) (a : Nat) : leNat (Memory.gets m a 4) = (Memory.get m a).toNat + 256 * (Memory.get m (a + 1)).toNat +
    65536 * (Memory.get m (a + 2)).toNat + 16777216 * (Memory.get m (a + 3)).toNat := by
  have e : leNat (Memory.gets m a 4) = (Memory.get m a).toNat + 256 * ((Memory.get m (a + 1)).toNat + 256 * ((Memory.get m (a + 2)).toNat +
    256 * ((Memory.get m (a + 3)).toNat + 256 * 0))) := rfl
  omega

/-! ### What a load delivers (R202, R400) -/

/-- The blocks of a run of bytes that is not empty are those it meets. -/
theorem mem_blocksOf {loc n b : Nat} : b ∈ blocksOf loc n ↔ b * 64 < loc + n ∧ loc < b * 64 + 64 ∧ n ≠ 0 := by
  simp only [blocksOf, List.mem_map, List.mem_range]
  split
  · omega
  · constructor
    · rintro ⟨k, hk, rfl⟩
      omega
    · rintro ⟨h1, h2, -⟩
      exact ⟨b - loc / 64, by omega, by omega⟩

@[simp] theorem State.due_thr (s : State) (a : Access) (n : Nat) (sign : Bool) : (s.due a n sign).thr = a.thr := by unfold State.due; split <;> rfl
@[simp] theorem State.due_ea (s : State) (a : Access) (n : Nat) (sign : Bool) : (s.due a n sign).ea = a.ea := by unfold State.due; split <;> rfl

/-- What an access of storage will deliver: the bytes of its location, extended, and whether a block of theirs is bad. -/
theorem State.due_of_storage {s : State} {a : Access} (h : a.tgt.view ≠ .system) (n : Nat) (sign : Bool) :
    s.due a n sign = { thr := a.thr, ea := a.ea, vals := extend n sign (Memory.gets s.mem a.tgt.loc n), blocks := blocksOf a.tgt.loc n,
                       bad := (blocksOf a.tgt.loc n).any s.bad.contains, via := a.tgt.leaf } := if_neg h

/-- An access of storage is bad when it meets a bad block. -/
theorem State.due_bad {s : State} {a : Access} (h : a.tgt.view ≠ .system) (n : Nat) (sign : Bool) :
    (s.due a n sign).bad = true ↔ ∃ b ∈ s.bad, b * 64 < a.tgt.loc + n ∧ a.tgt.loc < b * 64 + 64 ∧ n ≠ 0 := by
  simp only [State.due_of_storage h, List.any_eq_true, List.contains_iff_mem, mem_blocksOf]
  exact ⟨fun ⟨b, hb, hs⟩ => ⟨b, hs, hb⟩, fun ⟨b, hs, hb⟩ => ⟨b, hb, hs⟩⟩

/-- Fewer bytes than a register's give one word, extended with zeros or the sign. -/
theorem extend_short {n : Nat} (h : n < 4) (sign : Bool) (bs : List Byte) :
    extend n sign bs = [if sign then (BitVec.ofNat (8 * n) (leNat bs)).signExtend 32 else BitVec.ofNat 32 (leNat bs)] := by
  rw [extend, if_neg (by omega)]
  cases sign <;> rfl

/-- The bytes of one register or more give their words. -/
theorem extend_long {n : Nat} (h : 4 ≤ n) (sign : Bool) (bs : List Byte) : extend n sign bs = leWords (n / 4) bs := if_pos h

/-- Zero-extended, a run of fewer than four bytes keeps its number. -/
theorem toNat_zeroExtended (m : List Host.Cell) (a : Nat) {n : Nat} (h : n < 4) :
    (BitVec.ofNat 32 (leNat (Memory.gets m a n))).toNat = leNat (Memory.gets m a n) := by
  have le : 256 ^ n ≤ 256 ^ 4 := Nat.pow_le_pow_right (by decide) (Nat.le_of_lt h)
  exact Nat.mod_eq_of_lt (Nat.lt_of_lt_of_le (leNat_gets_lt m a n) le)

/-- Word `k` of the run of `n` bytes at `a` is the number of the four bytes at `a + 4 * k`. -/
theorem toNat_leWords_gets (m : List Host.Cell) (a : Nat) {n k : Nat} (h : 4 * k + 4 ≤ n) :
    ((leWords (n / 4) (Memory.gets m a n)).getD k 0).toNat = leNat (Memory.gets m (a + 4 * k) 4) := by
  rw [leWords_getD (by omega), Memory.gets_part m h, BitVec.toNat_ofNat]
  exact Nat.mod_eq_of_lt (leNat_gets_lt m (a + 4 * k) 4)

/-- A load of fewer than four bytes, zero-extended, delivers their number. -/
theorem State.due_zeroExtended (s : State) {a : Access} (h : a.tgt.view ≠ .system) {n : Nat} (hn : n < 4) :
    ∃ x : Word, (s.due a n false).vals = [x] ∧ x.toNat = leNat (Memory.gets s.mem a.tgt.loc n) :=
  ⟨_, by rw [State.due_of_storage h, extend_short hn]; rfl, toNat_zeroExtended s.mem a.tgt.loc hn⟩

/-- A load of fewer than four bytes, sign-extended, delivers their number in two's complement. -/
theorem State.due_signExtended (s : State) {a : Access} (h : a.tgt.view ≠ .system) {n : Nat} (hn : n < 4) :
    ∃ x : Word, (s.due a n true).vals = [x] ∧ x.toInt = (BitVec.ofNat (8 * n) (leNat (Memory.gets s.mem a.tgt.loc n))).toInt :=
  ⟨_, by rw [State.due_of_storage h, extend_short hn]; rfl, BitVec.toInt_signExtend_of_le (by omega)⟩

/-- A load of whole registers delivers to each the number of its four bytes. -/
theorem State.due_words (s : State) {a : Access} (h : a.tgt.view ≠ .system) {n : Nat} (hn : n ∈ [4, 8, 16]) :
    (s.due a n false).vals.length = n / 4 ∧
    ∀ k < n / 4, ((s.due a n false).vals.getD k 0).toNat = leNat (Memory.gets s.mem (a.tgt.loc + 4 * k) 4) := by
  have h4 : 4 ≤ n := by simp only [List.mem_cons, List.not_mem_nil, or_false] at hn; omega
  rw [State.due_of_storage h, extend_long h4]
  exact ⟨leWords_length _ _, fun k hk => toNat_leWords_gets s.mem a.tgt.loc (by omega)⟩

/-- No write of a unit is unseen by readers when each is old, or stands no later than they do, or has been seen by one of them. -/
theorem State.unseen_eq_nil {s : State} {keys : List Nat} {floor u : Nat}
    (h : ∀ p ∈ s.past, p.unit = u → p.fresh s.time = false ∨ p.stamp ≤ floor ∨ ∃ k ∈ keys, k ∈ p.seen) : s.unseen keys floor u = [] := by
  refine List.filter_eq_nil_iff.mpr fun p hp hc => ?_
  simp only [Bool.and_eq_true, beq_iff_eq, decide_eq_true_eq, Bool.not_eq_true', List.any_eq_false, List.contains_iff_mem] at hc
  obtain ⟨⟨⟨hu, hs⟩, hf⟩, hk⟩ := hc
  rcases h p hp hu with h | h | ⟨k, hk', hm⟩
  · simp [h] at hf
  · omega
  · exact hk k hm hk'

/-- A load whose unit no write unseen by it has changed reads the bytes as they stand (R103, R106). -/
theorem Iss.read_settled {i : Iss} {s : State} {a : Access} (h : a.tgt.view ≠ .system) (n : Nat) (sign : Bool)
    (hp : s.unseen (i.keys (i.receivers a.thr)) (i.floor (i.receivers a.thr)) (a.tgt.loc / 16) = []) :
    (i.read s n sign a).2.1 = s.due a n sign := by
  simp [Iss.read, h, State.readAt, hp, State.due_of_storage h]

/-! ### Accesses that check out (R200, R394) -/

/-- Checks that meet nothing make no trap. -/
theorem memTrap_clear {checks : List (Thread × Addr × List Miss)} (h : ∀ c ∈ checks, c.2.2 = []) : memTrap checks = none := by
  have e : checks.flatMap (fun c => c.2.2) = [] := List.flatMap_eq_nil_iff.mpr h
  simp only [memTrap, e, firstMiss, leastBy]

/-- Accesses that need no walk and meet no cause go on at once. -/
theorem Iss.walked_clear {i : Iss} {s : State} {eas : List (Agent × Addr)} (h : ∀ x ∈ eas, s.needsWalk x.1 x.2 = false) (go : State → Done) :
    i.walked s none eas go = go s := by
  have e : (eas.any fun x => s.needsWalk x.1 x.2) = false := List.any_eq_false.mpr fun x hx => by simp [h x hx]
  simp only [Iss.walked, e, Bool.and_false, Bool.false_eq_true, if_false]

/-- No access of an issue waits for the host when none stands behind a store of its threads there (R117). -/
theorem Iss.hostFree_any {i : Iss} {s : State} {kind : AccKind} {acc : List Access} (h : i.hostFree s kind acc) :
    (kind == .read && acc.any fun a => a.tgt.view == .system && i.hostStores s (i.receivers a.thr)) = false := by
  refine Bool.eq_false_iff.mpr fun hc => ?_
  simp only [Bool.and_eq_true, beq_iff_eq, List.any_eq_true] at hc
  obtain ⟨hk, a, ha, hv, hs⟩ := hc
  exact absurd hs (by simp [h hk a ha hv])

/-- Accesses of an issue that meet nothing are made once their translations stand. -/
theorem Iss.access_clear {i : Iss} {s : State} {n sub : Nat} {kind : AccKind} {ea : Thread → Addr} (hc : i.allClear s n kind sub ea)
    (hf : i.hostFree s kind (i.accesses s n kind sub ea)) (go : State → List Access → Done) :
    i.access s n kind sub ea go = go (i.translated s kind (i.accesses s n kind sub ea)) (i.accesses s n kind sub ea) := by
  have trap : memTrap ((i.doers.map fun t => (t, ea t, resolve s (.thread i.team.uid t.tidx) (ea t) n kind sub)).map
      fun c => (c.1, c.2.1, c.2.2.1)) = none := memTrap_clear (by simpa using fun t ht => (hc t ht).1)
  have acc : (i.doers.map fun t => (t, ea t, resolve s (.thread i.team.uid t.tidx) (ea t) n kind sub)).filterMap
      (fun c => c.2.2.2.map fun g => Access.mk c.1 c.2.1 g) = i.accesses s n kind sub ea := List.filterMap_map
  rw [Iss.access, trap, acc, Iss.walked_clear (by simpa using fun t ht => (hc t ht).2)]
  exact if_neg (Bool.eq_false_iff.mp (Iss.hostFree_any hf))

/-- A word that nothing holds back, and whose accesses meet nothing, has its effect once their translations stand. -/
theorem runWord_access {s : State} {v : Dev} {i : Iss} (h : Issues s v i) {n sub : Nat} {kind : AccKind} {ea : Thread → Addr}
    (hc : i.allClear s n kind sub ea) (hf : i.hostFree s kind (i.accesses s n kind sub ea)) (go : Iss → State → List Access → Done) :
    runWord v (fun i s => i.access s n kind sub ea (go i)) s =
      i.conclude (go i (i.translated s kind (i.accesses s n kind sub ea)) (i.accesses s n kind sub ea)) :=
  (runWord_issues h _).trans (congrArg i.conclude (Iss.access_clear hc hf _))

/-- A load instruction whose execution is that of a load of `n` bytes completes as one (R202). -/
theorem loads_of_runLoad {ins : Instr} {u : Dev} {n : Nat} {sign : Bool} (hd : ins.dev = some u) (he : ∀ s, exec ins s = .next (runLoad u n sign s)) :
    Loads ins n sign .read 1 plainEa fun i s acc => i.readAll s n sign acc := by
  intro v s i hv hi ⟨hc, hf⟩
  obtain rfl : u = v := Option.some.inj (hd.symm.trans hv)
  exact (he s).trans (congrArg Host.Outcome.next (runWord_access hi hc hf _))

/-- A store instruction whose execution is that of a store of `n` bytes completes as one (R203). -/
theorem stores_of_runStore {ins : Instr} {u : Dev} {n : Nat} (hd : ins.dev = some u) (he : ∀ s, exec ins s = .next (runStore u n s)) :
    Stores ins n plainEa := by
  intro v s i hv hi hc
  obtain rfl : u = v := Option.some.inj (hd.symm.trans hv)
  exact (he s).trans (congrArg Host.Outcome.next (runWord_access hi hc nofun _))

/-- MWATCH completes with its watches armed and its data on the way (R216). -/
theorem mwatch_loads (w : Rrr) : Loads (.mwatch w) 4 false .watch 2 plainEa fun i s acc =>
    let s' := acc.foldl (fun s a => i.upd (i.standsNow s a) (i.receivers a.thr) fun t => { t with watch := some ⟨a.tgt.loc / 128, false⟩ }) s
    (s', acc.map fun a => s'.due a 4 false) := by
  intro v s i hv hi ⟨hc, hf⟩
  obtain rfl : w.dev 0xA7 = v := Option.some.inj hv
  exact congrArg Host.Outcome.next (runWord_access hi hc hf _)

/-! ### What accesses leave of the agenda and the slices' accounts -/

/-- The agenda and what the slices have been charged are as they were. -/
structure State.SameAccounts (s t : State) : Prop where
  agenda : t.agenda = s.agenda
  slices : t.slices = s.slices
  owing : t.owing = s.owing

namespace State.SameAccounts

variable {s t u : State}

theorem refl (s : State) : s.SameAccounts s := ⟨rfl, rfl, rfl⟩

theorem trans (h : s.SameAccounts t) (k : t.SameAccounts u) : s.SameAccounts u :=
  ⟨k.agenda.trans h.agenda, k.slices.trans h.slices, k.owing.trans h.owing⟩

/-- Steps that each keep the accounts keep them together. -/
theorem foldl {α : Type} {f : State → α → State} (hf : ∀ (s : State) (a : α), s.SameAccounts (f s a)) (l : List α) (s : State) :
    s.SameAccounts (l.foldl f s) :=
  foldl_keeps (P := s.SameAccounts) (fun x a h => h.trans (hf x a)) l (refl s)

theorem keep (s : State) (e : Trans) : s.SameAccounts (s.keep e) := ⟨rfl, rfl, rfl⟩
theorem see (s : State) (ks : List Nat) (u n : Nat) : s.SameAccounts (s.see ks u n) := ⟨rfl, rfl, rfl⟩
theorem hear (i : Iss) (s : State) (ts : List Nat) (p : Nat) : s.SameAccounts (i.hear s ts p) := ⟨rfl, rfl, rfl⟩
theorem stileHit (s : State) (l : Nat) (bs : List Byte) : s.SameAccounts ((s.cure l bs.length).stileHit l bs) := ⟨rfl, rfl, rfl⟩
theorem openPlace (s : State) (p : Nat) : s.SameAccounts (s.openPlace p) := by unfold State.openPlace; split <;> exact ⟨rfl, rfl, rfl⟩
theorem pokeAt (s : State) (p : Nat) (cs : List (Nat × Byte)) : s.SameAccounts (s.pokeAt p cs) := (openPlace s p).trans ⟨rfl, rfl, rfl⟩
theorem hold (s : State) (l n : Nat) : s.SameAccounts (s.hold l n) := by unfold State.hold; split <;> exact ⟨rfl, rfl, rfl⟩

theorem putAt (s : State) (p : Nat) (ls : List Nat) (bs : List Byte) : s.SameAccounts (s.putAt p ls bs) :=
  (foldl (fun s l => hold s l bs.length) ls s).trans ((pokeAt _ p _).trans (foldl (fun s l => stileHit s l bs) ls _))

theorem setAD (s : State) (t : Target) (w : Bool) : s.SameAccounts (s.setAD t w) := by
  unfold State.setAD
  split
  · exact refl s
  · extract_lets need
    split
    · exact keep s _
    · exact (pokeAt s s.tick _).trans (keep _ _)

theorem countHome (s : State) (core : Nat) (ts : List Target) (w : Bool) : s.SameAccounts (s.countHome core ts w) := by
  unfold State.countHome
  dsimp only
  split <;> exact ⟨rfl, rfl, rfl⟩

theorem fenced (s : State) : s.SameAccounts s.fenced := by unfold State.fenced; split <;> exact ⟨rfl, rfl, rfl⟩

theorem placeFor (s : State) (f : Nat) (us : List Nat) : s.SameAccounts (s.placeFor f us).1 := by
  unfold State.placeFor
  dsimp only
  split <;> exact ⟨rfl, rfl, rfl⟩

theorem closes (i : Iss) (s : State) : s.SameAccounts (i.closes s) := by unfold Iss.closes; split <;> exact ⟨rfl, rfl, rfl⟩

/-- The translations of some accesses keep the accounts. -/
theorem translated (i : Iss) (s : State) (k : AccKind) (acc : List Access) : s.SameAccounts (i.translated s k acc) :=
  (foldl (fun s a => setAD s a.tgt k.writes) acc s).trans (countHome _ _ _ _)

/-- What a slice has been charged is the same. -/
theorem charged? (h : s.SameAccounts t) (c : Nat) (id : Word) : t.charged? c id = s.charged? c id := by
  simp only [State.charged?, State.slice?, h.slices, h.owing]

/-- A slice without limits is without them still. -/
theorem unlimited (h : s.SameAccounts t) {i : Iss} (hu : i.unlimited s) : i.unlimited t := fun x hx => hu x ((h.charged? _ _).symm.trans hx)

end State.SameAccounts

/-! ### The bad blocks under accesses (R402) -/

theorem State.openPlace_bad (s : State) (p : Nat) : (s.openPlace p).bad = s.bad := by unfold State.openPlace; split <;> rfl
theorem State.fenced_bad (s : State) : s.fenced.bad = s.bad := by unfold State.fenced; split <;> rfl
theorem State.countHome_bad (s : State) (core : Nat) (ts : List Target) (w : Bool) : (s.countHome core ts w).bad = s.bad := by
  unfold State.countHome
  dsimp only
  split <;> rfl
theorem State.setAD_bad (s : State) (t : Target) (w : Bool) : (s.setAD t w).bad = s.bad := by
  unfold State.setAD
  split
  · rfl
  · extract_lets need
    split
    · rfl
    · exact State.openPlace_bad s s.tick

/-- The translations of some accesses leave the bad blocks. -/
theorem Iss.translated_bad (i : Iss) (s : State) (k : AccKind) (acc : List Access) : (i.translated s k acc).bad = s.bad :=
  (State.countHome_bad _ _ _ _).trans (foldl_keeps (P := fun x => x.bad = s.bad) (fun x a h => (State.setAD_bad x a.tgt k.writes).trans h) acc rfl)

/-- With no more bad blocks, a write that covered no part of one covers none. -/
theorem State.partialBad_mono {s t : State} (h : ∀ b ∈ t.bad, b ∈ s.bad) {loc n : Nat} (hs : s.partialBad loc n = false) : t.partialBad loc n = false := by
  simp only [State.partialBad, List.any_eq_false, Bool.and_eq_true, List.contains_iff_mem, not_and] at hs ⊢
  exact fun b hb ht => hs b hb (h b ht)

/-- A store is told of no failure when the storage code is to say of none (log 19). -/
theorem State.foretold_store {s : State} (h : ∀ id e, Turn.event (.storeMerge id e) ∈ s.agenda → e.failed = false) (id : Nat) :
    s.foretold false id = false := by
  unfold State.foretold
  generalize e : s.agenda.findSome? _ = told
  cases told with
  | none => rfl
  | some b =>
    obtain ⟨turn, ht, hb⟩ := List.exists_of_findSome?_eq_some e
    split at hb
    · rename_i x ecc
      rw [h x ecc ht] at hb
      split at hb <;> cases hb
      rfl
    · simp at hb
    · cases hb

/-- Translations keep memory canonical. -/
theorem Iss.translated_good (i : Iss) {s : State} (h : s.Good) (k : AccKind) (acc : List Access) : (i.translated s k acc).Good :=
  State.Good.of_mem (setAll_good h acc k.writes) (State.countHome_mem _ _ _ _)

/-! ### What a charge without limits leaves (R310, R311) -/

/-- A charge of a slice that has no limits leaves memory. -/
theorem State.charge_mem {s : State} {ctx : Nat} {id : Word} (h : ∀ x, s.charged? ctx id = some x → x.desc.budget = 0 ∧ x.desc.equota = 0)
    (cycles energy : Nat) : (s.charge ctx id cycles energy).mem = s.mem := by
  unfold State.charge
  split
  · rfl
  · rename_i x hx
    obtain ⟨hb, he⟩ := h x hx
    simp [hb, he]

/-- The bill of an issue of a slice that has no limits leaves memory. -/
theorem Iss.bill_mem {i : Iss} {s : State} (h : i.unlimited s) : (i.bill s).mem = s.mem := by
  unfold Iss.bill
  extract_lets src t
  have e : t.mem = s.mem := Iss.closes_mem s i
  have k : s.SameAccounts t := (State.SameAccounts.closes i s).trans ⟨rfl, rfl, rfl⟩
  split
  · exact e
  · exact (State.charge_mem (k.unlimited h) _ _).trans e

/-- An issue of a slice that has no limits leaves memory as its effect left it. -/
theorem Iss.finish_mem {i : Iss} {s : State} (h : i.unlimited s) : (i.finish s).mem = s.mem :=
  Iss.bill_mem (s := s.updGroup _ _ _) (State.SameAccounts.unlimited ⟨rfl, rfl, rfl⟩ h)

/-! ### What a store leaves in memory (R102, R203) -/

/-- A write at some locations puts its bytes there in order. -/
theorem State.putAt_mem (s : State) (p : Nat) (ls : List Nat) (bs : List Byte) :
    (s.putAt p ls bs).mem = Memory.puts s.mem (ls.flatMap fun l => cellsAt l bs) := by
  have held : (ls.foldl (fun s l => s.hold l bs.length) s).mem = s.mem := foldl_mem (fun s l => s.hold_mem l _) ls s
  refine (foldl_mem (fun s l => ((s.cure l bs.length).stileHit_mem l bs).trans (s.cure_mem l bs.length)) ls _).trans ?_
  simp only [State.pokeAt, State.openPlace_mem, held]

/-- Cells that agree on a location, one of them naming it, leave their byte there. -/
theorem Memory.get_puts {m : List Host.Cell} (h : Memory.wf m = true) {cells : List (Nat × Byte)} {x : Nat} {b : Byte} (hx : (x, b) ∈ cells)
    (hb : ∀ c ∈ cells, c.1 = x → c.2 = b) : Memory.get (Memory.puts m cells) x = b := by
  induction cells generalizing m with
  | nil => cases hx
  | cons c cs ih =>
    by_cases hc : (x, b) ∈ cs
    · exact ih (Memory.put_wf c.1 c.2 h) hc fun d hd => hb d (.tail _ hd)
    · obtain rfl : (x, b) = c := (List.mem_cons.mp hx).resolve_right hc
      refine Memory.get_puts_append h [] cs x b fun d hd e => hc ?_
      rwa [← e, ← hb d (.tail _ hd) e]

/-- The byte of a run's cell, by its place in the run. -/
theorem mem_cellsAt {loc : Nat} {bs : List Byte} {c : Nat × Byte} : c ∈ cellsAt loc bs ↔ ∃ k < bs.length, c = (loc + k, bs.getD k 0) := by
  have e : cellsAt loc bs = (List.range bs.length).map fun k => (loc + k, bs.getD k 0) := by
    refine List.ext_getElem (by simp [cellsAt]) fun k h _ => ?_
    have hk : k < bs.length := by simpa [cellsAt] using h
    simp [cellsAt, hk]
  simp only [e, List.mem_map, List.mem_range, eq_comm]

/-- Bytes put at several locations, each the same as one of them or apart from it, read back there. -/
theorem Memory.get_puts_runs {m : List Host.Cell} (h : Memory.wf m = true) {ls : List Nat} {bs : List Byte} {l k : Nat} (hl : l ∈ ls) (hk : k < bs.length)
    (apart : ∀ l' ∈ ls, l' = l ∨ l + bs.length ≤ l' ∨ l' + bs.length ≤ l) :
    Memory.get (Memory.puts m (ls.flatMap fun l => cellsAt l bs)) (l + k) = bs.getD k 0 := by
  refine Memory.get_puts h (List.mem_flatMap.mpr ⟨l, hl, mem_cellsAt.mpr ⟨k, hk, rfl⟩⟩) fun c hc e => ?_
  obtain ⟨l', hl', hc⟩ := List.mem_flatMap.mp hc
  obtain ⟨j, hj, rfl⟩ := mem_cellsAt.mp hc
  have := apart l' hl'
  obtain rfl : j = k := by simp only at e; omega
  rfl

/-- A store to storage that is told of no failure, covering no part of a bad block, is made at its target. -/
theorem Iss.storeOne_made {i : Iss} {s : State} {a : Access} {bs : List Byte} (hv : a.tgt.view ≠ .system)
    (hb : s.partialBad a.tgt.loc bs.length = false) (hf : ∀ id, s.foretold false id = false) (issue : Nat) (ws : List (Nat × Nat)) (low : Nat) :
    (i.storeOne issue ws s low a bs).1.mem = Memory.puts s.mem (a.tgt.reps.flatMap fun l => cellsAt l bs) ∧
    s.SameAccounts (i.storeOne issue ws s low a bs).1 := by
  unfold Iss.storeOne
  extract_lets n ts rec0 s1 blocks bad s2 locs r s3
  have clean : bad = false := by
    have hb' : s1.partialBad a.tgt.loc n = false := hb
    have hf' : s1.foretold false rec0.id = false := hf _
    simp only [bad, hb', hf', Bool.and_false, Bool.or_false]
  have noted : s.SameAccounts s2 := ⟨rfl, rfl, rfl⟩
  have placed : r.1.mem = s.mem ∧ s.SameAccounts r.1 := by
    dsimp only [r]
    split
    · exact ⟨State.placeFor_mem _ _ _, noted.trans (.placeFor s2 _ _)⟩
    · exact ⟨rfl, rfl, rfl, rfl⟩
  have seen : s3.mem = (r.1.putAt r.2 a.tgt.reps bs).mem ∧ (r.1.putAt r.2 a.tgt.reps bs).SameAccounts s3 :=
    ⟨foldl_mem (fun s l => s.see_mem _ _ _) locs _, .foldl (fun s l => .see s _ _ _) locs _⟩
  rw [if_neg hv, clean]
  exact ⟨seen.1.trans ((State.putAt_mem _ _ _ _).trans (by rw [placed.1])),
    placed.2.trans ((State.SameAccounts.putAt _ _ _ _).trans (seen.2.trans (.hear i s3 _ _)))⟩

/-- The state in which the stores of an issue begin: fenced, and the bad blocks that they cover whole together are bad no more (R400). -/
def Iss.storesFrom (i : Iss) (s : State) (acc : List Access) (data : Thread → List Byte) : State :=
  { s.fenced with seq := s.seq + 1, bad := s.bad.filter fun b => !(i.mended s acc data).contains b }

theorem Iss.storesFrom_mem (i : Iss) (s : State) (acc : List Access) (data : Thread → List Byte) : (i.storesFrom s acc data).mem = s.mem := s.fenced_mem

theorem Iss.mem_storesFrom_bad {i : Iss} {s : State} {acc : List Access} {data : Thread → List Byte} {b : Nat} (h : b ∈ (i.storesFrom s acc data).bad) :
    b ∈ s.bad := (List.mem_filter.mp h).1

theorem State.SameAccounts.storesFrom (i : Iss) (s : State) (acc : List Access) (data : Thread → List Byte) :
    s.SameAccounts (i.storesFrom s acc data) := .trans (.fenced s) ⟨rfl, rfl, rfl⟩

/-- The one store of an issue is made where its stores begin. -/
theorem Iss.storeAll_singleton (i : Iss) (s : State) (a : Access) (data : Thread → List Byte) : i.storeAll s [a] data =
    (i.storeOne s.seq ([a].flatMap fun a => a.tgt.written (data a.thr).length) (i.storesFrom s [a] data) 0 a (data a.thr)).1 := rfl

/-- The one store of an issue is made at its target. -/
theorem Iss.storeAll_one {i : Iss} {s : State} {a : Access} {data : Thread → List Byte} (hv : a.tgt.view ≠ .system)
    (hb : s.partialBad a.tgt.loc (data a.thr).length = false) (hf : ∀ id e, Turn.event (.storeMerge id e) ∈ s.agenda → e.failed = false) :
    (i.storeAll s [a] data).mem = Memory.puts s.mem (a.tgt.reps.flatMap fun l => cellsAt l (data a.thr)) ∧ s.SameAccounts (i.storeAll s [a] data) := by
  have begun := State.SameAccounts.storesFrom i s [a] data
  obtain ⟨mem, made⟩ := Iss.storeOne_made (i := i) hv (State.partialBad_mono (fun _ h => Iss.mem_storesFrom_bad h) hb)
    (State.foretold_store (by rwa [begun.agenda])) s.seq ([a].flatMap fun a => a.tgt.written (data a.thr).length) 0
  rw [Iss.storeAll_singleton]
  exact ⟨mem.trans (by rw [Iss.storesFrom_mem]), begun.trans made⟩

/-- What a thread's store of `n` bytes writes: the low bytes of its data registers from `r` up (R203). -/
def storeData (r n : Nat) (t : Thread) : List Byte := (wordsLe (t.vs r (max 1 (n / 4)))).take n

theorem storeData_length {r n : Nat} (hn : n ≤ 4 * max 1 (n / 4)) (t : Thread) : (storeData r n t).length = n := by simp [storeData, Thread.vs, hn]

/-- Byte `k` of it is byte `k % 4` of register `r + k / 4`. -/
theorem storeData_getD (t : Thread) (r : Nat) {n k : Nat} (hk : k < n) (hn : n ≤ 4 * max 1 (n / 4)) :
    (storeData r n t).getD k 0 = BitVec.ofNat 8 ((t.v (r + k / 4)).toNat / 2 ^ (8 * (k % 4))) := by
  have short : (storeData r n t).getD k 0 = (wordsLe (t.vs r (max 1 (n / 4)))).getD k 0 := by
    simp only [storeData, List.getD_eq_getElem?_getD, List.getElem?_take, if_pos hk]
  rw [short, wordsLe_getD, t.vs_getD (by omega), show (256 : Nat) = 2 ^ 8 from rfl, ← Nat.pow_mul]

/-- A store instruction of `n` bytes completes as a store of its length, which its data registers fill. -/
theorem storeInstr_stores {w : Rrr} {ins : Instr} {n : Nat}
    (h : (ins, n) ∈ [(Instr.stB8 w, 1), (.stB16 w, 2), (.stB32 w, 4), (.stB64 w, 8), (.stB128 w, 16)]) :
    Stores ins n plainEa ∧ n ≤ 4 * max 1 (n / 4) := by
  simp only [List.mem_cons, Prod.mk.injEq, List.not_mem_nil, or_false] at h
  rcases h with ⟨rfl, rfl⟩ | ⟨rfl, rfl⟩ | ⟨rfl, rfl⟩ | ⟨rfl, rfl⟩ | ⟨rfl, rfl⟩ <;> exact ⟨stores_of_runStore rfl fun _ => rfl, by decide⟩

/-! ### The statements -/

/-- Settles O60: once its translation stands, the issue's one store is made at every location of its target, and the charge that follows leaves
memory. -/
theorem storeWrites : Obligations.StoreWrites := by
  intro w ins n v s t i a hm hd hi hc hu ha hv hb hf hg he l hl apart k hk
  obtain ⟨stores, hn⟩ := storeInstr_stores hm
  have ran : exec ins s = .next (i.finish (i.storeAll (i.translated s .write [a]) [a] (storeData v.d.toNat n))) := by
    rw [← ha]
    exact stores v s i hd hi hc
  obtain rfl := Host.Outcome.next.inj (he.symm.trans ran)
  have len := storeData_length (r := v.d.toNat) hn a.thr
  have stands := State.SameAccounts.translated i s .write [a]
  have whole : (i.translated s .write [a]).partialBad a.tgt.loc n = false :=
    State.partialBad_mono (fun b h => by rwa [i.translated_bad s .write [a]] at h) hb
  obtain ⟨mem, made⟩ := Iss.storeAll_one (i := i) (data := storeData v.d.toNat n) hv (by rwa [len]) (by rwa [stands.agenda])
  rw [Iss.finish_mem ((stands.trans made).unlimited hu), mem,
    Memory.get_puts_runs (i.translated_good hg .write [a]) hl (by rwa [len]) (by rwa [len])]
  exact storeData_getD a.thr v.d.toNat hk hn

/-- Settles O13: each load, MWATCH and store completes by the lemma of its kind, and what a load delivers is read off byte by byte. -/
theorem loadStoreResults : Obligations.LoadStoreResults := by
  refine ⟨fun w => ?_, fun s a i hv => ?_⟩
  · exact ⟨loads_of_runLoad rfl fun _ => rfl, loads_of_runLoad rfl fun _ => rfl, loads_of_runLoad rfl fun _ => rfl, loads_of_runLoad rfl fun _ => rfl,
      loads_of_runLoad rfl fun _ => rfl, loads_of_runLoad rfl fun _ => rfl, loads_of_runLoad rfl fun _ => rfl, mwatch_loads w,
      stores_of_runStore rfl fun _ => rfl, stores_of_runStore rfl fun _ => rfl, stores_of_runStore rfl fun _ => rfl,
      stores_of_runStore rfl fun _ => rfl, stores_of_runStore rfl fun _ => rfl⟩
  · obtain ⟨x, hx, ex⟩ := s.due_zeroExtended hv (n := 1) (by decide)
    obtain ⟨y, hy, ey⟩ := s.due_zeroExtended hv (n := 2) (by decide)
    obtain ⟨x', hx', ex'⟩ := s.due_signExtended hv (n := 1) (by decide)
    obtain ⟨y', hy', ey'⟩ := s.due_signExtended hv (n := 2) (by decide)
    have b0 := (Memory.get s.mem a.tgt.loc).isLt
    have b1 := (Memory.get s.mem (a.tgt.loc + 1)).isLt
    refine ⟨fun n sign => ⟨s.due_thr a n sign, s.due_ea a n sign, State.due_bad hv n sign⟩, ⟨x, y, hx, hy, ex, ey⟩, ⟨x', y', hx', hy', ?_, ?_⟩,
      fun n hn => ⟨(s.due_words hv hn).1, fun k hk => ((s.due_words hv hn).2 k hk).trans (leNat_gets_four s.mem (a.tgt.loc + 4 * k))⟩,
      fun n sign hp => Iss.read_settled hv n sign (State.unseen_eq_nil fun p hm hu => ?_)⟩
    · rw [ex', leNat_gets_one, BitVec.toInt_ofNat', Int.bmod_def]
      dsimp only [Nat.add_zero]
      split <;> omega
    · rw [ey', leNat_gets_two, BitVec.toInt_ofNat', Int.bmod_def]
      dsimp only [Nat.add_zero]
      split <;> omega
    · exact (hp p hm hu).imp_right (Or.imp_right fun ⟨t, ht, hs⟩ => ⟨_, List.mem_map_of_mem ht, hs⟩)

end Sys2Proof.Machine
end

section
/-! PROOFS. What no instruction causes: the traffic of links, peers and the host, heat and power, fatal errors and the dump, bring-up and resets. -/

namespace Sys2Proof.Machine

/-! ### Tables, columns and links after an update -/

theorem tget_cons {α : Type} (j : Nat) (w : α) (t : Tab α) (k : Nat) : tget ((j, w) :: t) k = if k = j then some w else tget t k := by
  by_cases h : k = j
  · simp [tget, h]
  · have : (k == j) = false := by simpa using h
    simp [tget, List.lookup_cons, this, h]

/-- What a table gives after an entry is set. -/
theorem tget_tset {α : Type} (t : Tab α) (k : Nat) (v : α) (j : Nat) : tget (tset t k v) j = if j = k then some v else tget t j := by
  induction t with
  | nil => exact tget_cons k v [] j
  | cons e t ih =>
    obtain ⟨i, w⟩ := e
    unfold tset
    split
    · rw [tget_cons]
    · split
      · next hi =>
        subst hi
        simp only [tget_cons]
        split <;> rfl
      · simp only [tget_cons, ih]
        grind

/-- A step of a fold that makes a property true makes it true of the fold's result, when every step keeps it. -/
theorem foldl_establishes {σ α : Type} {P : σ → Prop} {f : σ → α → σ} {l : List α} {a : α} (ha : a ∈ l) (makes : ∀ s, P (f s a))
    (keeps : ∀ s b, P s → P (f s b)) (s : σ) : P (l.foldl f s) := by
  obtain ⟨l₁, l₂, rfl⟩ := List.append_of_mem ha
  rw [List.foldl_append, List.foldl_cons]
  exact List.foldlRecOn l₂ f (makes _) fun s hs b _ => keeps s b hs

theorem State.column_updColumn (s : State) (c : Nat) (f : Column → Column) (d : Nat) :
    (s.updColumn c f).column d = if d = c then f (s.column c) else s.column d := by
  simp only [State.column, State.updColumn, tgetD, tget_tset]
  split <;> rfl

theorem State.link_updLink (s : State) (l : Link) (f : LinkRegs → LinkRegs) (m : Link) :
    (s.updLink l f).link m = if m = l then f (s.link l) else s.link m := by
  have kept : (s.links.filter (·.1 != l)).find? (·.1 == m) = if m = l then none else s.links.find? (·.1 == m) := by
    rw [List.find?_filter]
    split
    · next h =>
      subst h
      exact List.find?_eq_none.mpr (by simp)
    · next h =>
      congr 1
      funext x
      by_cases hx : x.1 = m <;> simp [hx, h]
  simp only [State.link, State.updLink, List.find?_append, kept]
  split
  · next h => simp [h]
  · next h => simp [Ne.symm h]

/-! ### Peers (R341, R342, R411) -/

/-- A write to a window that a context has, over a port that is up, is that context's to take. -/
theorem execUalinkInboundWrite_window {s : State} {w : PeerWrite} {c : Context} {x : Window} (hup : (s.link (.ualink w.die w.port)).up = true)
    (hc : (s.contexts.find? fun c => (tget c.windows w.win).isSome) = some c) (hx : tget c.windows w.win = some x) :
    execUalinkInboundWrite w s = .next (s.peerWrite w c x) := by
  simp only [execUalinkInboundWrite, hup, hc, hx, Bool.not_true, Bool.false_eq_true, if_false]

/-- Without a grant a write of one run is refused at its first byte. -/
theorem State.peerWrite_ungranted {s : State} {w : PeerWrite} {c : Context} {x : Window} (hm : w.more = []) (hg : w.granted = false) :
    s.peerWrite w c x = (s.peerFault c.num w.die 8 8 (x.base + BitVec.ofNat 64 w.off)).peerAnswer w (some (8, 8)) := by
  unfold State.peerWrite
  rw [hm]
  by_cases ho : w.off + w.data.length > x.size
  · simp [hg, ho]
  · simp [hg, ho]

/-- After a chunk of the peer's operation has failed, neither it nor a later one is written. -/
theorem State.peerWrite_failed {s : State} {w : PeerWrite} {c : Context} {x : Window} (hm : w.more = []) (hg : w.granted = true)
    (hw : x.write = true) (ha : w.aop = none) (hs : w.off + w.data.length ≤ x.size)
    (hf : ∃ f ∈ s.peerFails, f.1 = w.peer ∧ f.2.1 = w.op ∧ f.2.2 ≤ w.chunk) : s.peerWrite w c x = s := by
  have failed : (s.peerFails.any fun f => f.1 == w.peer && f.2.1 == w.op && decide (f.2.2 ≤ w.chunk)) = true := by
    simpa [and_assoc] using hf
  simp [State.peerWrite, hm, hg, hw, ha, failed, Nat.not_lt.mpr hs]

/-- A run within one aligned unit is not cut. -/
theorem cutAt_one {u n : Nat} {ea : Addr} (hn : n ≠ 0) (h : ea.toNat % u + n ≤ u) : cutAt u n ea n = [⟨ea, n⟩] := by
  obtain ⟨k, rfl⟩ := Nat.exists_eq_succ_of_ne_zero hn
  have whole : min (k + 1) (u - ea.toNat % u) = k + 1 := by omega
  have rest : ∀ (f : Nat) (e : Addr), cutAt u f e 0 = [] := fun f e => by cases f <;> rfl
  simp [cutAt, whole, rest]

/-- What a check of a span finds a target for, without a cause, is what its address resolves to. -/
theorem State.look_clear {s : State} {a : Agent} {y : Span} {k : AccKind} {ms : List Nat} {t : Target} (h : s.look a y k ms = ([], some t)) :
    (resolve s a y.ea 1 k).2 = some t := by
  unfold State.look at h
  extract_lets r bad at h
  have hr := congrArg Prod.snd h
  dsimp only at hr
  split at hr
  · exact hr
  · cases hr

/-- Where no block is mended the bad blocks stay. -/
theorem State.mends_none (s : State) : ({ s with bad := s.bad.filter fun b => !([] : List Nat).contains b } : State) = s := by
  have stay : (s.bad.filter fun b => !([] : List Nat).contains b) = s.bad := List.filter_eq_self.mpr fun _ _ => rfl
  rw [stay]

/-- A write of bytes within one unit that checks out, and mends no bad block, is made and acknowledged. -/
theorem State.peerWrite_oneUnit {s : State} {w : PeerWrite} {c : Context} {x : Window} {t : Target} (hm : w.more = []) (hg : w.granted = true)
    (hw : x.write = true) (ha : w.aop = none) (hs : w.off + w.data.length ≤ x.size)
    (hf : ∀ f ∈ s.peerFails, ¬(f.1 = w.peer ∧ f.2.1 = w.op ∧ f.2.2 ≤ w.chunk)) (hd : w.data ≠ [])
    (hu : (x.base + BitVec.ofNat 64 w.off).toNat % 16 + w.data.length ≤ 16) (hmend : s.mended (t.written w.data.length) = [])
    (hl : s.look (.queue c.num w.die) ⟨x.base + BitVec.ofNat 64 w.off, w.data.length⟩ .write = ([], some t)) (hv : t.view ≠ .system) :
    s.peerWrite w c x = ((s.setAD t true).gleanerPut t.reps w.data).peerAnswer w none := by
  have failed : (s.peerFails.any fun f => f.1 == w.peer && f.2.1 == w.op && decide (f.2.2 ≤ w.chunk)) = false := by
    simpa [and_assoc] using hf
  have span := cutAt_one (by simpa using hd) hu
  have target : (resolve s (.queue c.num w.die) (x.base + BitVec.ofNat 64 w.off) 1 .write).2 = some t := State.look_clear hl
  have inside : decide (w.off + w.data.length > x.size) = false := decide_eq_false (Nat.not_lt.mpr hs)
  have mended : (if s.bad.isEmpty = true then [] else s.mended (t.written w.data.length)) = [] := by
    rw [hmend, ite_self]
  have made : s.peerWrite w c x = ({ (s.setAD t true).gleanerPut t.reps w.data with
      bad := ((s.setAD t true).gleanerPut t.reps w.data).bad.filter fun b => !([] : List Nat).contains b } : State).peerAnswer w none := by
    simp only [State.peerWrite, hm, hg, hw, ha, inside, failed, span, target, mended, hl, firstOpMiss, leastBy, regroup, State.peerUnit, hv,
      List.flatMap_cons, List.flatMap_nil, List.append_nil, List.map_cons, List.map_nil, List.find?_nil, List.find?_cons,
      Option.isSome_none, Bool.not_true, Bool.or_false, Bool.or_self, Bool.false_eq_true, if_false, Bool.false_and, List.zip_cons_cons, List.zip_nil_left,
      List.foldl_cons, List.foldl_nil, List.take_length]
  rw [made, State.mends_none]

/-! ### The host (R103, R343) -/

/-- A byte within die 0's view of interleaved HBM stands at its place in its block. -/
theorem paLoc_interleaved {off loc : Nat} (ho : off < 2 ^ 40) (h : paLoc (0x800000000000 + off) = some loc) : loc % 64 = off % 64 := by
  have map : (0x800000000000 + off) / 2 ^ 48 = 0 ∧ (0x800000000000 + off) / 2 ^ 44 % 16 = 8 ∧ (0x800000000000 + off) / 2 ^ 40 % 16 = 0 := by omega
  obtain ⟨h48, h44, h40⟩ := map
  simp only [paLoc, physical, h48, h44, h40] at h
  simp [locHbm] at h
  omega

/-- A run within one aligned unit of the interleaved view is one run of storage. -/
theorem barSpans_one {unit o n loc : Nat} (hn : n ≠ 0) (ho : o < 2 ^ 40) (h : o % unit + n ≤ unit) (hl : paLoc (0x800000000000 + o) = some loc) :
    barSpans unit o n = [(0, loc, n)] := by
  have small : (BitVec.ofNat 64 o).toNat = o := Nat.mod_eq_of_lt (by omega)
  simp only [barSpans, cutAt_one hn (small.symm ▸ h), List.map_cons, List.map_nil, small, Nat.sub_self, hl, Option.getD_some]

/-- A run within one check block meets that block alone. -/
theorem blocksOf_one {loc n : Nat} (hn : n ≠ 0) (h : loc % 64 + n ≤ 64) : blocksOf loc n = [loc / 64] := by
  have one : (loc + n - 1) / 64 - loc / 64 + 1 = 1 := by omega
  simp [blocksOf, hn, one]

/-- Writing a byte leaves the others, in any list. -/
theorem Memory.get_put_ne {x a : Nat} (h : x ≠ a) (b : Byte) (m : List Host.Cell) : Memory.get (Memory.put m a b) x = Memory.get m x := by
  induction m with
  | nil => by_cases hb : b = 0#8 <;> simp [Memory.put, hb, Memory.get_cons, h]
  | cons c m ih =>
    obtain ⟨c, d⟩ := c
    unfold Memory.put
    split
    · split <;> simp [Memory.get_cons, h]
    · split
      · next e =>
        subst e
        split <;> simp [Memory.get_cons, h]
      · simp [Memory.get_cons, ih]

/-- Writing bytes leaves a location that none of them is written at, in any list. -/
theorem Memory.get_puts_ne {x : Nat} {cells : List (Nat × Byte)} (h : ∀ c ∈ cells, x ≠ c.1) (m : List Host.Cell) :
    Memory.get (Memory.puts m cells) x = Memory.get m x :=
  List.foldlRecOn (motive := fun n => Memory.get n x = Memory.get m x) cells _ rfl fun n hn c hc => (Memory.get_put_ne (h c hc) c.2 n).trans hn

/-- A run of bytes put reads back. -/
theorem Memory.gets_puts_cellsAt {m : List Host.Cell} (h : Memory.wf m = true) (loc : Nat) (bs : List Byte) :
    Memory.gets (Memory.puts m (cellsAt loc bs)) loc bs.length = bs := by
  refine List.ext_getElem (by simp [Memory.gets]) fun k _ hk => ?_
  have byte := Memory.get_puts_runs h (ls := [loc]) (l := loc) (List.mem_singleton.mpr rfl) hk (by simp)
  rw [List.flatMap_cons, List.flatMap_nil, List.append_nil] at byte
  simp [Memory.gets, byte, hk]

/-- A snooped write of one aligned unit over a link that is up leaves memory as its bytes change it. -/
theorem execPcieInboundWrite_unit {s : State} {die off loc : Nat} {data : List Byte} (hdie : die ≤ 3) (hp : s.cap.dump ≠ 2)
    (hup : (s.link (.pcie die)).up = true) (ha : off % 8 = 0) (ho : off < 2 ^ 40) (hd : data.length = 8)
    (hl : paLoc (0x800000000000 + off) = some loc) :
    ∃ t, execPcieInboundWrite die off data false s = .next t ∧ t.mem = Memory.puts s.mem (cellsAt loc data) := by
  have span : barSpans 8 off data.length = [(0, loc, 8)] := by rw [hd]; exact barSpans_one (by decide) ho (by omega) hl
  have up : ¬(die > 3 ∨ s.cap.dump = 2 ∨ (s.link (.pcie die)).up = false) := by simp [hp, hup, hdie]
  refine ⟨_, (if_neg up).trans (if_neg Bool.false_ne_true), ?_⟩
  refine (foldl_mem (fun s x => s.cure_mem _ _) _ _).trans ?_
  have taken : data.take 8 = data := by rw [← hd, List.take_length]
  simp only [State.flushed]
  rw [span, List.foldl_cons, List.foldl_nil, List.drop_zero, taken, State.put, State.putAt_mem, List.flatMap_cons, List.flatMap_nil, List.append_nil]

/-- A snooped read within one check block over a link that is up: Completer Abort when the block is bad, else its bytes as T gives them. -/
theorem execPcieInboundRead_block {s : State} {die off n loc : Nat} (hp : s.cap.dump ≠ 2) (hup : (s.link (.pcie die)).up = true) (hn : n ≠ 0)
    (ho : off < 2 ^ 40) (hb : off % 64 + n ≤ 64) (hl : paLoc (0x800000000000 + off) = some loc) :
    let u := (s.standHbm ((List.range n).map (loc + ·))).flushed ((List.range n).map (loc + ·))
    execPcieInboundRead die 0 off n false s = .next (if loc / 64 ∈ s.bad then { s with out := s.out ++ [.completion die none] }
      else { u with out := u.out ++ [.completion die (some (Memory.gets u.mem loc n))] }) := by
  have block : blocksOf loc n = [loc / 64] := blocksOf_one hn (by rwa [paLoc_interleaved ho hl])
  by_cases bad : loc / 64 ∈ s.bad
  · simp [execPcieInboundRead, barSpans_one hn ho hb hl, hup, hp, block, bad]
  · simp [execPcieInboundRead, barSpans_one hn ho hb hl, hup, hp, block, bad, Memory.gets, Function.comp_def]

/-! ### Heat, scrub (R14, R429, R431) -/

/-- A die's sample reaches each of its columns. -/
theorem execSensorSample_die (s : State) (die : Nat) (drawn : Bool) :
    ∃ t, execSensorSample (.die die drawn) s = .next t ∧ ∀ k < 12, (t.column (12 * die + k)).dieDrawn = drawn := by
  refine ⟨_, rfl, fun k hk => ?_⟩
  refine foldl_establishes (P := fun t : State => (t.column (12 * die + k)).dieDrawn = drawn) (List.mem_range.mpr hk) (fun t => ?_) (fun t j ht => ?_) s
  · rw [State.column_updColumn, if_pos rfl]
  · rw [State.column_updColumn]
    split
    · rfl
    · exact ht

/-- A column's readings below 115 °C set what its governor holds and aims at. -/
theorem execSensorSample_column (s : State) (col : Nat) {temps : List Nat} (drawn : Bool) (h : ∀ t ∈ temps, t < 920) :
    execSensorSample (.column col temps drawn) s = .next
      (({ s with sensors := tset s.sensors col temps } : State).updColumn col fun c => { c with
        heldZero := decide (∃ t ∈ temps, 840 ≤ t) || (c.heldZero && decide (∃ t ∈ temps, 800 ≤ t)),
        target := if (∃ t ∈ temps, 760 ≤ t) ∨ drawn = true then 0 else if ∃ t ∈ temps, 736 ≤ t then c.level else 3 }) := by
  have cool : (temps.any fun t => decide (115 * 8 ≤ t)) = false := by simpa using h
  have reaches : ∀ d, (temps.any fun t => decide (d * 8 ≤ t)) = decide (∃ t ∈ temps, d * 8 ≤ t) := fun d => by
    rw [Bool.eq_iff_iff]; simp
  simp only [execSensorSample, cool, reaches, Bool.false_eq_true, if_false, Bool.or_eq_true, decide_eq_true_eq]

/-- A column's reading at 115 °C is fatal. -/
theorem execSensorSample_hot (s : State) (col : Nat) {temps : List Nat} (drawn : Bool) (h : ∃ t ∈ temps, 920 ≤ t) :
    execSensorSample (.column col temps drawn) s = .next (({ s with sensors := tset s.sensors col temps } : State).fatal 1 (col / 12) col) := by
  have hot : (temps.any fun t => decide (115 * 8 ≤ t)) = true := by simpa using h
  simp only [execSensorSample, hot, if_true, dieOfColumn]

/-- A scrub of HBM that has power counts what the code reports of the block. -/
theorem execHbmScrub_powered {s : State} {b : Nat} (hb : b < 2 ^ 34) (hp : s.cap.dump ≠ 2) (e : Ecc) :
    execHbmScrub b e s = .next (s.eccAt [b] (if s.bad.contains b then .bad else e)) := if_pos ⟨hb, hp⟩

/-- What the code cannot correct is counted, and its block is bad from then on. -/
theorem State.eccAt_bad (s : State) (b : Nat) :
    s.eccAt [b] .bad = { s.countError (b * 64) true with bad := if s.bad.contains b then s.bad else s.bad ++ [b] } := by
  have marks : (if (Ecc.bad.failed && !s.bad.contains b) = true then s.bad ++ [b] else s.bad) = if s.bad.contains b then s.bad else s.bad ++ [b] := by
    cases s.bad.contains b <;> rfl
  rw [← marks]
  rfl

/-- A block that is bad already is found so, whatever the code says, and stays so. -/
theorem execHbmScrub_of_bad {s : State} {b : Nat} (hb : b < 2 ^ 34) (hp : s.cap.dump ≠ 2) (h : b ∈ s.bad) (e : Ecc) :
    execHbmScrub b e s = .next (s.countError (b * 64) true) := by
  have found : s.bad.contains b = true := by simpa using h
  rw [execHbmScrub_powered hb hp, found, if_pos rfl, State.eccAt_bad, found, if_pos rfl]
  rfl

/-- A block that is good is as the code finds it. -/
theorem execHbmScrub_of_good {s : State} {b : Nat} (hb : b < 2 ^ 34) (hp : s.cap.dump ≠ 2) (h : b ∉ s.bad) :
    execHbmScrub b .clean s = .next s ∧ execHbmScrub b .corrected s = .next (s.countError (b * 64) false) ∧
    execHbmScrub b .bad s = .next { s.countError (b * 64) true with bad := s.bad ++ [b] } := by
  have found : s.bad.contains b = false := by simpa using h
  have scrub : ∀ e, execHbmScrub b e s = .next (s.eccAt [b] e) := fun e => by
    rw [execHbmScrub_powered hb hp, found, if_neg Bool.false_ne_true]
  refine ⟨scrub .clean, scrub .corrected, ?_⟩
  rw [scrub .bad, State.eccAt_bad, found, if_neg Bool.false_ne_true]

/-! ### Links (R430) -/

/-- A replay over a link that is up is counted for the link, its flit and its die. -/
theorem execLinkReplay_up {s : State} {l : Link} (h : (s.link l).up = true) (again : Bool) : execLinkReplay ⟨l, again⟩ s =
    .next ((s.updLink l fun r => { r with replays := r.replays + 1, flit := if again = true then r.flit + 1 else 1 }).tally 4 (dieOfLink l)) := by
  simp only [execLinkReplay, h, Bool.not_true, Bool.false_eq_true, if_false]

/-- A retrain that succeeds once a flit's replays have run out clears its counts. -/
theorem execLinkRetrainExpiry_up {s : State} {l : Link} (h : (s.link l).up = true) (hf : 16 ≤ (s.link l).flit) : execLinkRetrainExpiry l true s =
    .next (s.updLink l fun r => { r with retrains := r.retrains + 1, flit := 0, tries := 0 }) := by
  have runs : ¬((!(s.link l).up || decide ((s.link l).flit < 16)) = true) := by simp [h, Nat.not_lt.mpr hf]
  unfold execLinkRetrainExpiry
  rw [if_neg runs, if_pos rfl]

/-- The loss of a PCIe link that nothing waits on changes the link alone. -/
theorem execPcieLinkDown_idle {s : State} (hl : ∀ l ∈ s.loads, l.sysview = none) (hs : ∀ x ∈ s.stores, x.sysview = none) (die : Nat) :
    execPcieLinkDown die s = .next (s.updLink (.pcie die) fun r => { r with up := false }) := by
  unfold execPcieLinkDown
  extract_lets mine t u
  have loads : t.loads.filter (fun l => mine l.sysview) = [] := List.filter_eq_nil_iff.mpr fun l h => by simp [mine, hl l h]
  have stores : t.stores.filter (fun x => mine x.sysview) = [] := List.filter_eq_nil_iff.mpr fun x h => by simp [mine, hs x h]
  have unanswered : u = t := by rw [show u = (t.loads.filter fun l => mine l.sysview).foldl (fun s l => s.hostAnswer l none) t from rfl, loads]; rfl
  rw [unanswered, stores, List.foldl_nil]

/-! ### The capability and the dump region (R434, R437) -/

/-- What an endpoint whose link is up shows of the capability. -/
theorem State.showCap_caps {s : State} {d : Nat} (c : Cap) (hd : d < 4) (hup : (s.link (.pcie d)).up = true) :
    tget (s.showCap c).caps d = some c := by
  refine foldl_establishes (P := fun t => tget t d = some c) (f := fun t d => if (s.link (.pcie d)).up then tset t d c else t)
    (List.mem_range.mpr hd) (fun t => ?_) (fun t e ht => ?_) s.caps
  · rw [if_pos hup, tget_tset, if_pos rfl]
  · split
    · rw [tget_tset]
      split
      · rfl
      · exact ht
    · exact ht

/-- States of one memory have one dump region. -/
theorem State.dumpGet_of_mem {s t : State} (h : t.mem = s.mem) (o n : Nat) : t.dumpGet o n = s.dumpGet o n := by rw [State.dumpGet, h, State.dumpGet]

@[simp] theorem State.dumpPut_cap (s : State) (off : Nat) (bs : List Byte) : (s.dumpPut off bs).cap = s.cap := rfl
@[simp] theorem State.dumpPut_stopped (s : State) (off : Nat) (bs : List Byte) : (s.dumpPut off bs).stopped = s.stopped := rfl
@[simp] theorem State.dumpPut_dumping (s : State) (off : Nat) (bs : List Byte) : (s.dumpPut off bs).dumping = s.dumping := rfl
@[simp] theorem State.dumpPut_out (s : State) (off : Nat) (bs : List Byte) : (s.dumpPut off bs).out = s.out := rfl
@[simp] theorem State.dumpLost_cap (s : State) : s.dumpLost.cap = s.cap := rfl
@[simp] theorem State.dumpLost_stopped (s : State) : s.dumpLost.stopped = s.stopped := rfl
@[simp] theorem State.dumpLost_dumping (s : State) : s.dumpLost.dumping = s.dumping := rfl
@[simp] theorem State.dumpLost_out (s : State) : s.dumpLost.out = s.out := rfl

/-- A field of the dump region within what has just been written there. -/
theorem State.dumpGet_dumpPut {s : State} (h : s.Good) (off : Nat) {bs : List Byte} {k n : Nat} (hk : k + n ≤ bs.length) :
    (s.dumpPut off bs).dumpGet (off + k) n = leNat ((bs.drop k).take n) := by
  have run := Memory.gets_puts_cellsAt h (dumpLoc off) bs
  have place : dumpLoc (off + k) = dumpLoc off + k := by simp only [dumpLoc, locHbm]; omega
  rw [State.dumpGet, Memory.nat, place, ← Memory.gets_part _ hk]
  exact congrArg (fun l => leNat ((l.drop k).take n)) run

/-- A field of the dump region apart from what is written there. -/
theorem State.dumpGet_dumpPut_apart (s : State) {off o n : Nat} {bs : List Byte} (h : o + n ≤ off ∨ off + bs.length ≤ o) :
    (s.dumpPut off bs).dumpGet o n = s.dumpGet o n := by
  refine congrArg leNat (List.map_congr_left fun k hk => Memory.get_puts_ne (fun c hc => ?_) s.mem)
  have := cellsAt_mem hc
  have := List.mem_range.mp hk
  simp only [dumpLoc, locHbm] at *
  omega

/-- A number of `n` bytes at the place of a field of `n` bytes. -/
theorem State.dumpGet_dumpPut_toLe {s : State} (h : s.Good) (off n v : Nat) : (s.dumpPut off (toLe n v)).dumpGet off n = v % 256 ^ n := by
  have field := State.dumpGet_dumpPut h off (bs := toLe n v) (k := 0) (n := n) (by simp)
  rw [Nat.add_zero, List.drop_zero] at field
  rw [field, List.take_of_length_le (by simp), leNat_toLe]

theorem fit_length (n : Nat) (bs : List Byte) : (fit n bs).length = n := by simp [fit]

/-- The first fields of the dump's header: MAGIC, VERSION, STATE and FCAUSE. -/
theorem State.dumpHead_take (s : State) (state cause die unit : Nat) :
    (s.dumpHead state cause die unit).take 8 = toLe 4 0x45344450 ++ toLe 2 1 ++ toLe 1 state ++ toLe 1 cause := rfl

theorem State.dumpHead_length (s : State) (state cause die unit : Nat) : (s.dumpHead state cause die unit).length = 256 := by
  rw [State.dumpHead, fit_length]

/-! ### Fatal errors (R433) -/

/-- The state in which firmware has written the fatal record of a first fatal error: the device stopped, every waiting ejoin answered. -/
def State.fatalRecorded (s : State) (cause die unit : Nat) : State :=
  let join := fun (h : Nat × Hart) => if h.2.joinId.isSome then (h.1, { h.2 with joinId := none, joinVal := some (BitVec.allOnes 64) }) else h
  ({ s with stopped := true, harts := s.harts.map join } : State).showCap
    { s.cap with phase := 3, step := 0, fcause := cause, fcause2 := 0, fdie := die, funit := unit, ftime := s.time, dump := 0 }

/-- What stands of a first fatal error whatever becomes of its dump: the device is stopped, and every endpoint that responds shows the record. -/
structure State.Fatal (s t : State) (cause die unit : Nat) : Prop where
  stopped : t.stopped = true
  phase : t.cap.phase = 3
  fcause : t.cap.fcause = cause
  fcause2 : t.cap.fcause2 = 0
  fdie : t.cap.fdie = die
  funit : t.cap.funit = unit
  ftime : t.cap.ftime = s.time
  shown : ∀ d < 4, (s.link (.pcie d)).up = true → tget t.caps d = some t.cap

theorem State.fatalRecorded_fatal (s : State) (cause die unit : Nat) : s.Fatal (s.fatalRecorded cause die unit) cause die unit :=
  ⟨rfl, rfl, rfl, rfl, rfl, rfl, rfl, fun _ hd hup => State.showCap_caps (s := { s with stopped := true, harts := _ }) _ hd hup⟩

/-- HBM that has lost its power reads 0. -/
theorem State.hbmOff_get (s : State) {a : Nat} (h : a < 2 ^ 40) : Memory.get s.hbmOff.mem a = 0 := by
  have unlisted : (s.mem.filter fun c => decide (2 ^ 40 ≤ c.1)).lookup a = none := by
    refine List.lookup_eq_none_iff.mpr fun c hc => ?_
    have := (List.mem_filter.mp hc).2
    simp only [decide_eq_true_eq] at this
    simp only [bne_iff_ne]
    omega
  exact congrArg (Option.getD · 0) unlisted

/-- HBM's loss of power after a record that is shown leaves the record, DUMP apart. -/
theorem State.Fatal.hbmOff {s r : State} {cause die unit : Nat} (h : s.Fatal r cause die unit) (hl : r.links = s.links) (o : List Out) :
    s.Fatal { r.hbmOff with out := o } cause die unit :=
  ⟨h.stopped, h.phase, h.fcause, h.fcause2, h.fdie, h.funit, h.ftime,
    fun d hd hup => State.showCap_caps (s := r) _ hd (by rwa [State.link, hl])⟩

section First

variable {s : State} (h : s.stopped = false) {cause die unit : Nat}
include h

/-- A first fatal error for heat or the supply: the record, then HBM without power, and the signal. -/
theorem State.fatal_powersOff (hc : cause = 1 ∨ cause = 6) :
    s.fatal cause die unit = { (s.fatalRecorded cause die unit).hbmOff with out := s.out ++ [.msix 0 0] } := by
  simp only [State.fatal, h, Bool.false_eq_true, if_false, hc, if_true]
  rfl

/-- Any other where an older dump stands: the record, one more in LOST, and the signal. -/
theorem State.fatal_dumpStands (h1 : cause ≠ 1) (h6 : cause ≠ 6) (hd : s.dumpGet 6 1 ≠ 0) :
    s.fatal cause die unit = { (s.fatalRecorded cause die unit).dumpLost with out := s.out ++ [.msix 0 0] } := by
  unfold State.fatal
  rw [if_neg (by simp [h])]
  extract_lets join s1 s2 signal
  rw [if_neg (by simp [h1, h6])]
  exact if_pos hd

/-- Any other with the region free: the record, and the dump begins. -/
theorem State.fatal_dumps (h1 : cause ≠ 1) (h6 : cause ≠ 6) (hd : s.dumpGet 6 1 = 0) :
    s.fatal cause die unit = (s.fatalRecorded cause die unit).startDump cause die unit := by
  unfold State.fatal
  rw [if_neg (by simp [h])]
  extract_lets join s1 s2 signal
  rw [if_neg (by simp [h1, h6])]
  exact if_neg fun n => n hd

/-- A first fatal error stops the device and leaves its record. -/
theorem State.fatal_fatal (cause die unit : Nat) : s.Fatal (s.fatal cause die unit) cause die unit := by
  have recorded := s.fatalRecorded_fatal cause die unit
  by_cases hc : cause = 1 ∨ cause = 6
  · rw [State.fatal_powersOff h hc]
    exact recorded.hbmOff rfl _
  · obtain ⟨h1, h6⟩ := not_or.mp hc
    obtain ⟨stopped, phase, fcause, fcause2, fdie, funit, ftime, shown⟩ := recorded
    by_cases hd : s.dumpGet 6 1 = 0
    · rw [State.fatal_dumps h h1 h6 hd]
      exact ⟨stopped, phase, fcause, fcause2, fdie, funit, ftime, shown⟩
    · rw [State.fatal_dumpStands h h1 h6 hd]
      exact ⟨stopped, phase, fcause, fcause2, fdie, funit, ftime, shown⟩

end First

theorem State.startDump_mem (s : State) (cause die unit : Nat) :
    (s.startDump cause die unit).mem = (s.dumpPut 0 (s.dumpHead 1 cause die unit)).mem := by
  unfold State.startDump
  generalize s.dumpHead 1 cause die unit = head
  rfl

/-- The header of a dump that has begun: its magic number, STATE 1 and the cause. -/
theorem State.startDump_header {s : State} (h : s.Good) (cause die unit : Nat) : let t := s.startDump cause die unit
    t.dumpGet 0 4 = 0x45344450 ∧ t.dumpGet 6 1 = 1 ∧ t.dumpGet 7 1 = cause % 256 := by
  have field : ∀ k n, k + n ≤ 8 → (s.startDump cause die unit).dumpGet k n = leNat ((((s.dumpHead 1 cause die unit).take 8).drop k).take n) := by
    intro k n hk
    have read := State.dumpGet_dumpPut h 0 (bs := s.dumpHead 1 cause die unit) (k := k) (n := n) (by rw [State.dumpHead_length]; omega)
    rw [Nat.zero_add] at read
    rw [State.dumpGet_of_mem (s.startDump_mem cause die unit), read, List.drop_take, List.take_take, Nat.min_eq_left (by omega)]
  simp only [State.dumpHead_take] at field
  exact ⟨(field 0 4 (by decide)).trans ((leNat_toLe 4 0x45344450).trans (Nat.mod_eq_of_lt (by decide))), (field 6 1 (by decide)).trans (leNat_toLe 1 1),
    (field 7 1 (by decide)).trans ((leNat_toLe 1 cause).trans (by rw [Nat.pow_one]))⟩

/-- The state in which a second fatal error stands in the record, where none did. -/
def State.fatalNoted (s : State) (cause : Nat) : State := if s.cap.fcause2 == 0 then s.showCap { s.cap with fcause2 := cause } else s

@[simp] theorem State.fatalNoted_cap (s : State) (cause : Nat) :
    (s.fatalNoted cause).cap = { s.cap with fcause2 := if s.cap.fcause2 = 0 then cause else s.cap.fcause2 } := by
  by_cases h : s.cap.fcause2 = 0
  · simp [State.fatalNoted, h, State.showCap]
  · simp [State.fatalNoted, h]
@[simp] theorem State.fatalNoted_stopped (s : State) (cause : Nat) : (s.fatalNoted cause).stopped = s.stopped := by unfold State.fatalNoted; split <;> rfl
@[simp] theorem State.fatalNoted_dumping (s : State) (cause : Nat) : (s.fatalNoted cause).dumping = s.dumping := by unfold State.fatalNoted; split <;> rfl
@[simp] theorem State.fatalNoted_out (s : State) (cause : Nat) : (s.fatalNoted cause).out = s.out := by unfold State.fatalNoted; split <;> rfl
@[simp] theorem State.fatalNoted_mem (s : State) (cause : Nat) : (s.fatalNoted cause).mem = s.mem := by unfold State.fatalNoted; split <;> rfl

/-- A further fatal error for heat or the supply: noted, then HBM without power, and the signal where the first was not yet given. -/
theorem State.fatalAgain_powersOff (s : State) {cause : Nat} (hc : cause = 1 ∨ cause = 6) :
    s.fatalAgain cause = { (s.fatalNoted cause).hbmOff with out := if s.dumping = none then s.out else s.out ++ [.msix 0 0] } := by
  have signal : (if s.dumping.isSome then (s.fatalNoted cause).out ++ [Out.msix 0 0] else (s.fatalNoted cause).out) =
      if s.dumping = none then s.out else s.out ++ [.msix 0 0] := by
    cases s.dumping <;> simp
  rw [← signal]
  exact if_pos hc

/-- Any other while HBM is without power: noted. -/
theorem State.fatalAgain_unpowered {s : State} {cause : Nat} (h1 : cause ≠ 1) (h6 : cause ≠ 6) (hd : s.cap.dump = 2) :
    s.fatalAgain cause = s.fatalNoted cause := by
  unfold State.fatalAgain
  rw [if_neg (not_or.mpr ⟨h1, h6⟩), if_pos hd]
  rfl

/-- Any other with power: noted, in the header too where it is the second and comes during the dump, and one more in LOST. -/
theorem State.fatalAgain_powered {s : State} {cause : Nat} (h1 : cause ≠ 1) (h6 : cause ≠ 6) (hd : s.cap.dump ≠ 2) :
    s.fatalAgain cause = (if s.dumping.isSome && s.cap.fcause2 == 0 then (s.fatalNoted cause).dumpPut 17 (toLe 1 cause)
      else s.fatalNoted cause).dumpLost := by
  unfold State.fatalAgain
  rw [if_neg (not_or.mpr ⟨h1, h6⟩), if_neg hd]
  rfl

/-- A further fatal error that is dumped or counted leaves the signals and the section of the dump that comes next, and counts in LOST. -/
theorem State.fatalAgain_lost {s : State} (h : s.Good) {cause : Nat} (h1 : cause ≠ 1) (h6 : cause ≠ 6) (hd : s.cap.dump ≠ 2) :
    let t := s.fatalAgain cause
    t.out = s.out ∧ t.dumping = s.dumping ∧ t.dumpGet 20 4 = (s.dumpGet 20 4 + 1) % 2 ^ 32 ∧
    (s.dumping ≠ none → s.cap.fcause2 = 0 → t.dumpGet 17 1 = cause % 256) := by
  have noted : (s.fatalNoted cause).Good := h.of_mem (s.fatalNoted_mem cause)
  have same : (s.fatalNoted cause).dumpGet 20 4 = s.dumpGet 20 4 := State.dumpGet_of_mem (s.fatalNoted_mem cause) 20 4
  have lost : ∀ r : State, r.Good → r.dumpLost.dumpGet 20 4 = (r.dumpGet 20 4 + 1) % 2 ^ 32 := fun r hr =>
    (State.dumpGet_dumpPut_toLe hr 20 4 _).trans (Nat.mod_mod _ _)
  intro t
  by_cases hf : (s.dumping.isSome && s.cap.fcause2 == 0) = true
  · have e : t = ((s.fatalNoted cause).dumpPut 17 (toLe 1 cause)).dumpLost := (State.fatalAgain_powered h1 h6 hd).trans (by rw [if_pos hf])
    have put : ((s.fatalNoted cause).dumpPut 17 (toLe 1 cause)).Good := State.dumpPut_good noted _ _
    rw [e]
    refine ⟨by simp, by simp, ?_, fun _ _ => ?_⟩
    · rw [lost _ put, State.dumpGet_dumpPut_apart _ (by simp), same]
    · exact (State.dumpGet_dumpPut_apart _ (by simp)).trans (State.dumpGet_dumpPut_toLe noted 17 1 cause)
  · have e : t = (s.fatalNoted cause).dumpLost := (State.fatalAgain_powered h1 h6 hd).trans (by rw [if_neg hf])
    rw [e]
    refine ⟨by simp, by simp, ?_, fun hn h0 => ?_⟩
    · rw [lost _ noted, same]
    · exact absurd (by simp [h0, Option.isSome_iff_ne_none.mpr hn]) hf

/-- What a further fatal error leaves of the record: the device stopped as it was, and the first error's fields. -/
theorem State.fatalAgain_record {s : State} (h : s.stopped = true) (cause : Nat) : let t := s.fatalAgain cause
    t.stopped = true ∧ t.cap.phase = s.cap.phase ∧ t.cap.fcause = s.cap.fcause ∧ t.cap.ftime = s.cap.ftime ∧
    t.cap.fcause2 = if s.cap.fcause2 = 0 then cause else s.cap.fcause2 := by
  intro t
  by_cases hc : cause = 1 ∨ cause = 6
  · rw [show t = _ from State.fatalAgain_powersOff s hc]
    simp [State.hbmOff, State.showCap, h]
  · obtain ⟨h1, h6⟩ := not_or.mp hc
    by_cases hd : s.cap.dump = 2
    · rw [show t = _ from State.fatalAgain_unpowered h1 h6 hd]
      simp [h]
    · rw [show t = _ from State.fatalAgain_powered h1 h6 hd]
      split <;> simp [h]

/-! ### Firmware's turns (R434, R436) -/

/-- With the dump under way firmware goes on with it. -/
theorem State.firmware_dumps {s : State} (hp : s.powered = true) {k off : Nat} (hd : s.dumping = some (k, off)) : s.firmware = s.dumpStep k off := by
  simp only [State.firmware, hp, hd, Bool.not_true, Bool.false_eq_true, if_false]

/-- Else with the bring-up. -/
theorem State.firmware_boots {s : State} (hp : s.powered = true) (hd : s.dumping = none) {p : PowerOn} (hb : s.boot = some p) :
    s.firmware = s.bootStep p := by
  simp only [State.firmware, hp, hd, hb, Bool.not_true, Bool.false_eq_true, if_false]

/-- The dump once its last section stands: the count of its sections, the digest, STATE 2, DUMP in the record, and the signal. -/
def State.dumpClosed (s : State) (nsec : Nat) (digest : List Byte) : State :=
  let t := ((s.dumpPut 24 (toLe 4 nsec)).dumpPut 128 digest).dumpPut 6 [2]
  { t.showCap { t.cap with dump := 1 } with dumping := none, out := t.out ++ [.msix 0 0] }

/-- After the last section firmware closes the dump. -/
theorem State.dumpStep_last {s : State} {k : Nat} (hk : s.dumpSections[k]? = none) (off : Nat) :
    ∃ digest, s.dumpStep k off = s.dumpClosed s.dumpSections.length digest := by
  unfold State.dumpStep
  generalize s.dumpSections = secs at hk ⊢
  exact ⟨_, by simp only [hk]; rfl⟩

theorem State.dumpClosed_record (s : State) (nsec : Nat) (digest : List Byte) : let t := s.dumpClosed nsec digest
    t.cap.dump = 1 ∧ t.dumping = none ∧ t.out = s.out ++ [.msix 0 0] := by
  simp [State.dumpClosed, State.showCap]

/-- A closed dump's STATE and count of sections. -/
theorem State.dumpClosed_header {s : State} (h : s.Good) (nsec : Nat) (digest : List Byte) :
    (s.dumpClosed nsec digest).dumpGet 6 1 = 2 ∧ (s.dumpClosed nsec digest).dumpGet 24 4 = nsec % 2 ^ 32 := by
  have h24 := State.dumpPut_good h 24 (toLe 4 nsec)
  have h128 := State.dumpPut_good h24 128 digest
  have mem : (s.dumpClosed nsec digest).mem = (((s.dumpPut 24 (toLe 4 nsec)).dumpPut 128 digest).dumpPut 6 (toLe 1 2)).mem := rfl
  constructor
  · exact (State.dumpGet_of_mem mem 6 1).trans (State.dumpGet_dumpPut_toLe h128 6 1 2)
  · rw [State.dumpGet_of_mem mem, State.dumpGet_dumpPut_apart _ (by simp), State.dumpGet_dumpPut_apart _ (by simp)]
    exact State.dumpGet_dumpPut_toLe h 24 4 nsec

section Boot

variable {s : State} {p : PowerOn}

/-- Step 1 with an image that the boot ROM accepts (R438). -/
theorem State.bootStep_accepts (h0 : s.cap.phase = 0) (h1 : s.cap.step = 1) {i : Image} (hi : p.image = some i) (hr : Image.rejected i s.fuses = none) :
    s.bootStep p = { s.showCap { phase := 0, step := 2 } with image := i, fuses := Image.blows i s.fuses } := by
  simp [State.bootStep, h0, h1, bootRom, hi, hr]

/-- Step 1 with no image, or with one that it turns away. -/
theorem State.bootStep_rejects (h0 : s.cap.phase = 0) (h1 : s.cap.step = 1) {r : Nat}
    (h : (p.image = none ∧ r = 4) ∨ ∃ i, p.image = some i ∧ Image.rejected i s.fuses = some r) :
    s.bootStep p = s.bootFails { step := 1, reason := r, unit := 0, die := 0 } := by
  rcases h with ⟨hi, rfl⟩ | ⟨i, hi, hr⟩
  · simp [State.bootStep, h0, h1, bootRom, hi]
  · simp [State.bootStep, h0, h1, bootRom, hi, hr]

/-- A later step that fails. -/
theorem State.bootStep_fails (h0 : s.cap.phase = 0) (h2 : 2 ≤ s.cap.step) {f : BringupFail} (hf : p.fail = some f) (hs : f.step = s.cap.step) :
    s.bootStep p = s.bootFails f := by
  have h1 : s.cap.step ≠ 1 := by omega
  have fails : p.fail.filter (fun f => f.step == s.cap.step) = some f := by rw [hf, Option.filter_some, if_pos (by simpa using hs)]
  simp [State.bootStep, h0, h1, fails]

/-- A later step that does not fail: the next one, or the module is ready. -/
theorem State.bootStep_cap (h0 : s.cap.phase = 0) (h2 : 2 ≤ s.cap.step) (hf : ∀ f, p.fail = some f → f.step ≠ s.cap.step) :
    (s.bootStep p).cap = if s.cap.step < 5 then { phase := 0, step := s.cap.step + 1 } else { phase := 1 } := by
  have h1 : s.cap.step ≠ 1 := by omega
  have goes : p.fail.filter (fun f => f.step == s.cap.step) = none := by simpa using hf
  simp [State.bootStep, h0, h1, goes, State.showCap]

/-- Step 6 trains the UALink ports. -/
theorem State.bootStep_trains (h : s.cap.phase = 1) : s.bootStep p = { s.trainPorts p.lost with boot := none } := by
  simp only [State.bootStep, h, true_or, if_true]

end Boot

@[simp] theorem State.trainPorts_cap (s : State) (lost : List (Nat × Nat)) : (s.trainPorts lost).cap = s.cap := by
  unfold State.trainPorts
  generalize List.range 32 = ns
  refine foldl_keeps (P := fun t => t.cap = s.cap) (fun t n h => ?_) ns rfl
  exact h

/-- A UALink port is up after step 6 unless it is one of those that fail. -/
theorem State.trainPorts_up (s : State) (lost : List (Nat × Nat)) {d k : Nat} (hd : d < 4) (hk : k < 8) :
    ((s.trainPorts lost).link (.ualink d k)).up = decide ((d, k) ∉ lost) := by
  have place : (8 * d + k) / 8 = d ∧ (8 * d + k) % 8 = k := by omega
  have hn : 8 * d + k ∈ List.range 32 := List.mem_range.mpr (by omega)
  refine foldl_establishes (P := fun t : State => (t.link (.ualink d k)).up = decide ((d, k) ∉ lost)) hn (fun t => ?_) (fun t n ht => ?_) s
  · rw [State.link_updLink, place.1, place.2, if_pos rfl]
    simp
  · rw [State.link_updLink]
    split
    · next e =>
      obtain ⟨rfl, rfl⟩ := Link.ualink.inj e
      simp
    · exact ht

/-- Step 6 leaves the capability and ends the bring-up, with the ports up that train. -/
theorem State.bootStep_ports {s : State} (h : s.cap.phase = 1) (p : PowerOn) : let t := s.bootStep p
    t.cap = s.cap ∧ t.boot = none ∧ ∀ d < 4, ∀ k < 8, (t.link (.ualink d k)).up = decide ((d, k) ∉ p.lost) := by
  have cap := s.trainPorts_cap p.lost
  have up := fun d hd k hk => s.trainPorts_up p.lost (d := d) hd (k := k) hk
  rw [State.bootStep_trains h]
  generalize s.trainPorts p.lost = ports at cap up ⊢
  exact ⟨cap, rfl, up⟩

/-- Among entries of PCIe links that are down, a die's is found when it is one of them. -/
theorem find_pcieDown (ds : List Nat) (d : Nat) : ((ds.map fun d => (Link.pcie d, ({ up := false } : LinkRegs))).find? (·.1 == .pcie d)) =
    if d ∈ ds then some (.pcie d, { up := false }) else none := by
  induction ds with
  | nil => rfl
  | cons e ds ih =>
    rw [List.map_cons, List.find?_cons, ih]
    by_cases h : d = e
    · simp [h]
    · have other : (Link.pcie e == Link.pcie d) = false := by simpa using Ne.symm h
      simp [h, other]

/-- The PCIe links that are up after a power-on are those that train. -/
theorem State.bootLinks_up {s : State} {p : PowerOn} (hl : s.links = bootLinks p) {d : Nat} (hd : d < 4) :
    (s.link (.pcie d)).up = decide (d ∈ p.endpoints) := by
  have ports : ((List.range 32).map fun k => (Link.ualink (k / 8) (k % 8), ({ up := false } : LinkRegs))).find? (·.1 == .pcie d) = none :=
    List.find?_eq_none.mpr (by simp)
  rw [State.link, hl, bootLinks, List.find?_append, ports, Option.or_none, find_pcieDown]
  by_cases h : d ∈ p.endpoints
  · simp [h]
  · simp [h, hd]

/-- An image is accepted when its key, its signature and its version stand; else the reason is one of three (R437, R438). -/
theorem Image.rejected_iff (i : Image) (fuses : Nat) :
    (Image.rejected i fuses = none ↔ sha3 i.key = bytesOf 64 Config.keyDigest ∧ Mldsa.hashVerify i.key i.bytes i.sig = true ∧ fuses ≤ i.svn) ∧
    ∀ r, Image.rejected i fuses = some r → r = 1 ∨ r = 2 ∨ r = 3 := by
  unfold Image.rejected
  by_cases key : sha3 i.key = bytesOf 64 Config.keyDigest
  · cases sig : Mldsa.hashVerify i.key i.bytes i.sig with
    | false => simp [key]
    | true =>
      by_cases old : i.svn < fuses
      · simp [key, old]
      · simp [key, old, Nat.not_lt.mp old]
  · simp [key]

/-! ### What configuration reads return (R437) -/

/-- The fields of a header's word: its id and what stands above the version. -/
theorem bits_header (next version id : Nat) :
    let w := BitVec.ofNat 32 (([(next, 20, 12), (version, 16, 4), (id, 0, 16)].map fun x => x.1 % 2 ^ x.2.2 * 2 ^ x.2.1).foldl (· + ·) 0)
    bits w 15 0 = id % 2 ^ 16 ∧ bits w 31 20 = next % 2 ^ 12 := by
  intro w
  have word : w.toNat = (next % 2 ^ 12 * 2 ^ 20 + version % 2 ^ 4 * 2 ^ 16 + id % 2 ^ 16) % 2 ^ 32 := by simp [w]
  simp only [bits, word]
  omega

section Capability

variable (s : State) (die : Nat)

/-- The status field: the phase, the step, and what failed. -/
theorem State.capDword_status : let c := tgetD s.caps die {}
    bits (s.capDword die 0x08) 31 28 = c.phase % 16 ∧ bits (s.capDword die 0x08) 27 24 = c.step % 16 ∧ bits (s.capDword die 0x08) 23 16 = c.reason % 256 ∧
    bits (s.capDword die 0x08) 15 8 = c.unit % 256 ∧ bits (s.capDword die 0x08) 7 0 = c.die % 256 := by
  intro c
  have word : (s.capDword die 0x08).toNat =
      (c.phase % 16 * 2 ^ 28 + c.step % 16 * 2 ^ 24 + c.reason % 256 * 2 ^ 16 + c.unit % 256 * 2 ^ 8 + c.die % 256) % 2 ^ 32 := by
    simp [State.capDword, c]
  simp only [bits, word]
  omega

/-- The fatal record's first word: both causes and the dump's state. -/
theorem State.capDword_fatal : let c := tgetD s.caps die {}
    bits (s.capDword die 0x10) 31 24 = c.fcause % 256 ∧ bits (s.capDword die 0x10) 23 16 = c.fcause2 % 256 ∧
    bits (s.capDword die 0x10) 7 0 = c.dump % 256 := by
  intro c
  have word : (s.capDword die 0x10).toNat =
      (c.fcause % 256 * 2 ^ 24 + c.fcause2 % 256 * 2 ^ 16 + c.fdie % 256 * 2 ^ 8 + c.dump % 256) % 2 ^ 32 := by
    simp [State.capDword, c]
  simp only [bits, word]
  omega

/-- The headers of an endpoint's capability that firmware has written. -/
theorem State.capDword_headers (h : (tget s.caps die).isSome = true) :
    bits (s.capDword die 0) 15 0 = 0x000B ∧ bits (s.capDword die 4) 15 0 = 0x0E54 ∧ bits (s.capDword die 4) 31 20 = 0x030 := by
  have written : ¬((!(tget s.caps die).isSome) = true) := by simp [h]
  rw [show s.capDword die 0 = _ from if_neg written, show s.capDword die 4 = _ from if_neg written]
  exact ⟨(bits_header _ 1 0x000B).1, bits_header 0x030 1 0x0E54⟩

/-- The version of the image that runs, once firmware has written the capability. -/
theorem State.capDword_svn : s.capDword die 0x20 = if (tget s.caps die).isSome then BitVec.ofNat 32 s.image.svn else 0 := by
  cases h : tget s.caps die <;> simp [State.capDword, h]

/-- Past the last field the capability reads zero. -/
theorem State.capDword_past {off : Nat} (h : 0x24 ≤ off) : s.capDword die off = 0 := by
  unfold State.capDword
  extract_lets c written w
  split
  case h_9 => rfl
  all_goals omega

/-- Before firmware first writes it the capability reads zero. -/
theorem State.capDword_unwritten (h : tget s.caps die = none) (off : Nat) : s.capDword die off = 0 := by
  unfold State.capDword
  simp only [tgetD, h]
  split <;> rfl

end Capability

/-! ### The statement -/

/-- Settles O51: each event by the lemma of what it comes to, fatal errors by what becomes of the record and of the dump. -/
theorem deviceEvents : Obligations.DeviceEvents := by
  intro s
  refine ⟨?peerWrite, ?peerRead, ?hostWrite, ?hostRead, ?stackCool, ?die, ?column, ?stackHot, ?columnHot, fun _ _ => rfl, fun _ _ => rfl, ?fatalFirst,
    ?fatalAgain, ?dumpEnds, ?scrub, ?replay, ?retrain, ?linkDown, rfl, ?powerOn, ?bringUp, Image.rejected_iff, rfl, ?capability⟩
  case peerWrite =>
    intro w c x t hc hx ea
    refine ⟨fun down => ?_, fun up hm hg => ?_, fun up hm hg hw ha hs => ⟨fun hf => ?_, fun hf hd hu hmend hl hv => ?_⟩⟩
    · exact if_pos (by simp [down])
    · exact (execUalinkInboundWrite_window up hc hx).trans (congrArg _ (State.peerWrite_ungranted hm hg))
    · exact (execUalinkInboundWrite_window up hc hx).trans (congrArg _ (State.peerWrite_failed hm hg hw ha hs hf))
    · exact (execUalinkInboundWrite_window up hc hx).trans (congrArg _ (State.peerWrite_oneUnit hm hg hw ha hs hf hd hu hmend hl hv))
  case peerRead => exact fun d p q w o n up => if_neg (by simp [up])
  case hostWrite =>
    intro die off data loc hdie hp up ha ho hd hl
    obtain ⟨t, run, mem⟩ := execPcieInboundWrite_unit hdie hp up ha ho hd hl
    refine ⟨t, run, fun good => ?_, fun a out => ?_⟩
    · rw [mem, ← hd]
      exact Memory.gets_puts_cellsAt good loc data
    · rw [mem]
      refine Memory.get_puts_ne (fun c hc e => out ?_) s.mem
      rw [e, ← hd]
      exact cellsAt_mem hc
  case hostRead => exact fun die off n loc hp up hn ho hb hl => execPcieInboundRead_block hp up hn ho hb hl
  case stackCool => exact fun die stack temp h => congrArg Host.Outcome.next (if_neg (by omega))
  case die => exact execSensorSample_die s
  case column => exact fun col temps drawn h => execSensorSample_column s col drawn h
  case stackHot => exact fun die stack temp h => congrArg Host.Outcome.next (if_pos (by omega))
  case columnHot => exact fun col temps drawn h => execSensorSample_hot s col drawn h
  case fatalFirst =>
    intro cause die unit h t
    obtain ⟨stopped, phase, fcause, fcause2, fdie, funit, ftime, shown⟩ := State.fatal_fatal h cause die unit
    refine ⟨stopped, phase, fcause, fcause2, fdie, funit, ftime, shown, fun hc => ?_, fun h1 h6 hd => ?_, fun h1 h6 hd => ?_⟩
    · rw [show t = _ from State.fatal_powersOff h hc]
      exact ⟨rfl, rfl, rfl, fun a ha => State.hbmOff_get _ ha⟩
    · rw [show t = _ from State.fatal_dumpStands h h1 h6 hd]
      exact ⟨rfl, rfl⟩
    · rw [show t = _ from State.fatal_dumps h h1 h6 hd]
      exact ⟨rfl, rfl, nofun, fun good => State.startDump_header (s := s.fatalRecorded cause die unit) good cause die unit⟩
  case fatalAgain =>
    intro cause die unit h t
    have again : t = s.fatalAgain cause := if_pos h
    obtain ⟨stopped, phase, fcause, ftime, fcause2⟩ := State.fatalAgain_record h cause
    rw [again]
    refine ⟨stopped, phase, fcause, ftime, fcause2, fun hc => ?_, fun h1 h6 hd good => State.fatalAgain_lost good h1 h6 hd⟩
    rw [State.fatalAgain_powersOff s hc]
    exact ⟨rfl, rfl, fun a ha => State.hbmOff_get _ ha, rfl⟩
  case dumpEnds =>
    intro k off hp hd hk t
    obtain ⟨digest, last⟩ := State.dumpStep_last hk off
    rw [show t = _ from (State.firmware_dumps hp hd).trans last]
    obtain ⟨dump, dumping, out⟩ := s.dumpClosed_record s.dumpSections.length digest
    exact ⟨dump, dumping, out, fun good => State.dumpClosed_header good _ digest⟩
  case scrub => exact fun b hb hp => ⟨execHbmScrub_of_good hb hp, execHbmScrub_of_bad hb hp⟩
  case replay => exact fun l again up => execLinkReplay_up up again
  case retrain => exact fun l up hf => execLinkRetrainExpiry_up up hf
  case linkDown => exact fun die hl hs => execPcieLinkDown_idle hl hs die
  case powerOn =>
    exact fun p => ⟨_, rfl, rfl, rfl, rfl, rfl, rfl, rfl, rfl, fun _ => rfl, fun d hd => State.bootLinks_up rfl hd⟩
  case bringUp =>
    intro p hp hd hb t
    have turn : t = s.bootStep p := State.firmware_boots hp hd hb
    rw [turn]
    refine ⟨fun h0 h1 => ⟨fun i hi hr => ?_, fun r hr => ?_⟩, fun h0 h2 h5 => ⟨fun f hf hs => ?_, State.bootStep_cap h0 h2⟩,
      fun h => State.bootStep_ports h p⟩
    · rw [State.bootStep_accepts h0 h1 hi hr]
      exact ⟨rfl, rfl, rfl⟩
    · rw [State.bootStep_rejects h0 h1 hr]
      exact ⟨rfl, rfl, rfl⟩
    · rw [State.bootStep_fails h0 h2 hf hs]
      exact ⟨rfl, rfl⟩
  case capability =>
    intro die c
    obtain ⟨phase, step, reason, unit, failed⟩ := s.capDword_status die
    obtain ⟨fcause, fcause2, dump⟩ := s.capDword_fatal die
    exact ⟨phase, step, reason, unit, failed, fcause, fcause2, dump, s.capDword_svn die, rfl, fun off => s.capDword_past die, s.capDword_unwritten die,
      s.capDword_headers die⟩

end Sys2Proof.Machine
end
